-- ==== Sys2Proof/Word.lean ====
section
/-! DEFINITION. The value types of HCORE: words, bytes and node indices (00_scope R8, R10). -/

namespace Sys2Proof

/-- A host register, a command word or a frequency: 32 bits (00_scope R8, REG_W and FREQ_W). -/
abbrev Word := BitVec 32

/-- A byte value, or symbol: 0 to 255 (00_scope R16). -/
abbrev Byte := BitVec 8

/-- A node index: 9 bits, 0 to 510, and NIL (00_scope R8, NODE_IDX_W). -/
abbrev NodeIdx := BitVec 9

end Sys2Proof
end

