-- ==== Sys2Proof/Config.lean ====
section
/-! DEFINITION. The numeric parameters of 00_scope R7 and R8, and the values the spec leaves open. -/

namespace Sys2Proof.Config

/-- SYM_COUNT, the byte alphabet (R7). -/
def symCount : Nat := 256
/-- HEAP_CAP, the queue's capacity in nodes (R7). -/
def heapCap : Nat := 256
/-- MAX_CODE_LEN, the longest code in bits (R7). -/
def maxCodeLen : Nat := 32
/-- NODE_CAP, the arena's entries (R8). -/
def nodeCap : Nat := 511
/-- DSTACK_CAP, the deserializer's pending-internal-node frames (R8). -/
def dstackCap : Nat := 255
/-- REG_SPAN, bytes of register space (R8). -/
def regSpan : Nat := 0x100
/-- NIL, the node index that names no node (R8). -/
def nil : NodeIdx := 0x1FF#9
/-- TAG_INTERNAL, the tag byte of an internal node (R7). -/
def tagInternal : Byte := 0x30#8
/-- TAG_LEAF, the tag byte of a leaf (R7). -/
def tagLeaf : Byte := 0x31#8
/-- ESC, the escape byte (R7). -/
def esc : Byte := 0x5C#8
/-- META, the escaped metacharacter (R7). -/
def metaByte : Byte := 0x2A#8
/-- The constant that ID reads (10_state R21). -/
def idValue : Word := 0x48554646#32
/-- The constant that VERSION reads (10_state R22). -/
def versionValue : Word := 0x00010000#32
/-- The largest serialized tree the header's 13-bit field can hold (00_scope R7, TSIZE_W). -/
def maxTreeSize : Nat := 8191

/-- FREE VALUE (log 6): what the `n`th unspecified register read returns (20_memory R54 and R56, U3 and U4). -/
opaque busyRead : Nat → Word

/-- FREE VALUE (log 7): where the `n`th reset that meets a running command aborts it (40_control R87, U9). -/
opaque abortPoint : Nat → Nat

/-- FREE VALUE (log 8): RESULT of BU_DECODE_STREAM when the emitted count `e` does not fit 32 bits. The spec
states no result there (47_bit_unpacker R132 writes `e`; 00_scope R12 takes it to fit). -/
opaque decodeCount : Nat → Word

/-- FREE VALUES (log 5): the fields of the arena entry at an index that is not allocated. Such an entry holds no
defined value and no command reads one (10_state R46, U11). -/
opaque staleLeaf : Nat → Bool
/-- FREE VALUE (log 5): SYM of an unallocated entry. -/
opaque staleSym : Nat → Byte
/-- FREE VALUE (log 5): FREQ of an unallocated entry. -/
opaque staleFreq : Nat → Word
/-- FREE VALUE (log 5): LEFT of an unallocated entry. -/
opaque staleLeft : Nat → NodeIdx
/-- FREE VALUE (log 5): RIGHT of an unallocated entry. -/
opaque staleRight : Nat → NodeIdx

end Sys2Proof.Config
end

