-- ==== Sys2Proof/Syntax.lean ====
section
/-! DEFINITION. The 25 commands of the HCORE command set, version 1.0 (30_encoding R79), one constructor per row of
spec/opcode_table.json, and each command's mnemonic. -/

namespace Sys2Proof

/-- A command. An operand is an unsigned field taken as it stands (30_encoding R77), so its type is its field. -/
inductive Instr where
  /-- 0x00, 40_control R86. -/
  | nop
  /-- 0x10, 41_priority_queue R98. -/
  | pqClear
  /-- 0x11 form N, 41_priority_queue R99. -/
  | pqInsert (n : NodeIdx)
  /-- 0x12, 41_priority_queue R100. -/
  | pqRemoveMin
  /-- 0x20, 42_tree_builder R104. -/
  | tbClear
  /-- 0x21 form S, 42_tree_builder R105. -/
  | tbNewLeaf (sym : Byte)
  /-- 0x22, 42_tree_builder R106. -/
  | tbLoadLeaves
  /-- 0x23, 42_tree_builder R107. -/
  | tbMerge
  /-- 0x24, 42_tree_builder R108. -/
  | tbBuild
  /-- 0x30, 43_code_table R110. -/
  | cgGenerate
  /-- 0x40, 44_tree_serializer R114. -/
  | tsMeasure
  /-- 0x41, 44_tree_serializer R115. -/
  | tsPad
  /-- 0x42, 44_tree_serializer R116. -/
  | tsWriteHeader
  /-- 0x43 form H, 44_tree_serializer R117. -/
  | tsWriteHeaderImm (h : BitVec 16)
  /-- 0x44, 44_tree_serializer R118. -/
  | tsWriteTree
  /-- 0x50, 45_tree_deserializer R120. -/
  | tdReadHeader
  /-- 0x51, 45_tree_deserializer R121. -/
  | tdReadTree
  /-- 0x60, 46_bit_packer R124. -/
  | bpReset
  /-- 0x61 form B, 46_bit_packer R125. -/
  | bpAddBit (x : BitVec 1)
  /-- 0x62, 46_bit_packer R126. -/
  | bpFlush
  /-- 0x63 form S, 46_bit_packer R127. -/
  | bpEncodeByte (sym : Byte)
  /-- 0x64, 46_bit_packer R128. -/
  | bpEncodeStream
  /-- 0x70, 47_bit_unpacker R130. -/
  | buReset
  /-- 0x71 form B, 47_bit_unpacker R131. -/
  | buBit (x : BitVec 1)
  /-- 0x72, 47_bit_unpacker R132. -/
  | buDecodeStream
  deriving DecidableEq, Repr

/-- The five operand forms (30_encoding R76). -/
inductive Form where
  | z | n | s | b | h
  deriving DecidableEq, Repr

/-- The mnemonic of each command (30_encoding R79). -/
def Instr.mnemonic : Instr → String
  | .nop => "NOP"
  | .pqClear => "PQ_CLEAR"
  | .pqInsert _ => "PQ_INSERT"
  | .pqRemoveMin => "PQ_REMOVE_MIN"
  | .tbClear => "TB_CLEAR"
  | .tbNewLeaf _ => "TB_NEW_LEAF"
  | .tbLoadLeaves => "TB_LOAD_LEAVES"
  | .tbMerge => "TB_MERGE"
  | .tbBuild => "TB_BUILD"
  | .cgGenerate => "CG_GENERATE"
  | .tsMeasure => "TS_MEASURE"
  | .tsPad => "TS_PAD"
  | .tsWriteHeader => "TS_WRITE_HEADER"
  | .tsWriteHeaderImm _ => "TS_WRITE_HEADER_IMM"
  | .tsWriteTree => "TS_WRITE_TREE"
  | .tdReadHeader => "TD_READ_HEADER"
  | .tdReadTree => "TD_READ_TREE"
  | .bpReset => "BP_RESET"
  | .bpAddBit _ => "BP_ADD_BIT"
  | .bpFlush => "BP_FLUSH"
  | .bpEncodeByte _ => "BP_ENCODE_BYTE"
  | .bpEncodeStream => "BP_ENCODE_STREAM"
  | .buReset => "BU_RESET"
  | .buBit _ => "BU_BIT"
  | .buDecodeStream => "BU_DECODE_STREAM"

end Sys2Proof
end

