-- ==== Sys2Proof/WellFormed.lean ====
section
/-! DEFINITION. The assembler's statements and their check (30_encoding R82). An `Instr` is well formed by its types:
each operand is exactly its field. What can be ill formed is an assembly statement, whose operands are numbers: an
operand out of its range is an assembly error and produces no word. -/

namespace Sys2Proof

/-- An assembly statement: a mnemonic and its operands as written numbers (R82). -/
inductive AsmStmt where
  /-- A command of form Z: no operand. -/
  | plain (i : Instr)
  /-- `PQ_INSERT n`. -/
  | pqInsert (n : Nat)
  /-- `TB_NEW_LEAF s`. -/
  | tbNewLeaf (sym : Nat)
  /-- `TS_WRITE_HEADER_IMM p, t`. -/
  | tsWriteHeaderImm (p t : Nat)
  /-- `BP_ADD_BIT x`. -/
  | bpAddBit (x : Nat)
  /-- `BP_ENCODE_BYTE s`. -/
  | bpEncodeByte (sym : Nat)
  /-- `BU_BIT x`. -/
  | buBit (x : Nat)
  deriving DecidableEq, Repr

/-- The operand form that a command's opcode selects (30_encoding R76, R79). -/
def Instr.form : Instr → Form
  | .nop => .z
  | .pqClear => .z
  | .pqInsert _ => .n
  | .pqRemoveMin => .z
  | .tbClear => .z
  | .tbNewLeaf _ => .s
  | .tbLoadLeaves => .z
  | .tbMerge => .z
  | .tbBuild => .z
  | .cgGenerate => .z
  | .tsMeasure => .z
  | .tsPad => .z
  | .tsWriteHeader => .z
  | .tsWriteHeaderImm _ => .h
  | .tsWriteTree => .z
  | .tdReadHeader => .z
  | .tdReadTree => .z
  | .bpReset => .z
  | .bpAddBit _ => .b
  | .bpFlush => .z
  | .bpEncodeByte _ => .s
  | .bpEncodeStream => .z
  | .buReset => .z
  | .buBit _ => .b
  | .buDecodeStream => .z

/-- Every operand is in its range: a node index below 2^9, a byte value below 256, a bit 0 or 1, `p <= 7` and
`t <= 8191`; and a command that takes an operand is not written without one (R82). -/
def AsmStmt.wellFormed : AsmStmt → Bool
  | .plain i => i.form == .z
  | .pqInsert n => n < 512
  | .tbNewLeaf sym => sym < 256
  | .tsWriteHeaderImm p t => p ≤ 7 && t ≤ 8191
  | .bpAddBit x => x < 2
  | .bpEncodeByte sym => sym < 256
  | .buBit x => x < 2

/-- The command an assembly statement stands for; `none` is the assembly error of R82. -/
def assemble (a : AsmStmt) : Option Instr :=
  if a.wellFormed then
    match a with
    | .plain i => some i
    | .pqInsert n => some (.pqInsert (BitVec.ofNat 9 n))
    | .tbNewLeaf sym => some (.tbNewLeaf (BitVec.ofNat 8 sym))
    | .tsWriteHeaderImm p t => some (.tsWriteHeaderImm (BitVec.ofNat 16 (p <<< 13 ||| t)))
    | .bpAddBit x => some (.bpAddBit (BitVec.ofNat 1 x))
    | .bpEncodeByte sym => some (.bpEncodeByte (BitVec.ofNat 8 sym))
    | .buBit x => some (.buBit (BitVec.ofNat 1 x))
  else none

end Sys2Proof
end

