-- ==== Sys2Proof/Decode.lean ====
section
/-! DEFINITION. Decoding a command word (30_encoding R76 to R81, 40_control R85), the opcode map as a table of rows,
and the encoder. Decoding is total: a word that encodes no command is rejected by name (R80). -/

namespace Sys2Proof

/-- Why a word is illegal (R80). -/
inductive Illegal where
  /-- The OPC field is not in the map of R79. -/
  | unassignedOpcode (opc : Byte)
  /-- The OPC is in the map, but a bit that its form requires to be 0 is 1. -/
  | operandBits (opc : Byte)
  deriving DecidableEq, Repr

/-- OPC = word[31:24] (R76). -/
def opcOf (w : Word) : Byte := w.extractLsb' 24 8

/-- The bits outside OPC and the operand field, which the form requires to be 0 (R76). -/
def zeroBits : Form → Word → Bool
  | .z, w => w.extractLsb' 0 24 == 0#24
  | .n, w => w.extractLsb' 9 15 == 0#15
  | .s, w => w.extractLsb' 8 16 == 0#16
  | .b, w => w.extractLsb' 1 23 == 0#23
  | .h, w => w.extractLsb' 16 8 == 0#8

/-- Form N: `n = word[8:0]`. -/
def fieldN (w : Word) : NodeIdx := w.extractLsb' 0 9
/-- Form S: `s = word[7:0]`. -/
def fieldS (w : Word) : Byte := w.extractLsb' 0 8
/-- Form B: `b = word[0]`. -/
def fieldB (w : Word) : BitVec 1 := w.extractLsb' 0 1
/-- Form H: `h = word[15:0]`. -/
def fieldH (w : Word) : BitVec 16 := w.extractLsb' 0 16

/-- The command an assigned opcode names, its operand taken from the word by the opcode's form (R77, R79). -/
def commandOf (w : Word) : Option Instr :=
  match (opcOf w).toNat with
  | 0x00 => some .nop
  | 0x10 => some .pqClear
  | 0x11 => some (.pqInsert (fieldN w))
  | 0x12 => some .pqRemoveMin
  | 0x20 => some .tbClear
  | 0x21 => some (.tbNewLeaf (fieldS w))
  | 0x22 => some .tbLoadLeaves
  | 0x23 => some .tbMerge
  | 0x24 => some .tbBuild
  | 0x30 => some .cgGenerate
  | 0x40 => some .tsMeasure
  | 0x41 => some .tsPad
  | 0x42 => some .tsWriteHeader
  | 0x43 => some (.tsWriteHeaderImm (fieldH w))
  | 0x44 => some .tsWriteTree
  | 0x50 => some .tdReadHeader
  | 0x51 => some .tdReadTree
  | 0x60 => some .bpReset
  | 0x61 => some (.bpAddBit (fieldB w))
  | 0x62 => some .bpFlush
  | 0x63 => some (.bpEncodeByte (fieldS w))
  | 0x64 => some .bpEncodeStream
  | 0x70 => some .buReset
  | 0x71 => some (.buBit (fieldB w))
  | 0x72 => some .buDecodeStream
  | _ => none

/-- Decode(w) (40_control R85): read OPC, select the form, check the form's zero bits (30_encoding R81). -/
def decode (w : Word) : Except Illegal Instr :=
  match commandOf w with
  | none => .error (.unassignedOpcode (opcOf w))
  | some i => if zeroBits i.form w then .ok i else .error (.operandBits (opcOf w))

/-- `decode` without the reason: `none` is the ILLEGAL of 40_control R85. -/
def decodeWord (w : Word) : Option Instr := (decode w).toOption

/-- The instruction whose bits are `w`, numbered as spec/opcode_table.json numbers them. A command is exactly one
32-bit word (R81) and registers have no byte order (20_memory R57), so the word is laid out as it stands. -/
def decodeTableWord (nbits w : Nat) : Option Instr :=
  if nbits ≤ 32 then decodeWord (BitVec.ofNat 32 (w % 2 ^ nbits)) else none

/-- A row of the opcode map: `w` encodes the command exactly when `w &&& mask = pattern` (R79). -/
structure OpcodeRow where
  mnemonic : String
  form : Form
  pattern : Word
  mask : Word
  deriving DecidableEq, Repr

/-- The mask of a form: every bit outside the operand field (R79). -/
def Form.mask : Form → Word
  | .z => 0xFFFFFFFF#32
  | .n => 0xFFFFFE00#32
  | .s => 0xFFFFFF00#32
  | .b => 0xFFFFFFFE#32
  | .h => 0xFFFF0000#32

/-- The opcode map of R79, row by row, control to tree builder. -/
def opcodeRowsLow : List OpcodeRow :=
  [ ⟨"NOP", .z, 0x00000000, 0xFFFFFFFF⟩,
    ⟨"PQ_CLEAR", .z, 0x10000000, 0xFFFFFFFF⟩,
    ⟨"PQ_INSERT", .n, 0x11000000, 0xFFFFFE00⟩,
    ⟨"PQ_REMOVE_MIN", .z, 0x12000000, 0xFFFFFFFF⟩,
    ⟨"TB_CLEAR", .z, 0x20000000, 0xFFFFFFFF⟩,
    ⟨"TB_NEW_LEAF", .s, 0x21000000, 0xFFFFFF00⟩,
    ⟨"TB_LOAD_LEAVES", .z, 0x22000000, 0xFFFFFFFF⟩,
    ⟨"TB_MERGE", .z, 0x23000000, 0xFFFFFFFF⟩,
    ⟨"TB_BUILD", .z, 0x24000000, 0xFFFFFFFF⟩,
    ⟨"CG_GENERATE", .z, 0x30000000, 0xFFFFFFFF⟩ ]

/-- The opcode map of R79, row by row, serializer to unpacker. -/
def opcodeRowsHigh : List OpcodeRow :=
  [ ⟨"TS_MEASURE", .z, 0x40000000, 0xFFFFFFFF⟩,
    ⟨"TS_PAD", .z, 0x41000000, 0xFFFFFFFF⟩,
    ⟨"TS_WRITE_HEADER", .z, 0x42000000, 0xFFFFFFFF⟩,
    ⟨"TS_WRITE_HEADER_IMM", .h, 0x43000000, 0xFFFF0000⟩,
    ⟨"TS_WRITE_TREE", .z, 0x44000000, 0xFFFFFFFF⟩,
    ⟨"TD_READ_HEADER", .z, 0x50000000, 0xFFFFFFFF⟩,
    ⟨"TD_READ_TREE", .z, 0x51000000, 0xFFFFFFFF⟩,
    ⟨"BP_RESET", .z, 0x60000000, 0xFFFFFFFF⟩,
    ⟨"BP_ADD_BIT", .b, 0x61000000, 0xFFFFFFFE⟩,
    ⟨"BP_FLUSH", .z, 0x62000000, 0xFFFFFFFF⟩,
    ⟨"BP_ENCODE_BYTE", .s, 0x63000000, 0xFFFFFF00⟩,
    ⟨"BP_ENCODE_STREAM", .z, 0x64000000, 0xFFFFFFFF⟩,
    ⟨"BU_RESET", .z, 0x70000000, 0xFFFFFFFF⟩,
    ⟨"BU_BIT", .b, 0x71000000, 0xFFFFFFFE⟩,
    ⟨"BU_DECODE_STREAM", .z, 0x72000000, 0xFFFFFFFF⟩ ]

/-- The opcode map of R79: 25 rows. -/
def opcodeRows : List OpcodeRow := opcodeRowsLow ++ opcodeRowsHigh

/-- The row of R79 matches the word. -/
def OpcodeRow.fits (r : OpcodeRow) (w : Word) : Bool := w &&& r.mask == r.pattern

/-- A form Z word: OPC and 24 zero bits (R76). -/
def wordZ (opc : Byte) : Word := opc ++ 0#24
/-- A form N word (R76). -/
def wordN (opc : Byte) (n : NodeIdx) : Word := opc ++ 0#15 ++ n
/-- A form S word (R76). -/
def wordS (opc : Byte) (sym : Byte) : Word := opc ++ 0#16 ++ sym
/-- A form B word (R76). -/
def wordB (opc : Byte) (x : BitVec 1) : Word := opc ++ 0#23 ++ x
/-- A form H word (R76). -/
def wordH (opc : Byte) (h : BitVec 16) : Word := opc ++ 0#8 ++ h

/-- The one word that encodes a command (R76, R79). -/
def encode : Instr → Word
  | .nop => wordZ 0x00#8
  | .pqClear => wordZ 0x10#8
  | .pqInsert n => wordN 0x11#8 n
  | .pqRemoveMin => wordZ 0x12#8
  | .tbClear => wordZ 0x20#8
  | .tbNewLeaf sym => wordS 0x21#8 sym
  | .tbLoadLeaves => wordZ 0x22#8
  | .tbMerge => wordZ 0x23#8
  | .tbBuild => wordZ 0x24#8
  | .cgGenerate => wordZ 0x30#8
  | .tsMeasure => wordZ 0x40#8
  | .tsPad => wordZ 0x41#8
  | .tsWriteHeader => wordZ 0x42#8
  | .tsWriteHeaderImm h => wordH 0x43#8 h
  | .tsWriteTree => wordZ 0x44#8
  | .tdReadHeader => wordZ 0x50#8
  | .tdReadTree => wordZ 0x51#8
  | .bpReset => wordZ 0x60#8
  | .bpAddBit x => wordB 0x61#8 x
  | .bpFlush => wordZ 0x62#8
  | .bpEncodeByte sym => wordS 0x63#8 sym
  | .bpEncodeStream => wordZ 0x64#8
  | .buReset => wordZ 0x70#8
  | .buBit x => wordB 0x71#8 x
  | .buDecodeStream => wordZ 0x72#8

/-- The assembler's word for a statement; no word for an operand out of range (R82). -/
def assembleWord (a : AsmStmt) : Option Word := (assemble a).map encode

end Sys2Proof
end

