-- ==== Sys2Proof/Machine/Types.lean ====
section
/-! DEFINITION. The records State is made of: arena nodes, deserializer frames, error codes, and the acts of the
host and the engine. -/

namespace Sys2Proof.Machine

/-- An entry of the node arena (10_state R46). -/
structure Node where
  /-- LEAF: 1 for a leaf, 0 for an internal node. -/
  leaf : Bool
  /-- SYM: a leaf's byte value; 0 in an internal node. -/
  sym : Byte
  /-- FREQ: the frequency, or the sum of the children's. -/
  freq : Word
  /-- LEFT: the left child, or NIL in a leaf. -/
  left : NodeIdx
  /-- RIGHT: the right child, or NIL in a leaf. -/
  right : NodeIdx
  deriving DecidableEq, Repr

/-- A frame of the deserializer's stack: one pending internal node (10_state R48). -/
structure Frame where
  hasLeft : Bool
  left : NodeIdx
  deriving DecidableEq, Repr

/-- The errors a command can raise (60_exceptions R134). -/
inductive ErrKind where
  | illegalCommand
  | pqFull
  | pqEmpty
  | badNodeIndex
  | arenaFull
  | freqOverflow
  | mergeUnderflow
  | codeTooLong
  | dupSymbol
  | hdrRange
  | fmtTruncatedHeader
  | fmtBadTag
  | fmtTreeSizeMismatch
  | fmtTreeEos
  | fmtTreeTooLarge
  | noCode
  | fmtNoTree
  | fmtBadCode
  | fmtPayloadTruncated
  | fmtPadNoPayload
  deriving DecidableEq, Repr

/-- One act on HCORE. The host's acts are the interactions of 20_memory R74; `engine` gives the engine its turn, so a
list of inputs is one interleaving of the two agents of 00_scope R5 (log 3). -/
inductive Input where
  /-- The host reads `width` bytes at bus address `addr` (20_memory R54). -/
  | read (width addr : Nat)
  /-- The host writes `width` bytes, value `v`, at bus address `addr`. -/
  | write (width addr : Nat) (v : Word)
  /-- The host supplies the next byte of the open IN stream (20_memory R58). -/
  | supply (b : Byte)
  /-- The host says how many more OUT bytes it will accept: `none` for all of them (20_memory R59). -/
  | outReady (room : Option Nat)
  /-- The platform applies the hard reset (70_reset_and_hazards R148). -/
  | hardReset
  /-- The engine moves: the command in progress, if any, runs. -/
  | engine
  deriving DecidableEq, Repr

end Sys2Proof.Machine
end

