-- ==== Sys2Proof/Machine/State.lean ====
section
/-! DEFINITION. The state of HCORE (10_state.md), the state after reset (10_state R52), and the reasons a step can
stop. -/

namespace Sys2Proof.Machine

/-- Every piece of state the spec gives HCORE, and the model's own fields (INVENTORY.md, '## State'). -/
structure State where
  /-- STATUS.BUSY (R24). -/
  busy : Bool
  /-- STATUS.ERR (R24). -/
  err : Bool
  /-- STATUS.OVR (R24). -/
  ovr : Bool
  /-- STATUS.ERR_CODE (R24). -/
  errCode : BitVec 8
  /-- ERR_CMD (R37). -/
  errCmd : Word
  /-- ERR_ARG (R38). -/
  errArg : Word
  /-- RESULT (R26). -/
  result : Word
  /-- ROOT (R27). -/
  root : NodeIdx
  /-- PAD (R30). -/
  pad : BitVec 3
  /-- TREE_SIZE (R31). -/
  treeSize : BitVec 13
  /-- TOTAL_BITS (R32). -/
  totalBits : BitVec 64
  /-- ACC, the packer's accumulator byte (R34). -/
  acc : Byte
  /-- CNT, the count of bits in ACC, 0 to 7 (R34). -/
  cnt : BitVec 3
  /-- BU_CUR, the decoder's descent cursor (R35). -/
  buCur : NodeIdx
  /-- OUT_COUNT, modulo 2^32 (R36). -/
  outCount : Word
  /-- IN_REM, read through IN_LEN (R33). -/
  inRem : Word
  /-- FREQ_IDX (R39). -/
  freqIdx : Byte
  /-- CODE_IDX (R40). -/
  codeIdx : Byte
  /-- NODE_IDX (R41). -/
  nodeIdx : NodeIdx
  /-- HEAP_IDX (R42). -/
  heapIdx : Byte
  /-- FREQ[0..255] (R44). -/
  freq : Vector Word 256
  /-- CODE[0..255] (R45). -/
  code : Vector Word 256
  /-- LEN[0..255] (R45). -/
  len : Vector (BitVec 6) 256
  /-- NODE[0..NODE_COUNT - 1], in index order (R46); NODE_COUNT is its length (R28, log 5). -/
  nodes : List Node
  /-- HEAP[0..HEAP_SIZE - 1], in slot order (R47); HEAP_SIZE is its length (R29, log 5). -/
  heap : List NodeIdx
  /-- TD_READ_TREE's stack, top first; empty between commands (R48). -/
  dstack : List Frame
  /-- The bytes of IN_SEQ that the host has supplied and no command has consumed, front first (R49, log 11). -/
  inSeq : List Byte
  /-- OUT_SEQ: every byte emitted, in emission order, with the host for good (R49, R52, log 4). -/
  outSeq : List Byte
  /-- The accepted word of the command in progress (40_control R84); 0 when none is (log 20). -/
  cmdWord : Word
  /-- MODEL's own: the bytes that the command in progress had put out when it began to wait (log 2). -/
  waitOut : List Byte
  /-- MODEL's own: how many more OUT bytes the host accepts; `none` for all of them (log 13). -/
  outRoom : Option Nat
  /-- MODEL's own: the acts of host and engine to come, first first (log 3). -/
  inputs : List Input
  /-- MODEL's own: the value the last register read handed to the host (log 14). -/
  readData : Word
  /-- HC_BASE is `hcPage * 0x100` (00_scope R9, log 12). -/
  hcPage : Nat
  /-- MODEL's own: how many free values have been drawn (log 19). -/
  draws : Nat
  deriving DecidableEq, Repr

/-- Why the machine stops. -/
inductive Fault where
  /-- CG_GENERATE's walk passed 512 levels. Raised by `walk` (Machine/CodeTable.lean) only where the arena breaks
  10_state R50 item 4, which no run reaches; the pseudocode would not end there. SAFE: the model stops (log 15). -/
  | runawayWalk
  deriving DecidableEq, Repr

/-- Why the model gives no meaning. -/
inductive Refusal where
  /-- An instruction with no meaning yet, by its mnemonic; raised by an arm of `exec` only. No arm raises it. SAFE. -/
  | notModelled (mnemonic : String)
  /-- A host write to IN_LEN, FREQ_IDX, FREQ_DATA, CODE_IDX, NODE_IDX or HEAP_IDX at offset `off` while BUSY = 1:
  its effect is unspecified and a model refuses it (70_reset_and_hazards R152, U5). Raised by `regWrite`. SAFE (log 10). -/
  | busyRegisterWrite (off : Nat)
  /-- The host supplies a byte that no open IN stream asks for, against duty 1 of 20_memory R75: the run has no
  modelled behaviour. Raised by `supplyByte`. SAFE (log 11). -/
  | unaskedInByte
  deriving DecidableEq, Repr

/-- The machine right after reset (10_state R52). -/
def State.reset : State where
  busy := false
  err := false
  ovr := false
  errCode := 0#8
  errCmd := 0#32
  errArg := 0#32
  result := 0#32
  root := 0x1FF#9
  pad := 0#3
  treeSize := 0#13
  totalBits := 0#64
  acc := 0#8
  cnt := 0#3
  buCur := 0x1FF#9
  outCount := 0#32
  inRem := 0#32
  freqIdx := 0#8
  codeIdx := 0#8
  nodeIdx := 0#9
  heapIdx := 0#8
  freq := Vector.replicate 256 0#32
  code := Vector.replicate 256 0#32
  len := Vector.replicate 256 0#6
  nodes := []
  heap := []
  dstack := []
  inSeq := []
  outSeq := []
  cmdWord := 0#32
  waitOut := []
  outRoom := none
  inputs := []
  readData := 0#32
  hcPage := 0
  draws := 0

end Sys2Proof.Machine
end

