-- ==== Sys2Proof/Machine/Flags.lean ====
section
/-! DEFINITION. The status flags BUSY, ERR and OVR (10_state R19, R24), the error codes (60_exceptions R134), and the
operations that set and clear them. -/

namespace Sys2Proof.Machine

/-- ERR_CODE of each error (60_exceptions R134). -/
def ErrKind.errCode : ErrKind → BitVec 8
  | .illegalCommand => 0x01#8
  | .pqFull => 0x10#8
  | .pqEmpty => 0x11#8
  | .badNodeIndex => 0x12#8
  | .arenaFull => 0x20#8
  | .freqOverflow => 0x21#8
  | .mergeUnderflow => 0x22#8
  | .codeTooLong => 0x30#8
  | .dupSymbol => 0x31#8
  | .hdrRange => 0x40#8
  | .fmtTruncatedHeader => 0x50#8
  | .fmtBadTag => 0x51#8
  | .fmtTreeSizeMismatch => 0x52#8
  | .fmtTreeEos => 0x53#8
  | .fmtTreeTooLarge => 0x54#8
  | .noCode => 0x60#8
  | .fmtNoTree => 0x70#8
  | .fmtBadCode => 0x71#8
  | .fmtPayloadTruncated => 0x72#8
  | .fmtPadNoPayload => 0x73#8

/-- The STATUS register: BUSY, ERR, OVR in bits 0 to 2, ERR_CODE in bits 15:8, the rest 0 (10_state R24). -/
def statusWord (s : State) : Word :=
  0#16 ++ s.errCode ++ 0#5 ++ BitVec.ofBool s.ovr ++ BitVec.ofBool s.err ++ BitVec.ofBool s.busy

/-- STATUS.BUSY <- 1 for the accepted word `w` (40_control R84). -/
def acceptCommand (w : Word) (s : State) : State :=
  { s with busy := true, cmdWord := w, waitOut := [] }

/-- STATUS.BUSY <- 0: the command is complete (40_control R84); HCORE keeps no copy of its word (20_memory R72). -/
def completeCommand (s : State) : State :=
  { s with busy := false, cmdWord := 0#32, waitOut := [] }

/-- STATUS.OVR <- 1: a CMD write was discarded (40_control R84). -/
def setOverrun (s : State) : State := { s with ovr := true }

/-- CTRL.CLR_OVR (40_control R89). -/
def clearOverrun (s : State) : State := { s with ovr := false }

end Sys2Proof.Machine
end

