-- ==== Sys2Proof/Machine/Operands.lean ====
section
/-! DEFINITION. How a command reaches the internal memories (40_control R92): by byte value, by node index, by heap
slot; and the views of the registers that share a home with a memory (NODE_COUNT, HEAP_SIZE). -/

namespace Sys2Proof.Machine

/-- NODE_COUNT (10_state R28). -/
def nodeCount (s : State) : Nat := s.nodes.length

/-- HEAP_SIZE (10_state R29). -/
def heapSize (s : State) : Nat := s.heap.length

/-- FREQ[b] (10_state R44). -/
def freqAt (s : State) (b : Byte) : Word := s.freq[b.toNat]'b.isLt

/-- CODE[b] (10_state R45). -/
def codeAt (s : State) (b : Byte) : Word := s.code[b.toNat]'b.isLt

/-- LEN[b] (10_state R45). -/
def lenAt (s : State) (b : Byte) : BitVec 6 := s.len[b.toNat]'b.isLt

/-- FREQ[b] <- v (10_state R39). -/
def setFreq (b : Byte) (v : Word) (s : State) : State := { s with freq := s.freq.set b.toNat v b.isLt }

/-- CODE[b] <- path, LEN[b] <- depth (43_code_table R110); `path < 2^depth` and `depth <= 32` there. -/
def setCode (b : Byte) (path depth : Nat) (s : State) : State :=
  { s with
    code := s.code.set b.toNat (BitVec.ofNat 32 path) b.isLt
    len := s.len.set b.toNat (BitVec.ofNat 6 depth) b.isLt }

/-- Every entry of CODE and LEN <- 0 (43_code_table R110). -/
def clearCodes (s : State) : State :=
  { s with code := Vector.replicate 256 0#32, len := Vector.replicate 256 0#6 }

/-- The entry at an index that is not allocated holds no defined value: free values (10_state R46, log 5). -/
def staleNode (i : NodeIdx) : Node where
  leaf := Config.staleLeaf i.toNat
  sym := Config.staleSym i.toNat
  freq := Config.staleFreq i.toNat
  left := Config.staleLeft i.toNat
  right := Config.staleRight i.toNat

/-- NODE[i] in an arena whose allocated entries are `nodes` (10_state R46). -/
def nodeIn (nodes : List Node) (i : NodeIdx) : Node := (nodes[i.toNat]?).getD (staleNode i)

/-- NODE[i] (10_state R46). -/
def nodeAt (s : State) (i : NodeIdx) : Node := nodeIn s.nodes i

/-- IsLeaf(i) (00_scope R15). -/
def isLeaf (s : State) (i : NodeIdx) : Bool := (nodeAt s i).leaf

/-- NODE[i].FREQ, the key of a queued node (41_priority_queue). -/
def keyOf (s : State) (i : NodeIdx) : Word := (nodeAt s i).freq

/-- The byte values 0 to 255, ascending (42_tree_builder R106). -/
def allBytes : List Byte := (List.range 256).map (BitVec.ofNat 8)

/-- A leaf entry (10_state R46). -/
def leafNode (sym : Byte) (freq : Word) : Node := ⟨true, sym, freq, Config.nil, Config.nil⟩

/-- An internal entry (10_state R46). -/
def internalNode (freq : Word) (left right : NodeIdx) : Node := ⟨false, 0#8, freq, left, right⟩

end Sys2Proof.Machine
end

