-- ==== Sys2Proof/Machine/Ops.lean ====
section
/-! DEFINITION. Running a command: its outcomes, raising an error (60_exceptions R135) and clearing one (40_control
R88), the streams (00_scope R14), and the operations that several commands share. -/

namespace Sys2Proof.Machine

/-- Where a piece of a command's pseudocode ends (00_scope R13). -/
inductive Run (α : Type) where
  /-- It ran to its end with a result, in this state. -/
  | done (a : α) (s : State)
  /-- It reached `raise e(arg)` in this state; every write before it stays done. -/
  | raise (e : ErrKind) (arg : Word) (s : State)
  /-- It needs a byte the host has not supplied, or offers one the host does not accept yet (20_memory R59, R75). -/
  | wait (s : State)
  /-- The model stops it. -/
  | stop (f : Fault)

/-- Statement order: the rest runs only where the first part ran to its end (00_scope R13). -/
def Run.andThen {α β : Type} (r : Run α) (k : α → State → Run β) : Run β :=
  match r with
  | .done a s => k a s
  | .raise e arg s => .raise e arg s
  | .wait s => .wait s
  | .stop f => .stop f

/-- TAKING AN EXCEPTION: what `raise E(arg)` writes for the command whose accepted word is in `cmdWord`, and the end
of that command (60_exceptions R135, R138, 40_control R84). The deserializer's stack is discarded (10_state R48). -/
def takeError (e : ErrKind) (arg : Word) (s : State) : State :=
  completeCommand
    { s with err := true, errCode := e.errCode, errCmd := s.cmdWord, errArg := arg, dstack := [] }

/-- Clearing the error record: CTRL.CLR_ERR (40_control R88, 60_exceptions R139). -/
def clearError (s : State) : State :=
  { s with err := false, errCode := 0#8, errCmd := 0#32, errArg := 0#32 }

/-- How a command run from acceptance state `s₀` ends: BUSY <- 0 after its last statement or its raise (40_control
R84). A command that waits changes no architectural state, and BUSY stays 1 (20_memory R59, U6); what it has put out
so far is noted in `waitOut` (log 2). -/
def finish (s₀ : State) (r : Run Unit) : Host.Outcome State Fault Refusal :=
  match r with
  | .done _ s => .next (completeCommand s)
  | .raise e arg s => .next (takeError e arg s)
  | .wait s => .next { s₀ with waitOut := s.outSeq.drop s₀.outSeq.length }
  | .stop f => .fault f

/-- InRead(), with IN_REM > 0: the front byte of IN_SEQ; the engine waits while the host has not supplied it
(00_scope R14, 20_memory R58). -/
def inRead (s : State) : Run Byte :=
  match s.inSeq with
  | [] => .wait s
  | b :: rest => .done b { s with inSeq := rest, inRem := s.inRem - 1#32 }

/-- A byte the host has accepted joins OUT_SEQ; OUT_COUNT is modulo 2^32 (00_scope R14). -/
def putByte (b : Byte) (s : State) : State :=
  { s with outSeq := s.outSeq ++ [b], outCount := s.outCount + 1#32 }

/-- Emit(b): the engine waits while the host does not accept the byte (00_scope R14, 20_memory R59). -/
def emit (b : Byte) (s : State) : Run Unit :=
  match s.outRoom with
  | none => .done () (putByte b s)
  | some 0 => .wait s
  | some (n + 1) => .done () (putByte b { s with outRoom := some n })

/-- Emit each byte in order. -/
def emitAll : List Byte → State → Run Unit
  | [], s => .done () s
  | b :: rest, s => (emit b s).andThen fun _ s' => emitAll rest s'

/-- RESULT <- v (10_state R26). -/
def setResult (v : Word) (s : State) : State := { s with result := v }

/-- AllocNode, with the error `e` its caller names for a full arena, ERR_ARG = NODE_COUNT (42_tree_builder R101). -/
def allocNode (n : Node) (e : ErrKind) (s : State) : Run NodeIdx :=
  if s.nodes.length = Config.nodeCap then .raise e (BitVec.ofNat 32 s.nodes.length) s
  else .done (BitVec.ofNat 9 s.nodes.length) { s with nodes := s.nodes ++ [n] }

/-- TreeClear() (42_tree_builder R102). -/
def treeClear (s : State) : State :=
  { s with nodes := [], heap := [], root := Config.nil, buCur := Config.nil }

/-- Reset(): every piece of HCORE's state takes its reset value (70_reset_and_hazards R149, 10_state R52). What is
the host's or the platform's stays: the bytes already emitted, the acts to come, the value last read, the OUT
port's readiness, HC_BASE and the draw counter. -/
def resetCore (s : State) : State :=
  { State.reset with
    outSeq := s.outSeq, outRoom := s.outRoom, inputs := s.inputs, readData := s.readData,
    hcPage := s.hcPage, draws := s.draws }

end Sys2Proof.Machine
end

