-- ==== Sys2Proof/Machine/CodeTable.lean ====
section
/-! DEFINITION. Unit 0x3, the code table generator (43_code_table.md). -/

namespace Sys2Proof.Machine

/-- Walk(n, path, depth), with the count so far (43_code_table R110). A child's index is below its parent's
(10_state R50 item 4), so no path has 512 nodes and `fuel` of 512 is enough; past it the arena is broken. -/
def walk : (fuel : Nat) → (n : NodeIdx) → (path depth count : Nat) → State → Run Nat
  | 0, _, _, _, _, _ => .stop .runawayWalk
  | fuel + 1, n, path, depth, count, s =>
    if isLeaf s n then
      if depth > Config.maxCodeLen then .raise .codeTooLong ((nodeAt s n).sym.setWidth 32) s
      else if lenAt s (nodeAt s n).sym ≠ 0#6 then .raise .dupSymbol ((nodeAt s n).sym.setWidth 32) s
      else .done (count + 1) (setCode (nodeAt s n).sym path depth s)
    else
      (walk fuel (nodeAt s n).left (2 * path) (depth + 1) count s).andThen fun count' s' =>
        walk fuel (nodeAt s n).right (2 * path + 1) (depth + 1) count' s'

/-- CG_GENERATE's pseudocode after the table is cleared (43_code_table R110). -/
def generateCodes (s : State) : Run Unit :=
  if s.root = Config.nil then .done () (setResult 0#32 s)
  else if isLeaf s s.root then .done () (setResult 1#32 (setCode (nodeAt s s.root).sym 0 1 s))
  else (walk 512 s.root 0 0 0 s).andThen fun count s' => .done () (setResult (BitVec.ofNat 32 count) s')

/-- CG_GENERATE's pseudocode (43_code_table R110). -/
def runCgGenerate (s : State) : Run Unit := generateCodes (clearCodes s)

/-- CG_GENERATE (43_code_table R110). -/
def execCgGenerate (s : State) : Host.Outcome State Fault Refusal := finish s (runCgGenerate s)

end Sys2Proof.Machine
end

