-- ==== Sys2Proof/Machine/Control.lean ====
section
/-! DEFINITION. Unit 0x0, control: NOP (40_control.md). -/

namespace Sys2Proof.Machine

/-- NOP's pseudocode is `skip` (40_control R86). -/
def runNop (s : State) : Run Unit := .done () s

/-- NOP (40_control R86). -/
def execNop (s : State) : Host.Outcome State Fault Refusal := finish s (runNop s)

end Sys2Proof.Machine
end

