-- ==== Sys2Proof/Machine/Deserializer.lean ====
section
/-! DEFINITION. Unit 0x5, the header and tree deserializer (45_tree_deserializer.md). -/

namespace Sys2Proof.Machine

/-- One header byte; the error's argument is the number of header bytes already read (45_tree_deserializer R120). -/
def headerByte (already : Word) (s : State) : Run Byte :=
  if s.inRem = 0#32 then .raise .fmtTruncatedHeader already s else inRead s

/-- PAD, TREE_SIZE and RESULT from the two header bytes (45_tree_deserializer R120). -/
def takeHeader (b0 b1 : Byte) (s : State) : State :=
  { s with
    pad := b0.extractLsb' 5 3
    treeSize := b0.extractLsb' 0 5 ++ b1
    result := 0#16 ++ b0 ++ b1 }

/-- TD_READ_HEADER's pseudocode (45_tree_deserializer R120). -/
def runTdReadHeader (s : State) : Run Unit :=
  (headerByte 0#32 s).andThen fun b0 s₁ =>
    (headerByte 1#32 s₁).andThen fun b1 s₂ => .done () (takeHeader b0 b1 s₂)

/-- Next(): one byte of the tree. The size test comes before the stream test (45_tree_deserializer R121). The
caller counts the byte in `consumed`. -/
def treeByte (consumed : Nat) (s : State) : Run Byte :=
  if consumed = s.treeSize.toNat then .raise .fmtTreeSizeMismatch (BitVec.ofNat 32 consumed) s
  else if s.inRem = 0#32 then .raise .fmtTreeEos (BitVec.ofNat 32 consumed) s
  else inRead s

/-- The inner loop: attach the finished subtree `n` to the pending internal nodes. The result is the root where the
stack is empty, and nothing where a right subtree is still to be read (45_tree_deserializer R121). -/
def attach (n : NodeIdx) : (stack : List Frame) → State → Run (Option NodeIdx)
  | [], s => .done (some n) { s with dstack := [] }
  | f :: rest, s =>
    if f.hasLeft then
      (allocNode (internalNode 0#32 f.left n) .fmtTreeTooLarge s).andThen fun n' s' => attach n' rest s'
    else .done none { s with dstack := ⟨true, n⟩ :: rest }

/-- A leaf's value: the byte after the tag, or the byte after an escape, with the bytes consumed
(45_tree_deserializer R121). -/
def leafValue (consumed : Nat) (s : State) : Run (Byte × Nat) :=
  (treeByte consumed s).andThen fun v s₁ =>
    if v = Config.esc then
      (treeByte (consumed + 1) s₁).andThen fun v' s₂ => .done (v', consumed + 2) s₂
    else .done (v, consumed + 1) s₁

/-- The end of the tree whose root is `n` (45_tree_deserializer R121). -/
def endTree (n : NodeIdx) (consumed : Nat) (s : State) : Run Unit :=
  if consumed ≠ s.treeSize.toNat then .raise .fmtTreeSizeMismatch (BitVec.ofNat 32 consumed) s
  else .done () { s with root := n, buCur := n, result := n.setWidth 32 }

/-- The outer loop: read one node's bytes (45_tree_deserializer R121). Each turn consumes a byte and `fuel` begins
at TREE_SIZE, so at its end TREE_SIZE bytes are consumed and Next() raises. -/
def readTree : (fuel consumed : Nat) → State → Run Unit
  | 0, consumed, s => .raise .fmtTreeSizeMismatch (BitVec.ofNat 32 consumed) s
  | fuel + 1, consumed, s =>
    (treeByte consumed s).andThen fun tag s₁ =>
      if tag = Config.tagInternal then
        if s₁.dstack.length = Config.dstackCap then
          .raise .fmtTreeTooLarge (BitVec.ofNat 32 (consumed + 1)) s₁
        else readTree fuel (consumed + 1) { s₁ with dstack := ⟨false, Config.nil⟩ :: s₁.dstack }
      else if tag ≠ Config.tagLeaf then
        .raise .fmtBadTag (BitVec.ofNat 32 (consumed <<< 8 ||| tag.toNat)) s₁
      else
        (leafValue (consumed + 1) s₁).andThen fun vc s₂ =>
          (allocNode (leafNode vc.1 0#32) .fmtTreeTooLarge s₂).andThen fun n s₃ =>
            (attach n s₃.dstack s₃).andThen fun root s₄ =>
              match root with
              | some r => endTree r vc.2 s₄
              | none => readTree fuel vc.2 s₄

/-- TD_READ_TREE's pseudocode (45_tree_deserializer R121). -/
def runTdReadTree (s : State) : Run Unit :=
  if s.treeSize = 0#13 then .done () (setResult (Config.nil.setWidth 32) (treeClear s))
  else readTree s.treeSize.toNat 0 { treeClear s with dstack := [] }

/-- TD_READ_HEADER (45_tree_deserializer R120). -/
def execTdReadHeader (s : State) : Host.Outcome State Fault Refusal := finish s (runTdReadHeader s)

/-- TD_READ_TREE (45_tree_deserializer R121). -/
def execTdReadTree (s : State) : Host.Outcome State Fault Refusal := finish s (runTdReadTree s)

end Sys2Proof.Machine
end

