-- ==== Sys2Proof/Machine/Packer.lean ====
section
/-! DEFINITION. Unit 0x6, the bit packer (46_bit_packer.md). -/

namespace Sys2Proof.Machine

/-- ACC <- ((ACC << 1) | x) mod 256 (46_bit_packer R122). -/
def shiftIn (acc : Byte) (x : BitVec 1) : Byte := (acc <<< 1) ||| x.setWidth 8

/-- AddBit(x): the eighth bit emits the byte (46_bit_packer R122). -/
def addBit (x : BitVec 1) (s : State) : Run Unit :=
  if s.cnt = 7#3 then
    (emit (shiftIn s.acc x) s).andThen fun _ s' => .done () { s' with acc := 0#8, cnt := 0#3 }
  else .done () { s with acc := shiftIn s.acc x, cnt := s.cnt + 1#3 }

/-- AddBit of bits `n - 1` down to 0 of `c` (46_bit_packer R123). -/
def addBits (c : Word) : (n : Nat) → State → Run Unit
  | 0, s => .done () s
  | n + 1, s => (addBit (c.extractLsb' n 1) s).andThen fun _ s' => addBits c n s'

/-- Encode(b): the code of `b`, root-side bit first (46_bit_packer R123). -/
def encodeSym (b : Byte) (s : State) : Run Unit :=
  if lenAt s b = 0#6 then .raise .noCode (b.setWidth 32) s
  else addBits (codeAt s b) (lenAt s b).toNat s

/-- BP_ENCODE_STREAM's loop, with `fuel` = IN_REM and `k` bytes consumed (46_bit_packer R128). -/
def encodeStream : (fuel k : Nat) → State → Run Nat
  | 0, k, s => .done k s
  | fuel + 1, k, s =>
    (inRead s).andThen fun b s₁ => (encodeSym b s₁).andThen fun _ s₂ => encodeStream fuel (k + 1) s₂

/-- BP_RESET's pseudocode (46_bit_packer R124). -/
def runBpReset (s : State) : Run Unit := .done () { s with acc := 0#8, cnt := 0#3 }

/-- BP_ADD_BIT's pseudocode (46_bit_packer R125). -/
def runBpAddBit (x : BitVec 1) (s : State) : Run Unit := addBit x s

/-- BP_FLUSH's pseudocode (46_bit_packer R126). -/
def runBpFlush (s : State) : Run Unit :=
  (if s.cnt = 0#3 then Run.done () s else emit (s.acc <<< (8 - s.cnt.toNat)) s).andThen fun _ s' =>
    .done () { s' with acc := 0#8, cnt := 0#3 }

/-- BP_ENCODE_BYTE's pseudocode (46_bit_packer R127). -/
def runBpEncodeByte (b : Byte) (s : State) : Run Unit := encodeSym b s

/-- BP_ENCODE_STREAM's pseudocode (46_bit_packer R128). -/
def runBpEncodeStream (s : State) : Run Unit :=
  (encodeStream s.inRem.toNat 0 s).andThen fun k s' => .done () (setResult (BitVec.ofNat 32 k) s')

/-- BP_RESET (46_bit_packer R124). -/
def execBpReset (s : State) : Host.Outcome State Fault Refusal := finish s (runBpReset s)

/-- BP_ADD_BIT x (46_bit_packer R125). -/
def execBpAddBit (x : BitVec 1) (s : State) : Host.Outcome State Fault Refusal := finish s (runBpAddBit x s)

/-- BP_FLUSH (46_bit_packer R126). -/
def execBpFlush (s : State) : Host.Outcome State Fault Refusal := finish s (runBpFlush s)

/-- BP_ENCODE_BYTE s (46_bit_packer R127). -/
def execBpEncodeByte (b : Byte) (s : State) : Host.Outcome State Fault Refusal := finish s (runBpEncodeByte b s)

/-- BP_ENCODE_STREAM (46_bit_packer R128). -/
def execBpEncodeStream (s : State) : Host.Outcome State Fault Refusal := finish s (runBpEncodeStream s)

end Sys2Proof.Machine
end

