-- ==== Sys2Proof/Machine/PriorityQueue.lean ====
section
/-! DEFINITION. Unit 0x1, the priority queue: an array-backed binary min-heap of node indices
(41_priority_queue.md). -/

namespace Sys2Proof.Machine

/-- HEAP[i] of a heap array (10_state R47). No heap function reads a slot at or above its size. -/
def slot (h : List NodeIdx) (i : Nat) : NodeIdx := h.getD i Config.nil

/-- swap HEAP[i], HEAP[j] (41_priority_queue R94, R95). -/
def swapSlots (h : List NodeIdx) (i j : Nat) : List NodeIdx := (h.set i (slot h j)).set j (slot h i)

/-- The sift-up of PqInsert from slot `i`: while the parent's key is strictly greater, swap with it
(41_priority_queue R94). `fuel` bounds the levels; `i` of it is enough, since a parent's slot is lower. -/
def siftUp (key : NodeIdx → Word) : (fuel i : Nat) → List NodeIdx → List NodeIdx
  | 0, _, h => h
  | fuel + 1, i, h =>
    if i = 0 then h
    else if key (slot h ((i - 1) / 2)) > key (slot h i) then
      siftUp key fuel ((i - 1) / 2) (swapSlots h ((i - 1) / 2) i)
    else h

/-- The slot that holds the smaller key among slot `i` and its children, `i` where no child's key is strictly less,
and the left child where the children's keys are equal (41_priority_queue R95). -/
def smallestSlot (key : NodeIdx → Word) (h : List NodeIdx) (i : Nat) : Nat :=
  let l := 2 * i + 1
  let r := 2 * i + 2
  let s₁ := if l < h.length ∧ key (slot h l) < key (slot h i) then l else i
  if r < h.length ∧ key (slot h r) < key (slot h s₁) then r else s₁

/-- The sift-down of PqRemoveMin from slot `i` (41_priority_queue R95). `fuel` bounds the levels; the heap's size
is enough, since a child's slot is higher. -/
def siftDown (key : NodeIdx → Word) : (fuel i : Nat) → List NodeIdx → List NodeIdx
  | 0, _, h => h
  | fuel + 1, i, h =>
    let m := smallestSlot key h i
    if m = i then h else siftDown key fuel m (swapSlots h m i)

/-- The heap array after `n` is put in the last slot and sifted up (41_priority_queue R94). -/
def heapInsert (key : NodeIdx → Word) (n : NodeIdx) (h : List NodeIdx) : List NodeIdx :=
  siftUp key h.length h.length (h ++ [n])

/-- The heap array after slot 0 is removed: the last slot moves to slot 0 and is sifted down
(41_priority_queue R95). -/
def heapRemove (key : NodeIdx → Word) (h : List NodeIdx) : List NodeIdx :=
  let size := h.length - 1
  siftDown key size 0 ((h.set 0 (slot h size)).take size)

/-- PqInsert(n) (41_priority_queue R94). -/
def pqInsertNode (n : NodeIdx) (s : State) : Run Unit :=
  if s.heap.length = Config.heapCap then .raise .pqFull (n.setWidth 32) s
  else .done () { s with heap := heapInsert (keyOf s) n s.heap }

/-- PqRemoveMin() (41_priority_queue R95). -/
def pqRemoveNode (s : State) : Run NodeIdx :=
  if s.heap.length = 0 then .raise .pqEmpty 0#32 s
  else .done (slot s.heap 0) { s with heap := heapRemove (keyOf s) s.heap }

/-- PQ_CLEAR's pseudocode (41_priority_queue R98). -/
def runPqClear (s : State) : Run Unit := .done () { s with heap := [] }

/-- PQ_INSERT's pseudocode (41_priority_queue R99). -/
def runPqInsert (n : NodeIdx) (s : State) : Run Unit :=
  if nodeCount s ≤ n.toNat then .raise .badNodeIndex (n.setWidth 32) s else pqInsertNode n s

/-- PQ_REMOVE_MIN's pseudocode (41_priority_queue R100). -/
def runPqRemoveMin (s : State) : Run Unit :=
  (pqRemoveNode s).andThen fun r s' => .done () (setResult (r.setWidth 32) s')

/-- PQ_CLEAR (41_priority_queue R98). -/
def execPqClear (s : State) : Host.Outcome State Fault Refusal := finish s (runPqClear s)

/-- PQ_INSERT n (41_priority_queue R99). -/
def execPqInsert (n : NodeIdx) (s : State) : Host.Outcome State Fault Refusal := finish s (runPqInsert n s)

/-- PQ_REMOVE_MIN (41_priority_queue R100). -/
def execPqRemoveMin (s : State) : Host.Outcome State Fault Refusal := finish s (runPqRemoveMin s)

end Sys2Proof.Machine
end

