-- ==== Sys2Proof/Machine/Serializer.lean ====
section
/-! DEFINITION. Unit 0x4, the header and tree serializer (44_tree_serializer.md). -/

namespace Sys2Proof.Machine

/-- The serialized form of a leaf: the tag, the escape where the value is 0x2A or 0x5C, the value
(44_tree_serializer R112). -/
def leafBytes (sym : Byte) : List Byte :=
  if sym = Config.metaByte ∨ sym = Config.esc then [Config.tagLeaf, Config.esc, sym] else [Config.tagLeaf, sym]

/-- The pre-order walk that HCORE serializes with: the nodes still to visit, at most `fuel` of them. A node gives
at least one byte, so 8192 visits reach 8192 bytes or the end of the tree (44_tree_serializer R113). -/
def serWalk (nodes : List Node) : (fuel : Nat) → List NodeIdx → List Byte
  | 0, _ => []
  | _ + 1, [] => []
  | fuel + 1, i :: todo =>
    let n := nodeIn nodes i
    if n.leaf then leafBytes n.sym ++ serWalk nodes fuel todo
    else Config.tagInternal :: serWalk nodes fuel (n.left :: n.right :: todo)

/-- Ser(i), exact where it has at most 8191 bytes, at least 8192 bytes of it otherwise; Ser(NIL) is empty
(44_tree_serializer R112, R113). -/
def serTree (s : State) (i : NodeIdx) : List Byte :=
  if i = Config.nil then [] else serWalk s.nodes (Config.maxTreeSize + 1) [i]

/-- SerSizeSat(i) = min(|Ser(i)|, 8192) (44_tree_serializer R113). -/
def serSizeSat (s : State) (i : NodeIdx) : Nat := min (serTree s i).length (Config.maxTreeSize + 1)

/-- The payload's bit count, the sum of FREQ[b] × LEN[b] (44_tree_serializer R115). -/
def payloadBits (s : State) : Nat :=
  (List.zipWith (fun f l => f.toNat * l.toNat) s.freq.toList s.len.toList).sum

/-- The padding count for a payload of `t` bits (44_tree_serializer R115). -/
def paddingFor (t : Nat) : Nat := (8 - t % 8) % 8

/-- Emit(h[15:8]), Emit(h[7:0]) (44_tree_serializer R116, R117). -/
def emitHeader (h : BitVec 16) (s : State) : Run Unit :=
  emitAll [h.extractLsb' 8 8, h.extractLsb' 0 8] s

/-- TS_MEASURE's pseudocode (44_tree_serializer R114). -/
def runTsMeasure (s : State) : Run Unit :=
  let size := serSizeSat s s.root
  if size > Config.maxTreeSize then .raise .hdrRange (BitVec.ofNat 32 size) s
  else .done () { s with treeSize := BitVec.ofNat 13 size, result := BitVec.ofNat 32 size }

/-- TS_PAD's pseudocode (44_tree_serializer R115). -/
def runTsPad (s : State) : Run Unit :=
  let t := payloadBits s
  .done ()
    { s with
      totalBits := BitVec.ofNat 64 t
      pad := BitVec.ofNat 3 (paddingFor t)
      result := BitVec.ofNat 32 (paddingFor t) }

/-- TS_WRITE_HEADER's pseudocode (44_tree_serializer R116). -/
def runTsWriteHeader (s : State) : Run Unit := emitHeader (s.pad ++ s.treeSize) s

/-- TS_WRITE_HEADER_IMM's pseudocode (44_tree_serializer R117). -/
def runTsWriteHeaderImm (h : BitVec 16) (s : State) : Run Unit := emitHeader h s

/-- TS_WRITE_TREE's pseudocode (44_tree_serializer R118). -/
def runTsWriteTree (s : State) : Run Unit :=
  let size := serSizeSat s s.root
  if size > Config.maxTreeSize then .raise .hdrRange (BitVec.ofNat 32 size) s
  else
    (emitAll (serTree s s.root) s).andThen fun _ s' => .done () (setResult (BitVec.ofNat 32 size) s')

/-- TS_MEASURE (44_tree_serializer R114). -/
def execTsMeasure (s : State) : Host.Outcome State Fault Refusal := finish s (runTsMeasure s)

/-- TS_PAD (44_tree_serializer R115). -/
def execTsPad (s : State) : Host.Outcome State Fault Refusal := finish s (runTsPad s)

/-- TS_WRITE_HEADER (44_tree_serializer R116). -/
def execTsWriteHeader (s : State) : Host.Outcome State Fault Refusal := finish s (runTsWriteHeader s)

/-- TS_WRITE_HEADER_IMM h (44_tree_serializer R117). -/
def execTsWriteHeaderImm (h : BitVec 16) (s : State) : Host.Outcome State Fault Refusal :=
  finish s (runTsWriteHeaderImm h s)

/-- TS_WRITE_TREE (44_tree_serializer R118). -/
def execTsWriteTree (s : State) : Host.Outcome State Fault Refusal := finish s (runTsWriteTree s)

end Sys2Proof.Machine
end

