-- ==== Sys2Proof/Machine/TreeBuilder.lean ====
section
/-! DEFINITION. Unit 0x2, the tree builder (42_tree_builder.md). -/

namespace Sys2Proof.Machine

/-- The rest of MergeStep() once A and B have left the queue (42_tree_builder R103). -/
def mergeNodes (a b : NodeIdx) (s : State) : Run NodeIdx :=
  if s.nodes.length = Config.nodeCap then .raise .arenaFull (BitVec.ofNat 32 s.nodes.length) s
  else if (keyOf s a).toNat + (keyOf s b).toNat > 2 ^ 32 - 1 then
    .raise .freqOverflow ((b.setWidth 32 <<< 16) ||| a.setWidth 32) s
  else
    (allocNode (internalNode (keyOf s a + keyOf s b) a b) .arenaFull s).andThen fun n s₁ =>
      (pqInsertNode n s₁).andThen fun _ s₂ => .done n s₂

/-- MergeStep(): A is removed first and goes left, B second and goes right (42_tree_builder R103). -/
def mergeStep (s : State) : Run NodeIdx :=
  if s.heap.length < 2 then .raise .mergeUnderflow (BitVec.ofNat 32 s.heap.length) s
  else
    (pqRemoveNode s).andThen fun a s₁ =>
      (pqRemoveNode s₁).andThen fun b s₂ => mergeNodes a b s₂

/-- TB_BUILD's loop: while HEAP_SIZE > 1, MergeStep() (42_tree_builder R108). A merge lowers HEAP_SIZE by one, so
`fuel` of HEAP_SIZE is enough. -/
def mergeAll : (fuel : Nat) → State → Run Unit
  | 0, s => .done () s
  | fuel + 1, s =>
    if 1 < s.heap.length then (mergeStep s).andThen fun _ s' => mergeAll fuel s' else .done () s

/-- TB_LOAD_LEAVES's loop over the byte values, counting the leaves in `k` (42_tree_builder R106). -/
def loadLeaves : List Byte → (k : Nat) → State → Run Nat
  | [], k, s => .done k s
  | b :: rest, k, s =>
    if freqAt s b = 0#32 then loadLeaves rest k s
    else
      (allocNode (leafNode b (freqAt s b)) .arenaFull s).andThen fun n s₁ =>
        (pqInsertNode n s₁).andThen fun _ s₂ => loadLeaves rest (k + 1) s₂

/-- TB_CLEAR's pseudocode (42_tree_builder R104). -/
def runTbClear (s : State) : Run Unit := .done () (treeClear s)

/-- TB_NEW_LEAF's pseudocode (42_tree_builder R105). -/
def runTbNewLeaf (sym : Byte) (s : State) : Run Unit :=
  (allocNode (leafNode sym (freqAt s sym)) .arenaFull s).andThen fun i s' =>
    .done () (setResult (i.setWidth 32) s')

/-- TB_LOAD_LEAVES's pseudocode (42_tree_builder R106). -/
def runTbLoadLeaves (s : State) : Run Unit :=
  (loadLeaves allBytes 0 (treeClear s)).andThen fun k s' => .done () (setResult (BitVec.ofNat 32 k) s')

/-- TB_MERGE's pseudocode (42_tree_builder R107). -/
def runTbMerge (s : State) : Run Unit :=
  (mergeStep s).andThen fun n s' => .done () (setResult (n.setWidth 32) s')

/-- The end of TB_BUILD: ROOT, BU_CUR and RESULT take the root (42_tree_builder R108). -/
def takeRoot (r : NodeIdx) (s : State) : State :=
  { s with root := r, buCur := r, result := r.setWidth 32 }

/-- TB_BUILD's pseudocode (42_tree_builder R108). -/
def runTbBuild (s : State) : Run Unit :=
  (mergeAll s.heap.length s).andThen fun _ s₁ =>
    if s₁.heap.length = 1 then (pqRemoveNode s₁).andThen fun r s₂ => .done () (takeRoot r s₂)
    else .done () (takeRoot Config.nil s₁)

/-- TB_CLEAR (42_tree_builder R104). -/
def execTbClear (s : State) : Host.Outcome State Fault Refusal := finish s (runTbClear s)

/-- TB_NEW_LEAF s (42_tree_builder R105). -/
def execTbNewLeaf (sym : Byte) (s : State) : Host.Outcome State Fault Refusal := finish s (runTbNewLeaf sym s)

/-- TB_LOAD_LEAVES (42_tree_builder R106). -/
def execTbLoadLeaves (s : State) : Host.Outcome State Fault Refusal := finish s (runTbLoadLeaves s)

/-- TB_MERGE (42_tree_builder R107). -/
def execTbMerge (s : State) : Host.Outcome State Fault Refusal := finish s (runTbMerge s)

/-- TB_BUILD (42_tree_builder R108). -/
def execTbBuild (s : State) : Host.Outcome State Fault Refusal := finish s (runTbBuild s)

end Sys2Proof.Machine
end

