-- ==== Sys2Proof/Machine/Unpacker.lean ====
section
/-! DEFINITION. Unit 0x7, the bit unpacker and decoder (47_bit_unpacker.md). -/

namespace Sys2Proof.Machine

/-- Emit a leaf's symbol `v` and return `0x100 | v` (47_bit_unpacker R129). -/
def emitSym (v : Byte) (s : State) : Run Word :=
  (emit v s).andThen fun _ s' => .done (0x100#32 ||| v.setWidth 32) s'

/-- The child of the cursor that bit `x` descends to: left on 0, right on 1 (47_bit_unpacker R129). -/
def childOf (x : BitVec 1) (n : Node) : NodeIdx := if x = 0#1 then n.left else n.right

/-- DecodeBit(x, pos) (47_bit_unpacker R129). -/
def decodeBit (x : BitVec 1) (pos : Word) (s : State) : Run Word :=
  if s.root = Config.nil then .raise .fmtNoTree 0#32 s
  else if isLeaf s s.root then
    if x = 0#1 then emitSym (nodeAt s s.root).sym s else .raise .fmtBadCode pos s
  else
    let nx := childOf x (nodeAt s s.buCur)
    if isLeaf s nx then
      (emitSym (nodeAt s nx).sym s).andThen fun r s' => .done r { s' with buCur := s'.root }
    else .done 0#32 { s with buCur := nx }

/-- The bit's position in the payload, `(j << 3) | (7 - i)` modulo 2^32, with `k = 7 - i` (47_bit_unpacker R132,
60_exceptions R135). -/
def bitPos (j k : Nat) : Word := BitVec.ofNat 32 (j <<< 3 ||| k)

/-- Decode `n` bits of payload byte `j`, value `y`, from its bit `7 - k` downwards, counting emitted bytes in `e`
(47_bit_unpacker R132). -/
def decodeBits (y : Byte) (j : Nat) : (n k e : Nat) → State → Run Nat
  | 0, _, e, s => .done e s
  | n + 1, k, e, s =>
    (decodeBit (y.extractLsb' (7 - k) 1) (bitPos j k) s).andThen fun r s' =>
      decodeBits y j n (k + 1) (if r ≠ 0#32 then e + 1 else e) s'

/-- How many bits of a payload byte are decoded: all 8, but the last byte's low PAD bits are skipped
(47_bit_unpacker R132). -/
def bitsToDecode (last : Bool) (pad : BitVec 3) : Nat := if last then 8 - pad.toNat else 8

/-- The loop over the payload bytes, `rest` of them left, the next being byte `j` (47_bit_unpacker R132). -/
def decodeBytes : (rest j e : Nat) → State → Run Nat
  | 0, _, e, s => .done e s
  | rest + 1, j, e, s =>
    (inRead s).andThen fun y s₁ =>
      (decodeBits y j (bitsToDecode (rest == 0) s₁.pad) 0 e s₁).andThen fun e' s₂ =>
        decodeBytes rest (j + 1) e' s₂

/-- RESULT for `e` emitted bytes: `e` where it fits 32 bits; the spec states no result where it does not, so that
one value is free (47_bit_unpacker R132, log 8). -/
def countResult (e : Nat) : Word := if e < 2 ^ 32 then BitVec.ofNat 32 e else Config.decodeCount e

/-- The end of BU_DECODE_STREAM for a payload of `p` bytes (47_bit_unpacker R132). -/
def endPayload (p e : Nat) (s : State) : Run Unit :=
  if p = 0 ∨ s.buCur ≠ s.root then .raise .fmtPayloadTruncated (s.buCur.setWidth 32) s
  else .done () (setResult (countResult e) s)

/-- BU_RESET's pseudocode (47_bit_unpacker R130). -/
def runBuReset (s : State) : Run Unit := .done () { s with buCur := s.root }

/-- BU_BIT's pseudocode (47_bit_unpacker R131). -/
def runBuBit (x : BitVec 1) (s : State) : Run Unit :=
  (decodeBit x 0#32 s).andThen fun r s' => .done () (setResult r s')

/-- BU_DECODE_STREAM's pseudocode (47_bit_unpacker R132). -/
def runBuDecodeStream (s : State) : Run Unit :=
  if s.inRem = 0#32 ∧ s.pad ≠ 0#3 then .raise .fmtPadNoPayload (s.pad.setWidth 32) s
  else if s.root = Config.nil then
    if s.inRem = 0#32 then .done () (setResult 0#32 s) else .raise .fmtNoTree 0#32 s
  else
    (decodeBytes s.inRem.toNat 0 0 { s with buCur := s.root }).andThen fun e s' =>
      endPayload s.inRem.toNat e s'

/-- BU_RESET (47_bit_unpacker R130). -/
def execBuReset (s : State) : Host.Outcome State Fault Refusal := finish s (runBuReset s)

/-- BU_BIT x (47_bit_unpacker R131). -/
def execBuBit (x : BitVec 1) (s : State) : Host.Outcome State Fault Refusal := finish s (runBuBit x s)

/-- BU_DECODE_STREAM (47_bit_unpacker R132). -/
def execBuDecodeStream (s : State) : Host.Outcome State Fault Refusal := finish s (runBuDecodeStream s)

end Sys2Proof.Machine
end

