-- ==== Sys2Proof/Machine/Dispatch.lean ====
section
/-! DEFINITION. Executing an accepted command: one arm per command, each a call of its meaning (40_control R84). -/

namespace Sys2Proof.Machine

def exec (i : Instr) (s : State) : Host.Outcome State Fault Refusal :=
  match i with
  | .nop => Sys2Proof.Machine.execNop s
  | .pqClear => Sys2Proof.Machine.execPqClear s
  | .pqInsert n => Sys2Proof.Machine.execPqInsert n s
  | .pqRemoveMin => Sys2Proof.Machine.execPqRemoveMin s
  | .tbClear => Sys2Proof.Machine.execTbClear s
  | .tbNewLeaf sym => Sys2Proof.Machine.execTbNewLeaf sym s
  | .tbLoadLeaves => Sys2Proof.Machine.execTbLoadLeaves s
  | .tbMerge => Sys2Proof.Machine.execTbMerge s
  | .tbBuild => Sys2Proof.Machine.execTbBuild s
  | .cgGenerate => Sys2Proof.Machine.execCgGenerate s
  | .tsMeasure => Sys2Proof.Machine.execTsMeasure s
  | .tsPad => Sys2Proof.Machine.execTsPad s
  | .tsWriteHeader => Sys2Proof.Machine.execTsWriteHeader s
  | .tsWriteHeaderImm h => Sys2Proof.Machine.execTsWriteHeaderImm h s
  | .tsWriteTree => Sys2Proof.Machine.execTsWriteTree s
  | .tdReadHeader => Sys2Proof.Machine.execTdReadHeader s
  | .tdReadTree => Sys2Proof.Machine.execTdReadTree s
  | .bpReset => Sys2Proof.Machine.execBpReset s
  | .bpAddBit x => Sys2Proof.Machine.execBpAddBit x s
  | .bpFlush => Sys2Proof.Machine.execBpFlush s
  | .bpEncodeByte sym => Sys2Proof.Machine.execBpEncodeByte sym s
  | .bpEncodeStream => Sys2Proof.Machine.execBpEncodeStream s
  | .buReset => Sys2Proof.Machine.execBuReset s
  | .buBit x => Sys2Proof.Machine.execBuBit x s
  | .buDecodeStream => Sys2Proof.Machine.execBuDecodeStream s

end Sys2Proof.Machine
end

