-- ==== Sys2Proof/Machine/Registers.lean ====
section
/-! DEFINITION. The host-visible registers: the map of 10_state R20, what a read returns and what a write stores
(10_state R21 to R43). -/

namespace Sys2Proof.Machine

/-- A host register (10_state R20). -/
inductive Reg where
  | id | version | ctrl | status | cmd | result | root | nodeCount | heapSize | pad | treeSize
  | totalBitsLo | totalBitsHi | inLen | bpState | buCur | outCount | errCmd | errArg
  | freqIdx | freqData | codeIdx | codeBits | codeLen | nodeIdx | nodeInfo | nodeFreq | nodeLink
  | heapIdx | heapEntry
  deriving DecidableEq, Repr

/-- Access types: RO ignores writes, WO reads 0, RW is read and written (10_state R20). -/
inductive Access where
  | ro | wo | rw
  deriving DecidableEq, Repr

/-- The register map (10_state R20). -/
def Reg.offset : Reg → Nat
  | .id => 0x000
  | .version => 0x004
  | .ctrl => 0x008
  | .status => 0x00C
  | .cmd => 0x010
  | .result => 0x014
  | .root => 0x018
  | .nodeCount => 0x01C
  | .heapSize => 0x020
  | .pad => 0x024
  | .treeSize => 0x028
  | .totalBitsLo => 0x02C
  | .totalBitsHi => 0x030
  | .inLen => 0x034
  | .bpState => 0x038
  | .buCur => 0x03C
  | .outCount => 0x040
  | .errCmd => 0x044
  | .errArg => 0x048
  | .freqIdx => 0x080
  | .freqData => 0x084
  | .codeIdx => 0x088
  | .codeBits => 0x08C
  | .codeLen => 0x090
  | .nodeIdx => 0x094
  | .nodeInfo => 0x098
  | .nodeFreq => 0x09C
  | .nodeLink => 0x0A0
  | .heapIdx => 0x0A4
  | .heapEntry => 0x0A8

/-- The access type of each register (10_state R20). -/
def Reg.access : Reg → Access
  | .ctrl => .wo
  | .cmd => .wo
  | .inLen => .rw
  | .freqIdx => .rw
  | .freqData => .rw
  | .codeIdx => .rw
  | .nodeIdx => .rw
  | .heapIdx => .rw
  | .id => .ro
  | .version => .ro
  | .status => .ro
  | .result => .ro
  | .root => .ro
  | .nodeCount => .ro
  | .heapSize => .ro
  | .pad => .ro
  | .treeSize => .ro
  | .totalBitsLo => .ro
  | .totalBitsHi => .ro
  | .bpState => .ro
  | .buCur => .ro
  | .outCount => .ro
  | .errCmd => .ro
  | .errArg => .ro
  | .codeBits => .ro
  | .codeLen => .ro
  | .nodeInfo => .ro
  | .nodeFreq => .ro
  | .nodeLink => .ro
  | .heapEntry => .ro

/-- The registers in the order of the map's two blocks. -/
def allRegs : List Reg :=
  [.id, .version, .ctrl, .status, .cmd, .result, .root, .nodeCount, .heapSize, .pad, .treeSize,
    .totalBitsLo, .totalBitsHi, .inLen, .bpState, .buCur, .outCount, .errCmd, .errArg]
  ++ [.freqIdx, .freqData, .codeIdx, .codeBits, .codeLen, .nodeIdx, .nodeInfo, .nodeFreq, .nodeLink,
    .heapIdx, .heapEntry]

/-- The register at an offset; `none` at a reserved one (10_state R43). -/
def regAt (off : Nat) : Option Reg := allRegs.find? fun r => r.offset == off

/-- NODE_INFO: VALID in bit 31, LEAF in bit 30, SYM in bits 7:0; 0 when the index is not valid (10_state R41). -/
def nodeInfoWord (s : State) : Word :=
  if s.nodeIdx.toNat < nodeCount s then
    1#1 ++ BitVec.ofBool (nodeAt s s.nodeIdx).leaf ++ 0#22 ++ (nodeAt s s.nodeIdx).sym
  else 0#32

/-- NODE_FREQ (10_state R41). -/
def nodeFreqWord (s : State) : Word :=
  if s.nodeIdx.toNat < nodeCount s then (nodeAt s s.nodeIdx).freq else 0#32

/-- NODE_LINK: LEFT in bits 8:0, RIGHT in bits 24:16 (10_state R41). -/
def nodeLinkWord (s : State) : Word :=
  if s.nodeIdx.toNat < nodeCount s then
    0#7 ++ (nodeAt s s.nodeIdx).right ++ 0#7 ++ (nodeAt s s.nodeIdx).left
  else 0#32

/-- HEAP_ENTRY: VALID in bit 31, the node index in bits 8:0 (10_state R42). -/
def heapEntryWord (s : State) : Word :=
  match s.heap[s.heapIdx.toNat]? with
  | some n => 1#1 ++ 0#22 ++ n
  | none => 0#32

/-- What a register reads while BUSY = 0 (10_state R21 to R42). No read has a side effect (20_memory R55). -/
def readReg (r : Reg) (s : State) : Word :=
  match r with
  | .id => Config.idValue
  | .version => Config.versionValue
  | .ctrl => 0#32
  | .status => statusWord s
  | .cmd => 0#32
  | .result => s.result
  | .root => s.root.setWidth 32
  | .nodeCount => BitVec.ofNat 32 (nodeCount s)
  | .heapSize => BitVec.ofNat 32 (heapSize s)
  | .pad => s.pad.setWidth 32
  | .treeSize => s.treeSize.setWidth 32
  | .totalBitsLo => s.totalBits.extractLsb' 0 32
  | .totalBitsHi => s.totalBits.extractLsb' 32 32
  | .inLen => s.inRem
  | .bpState => 0#21 ++ s.cnt ++ s.acc
  | .buCur => s.buCur.setWidth 32
  | .outCount => s.outCount
  | .errCmd => s.errCmd
  | .errArg => s.errArg
  | .freqIdx => s.freqIdx.setWidth 32
  | .freqData => freqAt s s.freqIdx
  | .codeIdx => s.codeIdx.setWidth 32
  | .codeBits => codeAt s s.codeIdx
  | .codeLen => (lenAt s s.codeIdx).setWidth 32
  | .nodeIdx => s.nodeIdx.setWidth 32
  | .nodeInfo => nodeInfoWord s
  | .nodeFreq => nodeFreqWord s
  | .nodeLink => nodeLinkWord s
  | .heapIdx => s.heapIdx.setWidth 32
  | .heapEntry => heapEntryWord s

/-- What an aligned read of an offset returns while BUSY = 0; reserved offsets read 0 (10_state R43). -/
def readOffset (off : Nat) (s : State) : Word :=
  match regAt off with
  | some r => readReg r s
  | none => 0#32

/-- The offsets that read their defined value while BUSY = 1: ID, VERSION and STATUS (20_memory R56), and the reserved
offsets, which hold no register and read 0 at all times (10_state R43, 93_implementation_defined U16). -/
def readableWhileBusy (off : Nat) : Bool :=
  match regAt off with
  | some r => r == .id || r == .version || r == .status
  | none => true

/-- A write of `v` to IN_LEN opens a new IN stream; what was left of the old one is discarded (20_memory R58). -/
def openStream (v : Word) (s : State) : State := { s with inRem := v, inSeq := [] }

/-- A write of `v` to FREQ_DATA, then the index increment (10_state R39). -/
def writeFreqData (v : Word) (s : State) : State :=
  { setFreq s.freqIdx v s with freqIdx := s.freqIdx + 1#8 }

/-- A write to a register whose write only stores, while BUSY = 0: RW registers take it, RO registers ignore it
(10_state R20, R33, R39 to R42). CTRL and CMD have actions of their own and are not written here. -/
def writeReg (r : Reg) (v : Word) (s : State) : State :=
  match r with
  | .inLen => openStream v s
  | .freqIdx => { s with freqIdx := v.extractLsb' 0 8 }
  | .freqData => writeFreqData v s
  | .codeIdx => { s with codeIdx := v.extractLsb' 0 8 }
  | .nodeIdx => { s with nodeIdx := v.extractLsb' 0 9 }
  | .heapIdx => { s with heapIdx := v.extractLsb' 0 8 }
  | .id => s
  | .version => s
  | .ctrl => s
  | .status => s
  | .cmd => s
  | .result => s
  | .root => s
  | .nodeCount => s
  | .heapSize => s
  | .pad => s
  | .treeSize => s
  | .totalBitsLo => s
  | .totalBitsHi => s
  | .bpState => s
  | .buCur => s
  | .outCount => s
  | .errCmd => s
  | .errArg => s
  | .codeBits => s
  | .codeLen => s
  | .nodeInfo => s
  | .nodeFreq => s
  | .nodeLink => s
  | .heapEntry => s

end Sys2Proof.Machine
end

