-- ==== Sys2Proof/Machine/Issue.lean ====
section
/-! DEFINITION. The acts of the engine and of the host: running the accepted command (40_control R84), register
accesses (20_memory R54 to R56, 70_reset_and_hazards R152), CTRL's actions (40_control R87 to R89), reset
(70_reset_and_hazards R149), and the byte streams (20_memory R58, R59). -/

namespace Sys2Proof.Machine

/-- The engine's turn: the command in progress runs to its end, an illegal word raises ILLEGAL_COMMAND with
ERR_ARG = 0 (40_control R84, R85, 30_encoding R80); with BUSY = 0 HCORE does nothing (60_exceptions R147). -/
def engineStep (s : State) : Host.Outcome State Fault Refusal :=
  if s.busy then
    match decode s.cmdWord with
    | .ok i => exec i s
    | .error _ => .next (takeError .illegalCommand 0#32 s)
  else .next s

/-- A host write of `w` to CMD: accepted when BUSY = 0 and ERR = 0, else discarded, setting OVR (40_control R84). -/
def cmdWrite (w : Word) (s : State) : State :=
  if s.busy || s.err then setOverrun s else acceptCommand w s

/-- The bytes the command in progress would put out if it went on now: all of them, or those before it waits. -/
def runningOut (s : State) : List Byte :=
  match engineStep s with
  | .next t => if t.busy then t.waitOut else t.outSeq.drop s.outSeq.length
  | .fault _ => s.waitOut
  | .refused _ => s.waitOut

/-- The bytes of the command in progress that are out when a reset aborts it at an unspecified point: those already
out, and a free number of the next ones (40_control R87, U9, log 7). -/
def abortedOut (s : State) : List Byte :=
  let more := (runningOut s).drop s.waitOut.length
  s.waitOut ++ more.take (Config.abortPoint s.draws % (more.length + 1))

/-- Abort the command in progress, if any: only what it has put out remains of it (40_control R87). -/
def abortCommand (s : State) : State :=
  if s.busy then
    { s with
      outSeq := s.outSeq ++ abortedOut s
      outRoom := s.outRoom.map fun room => room - (abortedOut s).length
      draws := s.draws + 1 }
  else s

/-- Reset: hard reset and CTRL.SOFT_RESET have the same effect (70_reset_and_hazards R148, R149). -/
def doReset (s : State) : State := resetCore (abortCommand s)

/-- A host write to CTRL, accepted at any time: bit 0 SOFT_RESET, bit 1 CLR_ERR, bit 2 CLR_OVR; with bit 0 set the
others have no separate effect (10_state R23, 40_control R87 to R89). -/
def ctrlWrite (v : Word) (s : State) : State :=
  if v.getLsbD 0 then doReset s
  else
    let s₁ := if v.getLsbD 1 then clearError s else s
    if v.getLsbD 2 then clearOverrun s₁ else s₁

/-- HC_BASE (00_scope R9). -/
def hcBase (s : State) : Nat := s.hcPage * 0x100

/-- The offset of a bus address in HCORE's 256 bytes; `none` for an address that is not HCORE's (20_memory R67). -/
def offsetOf (s : State) (addr : Nat) : Option Nat :=
  if hcBase s ≤ addr ∧ addr < hcBase s + Config.regSpan then some (addr - hcBase s) else none

/-- A supported access: 32 bits wide at a multiple of 4 (20_memory R54). -/
def supportedAccess (width off : Nat) : Bool := width == 4 && off % 4 == 0

/-- A register read that returns an unspecified value: a free value (20_memory R54, R56, U3, U4). -/
def readFree (s : State) : State := { s with readData := Config.busyRead s.draws, draws := s.draws + 1 }

/-- A host read of the register space (20_memory R54, R56, 10_state R43). An address that is not HCORE's is not answered. -/
def busRead (width addr : Nat) (s : State) : State :=
  match offsetOf s addr with
  | none => s
  | some off =>
    if supportedAccess width off && (!s.busy || readableWhileBusy off) then
      { s with readData := readOffset off s }
    else readFree s

/-- A supported write of `v` at an offset (10_state R20, R43, 40_control R84, R87, 70_reset_and_hazards R152). While
BUSY = 1 a write to a RW register has no specified effect and is refused (U5). -/
def regWrite (off : Nat) (v : Word) (s : State) : Host.Outcome State Fault Refusal :=
  match regAt off with
  | none => .next s
  | some .ctrl => .next (ctrlWrite v s)
  | some .cmd => .next (cmdWrite v s)
  | some r => if s.busy && r.access == .rw then .refused (.busyRegisterWrite off) else .next (writeReg r v s)

/-- A host write to the register space. An unsupported one is ignored (20_memory R54, log 9). -/
def busWrite (width addr : Nat) (v : Word) (s : State) : Host.Outcome State Fault Refusal :=
  match offsetOf s addr with
  | none => .next s
  | some off => if supportedAccess width off then regWrite off v s else .next s

/-- The host supplies the next byte of the open IN stream; one that no stream asks for breaks duty 1 of 20_memory
R75, and the run has no modelled behaviour (20_memory R58, log 11). -/
def supplyByte (b : Byte) (s : State) : Host.Outcome State Fault Refusal :=
  if s.inSeq.length < s.inRem.toNat then .next { s with inSeq := s.inSeq ++ [b] } else .refused .unaskedInByte

/-- The host says how many OUT bytes it accepts from now on; a waiting command's bytes are out already
(20_memory R59, log 13). -/
def setOutReady (room : Option Nat) (s : State) : State :=
  { s with outRoom := room.map fun n => n + s.waitOut.length }

/-- One act (20_memory R74). -/
def perform (a : Input) (s : State) : Host.Outcome State Fault Refusal :=
  match a with
  | .read width addr => .next (busRead width addr s)
  | .write width addr v => busWrite width addr v s
  | .supply b => supplyByte b s
  | .outReady room => .next (setOutReady room s)
  | .hardReset => .next (doReset s)
  | .engine => engineStep s

/-- The next act of the list; with none left, the engine has its turn (60_exceptions R147, log 3). -/
def nextAct (s : State) : Host.Outcome State Fault Refusal :=
  match s.inputs with
  | [] => engineStep s
  | a :: rest => perform a { s with inputs := rest }

/-- The state in which the word `w` has just been accepted as a command and the engine moves next: what a host write
of `w` to CMD leaves when BUSY = 0 and ERR = 0 (40_control R84, log 1). -/
def issueWord (w : Word) (s : State) : State := acceptCommand w { s with inputs := .engine :: s.inputs }

end Sys2Proof.Machine
end

