-- ==== Sys2Proof/Machine/Step.lean ====
section
/-! DEFINITION. One step of HCORE and its environment, and where a command word is placed for the next step. -/

namespace Sys2Proof.Machine

/-- One step: the next act of the host or the engine. -/
def step (s : State) : Host.Outcome State Fault Refusal := nextAct s

/-- `s` with the command word `w` (its low `nbits` bits) accepted and the engine about to run it: a write of the word
to CMD. A command is one 32-bit word (30_encoding R81). -/
def State.withFetchWord (s : State) (nbits w : Nat) : State := issueWord (BitVec.ofNat 32 (w % 2 ^ nbits)) s

end Sys2Proof.Machine
end

