-- ==== Sys2Proof/Machine/HostProgram.lean ====
section
/-! DEFINITION. Host programs: the pseudo-instructions of 30_encoding R83 as the host's operations, WAIT with its loop,
and a run of them from the reset state with a given IN supply and its end (70_reset_and_hazards R158). -/

namespace Sys2Proof.Machine

/-- A pseudo-instruction of a host program: one for each row of the table of 30_encoding R83. DESIGN CHOICE, safe
(log 21): no form loops or branches on a value that the host reads, which R83's table does not have either, while
program P4 of 95_test_vectors has such a loop as the host's own control flow (40_control R91). DESIGN CHOICE, safe
(log 21): the `reg` of WR and RD may also be a register of the space by its number, a reserved one among them. R83 writes
only `offset(reg)`, and vector CTL-10 of 95_test_vectors has RD 0x04C and RD 0x0FC. -/
inductive Pseudo where
  /-- `WR reg, v` of a register of the map. -/
  | wr (r : Reg) (v : Word)
  /-- `RD reg` of a register of the map. -/
  | rd (r : Reg)
  /-- `WR 4n, v`: of any of the 64 registers of the space (20_memory R53), the reserved ones too. -/
  | wrAt (n : Fin 64) (v : Word)
  /-- `RD 4n`: of any of the 64 registers of the space. -/
  | rdAt (n : Fin 64)
  /-- `WAIT`. -/
  | wait
  /-- A command in a program: `WR CMD, word` then `WAIT`. -/
  | command (i : Instr)
  /-- `CHECK`. -/
  | check
  /-- `LDFREQ b, f`. -/
  | ldfreq (b : Byte) (f : Word)
  /-- `LDFREQS f0, ..., f255`. -/
  | ldfreqs (fs : Vector Word 256)
  /-- `OPEN n: b0 b1 ...`, with `n` the number of bytes listed, fewer than 2^32 (log 21). -/
  | openStream (bytes : List Byte)
  /-- `HDR p, t`. -/
  | hdr (p : BitVec 3) (t : BitVec 13)
  /-- `CLRERR`. -/
  | clrerr
  /-- `SRESET`. -/
  | sreset
  deriving DecidableEq, Repr

/-- What a host program has the host do. -/
inductive HostOp where
  /-- `MemWrite(HC_BASE + off, 4, v)`. -/
  | write (off : Nat) (v : Word)
  /-- `MemRead(HC_BASE + off, 4)`. -/
  | read (off : Nat)
  /-- The IN_LEN write of OPEN, with the bytes that the host will supply. -/
  | openWith (bytes : List Byte)
  /-- Repeat `RD STATUS` until bit 0 (BUSY) reads 0. -/
  | untilIdle
  /-- `RD STATUS`, and stop the program where bit 1 (ERR) reads 1. -/
  | stopOnError
  deriving DecidableEq, Repr

/-- `WR CMD, word` then `WAIT`. -/
def commandOps (i : Instr) : List HostOp := [.write Reg.cmd.offset (encode i), .untilIdle]

/-- The expansion of a pseudo-instruction (30_encoding R83). -/
def Pseudo.ops : Pseudo → List HostOp
  | .wr r v => [.write r.offset v]
  | .rd r => [.read r.offset]
  | .wrAt n v => [.write (4 * n.val) v]
  | .rdAt n => [.read (4 * n.val)]
  | .wait => [.untilIdle]
  | .command i => commandOps i
  | .check => [.stopOnError]
  | .ldfreq b f => [.write Reg.freqIdx.offset (b.setWidth 32), .write Reg.freqData.offset f]
  | .ldfreqs fs => .write Reg.freqIdx.offset 0#32 :: fs.toList.map (.write Reg.freqData.offset)
  | .openStream bytes => [.openWith bytes]
  | .hdr p t => commandOps (.tsWriteHeaderImm (p ++ t))
  | .clrerr => [.write Reg.ctrl.offset 0x2#32]
  | .sreset => [.write Reg.ctrl.offset 0x1#32, .untilIdle]

/-- HCORE in the hands of a host program. -/
structure ProgramState where
  machine : State
  /-- The bytes of the open IN stream that the host has yet to supply. -/
  unsent : List Byte
  /-- The given IN supply (70_reset_and_hazards R158), less what went to streams already opened. -/
  supply : List Byte
  deriving DecidableEq, Repr

/-- What the engine and the host's stream ports do between two register accesses of the program (00_scope R5). -/
inductive PortMove where
  /-- The engine moves. -/
  | engine
  /-- The host supplies the next byte of the open stream, where HCORE asks for one (20_memory R75). -/
  | supply
  /-- The host says how many more OUT bytes it accepts (20_memory R59). -/
  | outReady (room : Option Nat)
  deriving DecidableEq, Repr

/-- An act on HCORE, after which the host has `unsent` of the open stream and `supply` beyond it. -/
def hostAct (a : Input) (unsent supply : List Byte) (p : ProgramState) : Host.Outcome ProgramState Fault Refusal :=
  match perform a p.machine with
  | .next s => .next ⟨s, unsent, supply⟩
  | .fault f => .fault f
  | .refused r => .refused r

/-- A write of the program. A bare write of `v` to IN_LEN opens a stream of the next `v` bytes of the IN supply
(20_memory R58). -/
def hostWrite (off : Nat) (v : Word) (p : ProgramState) : Host.Outcome ProgramState Fault Refusal :=
  let a := .write 4 (hcBase p.machine + off) v
  if off = Reg.inLen.offset then hostAct a (p.supply.take v.toNat) (p.supply.drop v.toNat) p else hostAct a p.unsent p.supply p

/-- A read of the program. -/
def hostRead (off : Nat) (p : ProgramState) : Host.Outcome ProgramState Fault Refusal :=
  hostAct (.read 4 (hcBase p.machine + off)) p.unsent p.supply p

/-- One operation of the program, or one turn of its loop. -/
def HostOp.perform (op : HostOp) (p : ProgramState) : Host.Outcome ProgramState Fault Refusal :=
  match op with
  | .write off v => hostWrite off v p
  | .read off => hostRead off p
  | .openWith bytes =>
    hostAct (.write 4 (hcBase p.machine + Reg.inLen.offset) (BitVec.ofNat 32 bytes.length)) bytes p.supply p
  | .untilIdle => hostRead Reg.status.offset p
  | .stopOnError => hostRead Reg.status.offset p

/-- A move of the engine or of a port. -/
def PortMove.perform (m : PortMove) (p : ProgramState) : Host.Outcome ProgramState Fault Refusal :=
  match m with
  | .engine => hostAct .engine p.unsent p.supply p
  | .outReady room => hostAct (.outReady room) p.unsent p.supply p
  | .supply =>
    match p.unsent with
    | b :: rest => if p.machine.inSeq.length < p.machine.inRem.toNat then hostAct (.supply b) rest p.supply p else .next p
    | [] => .next p

/-- Moves in order, stopping at a fault or a refusal. -/
def performMoves : List PortMove → ProgramState → Host.Outcome ProgramState Fault Refusal
  | [], p => .next p
  | m :: rest, p =>
    match m.perform p with
    | .next p' => performMoves rest p'
    | .fault f => .fault f
    | .refused r => .refused r

/-- How a run of a host program comes out. -/
inductive RunEnd where
  /-- It ended, with BUSY = 0 (70_reset_and_hazards R158). -/
  | ended (s : State)
  /-- It has not ended: the moves ran out in WAIT, or before it, or the last operation left a command running. A run
  whose host breaks duty 1 or 2 of 20_memory R75 never ends: BUSY stays 1 (U6). -/
  | unfinished (p : ProgramState)
  /-- The model stops it. -/
  | fault (f : Fault)
  /-- The host broke a duty, and the run has no modelled behaviour (20_memory R75). -/
  | refused (r : Refusal)
  deriving DecidableEq, Repr

/-- The run ends here, where no command is in progress. -/
def endRun (p : ProgramState) : RunEnd := if p.machine.busy then .unfinished p else .ended p.machine

/-- What is left of the program after an operation whose STATUS read, if it made one, gave the value in `readData`:
WAIT stays until BUSY reads 0, and CHECK leaves nothing where ERR reads 1 (30_encoding R83). -/
def HostOp.rest (op : HostOp) (ops : List HostOp) (p : ProgramState) : List HostOp :=
  match op with
  | .untilIdle => if p.machine.readData.getLsbD 0 then op :: ops else ops
  | .stopOnError => if p.machine.readData.getLsbD 1 then [] else ops
  | .write _ _ => ops
  | .read _ => ops
  | .openWith _ => ops

/-- Run operations to the program's end. `env` gives, for each operation and each turn of a WAIT, the moves of the
engine and the ports that come before it: every interleaving is some `env` (20_memory R69). -/
def runOps : (env : List (List PortMove)) → List HostOp → ProgramState → RunEnd
  | _, [], p => endRun p
  | [], _ :: _, p => .unfinished p
  | moves :: env, op :: ops, p =>
    match performMoves moves p with
    | .fault f => .fault f
    | .refused r => .refused r
    | .next p₁ =>
      match op.perform p₁ with
      | .fault f => .fault f
      | .refused r => .refused r
      | .next p₂ => runOps env (op.rest ops p₂) p₂

/-- A run: a host program started in the reset state, with a given IN supply (70_reset_and_hazards R158).
DESIGN CHOICE, safe (log 21): the program is a straight-line list, in which only WAIT repeats and only CHECK stops. The
spec leaves open whether a host program may loop or branch on a value it reads: R83 lists no such form, 95_test_vectors
P4 has `while (RD HEAP_SIZE) > 1`. A host that does so runs here unrolled, as the list of what it executed. -/
def runProgram (env : List (List PortMove)) (supply : List Byte) (prog : List Pseudo) : RunEnd :=
  runOps env (prog.flatMap Pseudo.ops) ⟨State.reset, [], supply⟩

/-- The observation of a run: OUT_SEQ, the final register values, and STATUS (70_reset_and_hazards R158). DESIGN CHOICE,
safe (log 21): the register values are what a read of each named register would give in the final state, in the map's
order, so a window shows the entry that its index selects. -/
structure Observation where
  out : List Byte
  registers : List Word
  status : Word
  deriving DecidableEq, Repr

/-- What is observed of the state in which a run ended. -/
def observe (s : State) : Observation := ⟨s.outSeq, allRegs.map fun r => readReg r s, readReg .status s⟩

end Sys2Proof.Machine
end

