-- ==== Sys2Proof/Safety.lean ====
section
/-! DEFINITION. The terms claims are stated in: the abstract trees an arena holds, their serialized bytes and codes,
the packer's bit stream, the heap property, the host's duties, and the invariants of 10_state R50. -/

namespace Sys2Proof.Machine

/-- A prefix tree as the source's §3 has it, without storage: the meaning of a node index. -/
inductive CodeTree where
  | leaf (sym : Byte)
  | node (l r : CodeTree)
  deriving DecidableEq, Repr

/-- The number of edges from the root to a deepest leaf. -/
def CodeTree.height : CodeTree → Nat
  | .leaf _ => 0
  | .node l r => max l.height r.height + 1

/-- The serialized form of a leaf in the written grammar (20_memory R62). -/
def writtenLeaf (sym : Byte) : List Byte :=
  if sym = 0x2A#8 ∨ sym = 0x5C#8 then [0x31#8, 0x5C#8, sym] else [0x31#8, sym]

/-- Ser of a tree, in pre-order (44_tree_serializer R112, 20_memory R62). -/
def CodeTree.bytes : CodeTree → List Byte
  | .leaf sym => writtenLeaf sym
  | .node l r => 0x30#8 :: (l.bytes ++ r.bytes)

/-- The number of leaves. -/
def CodeTree.leafCount : CodeTree → Nat
  | .leaf _ => 1
  | .node l r => l.leafCount + r.leafCount

/-- The leaves in pre-order, each with its path from the root: false for left, true for right
(43_code_table R110). -/
def CodeTree.paths : CodeTree → List (Byte × List Bool)
  | .leaf sym => [(sym, [])]
  | .node l r =>
    l.paths.map (fun c => (c.1, false :: c.2)) ++ r.paths.map (fun c => (c.1, true :: c.2))

/-- The code of each leaf in pre-order: its path, but the one bit 0 for a tree that is a single leaf
(43_code_table R110). -/
def CodeTree.codes : CodeTree → List (Byte × List Bool)
  | .leaf sym => [(sym, [false])]
  | .node l r => (CodeTree.node l r).paths

/-- The symbols at the leaves, in pre-order. -/
def CodeTree.symbols (t : CodeTree) : List Byte := t.paths.map Prod.fst

/-- The sum over the leaves of frequency times depth (42_tree_builder R109). -/
def CodeTree.weightedDepth (f : Byte → Nat) (t : CodeTree) : Nat := (t.paths.map fun c => f c.1 * c.2.length).sum

/-- A byte string that the deserializer reads as a tree: the wider language of 20_memory R62. -/
inductive ReadsAs : List Byte → CodeTree → Prop where
  /-- After 0x31 a byte other than 0x5C is the value. -/
  | plain (v : Byte) (h : v ≠ 0x5C#8) : ReadsAs [0x31#8, v] (.leaf v)
  /-- After 0x31 0x5C the next byte is the value, whatever it is. -/
  | escaped (v : Byte) : ReadsAs [0x31#8, 0x5C#8, v] (.leaf v)
  /-- 0x30, the left subtree, the right subtree. -/
  | node (bl br : List Byte) (l r : CodeTree) (hl : ReadsAs bl l) (hr : ReadsAs br r) :
      ReadsAs (0x30#8 :: (bl ++ br)) (.node l r)

/-- The arena entries of a tree read from a stream into an arena of `base` entries: in post-order, a node after its two
subtrees, with frequencies 0 (45_tree_deserializer R121). -/
def CodeTree.entries (base : Nat) : CodeTree → List Node
  | .leaf sym => [⟨true, sym, 0#32, Config.nil, Config.nil⟩]
  | .node l r =>
    l.entries base ++ r.entries (base + (2 * l.leafCount - 1))
      ++ [⟨false, 0#8, 0#32, BitVec.ofNat 9 (base + (2 * l.leafCount - 1) - 1),
          BitVec.ofNat 9 (base + (2 * l.leafCount - 1) + (2 * r.leafCount - 1) - 1)⟩]

/-- Bytes after which TD_READ_TREE is in tag position with internal nodes pending and no error raised: the nodes on its
stack, top first, each with its left child where that is complete, and the arena (45_tree_deserializer R121,
10_state R48). -/
inductive PendingAfter : List Byte → List (Option NodeIdx) → List Node → Prop where
  /-- At the start. -/
  | start : PendingAfter [] [] []
  /-- A tag 0x30: one more internal node is pending. -/
  | left (bs : List Byte) (fs : List (Option NodeIdx)) (ns : List Node) (h : PendingAfter bs fs ns)
      (hd : fs.length < 255) : PendingAfter (bs ++ [0x30#8]) (none :: fs) ns
  /-- A tag 0x30 and a whole left subtree, which the stack and the arena have room for. -/
  | right (bs bl : List Byte) (fs : List (Option NodeIdx)) (ns : List Node) (l : CodeTree) (h : PendingAfter bs fs ns)
      (hl : ReadsAs bl l) (hd : fs.length + 1 + l.height ≤ 255) (hn : ns.length + (2 * l.leafCount - 1) ≤ 511) :
      PendingAfter (bs ++ 0x30#8 :: bl) (some (BitVec.ofNat 9 (ns.length + (2 * l.leafCount - 1) - 1)) :: fs)
        (ns ++ l.entries ns.length)

/-- The internal nodes that a subtree at index `i` completes, the last to be allocated there: of the pending nodes, top
first, those with a left child, up to the first without (45_tree_deserializer R121). -/
def completedBy (i : Nat) : List (Option NodeIdx) → List Node
  | some l :: fs => ⟨false, 0#8, 0#32, l, BitVec.ofNat 9 i⟩ :: completedBy (i + 1) fs
  | none :: _ => []
  | [] => []

/-- TD_READ_TREE raises `e(arg)` once it has consumed `k` bytes and allocated the nodes `ns`, which stay, with `rest` left
of the stream; the tree is forgotten (45_tree_deserializer R121). -/
def ReadTreeRaises (s : State) (e : ErrKind) (arg k : Nat) (ns : List Node) (rest : List Byte) : Prop :=
  exec .tdReadTree s = .next (takeError e (BitVec.ofNat 32 arg)
    { s with
      nodes := ns, heap := [], root := Config.nil, buCur := Config.nil
      inSeq := rest, inRem := s.inRem - BitVec.ofNat 32 k })

/-- The arena holds the tree at a node index. -/
inductive HoldsTree (nodes : List Node) : NodeIdx → CodeTree → Prop where
  | leaf (i : NodeIdx) (n : Node) (hn : nodes[i.toNat]? = some n) (hl : n.leaf = true) :
      HoldsTree nodes i (.leaf n.sym)
  | node (i : NodeIdx) (n : Node) (l r : CodeTree) (hn : nodes[i.toNat]? = some n) (hl : n.leaf = false)
      (hleft : HoldsTree nodes n.left l) (hright : HoldsTree nodes n.right r) :
      HoldsTree nodes i (.node l r)

/-- A node reachable from `root` through LEFT and RIGHT of internal nodes (10_state R50 item 6). -/
inductive Reachable (nodes : List Node) (root : NodeIdx) : NodeIdx → Prop where
  | root : Reachable nodes root root
  | left (i : NodeIdx) (n : Node) (h : Reachable nodes root i) (hn : nodes[i.toNat]? = some n)
      (hl : n.leaf = false) : Reachable nodes root n.left
  | right (i : NodeIdx) (n : Node) (h : Reachable nodes root i) (hn : nodes[i.toNat]? = some n)
      (hl : n.leaf = false) : Reachable nodes root n.right

/-- The node that bits lead to from `root`: left on 0, right on 1 (47_bit_unpacker R129). -/
def nodeAlong (nodes : List Node) (root : NodeIdx) (bits : List Bool) : NodeIdx :=
  bits.foldl (fun i b => if b then (nodeIn nodes i).right else (nodeIn nodes i).left) root

/-- The number a bit string stands for, its first bit most significant (10_state R45). -/
def bitsValue (bits : List Bool) : Nat := bits.foldl (fun v b => 2 * v + b.toNat) 0

/-- The bits of a byte, bit 7 first (20_memory R63). -/
def byteBits (b : Byte) : List Bool :=
  [b.getLsbD 7, b.getLsbD 6, b.getLsbD 5, b.getLsbD 4, b.getLsbD 3, b.getLsbD 2, b.getLsbD 1, b.getLsbD 0]

/-- The bits of bytes, in order, bit 7 first. -/
def bitsOf (bytes : List Byte) : List Bool := bytes.flatMap byteBits

/-- The bits the packer holds, the first added first (46_bit_packer R122). -/
def heldBits (s : State) : List Bool := (List.range s.cnt.toNat).reverse.map fun i => s.acc.getLsbD i

/-- Every bit emitted or held. -/
def sentBits (s : State) : List Bool := bitsOf s.outSeq ++ heldBits s

/-- The code of a byte value as bits, root side first (10_state R45). -/
def codeBits (s : State) (b : Byte) : List Bool :=
  (List.range (lenAt s b).toNat).reverse.map fun i => (codeAt s b).getLsbD i

/-- The heap property: no slot's key is below its parent's (41_priority_queue R96). -/
def HeapOrdered (key : NodeIdx → Word) (h : List NodeIdx) : Prop :=
  ∀ i, 0 < i → i < h.length → key (slot h ((i - 1) / 2)) ≤ key (slot h i)

/-- The slot `k` levels above slot `i` of the heap (10_state R47). -/
def slotAbove (i : Nat) : (k : Nat) → Nat
  | 0 => i
  | k + 1 => (slotAbove i k - 1) / 2

/-- 41_priority_queue R94 as a relation of the heap array before and after: `n` starts in a new last slot and ends `k`
levels up; every node it passed has a strictly greater key and moves one level down, the node above where it stays has
not (an equal key does not move it up), and every other slot is unchanged. -/
def InsertedUp (key : NodeIdx → Word) (n : NodeIdx) (h h' : List NodeIdx) : Prop :=
  h'.length = h.length + 1
  ∧ ∃ k, slot h' (slotAbove h.length k) = n
    ∧ (∀ j < k, 0 < slotAbove h.length j ∧ key n < key (slot h (slotAbove h.length (j + 1)))
        ∧ slot h' (slotAbove h.length j) = slot h (slotAbove h.length (j + 1)))
    ∧ (slotAbove h.length k = 0 ∨ key (slot h (slotAbove h.length (k + 1))) ≤ key n)
    ∧ ∀ i < h.length, (∀ j ≤ k, i ≠ slotAbove h.length j) → slot h' i = slot h i

/-- The heap array after nodes are inserted one after another into an empty queue. -/
inductive InsertedInTurn (key : NodeIdx → Word) : List NodeIdx → List NodeIdx → Prop where
  | nil : InsertedInTurn key [] []
  | insert (ns h h' : List NodeIdx) (n : NodeIdx) (hh : InsertedInTurn key ns h) (hn : InsertedUp key n h h') :
      InsertedInTurn key (ns ++ [n]) h'

/-- The child of slot `i` that sift-down compares with, in a heap of `m` slots: the one with the smaller key, the left
one where the keys are equal or there is no right one (41_priority_queue R95). -/
def smallerChild (key : NodeIdx → Word) (h : List NodeIdx) (m i : Nat) : Nat :=
  if 2 * i + 2 < m ∧ key (slot h (2 * i + 2)) < key (slot h (2 * i + 1)) then 2 * i + 2 else 2 * i + 1

/-- The slot `k` levels below slot `i`, by smaller children. -/
def slotBelow (key : NodeIdx → Word) (h : List NodeIdx) (m i : Nat) : (k : Nat) → Nat
  | 0 => i
  | k + 1 => smallerChild key h m (slotBelow key h m i k)

/-- 41_priority_queue R95 as a relation of the heap array before and after: the last slot's node starts at slot 0 and
ends `k` levels down by smaller children; every node it passed has a strictly smaller key and moves one level up, the
smaller child of where it stays has not, and every other slot is unchanged. -/
def RemovedDown (key : NodeIdx → Word) (h h' : List NodeIdx) : Prop :=
  h'.length = h.length - 1
  ∧ (1 < h.length → ∃ k, slot h' (slotBelow key h (h.length - 1) 0 k) = slot h (h.length - 1)
    ∧ (∀ j < k, slotBelow key h (h.length - 1) 0 (j + 1) < h.length - 1
        ∧ key (slot h (slotBelow key h (h.length - 1) 0 (j + 1))) < key (slot h (h.length - 1))
        ∧ slot h' (slotBelow key h (h.length - 1) 0 j) = slot h (slotBelow key h (h.length - 1) 0 (j + 1)))
    ∧ (slotBelow key h (h.length - 1) 0 (k + 1) < h.length - 1 →
        key (slot h (h.length - 1)) ≤ key (slot h (slotBelow key h (h.length - 1) 0 (k + 1))))
    ∧ ∀ i < h.length - 1, (∀ j ≤ k, i ≠ slotBelow key h (h.length - 1) 0 j) → slot h' i = slot h i)

/-- A MergeStep that succeeds, from the state before to the state after: A leaves the queue, then B, and the node with A to
the left and B to the right is allocated and queued (42_tree_builder R103, R101, 41_priority_queue R94, R95). -/
def MergesInto (s t : State) : Prop :=
  ∃ (a b : NodeIdx) (h₁ h : List NodeIdx), 2 ≤ heapSize s ∧ a = slot s.heap 0 ∧ RemovedDown (keyOf s) s.heap h₁
    ∧ b = slot h₁ 0 ∧ RemovedDown (keyOf s) h₁ h
    ∧ nodeCount s ≠ 511 ∧ (keyOf s a).toNat + (keyOf s b).toNat ≤ 2 ^ 32 - 1
    ∧ InsertedUp (keyOf t) (BitVec.ofNat 9 (nodeCount s)) h t.heap
    ∧ t = { s with nodes := s.nodes ++ [⟨false, 0#8, keyOf s a + keyOf s b, a, b⟩], heap := t.heap }

/-- The state after some MergeSteps, each of which succeeded (42_tree_builder R108). -/
inductive Merged : State → State → Prop where
  | done (s : State) : Merged s s
  | step (s t u : State) (h : MergesInto s t) (hs : Merged t u) : Merged s u

/-- A MergeStep that raises `e(arg)` after A and B have left the queue (42_tree_builder R103, 60_exceptions R134). -/
def MergeRaises (e : ErrKind) (arg : Word) (s t : State) : Prop :=
  ∃ (a b : NodeIdx) (h₁ h : List NodeIdx), 2 ≤ heapSize s ∧ a = slot s.heap 0 ∧ RemovedDown (keyOf s) s.heap h₁
    ∧ b = slot h₁ 0 ∧ RemovedDown (keyOf s) h₁ h ∧ t = { s with heap := h }
    ∧ ((nodeCount s = 511 ∧ e = .arenaFull ∧ arg = 511#32)
      ∨ (nodeCount s ≠ 511 ∧ 2 ^ 32 - 1 < (keyOf s a).toNat + (keyOf s b).toNat ∧ e = .freqOverflow
        ∧ arg = (b.setWidth 32 <<< 16) ||| a.setWidth 32))

/-- The byte values with a nonzero frequency, ascending. -/
def usedBytes (s : State) : List Byte := allBytes.filter fun b => freqAt s b ≠ 0#32

/-- The sum of all frequencies. -/
def totalFreq (s : State) : Nat := (allBytes.map fun b => (freqAt s b).toNat).sum

/-- The host keeps its duties 1 and 2: every byte of the open IN stream is supplied, and every OUT byte is accepted
(20_memory R75). -/
def HostKeepsDuties (s : State) : Prop := s.inSeq.length = s.inRem.toNat ∧ s.outRoom = none

/-- The invariants of HCORE's structures (10_state R50, with R24, R45, R48, R49 and 41_priority_queue R96), and of
the model's own fields. -/
structure Inv (s : State) : Prop where
  /-- R50 item 1. -/
  nodeCount_le : s.nodes.length ≤ 511
  /-- R50 item 1. -/
  heapSize_le : s.heap.length ≤ 256
  /-- R50 item 2. -/
  heap_allocated : ∀ n ∈ s.heap, n.toNat < s.nodes.length
  /-- R50 item 3. -/
  root_allocated : s.root = Config.nil ∨ s.root.toNat < s.nodes.length
  /-- R50 item 3. -/
  cursor_allocated : s.buCur = Config.nil ∨ s.buCur.toNat < s.nodes.length
  /-- R50 item 4. -/
  children_below : ∀ (i : Nat) (n : Node), s.nodes[i]? = some n → n.leaf = false →
    n.left.toNat < i ∧ n.right.toNat < i
  /-- R50 item 5. -/
  leaf_links : ∀ n ∈ s.nodes, n.leaf = true → n.left = Config.nil ∧ n.right = Config.nil
  /-- R50 item 6. -/
  cursor_nil : s.buCur = Config.nil ↔ s.root = Config.nil
  /-- R50 item 6. -/
  cursor_leaf : ∀ n, s.nodes[s.root.toNat]? = some n → n.leaf = true → s.buCur = s.root
  /-- R50 item 6. -/
  cursor_internal : ∀ n, s.nodes[s.root.toNat]? = some n → n.leaf = false →
    Reachable s.nodes s.root s.buCur ∧ ∃ m, s.nodes[s.buCur.toNat]? = some m ∧ m.leaf = false
  /-- R50 item 7 (`CNT <= 7` holds by width). -/
  acc_fits : s.acc.toNat < 2 ^ s.cnt.toNat
  /-- 41_priority_queue R96. -/
  heap_ordered : HeapOrdered (keyOf s) s.heap
  /-- R45: a length is at most 32, and no bit of a code stands above its length. -/
  codes_fit : ∀ b, (lenAt s b).toNat ≤ 32 ∧ (codeAt s b).toNat < 2 ^ (lenAt s b).toNat
  /-- R24, R37, R38: no error recorded, no error record. -/
  no_error_record : s.err = false → s.errCode = 0#8 ∧ s.errCmd = 0#32 ∧ s.errArg = 0#32
  /-- R24: BUSY = 1 and ERR = 1 never hold together. -/
  not_busy_and_err : s.busy = true → s.err = false
  /-- R49: the supplied part of IN_SEQ is within IN_REM. -/
  supplied_within : s.inSeq.length ≤ s.inRem.toNat
  /-- R48: the deserializer's stack is empty between commands. -/
  stack_empty : s.dstack = []
  /-- The model's own: with no command in progress there is no command word and no waiting output. -/
  idle_clear : s.busy = false → s.cmdWord = 0#32 ∧ s.waitOut = []
  /-- The model's own, for 20_memory R59 (log 2): what a waiting command has put out it puts out again, first, when it
  goes on. -/
  waiting_out : s.busy = true → s.waitOut <+: runningOut s

end Sys2Proof.Machine
end

