-- ==== Sys2Proof/Certificates/Slice0/Obligations.lean ====
section
/-! DEFINITION. The statements for the provers. A command's statement says what `exec` answers in a state of
acceptance: `completeCommand` is BUSY <- 0 after the last statement, `takeError` is BUSY <- 0 after a raise
(40_control R84, 60_exceptions R135). A statement of the form `t = completeCommand { s with … }` is a frame: every
field not named is unchanged. -/

open Sys2Proof Sys2Proof.Machine

/-! ## Encoding -/

/-- 30_encoding R79 and R82: words written out from the map and from the assembler's examples decode to the commands
they stand for, and two illegal ones to none. -/
def Obligations.WrittenWordsDecode : Prop :=
  [0x00000000#32, 0x11000003#32, 0x21000041#32, 0x24000000#32, 0x30000000#32, 0x43002008#32].map decodeWord
      = [some .nop, some (.pqInsert 3#9), some (.tbNewLeaf 0x41#8), some .tbBuild, some .cgGenerate,
          some (.tsWriteHeaderImm 0x2008#16)]
    ∧ [0x51000000#32, 0x61000001#32, 0x63000042#32, 0x71000000#32, 0x72000000#32, 0xFFFFFFFF#32, 0x11000200#32].map
        decodeWord
      = [some .tdReadTree, some (.bpAddBit 1#1), some (.bpEncodeByte 0x42#8), some (.buBit 0#1),
          some .buDecodeStream, none, none]

/-- 30_encoding R76, R79: every command, with every operand, decodes back from its word. -/
def Obligations.DecodeEncodeRoundTrip : Prop :=
  ∀ i : Instr, decode (encode i) = .ok i

/-- 40_control R85: a row of R79 that matches gives the row's command, with the operand the word holds; no row, no
command; at most one row matches (the spec's own inference from R79: "At most one row can match"). -/
def Obligations.DecodeFollowsOpcodeMap : Prop :=
  ∀ w : Word,
    (∀ r ∈ opcodeRows, r.fits w = true →
      ∃ i, decode w = .ok i ∧ i.mnemonic = r.mnemonic ∧ i.form = r.form ∧ encode i = w)
    ∧ ((∀ r ∈ opcodeRows, r.fits w = false) → ∃ e, decode w = .error e)
    ∧ (∀ r ∈ opcodeRows, ∀ r' ∈ opcodeRows, r.fits w = true → r'.fits w = true → r = r')

/-! ## Issue, errors, reset -/

/-- The engine's turn runs the decoded command (40_control R84, R85), of the accepted word when the engine is next in the
list of acts, and does nothing with BUSY = 0 (60_exceptions R147: "When BUSY = 0 it does nothing until the host writes").
Two clauses are the model's choices, not the spec's: that the engine also moves when no act is left (log 3), and that
`withFetchWord` accepts a word whatever BUSY and ERR are, where a host write with BUSY = 1 or ERR = 1 would be discarded
by R84 (log 1). -/
def Obligations.StepRunsTheDecodedCommand : Prop :=
  (∀ (s : State) (i : Instr), s.busy = true → decode s.cmdWord = .ok i →
    (∀ rest, s.inputs = .engine :: rest → step s = exec i { s with inputs := rest })
    ∧ (s.inputs = [] → step s = exec i s))
  ∧ (∀ (s : State) (i : Instr),
      step (s.withFetchWord 32 (encode i).toNat)
        = exec i { s with busy := true, cmdWord := encode i, waitOut := [] })
  ∧ ∀ s : State, s.busy = false →
      (∀ rest, s.inputs = .engine :: rest → step s = .next { s with inputs := rest })
      ∧ (s.inputs = [] → step s = .next s)

/-- 30_encoding R80: an accepted illegal word raises ILLEGAL_COMMAND with ERR_ARG = 0 and has no other effect. -/
def Obligations.IllegalWordRaises : Prop :=
  ∀ (s : State) (e : Illegal) (rest : List Input), s.busy = true → decode s.cmdWord = .error e →
    s.inputs = .engine :: rest →
    step s = .next { s with
      inputs := rest, busy := false, cmdWord := 0#32, waitOut := [], dstack := []
      err := true, errCode := 0x01#8, errCmd := s.cmdWord, errArg := 0#32 }

/-- 40_control R84: a write of `w` to CMD is discarded and sets OVR when BUSY = 1 or ERR = 1, with nothing else
changed; otherwise it is accepted, and BUSY = 1 before any later act. -/
def Obligations.CommandWriteAcceptedOrDiscarded : Prop :=
  ∀ (s : State) (w : Word) (rest : List Input), s.inputs = .write 4 (hcBase s + 0x010) w :: rest →
    ((s.busy = true ∨ s.err = true) → step s = .next { s with inputs := rest, ovr := true })
    ∧ (s.busy = false → s.err = false →
        step s = .next { s with inputs := rest, busy := true, cmdWord := w, waitOut := [] })

/-- 60_exceptions R135 with R134's codes and R13: a raise stops the command at that statement, keeps every earlier
write, and writes ERR, ERR_CODE, ERR_CMD and ERR_ARG; BUSY becomes 0, and TD_READ_TREE's stack is discarded
(10_state R48). -/
def Obligations.RaiseWritesTheErrorRecord : Prop :=
  (∀ (s₀ s : State) (e : ErrKind) (arg : Word) (k : Unit → State → Run Unit),
    finish s₀ ((Run.raise e arg s).andThen k)
      = .next { s with
          err := true, errCode := e.errCode, errCmd := s.cmdWord, errArg := arg
          busy := false, cmdWord := 0#32, waitOut := [], dstack := [] })
  ∧ [ErrKind.illegalCommand, .pqFull, .pqEmpty, .badNodeIndex, .arenaFull, .freqOverflow, .mergeUnderflow,
      .codeTooLong, .dupSymbol, .hdrRange].map ErrKind.errCode
      = [0x01#8, 0x10#8, 0x11#8, 0x12#8, 0x20#8, 0x21#8, 0x22#8, 0x30#8, 0x31#8, 0x40#8]
  ∧ [ErrKind.fmtTruncatedHeader, .fmtBadTag, .fmtTreeSizeMismatch, .fmtTreeEos, .fmtTreeTooLarge, .noCode,
      .fmtNoTree, .fmtBadCode, .fmtPayloadTruncated, .fmtPadNoPayload].map ErrKind.errCode
      = [0x50#8, 0x51#8, 0x52#8, 0x53#8, 0x54#8, 0x60#8, 0x70#8, 0x71#8, 0x72#8, 0x73#8]

/-- 40_control R88, R89: a write to CTRL with bit 0 clear; bit 1 clears the error record, bit 2 clears OVR, and
nothing else changes. -/
def Obligations.CtrlClearsErrorAndOverrun : Prop :=
  ∀ (s : State) (v : Word) (rest : List Input), s.inputs = .write 4 (hcBase s + 0x008) v :: rest →
    v.getLsbD 0 = false →
    step s = .next { s with
      inputs := rest
      err := if v.getLsbD 1 then false else s.err
      errCode := if v.getLsbD 1 then 0#8 else s.errCode
      errCmd := if v.getLsbD 1 then 0#32 else s.errCmd
      errArg := if v.getLsbD 1 then 0#32 else s.errArg
      ovr := if v.getLsbD 2 then false else s.ovr }

/-- 70_reset_and_hazards R149 and 10_state R52, 40_control R87: a hard reset and a CTRL write with SOFT_RESET leave
the reset state. The fields that are the host's or the platform's stay (log 4, the model's choice); with BUSY = 1
the bytes already out stay out, followed by some of those the command would have put out. -/
def Obligations.ResetLeavesTheResetState : Prop :=
  ∀ (s : State) (a : Input) (rest : List Input), s.inputs = a :: rest →
    (a = .hardReset ∨ ∃ v : Word, v.getLsbD 0 = true ∧ a = .write 4 (hcBase s + 0x008) v) →
    ∃ t, step s = .next t
      ∧ t = { State.reset with
          outSeq := t.outSeq, outRoom := t.outRoom, inputs := rest, readData := s.readData,
          hcPage := s.hcPage, draws := t.draws }
      ∧ (s.busy = false → t.outSeq = s.outSeq ∧ t.outRoom = s.outRoom)
      ∧ (s.busy = true → ∃ more, more <+: (runningOut { s with inputs := rest }).drop s.waitOut.length
          ∧ t.outSeq = s.outSeq ++ s.waitOut ++ more)

/-! ## Registers and windows -/

/-- 10_state R20: the registers' offsets, access types and reset values; RO registers ignore writes, WO registers
read 0. -/
def Obligations.RegisterMapAtReset : Prop :=
  (allRegs.take 15).map (fun r => (r.offset, r.access, readReg r State.reset))
      = [(0x000, .ro, 0x48554646#32), (0x004, .ro, 0x00010000#32), (0x008, .wo, 0#32), (0x00C, .ro, 0#32),
          (0x010, .wo, 0#32), (0x014, .ro, 0#32), (0x018, .ro, 0x1FF#32), (0x01C, .ro, 0#32), (0x020, .ro, 0#32),
          (0x024, .ro, 0#32), (0x028, .ro, 0#32), (0x02C, .ro, 0#32), (0x030, .ro, 0#32), (0x034, .rw, 0#32),
          (0x038, .ro, 0#32)]
  ∧ (allRegs.drop 15).map (fun r => (r.offset, r.access, readReg r State.reset))
      = [(0x03C, .ro, 0x1FF#32), (0x040, .ro, 0#32), (0x044, .ro, 0#32), (0x048, .ro, 0#32), (0x080, .rw, 0#32),
          (0x084, .rw, 0#32), (0x088, .rw, 0#32), (0x08C, .ro, 0#32), (0x090, .ro, 0#32), (0x094, .rw, 0#32),
          (0x098, .ro, 0#32), (0x09C, .ro, 0#32), (0x0A0, .ro, 0#32), (0x0A4, .rw, 0#32), (0x0A8, .ro, 0#32)]
  ∧ (∀ (r : Reg) (v : Word) (s : State), r.access = .ro → regWrite r.offset v s = .next s)
  ∧ (∀ (r : Reg) (s : State), r.access = .wo → readReg r s = 0#32)

/-- 10_state R21, R22, R26 to R38: what the registers that are not windows hold, in every state. 20_memory R54, R55,
10_state R43: with BUSY = 0 an aligned 32-bit read at an offset of HCORE's 256 bytes returns the register there, or 0 at a
reserved offset, and changes nothing else; a write to a reserved offset is ignored, whatever BUSY is. 20_memory R54 again,
whatever BUSY is: an access of another width or at another offset is not supported, such a write is ignored and such a
read returns an unspecified value. That the model does what R54 says of the hardware there, where U3 would let it refuse,
is log 9; the form of the draw is log 6's choice. 20_memory R67: HCORE has no address but its 256 bytes, so an access
elsewhere does nothing to it (log 9). -/
def Obligations.ReadsReturnTheRegisters : Prop :=
  (∀ s : State,
    readReg .id s = 0x48554646#32 ∧ readReg .version s = 0x00010000#32
    ∧ readReg .result s = s.result ∧ readReg .root s = s.root.setWidth 32
    ∧ (nodeCount s ≤ 511 → (readReg .nodeCount s).toNat = nodeCount s)
    ∧ (heapSize s ≤ 256 → (readReg .heapSize s).toNat = heapSize s)
    ∧ readReg .pad s = s.pad.setWidth 32 ∧ readReg .treeSize s = s.treeSize.setWidth 32
    ∧ readReg .totalBitsHi s ++ readReg .totalBitsLo s = s.totalBits
    ∧ readReg .inLen s = s.inRem
    ∧ (readReg .bpState s).extractLsb' 0 8 = s.acc ∧ (readReg .bpState s).extractLsb' 8 3 = s.cnt
    ∧ (readReg .bpState s).extractLsb' 11 21 = 0#21
    ∧ readReg .buCur s = s.buCur.setWidth 32 ∧ readReg .outCount s = s.outCount
    ∧ readReg .errCmd s = s.errCmd ∧ readReg .errArg s = s.errArg)
  ∧ (∀ (s : State) (off : Nat) (rest : List Input), s.inputs = .read 4 (hcBase s + off) :: rest →
    off < 0x100 → off % 4 = 0 → s.busy = false →
    (∀ r : Reg, r.offset = off → step s = .next { s with inputs := rest, readData := readReg r s })
    ∧ ((∀ r : Reg, r.offset ≠ off) → step s = .next { s with inputs := rest, readData := 0#32 }))
  ∧ (∀ (s : State) (width off : Nat) (v : Word) (rest : List Input), off < 0x100 → width ≠ 4 ∨ off % 4 ≠ 0 →
    (s.inputs = .write width (hcBase s + off) v :: rest → step s = .next { s with inputs := rest })
    ∧ (s.inputs = .read width (hcBase s + off) :: rest →
        step s = .next { s with inputs := rest, readData := Config.busyRead s.draws, draws := s.draws + 1 }))
  ∧ (∀ (s : State) (off : Nat) (v : Word) (rest : List Input), s.inputs = .write 4 (hcBase s + off) v :: rest →
    off < 0x100 → off % 4 = 0 → (∀ r : Reg, r.offset ≠ off) → step s = .next { s with inputs := rest })
  ∧ (∀ (s : State) (width addr : Nat) (v : Word) (rest : List Input), addr < hcBase s ∨ hcBase s + 0x100 ≤ addr →
    s.inputs = .write width addr v :: rest ∨ s.inputs = .read width addr :: rest → step s = .next { s with inputs := rest })

/-- 20_memory R56: while BUSY = 1 ID, VERSION and STATUS read their defined value, and any other register an unspecified
one. The form of that value, a free value drawn anew for each read at a counter, is the model's choice (log 6); nothing
here depends on which value it is. 10_state R43: a reserved offset holds no register and reads 0 as ever. -/
def Obligations.BusyReadsOnlyIdVersionStatus : Prop :=
  ∀ (s : State) (off : Nat) (rest : List Input), s.inputs = .read 4 (hcBase s + off) :: rest →
    off < 0x100 → off % 4 = 0 → s.busy = true →
    (off = 0x000 → step s = .next { s with inputs := rest, readData := 0x48554646#32 })
    ∧ (off = 0x004 → step s = .next { s with inputs := rest, readData := 0x00010000#32 })
    ∧ (off = 0x00C → step s = .next { s with inputs := rest, readData := statusWord s })
    ∧ (∀ r : Reg, r.offset = off → off ≠ 0x000 → off ≠ 0x004 → off ≠ 0x00C →
        step s = .next { s with inputs := rest, readData := Config.busyRead s.draws, draws := s.draws + 1 })
    ∧ ((∀ r : Reg, r.offset ≠ off) → step s = .next { s with inputs := rest, readData := 0#32 })

/-- 70_reset_and_hazards R152: register writes while BUSY = 1. CTRL acts at once, CMD is discarded and sets OVR, the
six RW registers are refused by name, RO registers and reserved offsets ignore the write. -/
def Obligations.BusyWrites : Prop :=
  ∀ (s : State) (off : Nat) (v : Word) (rest : List Input), s.inputs = .write 4 (hcBase s + off) v :: rest →
    off < 0x100 → off % 4 = 0 → s.busy = true →
    (off = Reg.ctrl.offset → step s = .next (ctrlWrite v { s with inputs := rest }))
    ∧ (off = Reg.cmd.offset → step s = .next { s with inputs := rest, ovr := true })
    ∧ (off ∈ [Reg.inLen, .freqIdx, .freqData, .codeIdx, .nodeIdx, .heapIdx].map Reg.offset →
        step s = .refused (.busyRegisterWrite off))
    ∧ ((∀ r : Reg, r.offset = off → r.access = .ro) → step s = .next { s with inputs := rest })

/-- 10_state R24: the fields of STATUS. -/
def Obligations.StatusFields : Prop :=
  ∀ s : State,
    (readReg .status s).getLsbD 0 = s.busy ∧ (readReg .status s).getLsbD 1 = s.err
    ∧ (readReg .status s).getLsbD 2 = s.ovr ∧ (readReg .status s).extractLsb' 3 5 = 0#5
    ∧ (readReg .status s).extractLsb' 8 8 = s.errCode ∧ (readReg .status s).extractLsb' 16 16 = 0#16

/-- 10_state R39: the window onto FREQ, with BUSY = 0. A write to FREQ_IDX stores bits 7:0; a write to FREQ_DATA
writes the entry at FREQ_IDX, leaves every other entry, and increments FREQ_IDX modulo 256; the reads return
FREQ_IDX and the entry, and change neither; FREQ_IDX resets to 0. -/
def Obligations.FrequencyWindow : Prop :=
  State.reset.freqIdx = 0#8
  ∧ ∀ (s : State) (v : Word), s.busy = false →
    busWrite 4 (hcBase s + 0x080) v s = .next { s with freqIdx := v.setWidth 8 }
    ∧ (∃ t, busWrite 4 (hcBase s + 0x084) v s = .next t
        ∧ freqAt t s.freqIdx = v ∧ (∀ b, b ≠ s.freqIdx → freqAt t b = freqAt s b)
        ∧ t.freqIdx.toNat = (s.freqIdx.toNat + 1) % 256
        ∧ t = { s with freq := t.freq, freqIdx := t.freqIdx })
    ∧ busRead 4 (hcBase s + 0x080) s = { s with readData := s.freqIdx.setWidth 32 }
    ∧ busRead 4 (hcBase s + 0x084) s = { s with readData := freqAt s s.freqIdx }

/-- 10_state R40, R42: the windows onto the code table and the heap, with BUSY = 0; the table cannot be written, no
read changes an index, and the indices reset to 0. -/
def Obligations.CodeAndHeapWindows : Prop :=
  State.reset.codeIdx = 0#8 ∧ State.reset.heapIdx = 0#8
  ∧ ∀ (s : State) (v : Word), s.busy = false →
    (busWrite 4 (hcBase s + 0x088) v s = .next { s with codeIdx := v.setWidth 8 }
      ∧ busWrite 4 (hcBase s + 0x08C) v s = .next s ∧ busWrite 4 (hcBase s + 0x090) v s = .next s
      ∧ busRead 4 (hcBase s + 0x088) s = { s with readData := s.codeIdx.setWidth 32 }
      ∧ busRead 4 (hcBase s + 0x08C) s = { s with readData := codeAt s s.codeIdx }
      ∧ busRead 4 (hcBase s + 0x090) s = { s with readData := (lenAt s s.codeIdx).setWidth 32 })
    ∧ busWrite 4 (hcBase s + 0x0A4) v s = .next { s with heapIdx := v.setWidth 8 }
    ∧ busRead 4 (hcBase s + 0x0A4) s = { s with readData := s.heapIdx.setWidth 32 }
    ∧ (s.heapIdx.toNat < heapSize s → busRead 4 (hcBase s + 0x0A8) s
        = { s with readData := 0x80000000#32 ||| (slot s.heap s.heapIdx.toNat).setWidth 32 })
    ∧ (heapSize s ≤ s.heapIdx.toNat → busRead 4 (hcBase s + 0x0A8) s = { s with readData := 0#32 })

/-- 10_state R41: the window onto the arena, with BUSY = 0; NODE_IDX resets to 0. -/
def Obligations.NodeWindow : Prop :=
  State.reset.nodeIdx = 0#9
  ∧ ∀ (s : State) (v : Word), s.busy = false →
    busWrite 4 (hcBase s + 0x094) v s = .next { s with nodeIdx := v.setWidth 9 }
    ∧ busRead 4 (hcBase s + 0x094) s = { s with readData := s.nodeIdx.setWidth 32 }
    ∧ (∀ n, s.nodes[s.nodeIdx.toNat]? = some n →
        busRead 4 (hcBase s + 0x098) s = { s with
          readData := 0x80000000#32 ||| (if n.leaf then 0x40000000#32 else 0#32) ||| n.sym.setWidth 32 }
        ∧ busRead 4 (hcBase s + 0x09C) s = { s with readData := n.freq }
        ∧ busRead 4 (hcBase s + 0x0A0) s
          = { s with readData := (n.right.setWidth 32 <<< 16) ||| n.left.setWidth 32 }
        ∧ (n.left = Config.nil → n.right = Config.nil →
            busRead 4 (hcBase s + 0x0A0) s = { s with readData := 0x01FF01FF#32 }))
    ∧ (nodeCount s ≤ s.nodeIdx.toNat → ∀ off ∈ [0x098, 0x09C, 0x0A0],
        busRead 4 (hcBase s + off) s = { s with readData := 0#32 })

/-- 20_memory R58: with BUSY = 0 a write of `v` to IN_LEN discards what is left of the open stream and sets
IN_REM <- v; the bytes the host then supplies join the stream in its order, and one that no stream asks for is
refused (the model's choice, log 11). -/
def Obligations.StreamOpensAndFills : Prop :=
  (∀ (s : State) (v : Word) (rest : List Input), s.inputs = .write 4 (hcBase s + 0x034) v :: rest → s.busy = false →
    step s = .next { s with inputs := rest, inRem := v, inSeq := [] })
  ∧ (∀ (s : State) (b : Byte) (rest : List Input), s.inputs = .supply b :: rest →
      (s.inSeq.length < s.inRem.toNat → step s = .next { s with inputs := rest, inSeq := s.inSeq ++ [b] })
      ∧ (s.inRem.toNat ≤ s.inSeq.length → step s = .refused .unaskedInByte))

/-! ## Control and the priority queue -/

/-- 40_control R86: NOP leaves every register unchanged; only BUSY goes to 0. -/
def Obligations.NopChangesNothing : Prop :=
  encode .nop = 0x00000000#32 ∧
  ∀ s : State, exec .nop s = .next { s with busy := false, cmdWord := 0#32, waitOut := [] }

/-- 41_priority_queue R98: PQ_CLEAR empties the queue and changes nothing else. -/
def Obligations.PqClearEmptiesTheQueue : Prop :=
  encode .pqClear = 0x10000000#32 ∧
  ∀ s : State, exec .pqClear s = .next { s with heap := [], busy := false, cmdWord := 0#32, waitOut := [] }

/-- 41_priority_queue R99, R94: with an allocated `n` and room in the queue, PQ_INSERT puts `n` in the last slot and moves
it up while its parent's key is strictly greater; so it adds `n` to the queue, keeps the heap property, and changes
nothing else. -/
def Obligations.PqInsertAddsTheNode : Prop :=
  ∀ (s : State) (n : NodeIdx), n.toNat < nodeCount s → heapSize s ≠ 256 →
    ∃ t, exec (.pqInsert n) s = .next t
      ∧ t = completeCommand { s with heap := t.heap }
      ∧ InsertedUp (keyOf s) n s.heap t.heap
      ∧ t.heap.Perm (n :: s.heap)
      ∧ (HeapOrdered (keyOf s) s.heap → HeapOrdered (keyOf t) t.heap)

/-- 41_priority_queue R100, R95, R96: with a queue that is not empty, PQ_REMOVE_MIN returns slot 0 in RESULT and
removes it: the last slot's node moves to slot 0 and down by the smaller child, the left one where the children's keys
are equal (R97), while that child's key is strictly less; in a queue with the heap property the node returned has the
least frequency of the queue, and the property is kept; nothing else changes. -/
def Obligations.PqRemoveMinTakesTheLeast : Prop :=
  ∀ (s : State) (r : NodeIdx) (rest : List NodeIdx), s.heap = r :: rest →
    ∃ t, exec .pqRemoveMin s = .next t
      ∧ t = completeCommand { s with heap := t.heap, result := r.setWidth 32 }
      ∧ RemovedDown (keyOf s) s.heap t.heap
      ∧ s.heap.Perm (r :: t.heap)
      ∧ (HeapOrdered (keyOf s) s.heap → (∀ m ∈ s.heap, keyOf s r ≤ keyOf s m) ∧ HeapOrdered (keyOf t) t.heap)

/-- 41_priority_queue R99, R100, 60_exceptions R137: BAD_NODE_INDEX before PQ_FULL, and PQ_EMPTY; the queue is
unchanged. -/
def Obligations.QueueErrors : Prop :=
  ∀ (s : State) (n : NodeIdx),
    (nodeCount s ≤ n.toNat → exec (.pqInsert n) s = .next (takeError .badNodeIndex (n.setWidth 32) s))
    ∧ (n.toNat < nodeCount s → heapSize s = 256 →
        exec (.pqInsert n) s = .next (takeError .pqFull (n.setWidth 32) s))
    ∧ (heapSize s = 0 → exec .pqRemoveMin s = .next (takeError .pqEmpty 0#32 s))

/-! ## The tree builder -/

/-- 42_tree_builder R104, R102: TB_CLEAR empties the arena and the queue and forgets the tree; nothing else. -/
def Obligations.TbClearForgetsTheTree : Prop :=
  encode .tbClear = 0x20000000#32 ∧
  ∀ s : State, exec .tbClear s
    = .next { s with
        nodes := [], heap := [], root := 0x1FF#9, buCur := 0x1FF#9
        busy := false, cmdWord := 0#32, waitOut := [] }

/-- 42_tree_builder R105, R101: TB_NEW_LEAF allocates the next entry as a leaf of frequency FREQ[s] and returns its
index; a full arena raises ARENA_FULL with ERR_ARG = 511. -/
def Obligations.TbNewLeafAllocates : Prop :=
  ∀ (s : State) (b : Byte),
    encode (.tbNewLeaf b) = 0x21000000#32 ||| b.setWidth 32
    ∧ (nodeCount s < 511 → exec (.tbNewLeaf b) s
      = .next (completeCommand { s with
          nodes := s.nodes ++ [⟨true, b, freqAt s b, 0x1FF#9, 0x1FF#9⟩]
          result := BitVec.ofNat 32 (nodeCount s) }))
    ∧ (nodeCount s = 511 → exec (.tbNewLeaf b) s = .next (takeError .arenaFull 511#32 s))

/-- 42_tree_builder R106: TB_LOAD_LEAVES, in any state, leaves one leaf per byte value of nonzero frequency, in
ascending order, inserted into the empty queue one after another, so queued with the heap property; ROOT and BU_CUR are
NIL and RESULT is their number. -/
def Obligations.TbLoadLeavesQueuesTheAlphabet : Prop :=
  ∀ s : State, ∃ t, exec .tbLoadLeaves s = .next t
    ∧ t.nodes = (usedBytes s).map (fun b => ⟨true, b, freqAt s b, 0x1FF#9, 0x1FF#9⟩)
    ∧ InsertedInTurn (keyOf t) ((List.range (usedBytes s).length).map (BitVec.ofNat 9)) t.heap
    ∧ t.heap.Perm ((List.range (usedBytes s).length).map (BitVec.ofNat 9))
    ∧ HeapOrdered (keyOf t) t.heap
    ∧ t = completeCommand { s with
        nodes := t.nodes, heap := t.heap, root := 0x1FF#9, buCur := 0x1FF#9
        result := BitVec.ofNat 32 (usedBytes s).length }

/-- 42_tree_builder R107, R103: with two nodes queued, room in the arena and a sum that fits, TB_MERGE takes A then B
out one after the other, allocates Internal(A.FREQ + B.FREQ, left A, right B), queues it and returns its index; from a
queue with the heap property A and B are the two least, and the property is kept. -/
def Obligations.TbMergeJoinsTheTwoLeast : Prop :=
  ∀ (s : State) (a b : NodeIdx), 2 ≤ heapSize s → heapSize s ≤ 256 → nodeCount s < 511 →
    (∀ m ∈ s.heap, m.toNat < nodeCount s) →
    a = slot s.heap 0 → b = slot (heapRemove (keyOf s) s.heap) 0 →
    (keyOf s a).toNat + (keyOf s b).toNat ≤ 2 ^ 32 - 1 →
    ∃ t h, exec .tbMerge s = .next t
      ∧ (∃ h₁, RemovedDown (keyOf s) s.heap h₁ ∧ b = slot h₁ 0 ∧ RemovedDown (keyOf s) h₁ h)
      ∧ InsertedUp (keyOf t) (BitVec.ofNat 9 (nodeCount s)) h t.heap
      ∧ s.heap.Perm (a :: b :: h)
      ∧ t.heap.Perm (BitVec.ofNat 9 (nodeCount s) :: h)
      ∧ t = completeCommand { s with
          nodes := s.nodes ++ [⟨false, 0#8, keyOf s a + keyOf s b, a, b⟩]
          heap := t.heap, result := BitVec.ofNat 32 (nodeCount s) }
      ∧ (HeapOrdered (keyOf s) s.heap →
          keyOf s a ≤ keyOf s b ∧ (∀ m ∈ h, keyOf s b ≤ keyOf s m) ∧ HeapOrdered (keyOf t) t.heap)

/-- 42_tree_builder R103, 60_exceptions R137: MERGE_UNDERFLOW, then ARENA_FULL, then FREQ_OVERFLOW; at the last two A
and B have left the queue and no node is allocated. -/
def Obligations.TbMergeErrorsInOrder : Prop :=
  ∀ (s : State) (a b : NodeIdx), a = slot s.heap 0 → b = slot (heapRemove (keyOf s) s.heap) 0 →
    (heapSize s < 2 → exec .tbMerge s = .next (takeError .mergeUnderflow (BitVec.ofNat 32 (heapSize s)) s))
    ∧ (2 ≤ heapSize s → nodeCount s = 511 → exec .tbMerge s
        = .next (takeError .arenaFull 511#32
            { s with heap := heapRemove (keyOf s) (heapRemove (keyOf s) s.heap) }))
    ∧ (2 ≤ heapSize s → nodeCount s ≠ 511 → (keyOf s a).toNat + (keyOf s b).toNat > 2 ^ 32 - 1 → exec .tbMerge s
        = .next (takeError .freqOverflow ((b.setWidth 32 <<< 16) ||| a.setWidth 32)
            { s with heap := heapRemove (keyOf s) (heapRemove (keyOf s) s.heap) }))

/-- 42_tree_builder R108: where the arena has room for the merges and the queued frequencies' sum fits 32 bits,
TB_BUILD leaves an empty queue and makes the last node standing the root; the root's frequency is the sum of the
queued ones. It gets there by MergeStep alone, run while more than one node is queued: each node it adds and each queue on
the way are those of R103, A to the left and B to the right, with R94's and R95's tie-break. -/
def Obligations.TbBuildMakesTheRoot : Prop :=
  ∀ s : State, heapSize s ≤ 256 → (∀ m ∈ s.heap, m.toNat < nodeCount s) → nodeCount s ≤ 511 →
    nodeCount s + (heapSize s - 1) ≤ 511 → (s.heap.map fun m => (keyOf s m).toNat).sum ≤ 2 ^ 32 - 1 →
    ∃ t u, exec .tbBuild s = .next t
      ∧ t = completeCommand { s with
          nodes := t.nodes, heap := [], root := t.root, buCur := t.root, result := t.root.setWidth 32 }
      ∧ Merged s u ∧ t.nodes = u.nodes ∧ (s.heap ≠ [] → u.heap = [t.root])
      ∧ s.nodes <+: t.nodes ∧ t.nodes.length = nodeCount s + (heapSize s - 1)
      ∧ (s.heap = [] → t.root = 0x1FF#9)
      ∧ (∀ x, s.heap = [x] → t.root = x)
      ∧ (2 ≤ heapSize s → t.root = BitVec.ofNat 9 (t.nodes.length - 1))
      ∧ (s.heap ≠ [] → (keyOf t t.root).toNat = (s.heap.map fun m => (keyOf s m).toNat).sum)

/-- 42_tree_builder R108, R103, 60_exceptions R136: a TB_BUILD that raises keeps every node it has merged allocated: each
merge left one node more and one queued node less, and the failed one took two out of the queue. ROOT, BU_CUR and RESULT
are as they were, and only the arena, the queue and the error record changed. The error and its argument are those of the
failed merge: ARENA_FULL(511), or FREQ_OVERFLOW((B << 16) | A) (60_exceptions R134). It raises FREQ_OVERFLOW where the arena
has room for the merges but the queued frequencies' sum does not fit 32 bits, ARENA_FULL where the sum fits but the arena
has no room, and one of the two where neither does. -/
def Obligations.TbBuildErrorKeepsTheMergedNodes : Prop :=
  (∀ s t : State, s.err = false → heapSize s ≤ 256 → exec .tbBuild s = .next t → t.err = true →
    t.root = s.root ∧ t.buCur = s.buCur ∧ t.result = s.result
    ∧ s.nodes <+: t.nodes ∧ t.nodes.length + t.heap.length + 2 = s.nodes.length + s.heap.length
    ∧ t = { s with
        nodes := t.nodes, heap := t.heap, dstack := []
        err := true, errCode := t.errCode, errCmd := s.cmdWord, errArg := t.errArg
        busy := false, cmdWord := 0#32, waitOut := [] }
    ∧ ∃ u v e arg, Merged s u ∧ MergeRaises e arg u v ∧ t = takeError e arg v)
  ∧ ∀ s : State, heapSize s ≤ 256 → (∀ m ∈ s.heap, m.toNat < nodeCount s) → nodeCount s ≤ 511 →
    (nodeCount s + (heapSize s - 1) ≤ 511 → 2 ^ 32 - 1 < (s.heap.map fun m => (keyOf s m).toNat).sum →
      ∃ t, exec .tbBuild s = .next t ∧ t.err = true ∧ t.errCode = 0x21#8)
    ∧ (511 < nodeCount s + (heapSize s - 1) → (s.heap.map fun m => (keyOf s m).toNat).sum ≤ 2 ^ 32 - 1 →
      ∃ t, exec .tbBuild s = .next t ∧ t.err = true ∧ t.errCode = 0x20#8 ∧ t.errArg = 511#32 ∧ t.nodes.length = 511)
    ∧ (511 < nodeCount s + (heapSize s - 1) → 2 ^ 32 - 1 < (s.heap.map fun m => (keyOf s m).toNat).sum →
      ∃ t, exec .tbBuild s = .next t ∧ t.err = true ∧ (t.errCode = 0x20#8 ∨ t.errCode = 0x21#8))

/-- 42_tree_builder R108: for `k` byte values of nonzero frequency whose sum fits 32 bits, TB_LOAD_LEAVES then
TB_BUILD leave 2k - 1 nodes, ROOT = 2k - 2, a root whose frequency is the sum, and a tree whose leaves are exactly
those byte values; for k = 0 the empty tree. -/
def Obligations.LoadThenBuildMakesTheTree : Prop :=
  ∀ s : State, totalFreq s ≤ 2 ^ 32 - 1 →
    ∃ t u, exec .tbLoadLeaves s = .next t ∧ exec .tbBuild t = .next u ∧ u.heap = [] ∧ u.buCur = u.root
      ∧ ((usedBytes s).length = 0 → u.nodes = [] ∧ u.root = 0x1FF#9)
      ∧ (1 ≤ (usedBytes s).length →
          u.nodes.length = 2 * (usedBytes s).length - 1
          ∧ u.root = BitVec.ofNat 9 (2 * (usedBytes s).length - 2)
          ∧ (keyOf u u.root).toNat = totalFreq s
          ∧ ∃ T, HoldsTree u.nodes u.root T ∧ T.symbols.Perm (usedBytes s))

/-- 42_tree_builder R109, "This is the optimality of Huffman's greedy merge", which the spec takes from general
knowledge, not from its source: where the frequencies' sum fits 32 bits
and some frequency is not 0, TB_LOAD_LEAVES then TB_BUILD leave a tree whose sum of FREQ[b] × depth(b) is minimal over
all binary trees with the same leaves. -/
def Obligations.LoadThenBuildIsOptimal : Prop :=
  ∀ s : State, totalFreq s ≤ 2 ^ 32 - 1 → 1 ≤ (usedBytes s).length →
    ∃ t u T, exec .tbLoadLeaves s = .next t ∧ exec .tbBuild t = .next u ∧ HoldsTree u.nodes u.root T
      ∧ T.symbols.Perm (usedBytes s)
      ∧ ∀ T' : CodeTree, T'.symbols.Perm (usedBytes s) →
        T.weightedDepth (fun b => (freqAt s b).toNat) ≤ T'.weightedDepth (fun b => (freqAt s b).toNat)

/-! ## The code table -/

/-- 43_code_table R110: where no symbol is at two leaves and no code is longer than 32 bits, CG_GENERATE gives each
leaf's symbol its path from the root as its code (a single leaf the one bit 0), clears every other entry, and
returns the number of codes; for the empty tree it clears every entry and returns 0. -/
def Obligations.CgGenerateAssignsTreePaths : Prop :=
  (∀ (s : State) (T : CodeTree), s.root ≠ 0x1FF#9 → HoldsTree s.nodes s.root T → (T.codes.map Prod.fst).Nodup →
    (∀ c ∈ T.codes, c.2.length ≤ 32) →
    ∃ t, exec .cgGenerate s = .next t
      ∧ t = completeCommand { s with code := t.code, len := t.len, result := BitVec.ofNat 32 T.codes.length }
      ∧ (∀ c ∈ T.codes, (codeAt t c.1).toNat = bitsValue c.2 ∧ (lenAt t c.1).toNat = c.2.length)
      ∧ (∀ b, b ∉ T.codes.map Prod.fst → codeAt t b = 0#32 ∧ lenAt t b = 0#6))
  ∧ (∀ s : State, s.root = 0x1FF#9 → ∃ t, exec .cgGenerate s = .next t
      ∧ t = completeCommand { s with code := t.code, len := t.len, result := 0#32 }
      ∧ ∀ b, codeAt t b = 0#32 ∧ lenAt t b = 0#6)

/-- 43_code_table R110, 60_exceptions R137: at the first leaf in pre-order that is deeper than 32 or whose symbol
already has a code, CG_GENERATE raises CODE_TOO_LONG, or else DUP_SYMBOL, with the symbol; the leaves before it keep
their codes, every other entry is 0, and RESULT is unchanged. -/
def Obligations.CgGenerateStopsAtFirstBadLeaf : Prop :=
  ∀ (s : State) (T : CodeTree) (pre post : List (Byte × List Bool)) (c : Byte × List Bool), s.root ≠ 0x1FF#9 →
    HoldsTree s.nodes s.root T → T.codes = pre ++ c :: post →
    (pre.map Prod.fst).Nodup → (∀ p ∈ pre, p.2.length ≤ 32) →
    (32 < c.2.length ∨ c.1 ∈ pre.map Prod.fst) → c.2.length ≤ 510 →
    ∃ t, exec .cgGenerate s = .next t
      ∧ t = takeError (if 32 < c.2.length then .codeTooLong else .dupSymbol) (c.1.setWidth 32)
          { s with code := t.code, len := t.len }
      ∧ (∀ p ∈ pre, (codeAt t p.1).toNat = bitsValue p.2 ∧ (lenAt t p.1).toNat = p.2.length)
      ∧ (∀ b, b ∉ pre.map Prod.fst → codeAt t b = 0#32 ∧ lenAt t b = 0#6)

/-- 43_code_table R111 items 1 to 3: after a CG_GENERATE without error on a tree of two or more leaves the byte values
with a code are exactly the symbols at its leaves, no assigned code is a prefix of another, the code space is exactly
filled, and RESULT is the number of leaves, which is that of assigned codes. The spec marks R111 as its own inference
("derived: from rule R110"). -/
def Obligations.CodesArePrefixFree : Prop :=
  ∀ (s t : State) (l r : CodeTree), s.root ≠ 0x1FF#9 → HoldsTree s.nodes s.root (.node l r) → s.err = false →
    exec .cgGenerate s = .next t → t.err = false →
    (∀ b, lenAt t b ≠ 0#6 ↔ b ∈ (CodeTree.node l r).symbols)
    ∧ t.result.toNat = (CodeTree.node l r).leafCount
    ∧ (∀ b b', b ≠ b' → lenAt t b ≠ 0#6 → lenAt t b ≤ lenAt t b' →
      (codeAt t b').toNat >>> ((lenAt t b').toNat - (lenAt t b).toNat) ≠ (codeAt t b).toNat)
    ∧ ((allBytes.filter fun b => lenAt t b ≠ 0#6).map fun b => 2 ^ (32 - (lenAt t b).toNat)).sum = 2 ^ 32
    ∧ t.result.toNat = (allBytes.filter fun b => lenAt t b ≠ 0#6).length

/-! ## The serializer -/

/-- 44_tree_serializer R114, R112, R113: TS_MEASURE sets TREE_SIZE and RESULT to the length of the tree's serialized
form, 0 for the empty tree, and raises HDR_RANGE with ERR_ARG = 8192 above 8191. -/
def Obligations.TsMeasureCountsTheSerializedTree : Prop :=
  (∀ (s : State) (T : CodeTree), s.root ≠ 0x1FF#9 → HoldsTree s.nodes s.root T →
    exec .tsMeasure s
      = if T.bytes.length ≤ 8191 then
          .next (completeCommand { s with
            treeSize := BitVec.ofNat 13 T.bytes.length, result := BitVec.ofNat 32 T.bytes.length })
        else .next (takeError .hdrRange 8192#32 s))
  ∧ (∀ s : State, s.root = 0x1FF#9 →
      exec .tsMeasure s = .next (completeCommand { s with treeSize := 0#13, result := 0#32 }))

/-- 44_tree_serializer R115: TS_PAD sets TOTAL_BITS to the exact sum of FREQ[b] × LEN[b], PAD and RESULT to the
padding count. Two clauses are the spec's own inferences: "(TOTAL_BITS + PAD) mod 8 = 0" (R119) and "the 64-bit
TOTAL_BITS never wraps", a sum below 2^45 where lengths are at most 32 (R115). -/
def Obligations.TsPadCountsThePayload : Prop :=
  encode .tsPad = 0x41000000#32 ∧
  ∀ s : State, ∃ t, exec .tsPad s = .next t
    ∧ t = completeCommand { s with totalBits := t.totalBits, pad := t.pad, result := t.pad.setWidth 32 }
    ∧ t.totalBits.toNat = (allBytes.map fun b => (freqAt s b).toNat * (lenAt s b).toNat).sum
    ∧ t.pad.toNat = (8 - t.totalBits.toNat % 8) % 8
    ∧ (t.totalBits.toNat + t.pad.toNat) % 8 = 0
    ∧ ((∀ b, (lenAt s b).toNat ≤ 32) → t.totalBits.toNat < 2 ^ 45)

/-- 44_tree_serializer R116, R117: where the host accepts the bytes, the header commands emit the header's high byte,
then its low byte, from PAD and TREE_SIZE or from the operand, and change nothing else. -/
def Obligations.HeaderCommandsEmitTwoBytes : Prop :=
  encode .tsWriteHeader = 0x42000000#32 ∧
  ∀ (s : State) (h : BitVec 16), s.outRoom = none →
    encode (.tsWriteHeaderImm h) = 0x43000000#32 ||| h.setWidth 32
    ∧ exec (.tsWriteHeaderImm h) s
      = .next (completeCommand { s with
          outSeq := s.outSeq ++ [(h >>> 8).setWidth 8, h.setWidth 8], outCount := s.outCount + 2#32 })
    ∧ (h = (s.pad.setWidth 16 <<< 13) ||| s.treeSize.setWidth 16 → exec .tsWriteHeader s
      = .next (completeCommand { s with
          outSeq := s.outSeq ++ [(h >>> 8).setWidth 8, h.setWidth 8], outCount := s.outCount + 2#32 }))

/-- 44_tree_serializer R118, R112: where the host accepts the bytes, TS_WRITE_TREE emits the serialized tree and
returns its size; above 8191 bytes it raises HDR_RANGE and emits nothing; the empty tree emits nothing. -/
def Obligations.TsWriteTreeEmitsTheTree : Prop :=
  (∀ (s : State) (T : CodeTree), s.root ≠ 0x1FF#9 → HoldsTree s.nodes s.root T → s.outRoom = none →
    exec .tsWriteTree s
      = if T.bytes.length ≤ 8191 then
          .next (completeCommand { s with
            outSeq := s.outSeq ++ T.bytes, outCount := s.outCount + BitVec.ofNat 32 T.bytes.length
            result := BitVec.ofNat 32 T.bytes.length })
        else .next (takeError .hdrRange 8192#32 s))
  ∧ (∀ s : State, s.root = 0x1FF#9 → exec .tsWriteTree s = .next (completeCommand { s with result := 0#32 }))

/-! ## The deserializer -/

/-- 45_tree_deserializer R120: TD_READ_HEADER takes two bytes of the stream into PAD, TREE_SIZE and RESULT; a stream
of fewer bytes raises FMT_TRUNCATED_HEADER with the number of bytes read, which stay consumed. -/
def Obligations.TdReadHeaderReadsTwoBytes : Prop :=
  encode .tdReadHeader = 0x50000000#32 ∧
  (∀ (s : State) (b0 b1 : Byte) (rest : List Byte), s.inSeq = b0 :: b1 :: rest → 2 ≤ s.inRem.toNat →
    exec .tdReadHeader s
      = .next (completeCommand { s with
          inSeq := rest, inRem := s.inRem - 2#32, pad := (b0 >>> 5).setWidth 3
          treeSize := (b0.setWidth 13 <<< 8) ||| b1.setWidth 13
          result := (b0.setWidth 32 <<< 8) ||| b1.setWidth 32 }))
  ∧ (∀ s : State, s.inRem = 0#32 → exec .tdReadHeader s = .next (takeError .fmtTruncatedHeader 0#32 s))
  ∧ (∀ (s : State) (b0 : Byte), s.inSeq = [b0] → s.inRem = 1#32 →
      exec .tdReadHeader s
        = .next (takeError .fmtTruncatedHeader 1#32 { s with inSeq := [], inRem := 0#32 }))

/-- 45_tree_deserializer R121, 44_tree_serializer R119: from a stream that starts with `TREE_SIZE` bytes reading as a
tree of at most 256 leaves, TD_READ_TREE rebuilds exactly that tree at ROOT, its nodes allocated in post-order with
frequencies 0, consuming exactly those bytes; in particular from the serialized form of any such tree (R119: "Ser is injective on trees", the spec's
own inference). -/
def Obligations.TdReadTreeRebuildsTheTree : Prop :=
  (∀ (s : State) (T : CodeTree) (bytes rest : List Byte), ReadsAs bytes T → T.leafCount ≤ 256 →
    s.inSeq = bytes ++ rest → s.inSeq.length ≤ s.inRem.toNat → s.treeSize.toNat = bytes.length →
    ∃ t, exec .tdReadTree s = .next t
      ∧ t.nodes = T.entries 0 ∧ HoldsTree t.nodes t.root T ∧ (∀ n ∈ t.nodes, n.freq = 0#32)
      ∧ t.nodes.length = 2 * T.leafCount - 1 ∧ t.root = BitVec.ofNat 9 (2 * T.leafCount - 2)
      ∧ t = completeCommand { s with
          nodes := t.nodes, heap := [], root := t.root, buCur := t.root, result := t.root.setWidth 32
          dstack := [], inSeq := rest, inRem := s.inRem - BitVec.ofNat 32 bytes.length })
  ∧ ∀ T : CodeTree, ReadsAs T.bytes T

/-- 45_tree_deserializer R121: TREE_SIZE = 0 gives the empty tree and consumes nothing; a stream that ends before the
tree raises FMT_TREE_EOS, a first byte that is no tag FMT_BAD_TAG with offset 0, and a tree that ends before
TREE_SIZE bytes FMT_TREE_SIZE_MISMATCH, each with the tree forgotten. Inside a tree (bytes `bs` that leave nodes
pending): where a byte is needed, as a tag, a leaf's value or an escaped value, FMT_TREE_SIZE_MISMATCH once TREE_SIZE
bytes are consumed and else FMT_TREE_EOS at the stream's end; FMT_BAD_TAG with the tag's offset; and FMT_TREE_TOO_LARGE
at a 256th pending internal node, with the bytes consumed, or where a leaf and the internal nodes it completes would
need a 512th node, with 511. In each case the nodes allocated so far stay in the arena, as they were allocated. -/
def Obligations.TdReadTreeEndCases : Prop :=
  (∀ s : State, s.treeSize = 0#13 → exec .tdReadTree s
    = .next (completeCommand { s with
        nodes := [], heap := [], root := 0x1FF#9, buCur := 0x1FF#9, result := 0x1FF#32 }))
  ∧ (∀ s : State, s.treeSize ≠ 0#13 → s.inRem = 0#32 → exec .tdReadTree s
      = .next (takeError .fmtTreeEos 0#32
          { s with nodes := [], heap := [], root := 0x1FF#9, buCur := 0x1FF#9 }))
  ∧ (∀ (s : State) (x : Byte) (rest : List Byte), s.treeSize ≠ 0#13 → s.inRem ≠ 0#32 → s.inSeq = x :: rest →
      x ≠ 0x30#8 → x ≠ 0x31#8 → exec .tdReadTree s
      = .next (takeError .fmtBadTag (x.setWidth 32)
          { s with
            nodes := [], heap := [], root := 0x1FF#9, buCur := 0x1FF#9
            inSeq := rest, inRem := s.inRem - 1#32 }))
  ∧ (∀ (s : State) (T : CodeTree) (bytes rest : List Byte), ReadsAs bytes T → T.leafCount ≤ 256 →
      s.inSeq = bytes ++ rest → s.inSeq.length ≤ s.inRem.toNat → bytes.length < s.treeSize.toNat →
      ReadTreeRaises s .fmtTreeSizeMismatch bytes.length bytes.length (T.entries 0) rest
      ∧ (T.entries 0).length = 2 * T.leafCount - 1
      ∧ HoldsTree (T.entries 0) (BitVec.ofNat 9 (2 * T.leafCount - 2)) T)
  ∧ (∀ (s : State) (bs part rest : List Byte) (fs : List (Option NodeIdx)) (ns : List Node) (k : Nat),
      PendingAfter bs fs ns → part ∈ [[], [0x31#8], [0x31#8, 0x5C#8]] → k = bs.length + part.length →
      s.inSeq = bs ++ part ++ rest → s.inSeq.length ≤ s.inRem.toNat → s.treeSize ≠ 0#13 →
      (k = s.treeSize.toNat → ReadTreeRaises s .fmtTreeSizeMismatch k k ns rest)
      ∧ (k < s.treeSize.toNat → s.inRem.toNat = k → ReadTreeRaises s .fmtTreeEos k k ns []))
  ∧ (∀ (s : State) (bs rest : List Byte) (x : Byte) (fs : List (Option NodeIdx)) (ns : List Node),
      PendingAfter bs fs ns → s.inSeq = bs ++ x :: rest → s.inSeq.length ≤ s.inRem.toNat →
      bs.length < s.treeSize.toNat →
      (x ≠ 0x30#8 → x ≠ 0x31#8 →
        ReadTreeRaises s .fmtBadTag (bs.length * 256 + x.toNat) (bs.length + 1) ns rest)
      ∧ (x = 0x30#8 → fs.length = 255 →
        ReadTreeRaises s .fmtTreeTooLarge (bs.length + 1) (bs.length + 1) ns rest))
  ∧ (∀ (s : State) (bs lf rest : List Byte) (v : Byte) (fs : List (Option NodeIdx)) (ns all : List Node),
      PendingAfter bs fs ns → ReadsAs lf (.leaf v) → s.inSeq = bs ++ lf ++ rest → s.inSeq.length ≤ s.inRem.toNat →
      bs.length + lf.length ≤ s.treeSize.toNat →
      all = ns ++ (CodeTree.leaf v).entries ns.length ++ completedBy ns.length fs → 511 < all.length →
      ReadTreeRaises s .fmtTreeTooLarge 511 (bs.length + lf.length) (all.take 511) rest)

/-- 45_tree_deserializer R121, 60_exceptions R136: whatever error TD_READ_TREE raises, ROOT and BU_CUR are NIL, the
queue and the stack are empty, RESULT is unchanged, the error is one of its four, and the stream has only lost
bytes from its front. -/
def Obligations.TdReadTreeErrorLeavesNoTree : Prop :=
  ∀ s t : State, s.err = false → exec .tdReadTree s = .next t → t.err = true →
    t.root = 0x1FF#9 ∧ t.buCur = 0x1FF#9 ∧ t.heap = [] ∧ t.dstack = [] ∧ t.result = s.result
    ∧ t.errCode ∈ [0x51#8, 0x52#8, 0x53#8, 0x54#8] ∧ t.inSeq <:+ s.inSeq

/-! ## The packer -/

/-- 46_bit_packer R124, 47_bit_unpacker R130: BP_RESET empties the accumulator without emitting; BU_RESET puts the
cursor at the root; nothing else changes. -/
def Obligations.ResetCommands : Prop :=
  encode .bpReset = 0x60000000#32 ∧ encode .buReset = 0x70000000#32 ∧
  ∀ s : State,
    exec .bpReset s = .next { s with acc := 0#8, cnt := 0#3, busy := false, cmdWord := 0#32, waitOut := [] }
    ∧ exec .buReset s = .next { s with buCur := s.root, busy := false, cmdWord := 0#32, waitOut := [] }

/-- 46_bit_packer R125, R122: where the host accepts the byte, BP_ADD_BIT appends its bit to the bits sent; the eighth
bit emits the byte. -/
def Obligations.BpAddBitAppendsTheBit : Prop :=
  ∀ (s : State) (x : BitVec 1), s.outRoom = none →
    encode (.bpAddBit x) = 0x61000000#32 ||| x.setWidth 32
    ∧ ∃ t, exec (.bpAddBit x) s = .next t
      ∧ sentBits t = sentBits s ++ [x == 1#1]
      ∧ (s.cnt ≠ 7#3 → t = completeCommand { s with acc := (s.acc <<< 1) ||| x.setWidth 8, cnt := s.cnt + 1#3 })
      ∧ (s.cnt = 7#3 → t = completeCommand { s with
          acc := 0#8, cnt := 0#3, outCount := s.outCount + 1#32
          outSeq := s.outSeq ++ [(s.acc <<< 1) ||| x.setWidth 8] })

/-- 46_bit_packer R126: where the host accepts the byte, BP_FLUSH emits the held bits left-aligned, followed by zero
bits up to a whole byte, and nothing where no bit is held. -/
def Obligations.BpFlushPadsToAByte : Prop :=
  encode .bpFlush = 0x62000000#32 ∧
  ∀ s : State, s.outRoom = none → ∃ t, exec .bpFlush s = .next t
    ∧ sentBits t = sentBits s ++ List.replicate ((8 - s.cnt.toNat) % 8) false
    ∧ (s.cnt = 0#3 → t = completeCommand { s with acc := 0#8, cnt := 0#3 })
    ∧ (s.cnt ≠ 0#3 → t = completeCommand { s with
        acc := 0#8, cnt := 0#3, outCount := s.outCount + 1#32
        outSeq := s.outSeq ++ [s.acc <<< (8 - s.cnt.toNat)] })

/-- 46_bit_packer R127, R123: where the host accepts the bytes, BP_ENCODE_BYTE appends the code of its byte value to
the bits sent, root side first; a byte value without a code raises NO_CODE before any bit. -/
def Obligations.BpEncodeByteAppendsTheCode : Prop :=
  ∀ (s : State) (b : Byte),
    (lenAt s b = 0#6 → exec (.bpEncodeByte b) s = .next (takeError .noCode (b.setWidth 32) s))
    ∧ (lenAt s b ≠ 0#6 → s.outRoom = none → ∃ t, exec (.bpEncodeByte b) s = .next t
        ∧ sentBits t = sentBits s ++ codeBits s b
        ∧ t.outCount = s.outCount + BitVec.ofNat 32 (t.outSeq.length - s.outSeq.length)
        ∧ t = completeCommand { s with
            acc := t.acc, cnt := t.cnt, outSeq := t.outSeq, outCount := t.outCount })

/-- 46_bit_packer R128: where the host keeps its duties and every byte of the stream has a code, BP_ENCODE_STREAM
appends their codes in order to the bits sent, consumes the stream, and returns the number of bytes. -/
def Obligations.BpEncodeStreamAppendsTheCodes : Prop :=
  ∀ s : State, HostKeepsDuties s → (∀ b ∈ s.inSeq, lenAt s b ≠ 0#6) →
    ∃ t, exec .bpEncodeStream s = .next t
      ∧ sentBits t = sentBits s ++ s.inSeq.flatMap (codeBits s)
      ∧ t.outCount = s.outCount + BitVec.ofNat 32 (t.outSeq.length - s.outSeq.length)
      ∧ t = completeCommand { s with
          acc := t.acc, cnt := t.cnt, outSeq := t.outSeq, outCount := t.outCount
          inSeq := [], inRem := 0#32, result := s.inRem }

/-- 46_bit_packer R128: at the first byte without a code BP_ENCODE_STREAM raises NO_CODE with it; the bytes before it
are encoded, it is consumed, and the bytes after it are not. -/
def Obligations.BpEncodeStreamStopsAtNoCode : Prop :=
  ∀ (s : State) (pre post : List Byte) (b : Byte), s.inSeq = pre ++ b :: post →
    s.inSeq.length ≤ s.inRem.toNat → s.outRoom = none →
    (∀ p ∈ pre, lenAt s p ≠ 0#6) → lenAt s b = 0#6 →
    ∃ t, exec .bpEncodeStream s = .next t
      ∧ sentBits t = sentBits s ++ pre.flatMap (codeBits s)
      ∧ t.outCount = s.outCount + BitVec.ofNat 32 (t.outSeq.length - s.outSeq.length)
      ∧ t = takeError .noCode (b.setWidth 32) { s with
          acc := t.acc, cnt := t.cnt, outSeq := t.outSeq, outCount := t.outCount
          inSeq := post, inRem := s.inRem - BitVec.ofNat 32 (pre.length + 1) }

/-! ## The unpacker -/

/-- 47_bit_unpacker R131, R129: BU_BIT on the empty tree, on a single leaf, and on an internal root, where the child
that the bit descends to is a leaf or an internal node; emitted bytes go where the host accepts them. -/
def Obligations.BuBitDescends : Prop :=
  (∀ (s : State) (x : BitVec 1), s.root = 0x1FF#9 → exec (.buBit x) s = .next (takeError .fmtNoTree 0#32 s))
  ∧ (∀ (s : State) (r : Node), s.root ≠ 0x1FF#9 → s.nodes[s.root.toNat]? = some r → r.leaf = true →
      exec (.buBit 1#1) s = .next (takeError .fmtBadCode 0#32 s)
      ∧ (s.outRoom = none → exec (.buBit 0#1) s
          = .next (completeCommand { s with
              outSeq := s.outSeq ++ [r.sym], outCount := s.outCount + 1#32
              result := 0x100#32 ||| r.sym.setWidth 32 })))
  ∧ (∀ (s : State) (x : BitVec 1) (r c n : Node) (nx : NodeIdx), s.root ≠ 0x1FF#9 →
      s.nodes[s.root.toNat]? = some r → r.leaf = false → s.nodes[s.buCur.toNat]? = some c →
      nx = (if x = 0#1 then c.left else c.right) → s.nodes[nx.toNat]? = some n →
      (n.leaf = false → exec (.buBit x) s = .next (completeCommand { s with buCur := nx, result := 0#32 }))
      ∧ (n.leaf = true → s.outRoom = none → exec (.buBit x) s
          = .next (completeCommand { s with
              buCur := s.root, outSeq := s.outSeq ++ [n.sym], outCount := s.outCount + 1#32
              result := 0x100#32 ||| n.sym.setWidth 32 })))

/-- 47_bit_unpacker R132, 20_memory R63: where the host keeps its duties and the payload's bits, less the low PAD bits
of its last byte, are the codes of a list of leaves, BU_DECODE_STREAM emits exactly those leaves' symbols, consumes
the payload and leaves the cursor at the root. RESULT is their number where that fits 32 bits; where it does not,
the spec states no RESULT and this statement says nothing of it (log 8, the model's choice). -/
def Obligations.BuDecodeStreamInvertsTheCode : Prop :=
  ∀ (s : State) (T : CodeTree) (msg : List (Byte × List Bool)), s.root ≠ 0x1FF#9 → HoldsTree s.nodes s.root T →
    HostKeepsDuties s → s.inRem ≠ 0#32 → (∀ c ∈ msg, c ∈ T.codes) →
    (bitsOf s.inSeq).take (8 * s.inSeq.length - s.pad.toNat) = msg.flatMap Prod.snd →
    ∃ t, exec .buDecodeStream s = .next t
      ∧ t = completeCommand { s with
          outSeq := s.outSeq ++ msg.map Prod.fst, outCount := s.outCount + BitVec.ofNat 32 msg.length
          inSeq := [], inRem := 0#32, buCur := s.root, result := t.result }
      ∧ (msg.length < 2 ^ 32 → t.result = BitVec.ofNat 32 msg.length)

/-- 47_bit_unpacker R132, 60_exceptions R137: the cases that do not end with a whole code. Padding without payload comes
first; then the empty container; then payload without a tree; then a tree without payload. On a single-leaf tree the
first bit 1 raises FMT_BAD_CODE with its position in the payload, after a symbol for each bit before it. A payload that
ends inside a code, after the bits `part` of it, raises FMT_PAYLOAD_TRUNCATED with the node they lead to, after the
symbols of the codes before. -/
def Obligations.BuDecodeStreamEndCases : Prop :=
  ∀ s : State,
    (s.inRem = 0#32 → s.pad ≠ 0#3 →
      exec .buDecodeStream s = .next (takeError .fmtPadNoPayload (s.pad.setWidth 32) s))
    ∧ (s.inRem = 0#32 → s.pad = 0#3 → s.root = 0x1FF#9 →
        exec .buDecodeStream s = .next (completeCommand { s with result := 0#32 }))
    ∧ (s.inRem ≠ 0#32 → s.root = 0x1FF#9 → exec .buDecodeStream s = .next (takeError .fmtNoTree 0#32 s))
    ∧ (s.inRem = 0#32 → s.pad = 0#3 → s.root ≠ 0x1FF#9 → exec .buDecodeStream s
        = .next (takeError .fmtPayloadTruncated (s.root.setWidth 32) { s with buCur := s.root }))
    ∧ (∀ (r : Node) (y : Byte) (rest : List Byte), s.inRem ≠ 0#32 → s.root ≠ 0x1FF#9 →
        s.nodes[s.root.toNat]? = some r → r.leaf = true → s.inSeq = y :: rest → y.getLsbD 7 = true →
        exec .buDecodeStream s
        = .next (takeError .fmtBadCode 0#32
            { s with buCur := s.root, inSeq := rest, inRem := s.inRem - 1#32 }))
    ∧ (∀ (r : Node) (p : Nat) (after : List Bool), s.root ≠ 0x1FF#9 → s.nodes[s.root.toNat]? = some r →
        r.leaf = true → s.outRoom = none → s.inSeq.length ≤ s.inRem.toNat → p + s.pad.toNat < 8 * s.inRem.toNat →
        bitsOf s.inSeq = List.replicate p false ++ true :: after →
        exec .buDecodeStream s
        = .next (takeError .fmtBadCode (BitVec.ofNat 32 p) { s with
            outSeq := s.outSeq ++ List.replicate p r.sym, outCount := s.outCount + BitVec.ofNat 32 p
            buCur := s.root, inSeq := s.inSeq.drop (p / 8 + 1)
            inRem := s.inRem - BitVec.ofNat 32 (p / 8 + 1) }))
    ∧ (∀ (T : CodeTree) (msg : List (Byte × List Bool)) (c : Byte × List Bool) (part : List Bool), s.root ≠ 0x1FF#9 →
        HoldsTree s.nodes s.root T → HostKeepsDuties s → s.inRem ≠ 0#32 → (∀ d ∈ msg, d ∈ T.codes) → c ∈ T.codes →
        part <+: c.2 → part ≠ [] → part ≠ c.2 →
        (bitsOf s.inSeq).take (8 * s.inSeq.length - s.pad.toNat) = msg.flatMap Prod.snd ++ part →
        exec .buDecodeStream s
        = .next (takeError .fmtPayloadTruncated ((nodeAlong s.nodes s.root part).setWidth 32) { s with
            outSeq := s.outSeq ++ msg.map Prod.fst, outCount := s.outCount + BitVec.ofNat 32 msg.length
            buCur := nodeAlong s.nodes s.root part, inSeq := [], inRem := 0#32 }))

/-! ## Whole-machine rules -/

/-- The invariants of 10_state R50 hold after reset. The spec marks R50 as its own inference ("derived: from the
pseudocode"); `Inv` also holds R24, R45, R48, R49, R96 to their rules and, for the model's own fields, what log entries 2
and 20 say of them. -/
def Obligations.ResetSatisfiesTheInvariants : Prop := Inv State.reset

/-- 10_state R50, "Every command keeps these invariants. Every host action keeps them as well" (the spec's own
inference): in every state, BUSY = 1 included, and after an error. -/
def Obligations.EveryStepKeepsTheInvariants : Prop :=
  ∀ s t : State, Inv s → step s = .next t → Inv t

/-- 10_state R50 item 4, "every walk from a node ends at leaves" (the spec's own inference): every allocated node is
the root of a finite tree. -/
def Obligations.EveryNodeHoldsATree : Prop :=
  ∀ (s : State) (i : NodeIdx), Inv s → i.toNat < nodeCount s →
    ∃ T, HoldsTree s.nodes i T ∧ ∀ c ∈ T.paths, c.2.length ≤ i.toNat

/-- 40_control R84, "A command always completes when the host keeps its duties", which the spec marks as its own inference
("derived: from the pseudocode of files 41 to 47"): the engine's turn ends the command, with BUSY = 0, in every state
that meets the invariants, whatever the accepted word, be the engine next in the list of acts or no act left (log 3). -/
def Obligations.EveryCommandCompletes : Prop :=
  ∀ s : State, Inv s → HostKeepsDuties s → s.busy = true →
    (∀ rest : List Input, s.inputs = .engine :: rest → ∃ t, step s = .next t ∧ t.busy = false ∧ t.inputs = rest)
    ∧ (s.inputs = [] → ∃ t, step s = .next t ∧ t.busy = false ∧ t.inputs = [])

/-- 20_memory R59, U6: a command that does not complete waits, with BUSY = 1 and no architectural state changed. It waits
for a byte of the stream, or for room on the OUT port: where the host accepts `n` more bytes a command ends as it does
without a limit, if its bytes are at most `n`, and else waits with exactly the first `n` of them out. That the state of a
waiting command is the state of its acceptance, with the bytes it has put out kept aside in `waitOut` until it completes
or is aborted, is the model's choice (log 2), and so is that the host's readiness is a count, to which the bytes already out
are added where the host states it anew (log 13). -/
def Obligations.WaitingChangesNothing : Prop :=
  (∀ (i : Instr) (s t : State), exec i s = .next t → t.busy = true → t = { s with waitOut := t.waitOut })
  ∧ (∀ s : State, s.busy = true → s.outRoom = none → s.inSeq.length < s.inRem.toNat →
      (∀ b ∈ s.inSeq, lenAt s b ≠ 0#6) →
      ∃ t, exec .bpEncodeStream s = .next t ∧ t.busy = true)
  ∧ (∀ (i : Instr) (s u : State) (n : Nat) (out : List Byte), s.busy = true → s.outRoom = some n →
      exec i { s with outRoom := none } = .next u →
      out = (if u.busy then u.waitOut else u.outSeq.drop s.outSeq.length) →
      (out.length ≤ n → exec i s = .next { u with outRoom := some (if u.busy then n else n - out.length) })
      ∧ (n < out.length → exec i s = .next { s with waitOut := out.take n }))
  ∧ ∀ (s : State) (room : Option Nat) (rest : List Input), s.inputs = .outReady room :: rest →
      step s = .next { s with inputs := rest, outRoom := room.map fun n => n + s.waitOut.length }

/-- 10_state R26, 60_exceptions R136, R138: a command that raises leaves RESULT unchanged and records its own word,
and no command changes OVR, the host's window indices or FREQ (10_state R44). -/
def Obligations.CommandsKeepResultOnErrorAndFreq : Prop :=
  ∀ (i : Instr) (s t : State), exec i s = .next t →
    (s.err = false → t.err = true → t.result = s.result ∧ t.errCmd = s.cmdWord ∧ t.busy = false)
    ∧ t.freq = s.freq ∧ t.ovr = s.ovr ∧ t.freqIdx = s.freqIdx ∧ t.codeIdx = s.codeIdx ∧ t.nodeIdx = s.nodeIdx
    ∧ t.heapIdx = s.heapIdx

/-- 10_state R26 to R36, R45 to R47, 20_memory R53: the registers each command may write. RESULT, ROOT, the code table, the
packer's accumulator, the arena and the queue, PAD, TREE_SIZE, TOTAL_BITS, BU_CUR, the IN stream, and the OUT stream with
OUT_COUNT change only under the commands their rules name. -/
def Obligations.OnlyTheNamedCommandsWrite : Prop :=
  ∀ (i : Instr) (s t : State), exec i s = .next t →
    (i.mnemonic ∉ ["PQ_REMOVE_MIN", "TB_NEW_LEAF", "TB_LOAD_LEAVES", "TB_MERGE", "TB_BUILD", "CG_GENERATE", "TS_MEASURE",
        "TS_PAD", "TS_WRITE_TREE", "TD_READ_HEADER", "TD_READ_TREE", "BP_ENCODE_STREAM", "BU_BIT", "BU_DECODE_STREAM"] →
        t.result = s.result)
    ∧ (i.mnemonic ∉ ["TS_WRITE_HEADER", "TS_WRITE_HEADER_IMM", "TS_WRITE_TREE", "BP_ADD_BIT", "BP_FLUSH",
        "BP_ENCODE_BYTE", "BP_ENCODE_STREAM", "BU_BIT", "BU_DECODE_STREAM"] →
        t.outSeq = s.outSeq ∧ t.outCount = s.outCount)
    ∧ (i.mnemonic ∉ ["TB_CLEAR", "TB_LOAD_LEAVES", "TB_BUILD", "TD_READ_TREE"] → t.root = s.root)
    ∧ (i ≠ .cgGenerate → t.code = s.code ∧ t.len = s.len)
    ∧ (i.mnemonic ∉ ["BP_RESET", "BP_ADD_BIT", "BP_FLUSH", "BP_ENCODE_BYTE", "BP_ENCODE_STREAM"] →
        t.acc = s.acc ∧ t.cnt = s.cnt)
    ∧ (i.mnemonic ∉ ["TB_CLEAR", "TB_NEW_LEAF", "TB_LOAD_LEAVES", "TB_MERGE", "TB_BUILD", "TD_READ_TREE"] →
        t.nodes = s.nodes)
    ∧ (i.mnemonic ∉ ["PQ_CLEAR", "PQ_INSERT", "PQ_REMOVE_MIN", "TB_CLEAR", "TB_LOAD_LEAVES", "TB_MERGE",
        "TB_BUILD", "TD_READ_TREE"] → t.heap = s.heap)
    ∧ (i.mnemonic ∉ ["TS_PAD", "TD_READ_HEADER"] → t.pad = s.pad)
    ∧ (i.mnemonic ∉ ["TS_MEASURE", "TD_READ_HEADER"] → t.treeSize = s.treeSize)
    ∧ (i ≠ .tsPad → t.totalBits = s.totalBits)
    ∧ (i.mnemonic ∉ ["TB_CLEAR", "TB_LOAD_LEAVES", "TB_BUILD", "TD_READ_TREE", "BU_RESET", "BU_BIT",
        "BU_DECODE_STREAM"] → t.buCur = s.buCur)
    ∧ (i.mnemonic ∉ ["TD_READ_HEADER", "TD_READ_TREE", "BP_ENCODE_STREAM", "BU_DECODE_STREAM"] →
        t.inSeq = s.inSeq ∧ t.inRem = s.inRem)

/-- 10_state R49, 20_memory R59: HCORE only appends to OUT_SEQ: no step loses, changes or reorders a byte put out. The
bytes that a waiting command has out stand in `waitOut` (the model's choice, log 2): in every state that meets the
invariants they stay out too, in their place after OUT_SEQ, until the command's end or abort puts them there. That
OUT_SEQ survives a reset is the model's choice (log 4). -/
def Obligations.OutputIsOnlyAppended : Prop :=
  ∀ s t : State, step s = .next t →
    s.outSeq <+: t.outSeq ∧ (Inv s → s.outSeq ++ s.waitOut <+: t.outSeq ++ t.waitOut)
end

