-- ==== Sys2Proof/Laws/State.lean ====
section
/-! SUPPORT. One lemma per field of State per update: what the update leaves in the field. -/

namespace Sys2Proof.Machine

/-! ### completeCommand: STATUS.BUSY <- 0 (40_control R84) -/

@[simp] theorem completeCommand_busy (s : State) : (completeCommand s).busy = false := rfl
@[simp] theorem completeCommand_err (s : State) : (completeCommand s).err = s.err := rfl
@[simp] theorem completeCommand_ovr (s : State) : (completeCommand s).ovr = s.ovr := rfl
@[simp] theorem completeCommand_errCode (s : State) : (completeCommand s).errCode = s.errCode := rfl
@[simp] theorem completeCommand_errCmd (s : State) : (completeCommand s).errCmd = s.errCmd := rfl
@[simp] theorem completeCommand_errArg (s : State) : (completeCommand s).errArg = s.errArg := rfl
@[simp] theorem completeCommand_result (s : State) : (completeCommand s).result = s.result := rfl
@[simp] theorem completeCommand_root (s : State) : (completeCommand s).root = s.root := rfl
@[simp] theorem completeCommand_pad (s : State) : (completeCommand s).pad = s.pad := rfl
@[simp] theorem completeCommand_treeSize (s : State) : (completeCommand s).treeSize = s.treeSize := rfl
@[simp] theorem completeCommand_totalBits (s : State) : (completeCommand s).totalBits = s.totalBits := rfl
@[simp] theorem completeCommand_acc (s : State) : (completeCommand s).acc = s.acc := rfl
@[simp] theorem completeCommand_cnt (s : State) : (completeCommand s).cnt = s.cnt := rfl
@[simp] theorem completeCommand_buCur (s : State) : (completeCommand s).buCur = s.buCur := rfl
@[simp] theorem completeCommand_outCount (s : State) : (completeCommand s).outCount = s.outCount := rfl
@[simp] theorem completeCommand_inRem (s : State) : (completeCommand s).inRem = s.inRem := rfl
@[simp] theorem completeCommand_freqIdx (s : State) : (completeCommand s).freqIdx = s.freqIdx := rfl
@[simp] theorem completeCommand_codeIdx (s : State) : (completeCommand s).codeIdx = s.codeIdx := rfl
@[simp] theorem completeCommand_nodeIdx (s : State) : (completeCommand s).nodeIdx = s.nodeIdx := rfl
@[simp] theorem completeCommand_heapIdx (s : State) : (completeCommand s).heapIdx = s.heapIdx := rfl
@[simp] theorem completeCommand_freq (s : State) : (completeCommand s).freq = s.freq := rfl
@[simp] theorem completeCommand_code (s : State) : (completeCommand s).code = s.code := rfl
@[simp] theorem completeCommand_len (s : State) : (completeCommand s).len = s.len := rfl
@[simp] theorem completeCommand_nodes (s : State) : (completeCommand s).nodes = s.nodes := rfl
@[simp] theorem completeCommand_heap (s : State) : (completeCommand s).heap = s.heap := rfl
@[simp] theorem completeCommand_dstack (s : State) : (completeCommand s).dstack = s.dstack := rfl
@[simp] theorem completeCommand_inSeq (s : State) : (completeCommand s).inSeq = s.inSeq := rfl
@[simp] theorem completeCommand_outSeq (s : State) : (completeCommand s).outSeq = s.outSeq := rfl
@[simp] theorem completeCommand_cmdWord (s : State) : (completeCommand s).cmdWord = 0#32 := rfl
@[simp] theorem completeCommand_waitOut (s : State) : (completeCommand s).waitOut = [] := rfl
@[simp] theorem completeCommand_outRoom (s : State) : (completeCommand s).outRoom = s.outRoom := rfl
@[simp] theorem completeCommand_inputs (s : State) : (completeCommand s).inputs = s.inputs := rfl
@[simp] theorem completeCommand_readData (s : State) : (completeCommand s).readData = s.readData := rfl
@[simp] theorem completeCommand_hcPage (s : State) : (completeCommand s).hcPage = s.hcPage := rfl
@[simp] theorem completeCommand_draws (s : State) : (completeCommand s).draws = s.draws := rfl

/-! ### acceptCommand: STATUS.BUSY <- 1 (40_control R84) -/

@[simp] theorem acceptCommand_busy (w : Word) (s : State) : (acceptCommand w s).busy = true := rfl
@[simp] theorem acceptCommand_err (w : Word) (s : State) : (acceptCommand w s).err = s.err := rfl
@[simp] theorem acceptCommand_ovr (w : Word) (s : State) : (acceptCommand w s).ovr = s.ovr := rfl
@[simp] theorem acceptCommand_errCode (w : Word) (s : State) : (acceptCommand w s).errCode = s.errCode := rfl
@[simp] theorem acceptCommand_errCmd (w : Word) (s : State) : (acceptCommand w s).errCmd = s.errCmd := rfl
@[simp] theorem acceptCommand_errArg (w : Word) (s : State) : (acceptCommand w s).errArg = s.errArg := rfl
@[simp] theorem acceptCommand_result (w : Word) (s : State) : (acceptCommand w s).result = s.result := rfl
@[simp] theorem acceptCommand_root (w : Word) (s : State) : (acceptCommand w s).root = s.root := rfl
@[simp] theorem acceptCommand_pad (w : Word) (s : State) : (acceptCommand w s).pad = s.pad := rfl
@[simp] theorem acceptCommand_treeSize (w : Word) (s : State) : (acceptCommand w s).treeSize = s.treeSize := rfl
@[simp] theorem acceptCommand_totalBits (w : Word) (s : State) : (acceptCommand w s).totalBits = s.totalBits := rfl
@[simp] theorem acceptCommand_acc (w : Word) (s : State) : (acceptCommand w s).acc = s.acc := rfl
@[simp] theorem acceptCommand_cnt (w : Word) (s : State) : (acceptCommand w s).cnt = s.cnt := rfl
@[simp] theorem acceptCommand_buCur (w : Word) (s : State) : (acceptCommand w s).buCur = s.buCur := rfl
@[simp] theorem acceptCommand_outCount (w : Word) (s : State) : (acceptCommand w s).outCount = s.outCount := rfl
@[simp] theorem acceptCommand_inRem (w : Word) (s : State) : (acceptCommand w s).inRem = s.inRem := rfl
@[simp] theorem acceptCommand_freqIdx (w : Word) (s : State) : (acceptCommand w s).freqIdx = s.freqIdx := rfl
@[simp] theorem acceptCommand_codeIdx (w : Word) (s : State) : (acceptCommand w s).codeIdx = s.codeIdx := rfl
@[simp] theorem acceptCommand_nodeIdx (w : Word) (s : State) : (acceptCommand w s).nodeIdx = s.nodeIdx := rfl
@[simp] theorem acceptCommand_heapIdx (w : Word) (s : State) : (acceptCommand w s).heapIdx = s.heapIdx := rfl
@[simp] theorem acceptCommand_freq (w : Word) (s : State) : (acceptCommand w s).freq = s.freq := rfl
@[simp] theorem acceptCommand_code (w : Word) (s : State) : (acceptCommand w s).code = s.code := rfl
@[simp] theorem acceptCommand_len (w : Word) (s : State) : (acceptCommand w s).len = s.len := rfl
@[simp] theorem acceptCommand_nodes (w : Word) (s : State) : (acceptCommand w s).nodes = s.nodes := rfl
@[simp] theorem acceptCommand_heap (w : Word) (s : State) : (acceptCommand w s).heap = s.heap := rfl
@[simp] theorem acceptCommand_dstack (w : Word) (s : State) : (acceptCommand w s).dstack = s.dstack := rfl
@[simp] theorem acceptCommand_inSeq (w : Word) (s : State) : (acceptCommand w s).inSeq = s.inSeq := rfl
@[simp] theorem acceptCommand_outSeq (w : Word) (s : State) : (acceptCommand w s).outSeq = s.outSeq := rfl
@[simp] theorem acceptCommand_cmdWord (w : Word) (s : State) : (acceptCommand w s).cmdWord = w := rfl
@[simp] theorem acceptCommand_waitOut (w : Word) (s : State) : (acceptCommand w s).waitOut = [] := rfl
@[simp] theorem acceptCommand_outRoom (w : Word) (s : State) : (acceptCommand w s).outRoom = s.outRoom := rfl
@[simp] theorem acceptCommand_inputs (w : Word) (s : State) : (acceptCommand w s).inputs = s.inputs := rfl
@[simp] theorem acceptCommand_readData (w : Word) (s : State) : (acceptCommand w s).readData = s.readData := rfl
@[simp] theorem acceptCommand_hcPage (w : Word) (s : State) : (acceptCommand w s).hcPage = s.hcPage := rfl
@[simp] theorem acceptCommand_draws (w : Word) (s : State) : (acceptCommand w s).draws = s.draws := rfl

/-! ### setOverrun: STATUS.OVR <- 1 (40_control R84) -/

@[simp] theorem setOverrun_busy (s : State) : (setOverrun s).busy = s.busy := rfl
@[simp] theorem setOverrun_err (s : State) : (setOverrun s).err = s.err := rfl
@[simp] theorem setOverrun_ovr (s : State) : (setOverrun s).ovr = true := rfl
@[simp] theorem setOverrun_errCode (s : State) : (setOverrun s).errCode = s.errCode := rfl
@[simp] theorem setOverrun_errCmd (s : State) : (setOverrun s).errCmd = s.errCmd := rfl
@[simp] theorem setOverrun_errArg (s : State) : (setOverrun s).errArg = s.errArg := rfl
@[simp] theorem setOverrun_result (s : State) : (setOverrun s).result = s.result := rfl
@[simp] theorem setOverrun_root (s : State) : (setOverrun s).root = s.root := rfl
@[simp] theorem setOverrun_pad (s : State) : (setOverrun s).pad = s.pad := rfl
@[simp] theorem setOverrun_treeSize (s : State) : (setOverrun s).treeSize = s.treeSize := rfl
@[simp] theorem setOverrun_totalBits (s : State) : (setOverrun s).totalBits = s.totalBits := rfl
@[simp] theorem setOverrun_acc (s : State) : (setOverrun s).acc = s.acc := rfl
@[simp] theorem setOverrun_cnt (s : State) : (setOverrun s).cnt = s.cnt := rfl
@[simp] theorem setOverrun_buCur (s : State) : (setOverrun s).buCur = s.buCur := rfl
@[simp] theorem setOverrun_outCount (s : State) : (setOverrun s).outCount = s.outCount := rfl
@[simp] theorem setOverrun_inRem (s : State) : (setOverrun s).inRem = s.inRem := rfl
@[simp] theorem setOverrun_freqIdx (s : State) : (setOverrun s).freqIdx = s.freqIdx := rfl
@[simp] theorem setOverrun_codeIdx (s : State) : (setOverrun s).codeIdx = s.codeIdx := rfl
@[simp] theorem setOverrun_nodeIdx (s : State) : (setOverrun s).nodeIdx = s.nodeIdx := rfl
@[simp] theorem setOverrun_heapIdx (s : State) : (setOverrun s).heapIdx = s.heapIdx := rfl
@[simp] theorem setOverrun_freq (s : State) : (setOverrun s).freq = s.freq := rfl
@[simp] theorem setOverrun_code (s : State) : (setOverrun s).code = s.code := rfl
@[simp] theorem setOverrun_len (s : State) : (setOverrun s).len = s.len := rfl
@[simp] theorem setOverrun_nodes (s : State) : (setOverrun s).nodes = s.nodes := rfl
@[simp] theorem setOverrun_heap (s : State) : (setOverrun s).heap = s.heap := rfl
@[simp] theorem setOverrun_dstack (s : State) : (setOverrun s).dstack = s.dstack := rfl
@[simp] theorem setOverrun_inSeq (s : State) : (setOverrun s).inSeq = s.inSeq := rfl
@[simp] theorem setOverrun_outSeq (s : State) : (setOverrun s).outSeq = s.outSeq := rfl
@[simp] theorem setOverrun_cmdWord (s : State) : (setOverrun s).cmdWord = s.cmdWord := rfl
@[simp] theorem setOverrun_waitOut (s : State) : (setOverrun s).waitOut = s.waitOut := rfl
@[simp] theorem setOverrun_outRoom (s : State) : (setOverrun s).outRoom = s.outRoom := rfl
@[simp] theorem setOverrun_inputs (s : State) : (setOverrun s).inputs = s.inputs := rfl
@[simp] theorem setOverrun_readData (s : State) : (setOverrun s).readData = s.readData := rfl
@[simp] theorem setOverrun_hcPage (s : State) : (setOverrun s).hcPage = s.hcPage := rfl
@[simp] theorem setOverrun_draws (s : State) : (setOverrun s).draws = s.draws := rfl

/-! ### clearOverrun: CTRL.CLR_OVR (40_control R89) -/

@[simp] theorem clearOverrun_busy (s : State) : (clearOverrun s).busy = s.busy := rfl
@[simp] theorem clearOverrun_err (s : State) : (clearOverrun s).err = s.err := rfl
@[simp] theorem clearOverrun_ovr (s : State) : (clearOverrun s).ovr = false := rfl
@[simp] theorem clearOverrun_errCode (s : State) : (clearOverrun s).errCode = s.errCode := rfl
@[simp] theorem clearOverrun_errCmd (s : State) : (clearOverrun s).errCmd = s.errCmd := rfl
@[simp] theorem clearOverrun_errArg (s : State) : (clearOverrun s).errArg = s.errArg := rfl
@[simp] theorem clearOverrun_result (s : State) : (clearOverrun s).result = s.result := rfl
@[simp] theorem clearOverrun_root (s : State) : (clearOverrun s).root = s.root := rfl
@[simp] theorem clearOverrun_pad (s : State) : (clearOverrun s).pad = s.pad := rfl
@[simp] theorem clearOverrun_treeSize (s : State) : (clearOverrun s).treeSize = s.treeSize := rfl
@[simp] theorem clearOverrun_totalBits (s : State) : (clearOverrun s).totalBits = s.totalBits := rfl
@[simp] theorem clearOverrun_acc (s : State) : (clearOverrun s).acc = s.acc := rfl
@[simp] theorem clearOverrun_cnt (s : State) : (clearOverrun s).cnt = s.cnt := rfl
@[simp] theorem clearOverrun_buCur (s : State) : (clearOverrun s).buCur = s.buCur := rfl
@[simp] theorem clearOverrun_outCount (s : State) : (clearOverrun s).outCount = s.outCount := rfl
@[simp] theorem clearOverrun_inRem (s : State) : (clearOverrun s).inRem = s.inRem := rfl
@[simp] theorem clearOverrun_freqIdx (s : State) : (clearOverrun s).freqIdx = s.freqIdx := rfl
@[simp] theorem clearOverrun_codeIdx (s : State) : (clearOverrun s).codeIdx = s.codeIdx := rfl
@[simp] theorem clearOverrun_nodeIdx (s : State) : (clearOverrun s).nodeIdx = s.nodeIdx := rfl
@[simp] theorem clearOverrun_heapIdx (s : State) : (clearOverrun s).heapIdx = s.heapIdx := rfl
@[simp] theorem clearOverrun_freq (s : State) : (clearOverrun s).freq = s.freq := rfl
@[simp] theorem clearOverrun_code (s : State) : (clearOverrun s).code = s.code := rfl
@[simp] theorem clearOverrun_len (s : State) : (clearOverrun s).len = s.len := rfl
@[simp] theorem clearOverrun_nodes (s : State) : (clearOverrun s).nodes = s.nodes := rfl
@[simp] theorem clearOverrun_heap (s : State) : (clearOverrun s).heap = s.heap := rfl
@[simp] theorem clearOverrun_dstack (s : State) : (clearOverrun s).dstack = s.dstack := rfl
@[simp] theorem clearOverrun_inSeq (s : State) : (clearOverrun s).inSeq = s.inSeq := rfl
@[simp] theorem clearOverrun_outSeq (s : State) : (clearOverrun s).outSeq = s.outSeq := rfl
@[simp] theorem clearOverrun_cmdWord (s : State) : (clearOverrun s).cmdWord = s.cmdWord := rfl
@[simp] theorem clearOverrun_waitOut (s : State) : (clearOverrun s).waitOut = s.waitOut := rfl
@[simp] theorem clearOverrun_outRoom (s : State) : (clearOverrun s).outRoom = s.outRoom := rfl
@[simp] theorem clearOverrun_inputs (s : State) : (clearOverrun s).inputs = s.inputs := rfl
@[simp] theorem clearOverrun_readData (s : State) : (clearOverrun s).readData = s.readData := rfl
@[simp] theorem clearOverrun_hcPage (s : State) : (clearOverrun s).hcPage = s.hcPage := rfl
@[simp] theorem clearOverrun_draws (s : State) : (clearOverrun s).draws = s.draws := rfl

/-! ### takeError: raise E(arg) (60_exceptions R135) -/

@[simp] theorem takeError_busy (e : ErrKind) (arg : Word) (s : State) : (takeError e arg s).busy = false := rfl
@[simp] theorem takeError_err (e : ErrKind) (arg : Word) (s : State) : (takeError e arg s).err = true := rfl
@[simp] theorem takeError_ovr (e : ErrKind) (arg : Word) (s : State) : (takeError e arg s).ovr = s.ovr := rfl
@[simp] theorem takeError_errCode (e : ErrKind) (arg : Word) (s : State) : (takeError e arg s).errCode = e.errCode := rfl
@[simp] theorem takeError_errCmd (e : ErrKind) (arg : Word) (s : State) : (takeError e arg s).errCmd = s.cmdWord := rfl
@[simp] theorem takeError_errArg (e : ErrKind) (arg : Word) (s : State) : (takeError e arg s).errArg = arg := rfl
@[simp] theorem takeError_result (e : ErrKind) (arg : Word) (s : State) : (takeError e arg s).result = s.result := rfl
@[simp] theorem takeError_root (e : ErrKind) (arg : Word) (s : State) : (takeError e arg s).root = s.root := rfl
@[simp] theorem takeError_pad (e : ErrKind) (arg : Word) (s : State) : (takeError e arg s).pad = s.pad := rfl
@[simp] theorem takeError_treeSize (e : ErrKind) (arg : Word) (s : State) : (takeError e arg s).treeSize = s.treeSize := rfl
@[simp] theorem takeError_totalBits (e : ErrKind) (arg : Word) (s : State) : (takeError e arg s).totalBits = s.totalBits := rfl
@[simp] theorem takeError_acc (e : ErrKind) (arg : Word) (s : State) : (takeError e arg s).acc = s.acc := rfl
@[simp] theorem takeError_cnt (e : ErrKind) (arg : Word) (s : State) : (takeError e arg s).cnt = s.cnt := rfl
@[simp] theorem takeError_buCur (e : ErrKind) (arg : Word) (s : State) : (takeError e arg s).buCur = s.buCur := rfl
@[simp] theorem takeError_outCount (e : ErrKind) (arg : Word) (s : State) : (takeError e arg s).outCount = s.outCount := rfl
@[simp] theorem takeError_inRem (e : ErrKind) (arg : Word) (s : State) : (takeError e arg s).inRem = s.inRem := rfl
@[simp] theorem takeError_freqIdx (e : ErrKind) (arg : Word) (s : State) : (takeError e arg s).freqIdx = s.freqIdx := rfl
@[simp] theorem takeError_codeIdx (e : ErrKind) (arg : Word) (s : State) : (takeError e arg s).codeIdx = s.codeIdx := rfl
@[simp] theorem takeError_nodeIdx (e : ErrKind) (arg : Word) (s : State) : (takeError e arg s).nodeIdx = s.nodeIdx := rfl
@[simp] theorem takeError_heapIdx (e : ErrKind) (arg : Word) (s : State) : (takeError e arg s).heapIdx = s.heapIdx := rfl
@[simp] theorem takeError_freq (e : ErrKind) (arg : Word) (s : State) : (takeError e arg s).freq = s.freq := rfl
@[simp] theorem takeError_code (e : ErrKind) (arg : Word) (s : State) : (takeError e arg s).code = s.code := rfl
@[simp] theorem takeError_len (e : ErrKind) (arg : Word) (s : State) : (takeError e arg s).len = s.len := rfl
@[simp] theorem takeError_nodes (e : ErrKind) (arg : Word) (s : State) : (takeError e arg s).nodes = s.nodes := rfl
@[simp] theorem takeError_heap (e : ErrKind) (arg : Word) (s : State) : (takeError e arg s).heap = s.heap := rfl
@[simp] theorem takeError_dstack (e : ErrKind) (arg : Word) (s : State) : (takeError e arg s).dstack = [] := rfl
@[simp] theorem takeError_inSeq (e : ErrKind) (arg : Word) (s : State) : (takeError e arg s).inSeq = s.inSeq := rfl
@[simp] theorem takeError_outSeq (e : ErrKind) (arg : Word) (s : State) : (takeError e arg s).outSeq = s.outSeq := rfl
@[simp] theorem takeError_cmdWord (e : ErrKind) (arg : Word) (s : State) : (takeError e arg s).cmdWord = 0#32 := rfl
@[simp] theorem takeError_waitOut (e : ErrKind) (arg : Word) (s : State) : (takeError e arg s).waitOut = [] := rfl
@[simp] theorem takeError_outRoom (e : ErrKind) (arg : Word) (s : State) : (takeError e arg s).outRoom = s.outRoom := rfl
@[simp] theorem takeError_inputs (e : ErrKind) (arg : Word) (s : State) : (takeError e arg s).inputs = s.inputs := rfl
@[simp] theorem takeError_readData (e : ErrKind) (arg : Word) (s : State) : (takeError e arg s).readData = s.readData := rfl
@[simp] theorem takeError_hcPage (e : ErrKind) (arg : Word) (s : State) : (takeError e arg s).hcPage = s.hcPage := rfl
@[simp] theorem takeError_draws (e : ErrKind) (arg : Word) (s : State) : (takeError e arg s).draws = s.draws := rfl

/-! ### clearError: CTRL.CLR_ERR (40_control R88) -/

@[simp] theorem clearError_busy (s : State) : (clearError s).busy = s.busy := rfl
@[simp] theorem clearError_err (s : State) : (clearError s).err = false := rfl
@[simp] theorem clearError_ovr (s : State) : (clearError s).ovr = s.ovr := rfl
@[simp] theorem clearError_errCode (s : State) : (clearError s).errCode = 0#8 := rfl
@[simp] theorem clearError_errCmd (s : State) : (clearError s).errCmd = 0#32 := rfl
@[simp] theorem clearError_errArg (s : State) : (clearError s).errArg = 0#32 := rfl
@[simp] theorem clearError_result (s : State) : (clearError s).result = s.result := rfl
@[simp] theorem clearError_root (s : State) : (clearError s).root = s.root := rfl
@[simp] theorem clearError_pad (s : State) : (clearError s).pad = s.pad := rfl
@[simp] theorem clearError_treeSize (s : State) : (clearError s).treeSize = s.treeSize := rfl
@[simp] theorem clearError_totalBits (s : State) : (clearError s).totalBits = s.totalBits := rfl
@[simp] theorem clearError_acc (s : State) : (clearError s).acc = s.acc := rfl
@[simp] theorem clearError_cnt (s : State) : (clearError s).cnt = s.cnt := rfl
@[simp] theorem clearError_buCur (s : State) : (clearError s).buCur = s.buCur := rfl
@[simp] theorem clearError_outCount (s : State) : (clearError s).outCount = s.outCount := rfl
@[simp] theorem clearError_inRem (s : State) : (clearError s).inRem = s.inRem := rfl
@[simp] theorem clearError_freqIdx (s : State) : (clearError s).freqIdx = s.freqIdx := rfl
@[simp] theorem clearError_codeIdx (s : State) : (clearError s).codeIdx = s.codeIdx := rfl
@[simp] theorem clearError_nodeIdx (s : State) : (clearError s).nodeIdx = s.nodeIdx := rfl
@[simp] theorem clearError_heapIdx (s : State) : (clearError s).heapIdx = s.heapIdx := rfl
@[simp] theorem clearError_freq (s : State) : (clearError s).freq = s.freq := rfl
@[simp] theorem clearError_code (s : State) : (clearError s).code = s.code := rfl
@[simp] theorem clearError_len (s : State) : (clearError s).len = s.len := rfl
@[simp] theorem clearError_nodes (s : State) : (clearError s).nodes = s.nodes := rfl
@[simp] theorem clearError_heap (s : State) : (clearError s).heap = s.heap := rfl
@[simp] theorem clearError_dstack (s : State) : (clearError s).dstack = s.dstack := rfl
@[simp] theorem clearError_inSeq (s : State) : (clearError s).inSeq = s.inSeq := rfl
@[simp] theorem clearError_outSeq (s : State) : (clearError s).outSeq = s.outSeq := rfl
@[simp] theorem clearError_cmdWord (s : State) : (clearError s).cmdWord = s.cmdWord := rfl
@[simp] theorem clearError_waitOut (s : State) : (clearError s).waitOut = s.waitOut := rfl
@[simp] theorem clearError_outRoom (s : State) : (clearError s).outRoom = s.outRoom := rfl
@[simp] theorem clearError_inputs (s : State) : (clearError s).inputs = s.inputs := rfl
@[simp] theorem clearError_readData (s : State) : (clearError s).readData = s.readData := rfl
@[simp] theorem clearError_hcPage (s : State) : (clearError s).hcPage = s.hcPage := rfl
@[simp] theorem clearError_draws (s : State) : (clearError s).draws = s.draws := rfl

/-! ### putByte: an accepted byte (00_scope R14) -/

@[simp] theorem putByte_busy (b : Byte) (s : State) : (putByte b s).busy = s.busy := rfl
@[simp] theorem putByte_err (b : Byte) (s : State) : (putByte b s).err = s.err := rfl
@[simp] theorem putByte_ovr (b : Byte) (s : State) : (putByte b s).ovr = s.ovr := rfl
@[simp] theorem putByte_errCode (b : Byte) (s : State) : (putByte b s).errCode = s.errCode := rfl
@[simp] theorem putByte_errCmd (b : Byte) (s : State) : (putByte b s).errCmd = s.errCmd := rfl
@[simp] theorem putByte_errArg (b : Byte) (s : State) : (putByte b s).errArg = s.errArg := rfl
@[simp] theorem putByte_result (b : Byte) (s : State) : (putByte b s).result = s.result := rfl
@[simp] theorem putByte_root (b : Byte) (s : State) : (putByte b s).root = s.root := rfl
@[simp] theorem putByte_pad (b : Byte) (s : State) : (putByte b s).pad = s.pad := rfl
@[simp] theorem putByte_treeSize (b : Byte) (s : State) : (putByte b s).treeSize = s.treeSize := rfl
@[simp] theorem putByte_totalBits (b : Byte) (s : State) : (putByte b s).totalBits = s.totalBits := rfl
@[simp] theorem putByte_acc (b : Byte) (s : State) : (putByte b s).acc = s.acc := rfl
@[simp] theorem putByte_cnt (b : Byte) (s : State) : (putByte b s).cnt = s.cnt := rfl
@[simp] theorem putByte_buCur (b : Byte) (s : State) : (putByte b s).buCur = s.buCur := rfl
@[simp] theorem putByte_outCount (b : Byte) (s : State) : (putByte b s).outCount = s.outCount + 1#32 := rfl
@[simp] theorem putByte_inRem (b : Byte) (s : State) : (putByte b s).inRem = s.inRem := rfl
@[simp] theorem putByte_freqIdx (b : Byte) (s : State) : (putByte b s).freqIdx = s.freqIdx := rfl
@[simp] theorem putByte_codeIdx (b : Byte) (s : State) : (putByte b s).codeIdx = s.codeIdx := rfl
@[simp] theorem putByte_nodeIdx (b : Byte) (s : State) : (putByte b s).nodeIdx = s.nodeIdx := rfl
@[simp] theorem putByte_heapIdx (b : Byte) (s : State) : (putByte b s).heapIdx = s.heapIdx := rfl
@[simp] theorem putByte_freq (b : Byte) (s : State) : (putByte b s).freq = s.freq := rfl
@[simp] theorem putByte_code (b : Byte) (s : State) : (putByte b s).code = s.code := rfl
@[simp] theorem putByte_len (b : Byte) (s : State) : (putByte b s).len = s.len := rfl
@[simp] theorem putByte_nodes (b : Byte) (s : State) : (putByte b s).nodes = s.nodes := rfl
@[simp] theorem putByte_heap (b : Byte) (s : State) : (putByte b s).heap = s.heap := rfl
@[simp] theorem putByte_dstack (b : Byte) (s : State) : (putByte b s).dstack = s.dstack := rfl
@[simp] theorem putByte_inSeq (b : Byte) (s : State) : (putByte b s).inSeq = s.inSeq := rfl
@[simp] theorem putByte_outSeq (b : Byte) (s : State) : (putByte b s).outSeq = s.outSeq ++ [b] := rfl
@[simp] theorem putByte_cmdWord (b : Byte) (s : State) : (putByte b s).cmdWord = s.cmdWord := rfl
@[simp] theorem putByte_waitOut (b : Byte) (s : State) : (putByte b s).waitOut = s.waitOut := rfl
@[simp] theorem putByte_outRoom (b : Byte) (s : State) : (putByte b s).outRoom = s.outRoom := rfl
@[simp] theorem putByte_inputs (b : Byte) (s : State) : (putByte b s).inputs = s.inputs := rfl
@[simp] theorem putByte_readData (b : Byte) (s : State) : (putByte b s).readData = s.readData := rfl
@[simp] theorem putByte_hcPage (b : Byte) (s : State) : (putByte b s).hcPage = s.hcPage := rfl
@[simp] theorem putByte_draws (b : Byte) (s : State) : (putByte b s).draws = s.draws := rfl

/-! ### setResult: RESULT <- v (10_state R26) -/

@[simp] theorem setResult_busy (v : Word) (s : State) : (setResult v s).busy = s.busy := rfl
@[simp] theorem setResult_err (v : Word) (s : State) : (setResult v s).err = s.err := rfl
@[simp] theorem setResult_ovr (v : Word) (s : State) : (setResult v s).ovr = s.ovr := rfl
@[simp] theorem setResult_errCode (v : Word) (s : State) : (setResult v s).errCode = s.errCode := rfl
@[simp] theorem setResult_errCmd (v : Word) (s : State) : (setResult v s).errCmd = s.errCmd := rfl
@[simp] theorem setResult_errArg (v : Word) (s : State) : (setResult v s).errArg = s.errArg := rfl
@[simp] theorem setResult_result (v : Word) (s : State) : (setResult v s).result = v := rfl
@[simp] theorem setResult_root (v : Word) (s : State) : (setResult v s).root = s.root := rfl
@[simp] theorem setResult_pad (v : Word) (s : State) : (setResult v s).pad = s.pad := rfl
@[simp] theorem setResult_treeSize (v : Word) (s : State) : (setResult v s).treeSize = s.treeSize := rfl
@[simp] theorem setResult_totalBits (v : Word) (s : State) : (setResult v s).totalBits = s.totalBits := rfl
@[simp] theorem setResult_acc (v : Word) (s : State) : (setResult v s).acc = s.acc := rfl
@[simp] theorem setResult_cnt (v : Word) (s : State) : (setResult v s).cnt = s.cnt := rfl
@[simp] theorem setResult_buCur (v : Word) (s : State) : (setResult v s).buCur = s.buCur := rfl
@[simp] theorem setResult_outCount (v : Word) (s : State) : (setResult v s).outCount = s.outCount := rfl
@[simp] theorem setResult_inRem (v : Word) (s : State) : (setResult v s).inRem = s.inRem := rfl
@[simp] theorem setResult_freqIdx (v : Word) (s : State) : (setResult v s).freqIdx = s.freqIdx := rfl
@[simp] theorem setResult_codeIdx (v : Word) (s : State) : (setResult v s).codeIdx = s.codeIdx := rfl
@[simp] theorem setResult_nodeIdx (v : Word) (s : State) : (setResult v s).nodeIdx = s.nodeIdx := rfl
@[simp] theorem setResult_heapIdx (v : Word) (s : State) : (setResult v s).heapIdx = s.heapIdx := rfl
@[simp] theorem setResult_freq (v : Word) (s : State) : (setResult v s).freq = s.freq := rfl
@[simp] theorem setResult_code (v : Word) (s : State) : (setResult v s).code = s.code := rfl
@[simp] theorem setResult_len (v : Word) (s : State) : (setResult v s).len = s.len := rfl
@[simp] theorem setResult_nodes (v : Word) (s : State) : (setResult v s).nodes = s.nodes := rfl
@[simp] theorem setResult_heap (v : Word) (s : State) : (setResult v s).heap = s.heap := rfl
@[simp] theorem setResult_dstack (v : Word) (s : State) : (setResult v s).dstack = s.dstack := rfl
@[simp] theorem setResult_inSeq (v : Word) (s : State) : (setResult v s).inSeq = s.inSeq := rfl
@[simp] theorem setResult_outSeq (v : Word) (s : State) : (setResult v s).outSeq = s.outSeq := rfl
@[simp] theorem setResult_cmdWord (v : Word) (s : State) : (setResult v s).cmdWord = s.cmdWord := rfl
@[simp] theorem setResult_waitOut (v : Word) (s : State) : (setResult v s).waitOut = s.waitOut := rfl
@[simp] theorem setResult_outRoom (v : Word) (s : State) : (setResult v s).outRoom = s.outRoom := rfl
@[simp] theorem setResult_inputs (v : Word) (s : State) : (setResult v s).inputs = s.inputs := rfl
@[simp] theorem setResult_readData (v : Word) (s : State) : (setResult v s).readData = s.readData := rfl
@[simp] theorem setResult_hcPage (v : Word) (s : State) : (setResult v s).hcPage = s.hcPage := rfl
@[simp] theorem setResult_draws (v : Word) (s : State) : (setResult v s).draws = s.draws := rfl

/-! ### setFreq: FREQ[b] <- v (10_state R39) -/

@[simp] theorem setFreq_busy (b : Byte) (v : Word) (s : State) : (setFreq b v s).busy = s.busy := rfl
@[simp] theorem setFreq_err (b : Byte) (v : Word) (s : State) : (setFreq b v s).err = s.err := rfl
@[simp] theorem setFreq_ovr (b : Byte) (v : Word) (s : State) : (setFreq b v s).ovr = s.ovr := rfl
@[simp] theorem setFreq_errCode (b : Byte) (v : Word) (s : State) : (setFreq b v s).errCode = s.errCode := rfl
@[simp] theorem setFreq_errCmd (b : Byte) (v : Word) (s : State) : (setFreq b v s).errCmd = s.errCmd := rfl
@[simp] theorem setFreq_errArg (b : Byte) (v : Word) (s : State) : (setFreq b v s).errArg = s.errArg := rfl
@[simp] theorem setFreq_result (b : Byte) (v : Word) (s : State) : (setFreq b v s).result = s.result := rfl
@[simp] theorem setFreq_root (b : Byte) (v : Word) (s : State) : (setFreq b v s).root = s.root := rfl
@[simp] theorem setFreq_pad (b : Byte) (v : Word) (s : State) : (setFreq b v s).pad = s.pad := rfl
@[simp] theorem setFreq_treeSize (b : Byte) (v : Word) (s : State) : (setFreq b v s).treeSize = s.treeSize := rfl
@[simp] theorem setFreq_totalBits (b : Byte) (v : Word) (s : State) : (setFreq b v s).totalBits = s.totalBits := rfl
@[simp] theorem setFreq_acc (b : Byte) (v : Word) (s : State) : (setFreq b v s).acc = s.acc := rfl
@[simp] theorem setFreq_cnt (b : Byte) (v : Word) (s : State) : (setFreq b v s).cnt = s.cnt := rfl
@[simp] theorem setFreq_buCur (b : Byte) (v : Word) (s : State) : (setFreq b v s).buCur = s.buCur := rfl
@[simp] theorem setFreq_outCount (b : Byte) (v : Word) (s : State) : (setFreq b v s).outCount = s.outCount := rfl
@[simp] theorem setFreq_inRem (b : Byte) (v : Word) (s : State) : (setFreq b v s).inRem = s.inRem := rfl
@[simp] theorem setFreq_freqIdx (b : Byte) (v : Word) (s : State) : (setFreq b v s).freqIdx = s.freqIdx := rfl
@[simp] theorem setFreq_codeIdx (b : Byte) (v : Word) (s : State) : (setFreq b v s).codeIdx = s.codeIdx := rfl
@[simp] theorem setFreq_nodeIdx (b : Byte) (v : Word) (s : State) : (setFreq b v s).nodeIdx = s.nodeIdx := rfl
@[simp] theorem setFreq_heapIdx (b : Byte) (v : Word) (s : State) : (setFreq b v s).heapIdx = s.heapIdx := rfl
@[simp] theorem setFreq_freq (b : Byte) (v : Word) (s : State) : (setFreq b v s).freq = s.freq.set b.toNat v b.isLt := rfl
@[simp] theorem setFreq_code (b : Byte) (v : Word) (s : State) : (setFreq b v s).code = s.code := rfl
@[simp] theorem setFreq_len (b : Byte) (v : Word) (s : State) : (setFreq b v s).len = s.len := rfl
@[simp] theorem setFreq_nodes (b : Byte) (v : Word) (s : State) : (setFreq b v s).nodes = s.nodes := rfl
@[simp] theorem setFreq_heap (b : Byte) (v : Word) (s : State) : (setFreq b v s).heap = s.heap := rfl
@[simp] theorem setFreq_dstack (b : Byte) (v : Word) (s : State) : (setFreq b v s).dstack = s.dstack := rfl
@[simp] theorem setFreq_inSeq (b : Byte) (v : Word) (s : State) : (setFreq b v s).inSeq = s.inSeq := rfl
@[simp] theorem setFreq_outSeq (b : Byte) (v : Word) (s : State) : (setFreq b v s).outSeq = s.outSeq := rfl
@[simp] theorem setFreq_cmdWord (b : Byte) (v : Word) (s : State) : (setFreq b v s).cmdWord = s.cmdWord := rfl
@[simp] theorem setFreq_waitOut (b : Byte) (v : Word) (s : State) : (setFreq b v s).waitOut = s.waitOut := rfl
@[simp] theorem setFreq_outRoom (b : Byte) (v : Word) (s : State) : (setFreq b v s).outRoom = s.outRoom := rfl
@[simp] theorem setFreq_inputs (b : Byte) (v : Word) (s : State) : (setFreq b v s).inputs = s.inputs := rfl
@[simp] theorem setFreq_readData (b : Byte) (v : Word) (s : State) : (setFreq b v s).readData = s.readData := rfl
@[simp] theorem setFreq_hcPage (b : Byte) (v : Word) (s : State) : (setFreq b v s).hcPage = s.hcPage := rfl
@[simp] theorem setFreq_draws (b : Byte) (v : Word) (s : State) : (setFreq b v s).draws = s.draws := rfl

/-! ### setCode: a code (43_code_table R110) -/

@[simp] theorem setCode_busy (b : Byte) (path depth : Nat) (s : State) : (setCode b path depth s).busy = s.busy := rfl
@[simp] theorem setCode_err (b : Byte) (path depth : Nat) (s : State) : (setCode b path depth s).err = s.err := rfl
@[simp] theorem setCode_ovr (b : Byte) (path depth : Nat) (s : State) : (setCode b path depth s).ovr = s.ovr := rfl
@[simp] theorem setCode_errCode (b : Byte) (path depth : Nat) (s : State) : (setCode b path depth s).errCode = s.errCode := rfl
@[simp] theorem setCode_errCmd (b : Byte) (path depth : Nat) (s : State) : (setCode b path depth s).errCmd = s.errCmd := rfl
@[simp] theorem setCode_errArg (b : Byte) (path depth : Nat) (s : State) : (setCode b path depth s).errArg = s.errArg := rfl
@[simp] theorem setCode_result (b : Byte) (path depth : Nat) (s : State) : (setCode b path depth s).result = s.result := rfl
@[simp] theorem setCode_root (b : Byte) (path depth : Nat) (s : State) : (setCode b path depth s).root = s.root := rfl
@[simp] theorem setCode_pad (b : Byte) (path depth : Nat) (s : State) : (setCode b path depth s).pad = s.pad := rfl
@[simp] theorem setCode_treeSize (b : Byte) (path depth : Nat) (s : State) : (setCode b path depth s).treeSize = s.treeSize := rfl
@[simp] theorem setCode_totalBits (b : Byte) (path depth : Nat) (s : State) : (setCode b path depth s).totalBits = s.totalBits := rfl
@[simp] theorem setCode_acc (b : Byte) (path depth : Nat) (s : State) : (setCode b path depth s).acc = s.acc := rfl
@[simp] theorem setCode_cnt (b : Byte) (path depth : Nat) (s : State) : (setCode b path depth s).cnt = s.cnt := rfl
@[simp] theorem setCode_buCur (b : Byte) (path depth : Nat) (s : State) : (setCode b path depth s).buCur = s.buCur := rfl
@[simp] theorem setCode_outCount (b : Byte) (path depth : Nat) (s : State) : (setCode b path depth s).outCount = s.outCount := rfl
@[simp] theorem setCode_inRem (b : Byte) (path depth : Nat) (s : State) : (setCode b path depth s).inRem = s.inRem := rfl
@[simp] theorem setCode_freqIdx (b : Byte) (path depth : Nat) (s : State) : (setCode b path depth s).freqIdx = s.freqIdx := rfl
@[simp] theorem setCode_codeIdx (b : Byte) (path depth : Nat) (s : State) : (setCode b path depth s).codeIdx = s.codeIdx := rfl
@[simp] theorem setCode_nodeIdx (b : Byte) (path depth : Nat) (s : State) : (setCode b path depth s).nodeIdx = s.nodeIdx := rfl
@[simp] theorem setCode_heapIdx (b : Byte) (path depth : Nat) (s : State) : (setCode b path depth s).heapIdx = s.heapIdx := rfl
@[simp] theorem setCode_freq (b : Byte) (path depth : Nat) (s : State) : (setCode b path depth s).freq = s.freq := rfl
@[simp] theorem setCode_code (b : Byte) (path depth : Nat) (s : State) : (setCode b path depth s).code = s.code.set b.toNat (BitVec.ofNat 32 path) b.isLt := rfl
@[simp] theorem setCode_len (b : Byte) (path depth : Nat) (s : State) : (setCode b path depth s).len = s.len.set b.toNat (BitVec.ofNat 6 depth) b.isLt := rfl
@[simp] theorem setCode_nodes (b : Byte) (path depth : Nat) (s : State) : (setCode b path depth s).nodes = s.nodes := rfl
@[simp] theorem setCode_heap (b : Byte) (path depth : Nat) (s : State) : (setCode b path depth s).heap = s.heap := rfl
@[simp] theorem setCode_dstack (b : Byte) (path depth : Nat) (s : State) : (setCode b path depth s).dstack = s.dstack := rfl
@[simp] theorem setCode_inSeq (b : Byte) (path depth : Nat) (s : State) : (setCode b path depth s).inSeq = s.inSeq := rfl
@[simp] theorem setCode_outSeq (b : Byte) (path depth : Nat) (s : State) : (setCode b path depth s).outSeq = s.outSeq := rfl
@[simp] theorem setCode_cmdWord (b : Byte) (path depth : Nat) (s : State) : (setCode b path depth s).cmdWord = s.cmdWord := rfl
@[simp] theorem setCode_waitOut (b : Byte) (path depth : Nat) (s : State) : (setCode b path depth s).waitOut = s.waitOut := rfl
@[simp] theorem setCode_outRoom (b : Byte) (path depth : Nat) (s : State) : (setCode b path depth s).outRoom = s.outRoom := rfl
@[simp] theorem setCode_inputs (b : Byte) (path depth : Nat) (s : State) : (setCode b path depth s).inputs = s.inputs := rfl
@[simp] theorem setCode_readData (b : Byte) (path depth : Nat) (s : State) : (setCode b path depth s).readData = s.readData := rfl
@[simp] theorem setCode_hcPage (b : Byte) (path depth : Nat) (s : State) : (setCode b path depth s).hcPage = s.hcPage := rfl
@[simp] theorem setCode_draws (b : Byte) (path depth : Nat) (s : State) : (setCode b path depth s).draws = s.draws := rfl

/-! ### clearCodes: the cleared table (43_code_table R110) -/

@[simp] theorem clearCodes_busy (s : State) : (clearCodes s).busy = s.busy := rfl
@[simp] theorem clearCodes_err (s : State) : (clearCodes s).err = s.err := rfl
@[simp] theorem clearCodes_ovr (s : State) : (clearCodes s).ovr = s.ovr := rfl
@[simp] theorem clearCodes_errCode (s : State) : (clearCodes s).errCode = s.errCode := rfl
@[simp] theorem clearCodes_errCmd (s : State) : (clearCodes s).errCmd = s.errCmd := rfl
@[simp] theorem clearCodes_errArg (s : State) : (clearCodes s).errArg = s.errArg := rfl
@[simp] theorem clearCodes_result (s : State) : (clearCodes s).result = s.result := rfl
@[simp] theorem clearCodes_root (s : State) : (clearCodes s).root = s.root := rfl
@[simp] theorem clearCodes_pad (s : State) : (clearCodes s).pad = s.pad := rfl
@[simp] theorem clearCodes_treeSize (s : State) : (clearCodes s).treeSize = s.treeSize := rfl
@[simp] theorem clearCodes_totalBits (s : State) : (clearCodes s).totalBits = s.totalBits := rfl
@[simp] theorem clearCodes_acc (s : State) : (clearCodes s).acc = s.acc := rfl
@[simp] theorem clearCodes_cnt (s : State) : (clearCodes s).cnt = s.cnt := rfl
@[simp] theorem clearCodes_buCur (s : State) : (clearCodes s).buCur = s.buCur := rfl
@[simp] theorem clearCodes_outCount (s : State) : (clearCodes s).outCount = s.outCount := rfl
@[simp] theorem clearCodes_inRem (s : State) : (clearCodes s).inRem = s.inRem := rfl
@[simp] theorem clearCodes_freqIdx (s : State) : (clearCodes s).freqIdx = s.freqIdx := rfl
@[simp] theorem clearCodes_codeIdx (s : State) : (clearCodes s).codeIdx = s.codeIdx := rfl
@[simp] theorem clearCodes_nodeIdx (s : State) : (clearCodes s).nodeIdx = s.nodeIdx := rfl
@[simp] theorem clearCodes_heapIdx (s : State) : (clearCodes s).heapIdx = s.heapIdx := rfl
@[simp] theorem clearCodes_freq (s : State) : (clearCodes s).freq = s.freq := rfl
@[simp] theorem clearCodes_code (s : State) : (clearCodes s).code = Vector.replicate 256 0#32 := rfl
@[simp] theorem clearCodes_len (s : State) : (clearCodes s).len = Vector.replicate 256 0#6 := rfl
@[simp] theorem clearCodes_nodes (s : State) : (clearCodes s).nodes = s.nodes := rfl
@[simp] theorem clearCodes_heap (s : State) : (clearCodes s).heap = s.heap := rfl
@[simp] theorem clearCodes_dstack (s : State) : (clearCodes s).dstack = s.dstack := rfl
@[simp] theorem clearCodes_inSeq (s : State) : (clearCodes s).inSeq = s.inSeq := rfl
@[simp] theorem clearCodes_outSeq (s : State) : (clearCodes s).outSeq = s.outSeq := rfl
@[simp] theorem clearCodes_cmdWord (s : State) : (clearCodes s).cmdWord = s.cmdWord := rfl
@[simp] theorem clearCodes_waitOut (s : State) : (clearCodes s).waitOut = s.waitOut := rfl
@[simp] theorem clearCodes_outRoom (s : State) : (clearCodes s).outRoom = s.outRoom := rfl
@[simp] theorem clearCodes_inputs (s : State) : (clearCodes s).inputs = s.inputs := rfl
@[simp] theorem clearCodes_readData (s : State) : (clearCodes s).readData = s.readData := rfl
@[simp] theorem clearCodes_hcPage (s : State) : (clearCodes s).hcPage = s.hcPage := rfl
@[simp] theorem clearCodes_draws (s : State) : (clearCodes s).draws = s.draws := rfl

/-! ### treeClear: TreeClear() (42_tree_builder R102) -/

@[simp] theorem treeClear_busy (s : State) : (treeClear s).busy = s.busy := rfl
@[simp] theorem treeClear_err (s : State) : (treeClear s).err = s.err := rfl
@[simp] theorem treeClear_ovr (s : State) : (treeClear s).ovr = s.ovr := rfl
@[simp] theorem treeClear_errCode (s : State) : (treeClear s).errCode = s.errCode := rfl
@[simp] theorem treeClear_errCmd (s : State) : (treeClear s).errCmd = s.errCmd := rfl
@[simp] theorem treeClear_errArg (s : State) : (treeClear s).errArg = s.errArg := rfl
@[simp] theorem treeClear_result (s : State) : (treeClear s).result = s.result := rfl
@[simp] theorem treeClear_root (s : State) : (treeClear s).root = Config.nil := rfl
@[simp] theorem treeClear_pad (s : State) : (treeClear s).pad = s.pad := rfl
@[simp] theorem treeClear_treeSize (s : State) : (treeClear s).treeSize = s.treeSize := rfl
@[simp] theorem treeClear_totalBits (s : State) : (treeClear s).totalBits = s.totalBits := rfl
@[simp] theorem treeClear_acc (s : State) : (treeClear s).acc = s.acc := rfl
@[simp] theorem treeClear_cnt (s : State) : (treeClear s).cnt = s.cnt := rfl
@[simp] theorem treeClear_buCur (s : State) : (treeClear s).buCur = Config.nil := rfl
@[simp] theorem treeClear_outCount (s : State) : (treeClear s).outCount = s.outCount := rfl
@[simp] theorem treeClear_inRem (s : State) : (treeClear s).inRem = s.inRem := rfl
@[simp] theorem treeClear_freqIdx (s : State) : (treeClear s).freqIdx = s.freqIdx := rfl
@[simp] theorem treeClear_codeIdx (s : State) : (treeClear s).codeIdx = s.codeIdx := rfl
@[simp] theorem treeClear_nodeIdx (s : State) : (treeClear s).nodeIdx = s.nodeIdx := rfl
@[simp] theorem treeClear_heapIdx (s : State) : (treeClear s).heapIdx = s.heapIdx := rfl
@[simp] theorem treeClear_freq (s : State) : (treeClear s).freq = s.freq := rfl
@[simp] theorem treeClear_code (s : State) : (treeClear s).code = s.code := rfl
@[simp] theorem treeClear_len (s : State) : (treeClear s).len = s.len := rfl
@[simp] theorem treeClear_nodes (s : State) : (treeClear s).nodes = [] := rfl
@[simp] theorem treeClear_heap (s : State) : (treeClear s).heap = [] := rfl
@[simp] theorem treeClear_dstack (s : State) : (treeClear s).dstack = s.dstack := rfl
@[simp] theorem treeClear_inSeq (s : State) : (treeClear s).inSeq = s.inSeq := rfl
@[simp] theorem treeClear_outSeq (s : State) : (treeClear s).outSeq = s.outSeq := rfl
@[simp] theorem treeClear_cmdWord (s : State) : (treeClear s).cmdWord = s.cmdWord := rfl
@[simp] theorem treeClear_waitOut (s : State) : (treeClear s).waitOut = s.waitOut := rfl
@[simp] theorem treeClear_outRoom (s : State) : (treeClear s).outRoom = s.outRoom := rfl
@[simp] theorem treeClear_inputs (s : State) : (treeClear s).inputs = s.inputs := rfl
@[simp] theorem treeClear_readData (s : State) : (treeClear s).readData = s.readData := rfl
@[simp] theorem treeClear_hcPage (s : State) : (treeClear s).hcPage = s.hcPage := rfl
@[simp] theorem treeClear_draws (s : State) : (treeClear s).draws = s.draws := rfl

/-! ### takeRoot: the end of TB_BUILD (42_tree_builder R108) -/

@[simp] theorem takeRoot_busy (r : NodeIdx) (s : State) : (takeRoot r s).busy = s.busy := rfl
@[simp] theorem takeRoot_err (r : NodeIdx) (s : State) : (takeRoot r s).err = s.err := rfl
@[simp] theorem takeRoot_ovr (r : NodeIdx) (s : State) : (takeRoot r s).ovr = s.ovr := rfl
@[simp] theorem takeRoot_errCode (r : NodeIdx) (s : State) : (takeRoot r s).errCode = s.errCode := rfl
@[simp] theorem takeRoot_errCmd (r : NodeIdx) (s : State) : (takeRoot r s).errCmd = s.errCmd := rfl
@[simp] theorem takeRoot_errArg (r : NodeIdx) (s : State) : (takeRoot r s).errArg = s.errArg := rfl
@[simp] theorem takeRoot_result (r : NodeIdx) (s : State) : (takeRoot r s).result = r.setWidth 32 := rfl
@[simp] theorem takeRoot_root (r : NodeIdx) (s : State) : (takeRoot r s).root = r := rfl
@[simp] theorem takeRoot_pad (r : NodeIdx) (s : State) : (takeRoot r s).pad = s.pad := rfl
@[simp] theorem takeRoot_treeSize (r : NodeIdx) (s : State) : (takeRoot r s).treeSize = s.treeSize := rfl
@[simp] theorem takeRoot_totalBits (r : NodeIdx) (s : State) : (takeRoot r s).totalBits = s.totalBits := rfl
@[simp] theorem takeRoot_acc (r : NodeIdx) (s : State) : (takeRoot r s).acc = s.acc := rfl
@[simp] theorem takeRoot_cnt (r : NodeIdx) (s : State) : (takeRoot r s).cnt = s.cnt := rfl
@[simp] theorem takeRoot_buCur (r : NodeIdx) (s : State) : (takeRoot r s).buCur = r := rfl
@[simp] theorem takeRoot_outCount (r : NodeIdx) (s : State) : (takeRoot r s).outCount = s.outCount := rfl
@[simp] theorem takeRoot_inRem (r : NodeIdx) (s : State) : (takeRoot r s).inRem = s.inRem := rfl
@[simp] theorem takeRoot_freqIdx (r : NodeIdx) (s : State) : (takeRoot r s).freqIdx = s.freqIdx := rfl
@[simp] theorem takeRoot_codeIdx (r : NodeIdx) (s : State) : (takeRoot r s).codeIdx = s.codeIdx := rfl
@[simp] theorem takeRoot_nodeIdx (r : NodeIdx) (s : State) : (takeRoot r s).nodeIdx = s.nodeIdx := rfl
@[simp] theorem takeRoot_heapIdx (r : NodeIdx) (s : State) : (takeRoot r s).heapIdx = s.heapIdx := rfl
@[simp] theorem takeRoot_freq (r : NodeIdx) (s : State) : (takeRoot r s).freq = s.freq := rfl
@[simp] theorem takeRoot_code (r : NodeIdx) (s : State) : (takeRoot r s).code = s.code := rfl
@[simp] theorem takeRoot_len (r : NodeIdx) (s : State) : (takeRoot r s).len = s.len := rfl
@[simp] theorem takeRoot_nodes (r : NodeIdx) (s : State) : (takeRoot r s).nodes = s.nodes := rfl
@[simp] theorem takeRoot_heap (r : NodeIdx) (s : State) : (takeRoot r s).heap = s.heap := rfl
@[simp] theorem takeRoot_dstack (r : NodeIdx) (s : State) : (takeRoot r s).dstack = s.dstack := rfl
@[simp] theorem takeRoot_inSeq (r : NodeIdx) (s : State) : (takeRoot r s).inSeq = s.inSeq := rfl
@[simp] theorem takeRoot_outSeq (r : NodeIdx) (s : State) : (takeRoot r s).outSeq = s.outSeq := rfl
@[simp] theorem takeRoot_cmdWord (r : NodeIdx) (s : State) : (takeRoot r s).cmdWord = s.cmdWord := rfl
@[simp] theorem takeRoot_waitOut (r : NodeIdx) (s : State) : (takeRoot r s).waitOut = s.waitOut := rfl
@[simp] theorem takeRoot_outRoom (r : NodeIdx) (s : State) : (takeRoot r s).outRoom = s.outRoom := rfl
@[simp] theorem takeRoot_inputs (r : NodeIdx) (s : State) : (takeRoot r s).inputs = s.inputs := rfl
@[simp] theorem takeRoot_readData (r : NodeIdx) (s : State) : (takeRoot r s).readData = s.readData := rfl
@[simp] theorem takeRoot_hcPage (r : NodeIdx) (s : State) : (takeRoot r s).hcPage = s.hcPage := rfl
@[simp] theorem takeRoot_draws (r : NodeIdx) (s : State) : (takeRoot r s).draws = s.draws := rfl

/-! ### takeHeader: the end of TD_READ_HEADER (45_tree_deserializer R120) -/

@[simp] theorem takeHeader_busy (b0 b1 : Byte) (s : State) : (takeHeader b0 b1 s).busy = s.busy := rfl
@[simp] theorem takeHeader_err (b0 b1 : Byte) (s : State) : (takeHeader b0 b1 s).err = s.err := rfl
@[simp] theorem takeHeader_ovr (b0 b1 : Byte) (s : State) : (takeHeader b0 b1 s).ovr = s.ovr := rfl
@[simp] theorem takeHeader_errCode (b0 b1 : Byte) (s : State) : (takeHeader b0 b1 s).errCode = s.errCode := rfl
@[simp] theorem takeHeader_errCmd (b0 b1 : Byte) (s : State) : (takeHeader b0 b1 s).errCmd = s.errCmd := rfl
@[simp] theorem takeHeader_errArg (b0 b1 : Byte) (s : State) : (takeHeader b0 b1 s).errArg = s.errArg := rfl
@[simp] theorem takeHeader_result (b0 b1 : Byte) (s : State) : (takeHeader b0 b1 s).result = 0#16 ++ b0 ++ b1 := rfl
@[simp] theorem takeHeader_root (b0 b1 : Byte) (s : State) : (takeHeader b0 b1 s).root = s.root := rfl
@[simp] theorem takeHeader_pad (b0 b1 : Byte) (s : State) : (takeHeader b0 b1 s).pad = b0.extractLsb' 5 3 := rfl
@[simp] theorem takeHeader_treeSize (b0 b1 : Byte) (s : State) : (takeHeader b0 b1 s).treeSize = b0.extractLsb' 0 5 ++ b1 := rfl
@[simp] theorem takeHeader_totalBits (b0 b1 : Byte) (s : State) : (takeHeader b0 b1 s).totalBits = s.totalBits := rfl
@[simp] theorem takeHeader_acc (b0 b1 : Byte) (s : State) : (takeHeader b0 b1 s).acc = s.acc := rfl
@[simp] theorem takeHeader_cnt (b0 b1 : Byte) (s : State) : (takeHeader b0 b1 s).cnt = s.cnt := rfl
@[simp] theorem takeHeader_buCur (b0 b1 : Byte) (s : State) : (takeHeader b0 b1 s).buCur = s.buCur := rfl
@[simp] theorem takeHeader_outCount (b0 b1 : Byte) (s : State) : (takeHeader b0 b1 s).outCount = s.outCount := rfl
@[simp] theorem takeHeader_inRem (b0 b1 : Byte) (s : State) : (takeHeader b0 b1 s).inRem = s.inRem := rfl
@[simp] theorem takeHeader_freqIdx (b0 b1 : Byte) (s : State) : (takeHeader b0 b1 s).freqIdx = s.freqIdx := rfl
@[simp] theorem takeHeader_codeIdx (b0 b1 : Byte) (s : State) : (takeHeader b0 b1 s).codeIdx = s.codeIdx := rfl
@[simp] theorem takeHeader_nodeIdx (b0 b1 : Byte) (s : State) : (takeHeader b0 b1 s).nodeIdx = s.nodeIdx := rfl
@[simp] theorem takeHeader_heapIdx (b0 b1 : Byte) (s : State) : (takeHeader b0 b1 s).heapIdx = s.heapIdx := rfl
@[simp] theorem takeHeader_freq (b0 b1 : Byte) (s : State) : (takeHeader b0 b1 s).freq = s.freq := rfl
@[simp] theorem takeHeader_code (b0 b1 : Byte) (s : State) : (takeHeader b0 b1 s).code = s.code := rfl
@[simp] theorem takeHeader_len (b0 b1 : Byte) (s : State) : (takeHeader b0 b1 s).len = s.len := rfl
@[simp] theorem takeHeader_nodes (b0 b1 : Byte) (s : State) : (takeHeader b0 b1 s).nodes = s.nodes := rfl
@[simp] theorem takeHeader_heap (b0 b1 : Byte) (s : State) : (takeHeader b0 b1 s).heap = s.heap := rfl
@[simp] theorem takeHeader_dstack (b0 b1 : Byte) (s : State) : (takeHeader b0 b1 s).dstack = s.dstack := rfl
@[simp] theorem takeHeader_inSeq (b0 b1 : Byte) (s : State) : (takeHeader b0 b1 s).inSeq = s.inSeq := rfl
@[simp] theorem takeHeader_outSeq (b0 b1 : Byte) (s : State) : (takeHeader b0 b1 s).outSeq = s.outSeq := rfl
@[simp] theorem takeHeader_cmdWord (b0 b1 : Byte) (s : State) : (takeHeader b0 b1 s).cmdWord = s.cmdWord := rfl
@[simp] theorem takeHeader_waitOut (b0 b1 : Byte) (s : State) : (takeHeader b0 b1 s).waitOut = s.waitOut := rfl
@[simp] theorem takeHeader_outRoom (b0 b1 : Byte) (s : State) : (takeHeader b0 b1 s).outRoom = s.outRoom := rfl
@[simp] theorem takeHeader_inputs (b0 b1 : Byte) (s : State) : (takeHeader b0 b1 s).inputs = s.inputs := rfl
@[simp] theorem takeHeader_readData (b0 b1 : Byte) (s : State) : (takeHeader b0 b1 s).readData = s.readData := rfl
@[simp] theorem takeHeader_hcPage (b0 b1 : Byte) (s : State) : (takeHeader b0 b1 s).hcPage = s.hcPage := rfl
@[simp] theorem takeHeader_draws (b0 b1 : Byte) (s : State) : (takeHeader b0 b1 s).draws = s.draws := rfl

/-! ### openStream: a write to IN_LEN (20_memory R58) -/

@[simp] theorem openStream_busy (v : Word) (s : State) : (openStream v s).busy = s.busy := rfl
@[simp] theorem openStream_err (v : Word) (s : State) : (openStream v s).err = s.err := rfl
@[simp] theorem openStream_ovr (v : Word) (s : State) : (openStream v s).ovr = s.ovr := rfl
@[simp] theorem openStream_errCode (v : Word) (s : State) : (openStream v s).errCode = s.errCode := rfl
@[simp] theorem openStream_errCmd (v : Word) (s : State) : (openStream v s).errCmd = s.errCmd := rfl
@[simp] theorem openStream_errArg (v : Word) (s : State) : (openStream v s).errArg = s.errArg := rfl
@[simp] theorem openStream_result (v : Word) (s : State) : (openStream v s).result = s.result := rfl
@[simp] theorem openStream_root (v : Word) (s : State) : (openStream v s).root = s.root := rfl
@[simp] theorem openStream_pad (v : Word) (s : State) : (openStream v s).pad = s.pad := rfl
@[simp] theorem openStream_treeSize (v : Word) (s : State) : (openStream v s).treeSize = s.treeSize := rfl
@[simp] theorem openStream_totalBits (v : Word) (s : State) : (openStream v s).totalBits = s.totalBits := rfl
@[simp] theorem openStream_acc (v : Word) (s : State) : (openStream v s).acc = s.acc := rfl
@[simp] theorem openStream_cnt (v : Word) (s : State) : (openStream v s).cnt = s.cnt := rfl
@[simp] theorem openStream_buCur (v : Word) (s : State) : (openStream v s).buCur = s.buCur := rfl
@[simp] theorem openStream_outCount (v : Word) (s : State) : (openStream v s).outCount = s.outCount := rfl
@[simp] theorem openStream_inRem (v : Word) (s : State) : (openStream v s).inRem = v := rfl
@[simp] theorem openStream_freqIdx (v : Word) (s : State) : (openStream v s).freqIdx = s.freqIdx := rfl
@[simp] theorem openStream_codeIdx (v : Word) (s : State) : (openStream v s).codeIdx = s.codeIdx := rfl
@[simp] theorem openStream_nodeIdx (v : Word) (s : State) : (openStream v s).nodeIdx = s.nodeIdx := rfl
@[simp] theorem openStream_heapIdx (v : Word) (s : State) : (openStream v s).heapIdx = s.heapIdx := rfl
@[simp] theorem openStream_freq (v : Word) (s : State) : (openStream v s).freq = s.freq := rfl
@[simp] theorem openStream_code (v : Word) (s : State) : (openStream v s).code = s.code := rfl
@[simp] theorem openStream_len (v : Word) (s : State) : (openStream v s).len = s.len := rfl
@[simp] theorem openStream_nodes (v : Word) (s : State) : (openStream v s).nodes = s.nodes := rfl
@[simp] theorem openStream_heap (v : Word) (s : State) : (openStream v s).heap = s.heap := rfl
@[simp] theorem openStream_dstack (v : Word) (s : State) : (openStream v s).dstack = s.dstack := rfl
@[simp] theorem openStream_inSeq (v : Word) (s : State) : (openStream v s).inSeq = [] := rfl
@[simp] theorem openStream_outSeq (v : Word) (s : State) : (openStream v s).outSeq = s.outSeq := rfl
@[simp] theorem openStream_cmdWord (v : Word) (s : State) : (openStream v s).cmdWord = s.cmdWord := rfl
@[simp] theorem openStream_waitOut (v : Word) (s : State) : (openStream v s).waitOut = s.waitOut := rfl
@[simp] theorem openStream_outRoom (v : Word) (s : State) : (openStream v s).outRoom = s.outRoom := rfl
@[simp] theorem openStream_inputs (v : Word) (s : State) : (openStream v s).inputs = s.inputs := rfl
@[simp] theorem openStream_readData (v : Word) (s : State) : (openStream v s).readData = s.readData := rfl
@[simp] theorem openStream_hcPage (v : Word) (s : State) : (openStream v s).hcPage = s.hcPage := rfl
@[simp] theorem openStream_draws (v : Word) (s : State) : (openStream v s).draws = s.draws := rfl

/-! ### readFree: an unspecified read (20_memory R56) -/

@[simp] theorem readFree_busy (s : State) : (readFree s).busy = s.busy := rfl
@[simp] theorem readFree_err (s : State) : (readFree s).err = s.err := rfl
@[simp] theorem readFree_ovr (s : State) : (readFree s).ovr = s.ovr := rfl
@[simp] theorem readFree_errCode (s : State) : (readFree s).errCode = s.errCode := rfl
@[simp] theorem readFree_errCmd (s : State) : (readFree s).errCmd = s.errCmd := rfl
@[simp] theorem readFree_errArg (s : State) : (readFree s).errArg = s.errArg := rfl
@[simp] theorem readFree_result (s : State) : (readFree s).result = s.result := rfl
@[simp] theorem readFree_root (s : State) : (readFree s).root = s.root := rfl
@[simp] theorem readFree_pad (s : State) : (readFree s).pad = s.pad := rfl
@[simp] theorem readFree_treeSize (s : State) : (readFree s).treeSize = s.treeSize := rfl
@[simp] theorem readFree_totalBits (s : State) : (readFree s).totalBits = s.totalBits := rfl
@[simp] theorem readFree_acc (s : State) : (readFree s).acc = s.acc := rfl
@[simp] theorem readFree_cnt (s : State) : (readFree s).cnt = s.cnt := rfl
@[simp] theorem readFree_buCur (s : State) : (readFree s).buCur = s.buCur := rfl
@[simp] theorem readFree_outCount (s : State) : (readFree s).outCount = s.outCount := rfl
@[simp] theorem readFree_inRem (s : State) : (readFree s).inRem = s.inRem := rfl
@[simp] theorem readFree_freqIdx (s : State) : (readFree s).freqIdx = s.freqIdx := rfl
@[simp] theorem readFree_codeIdx (s : State) : (readFree s).codeIdx = s.codeIdx := rfl
@[simp] theorem readFree_nodeIdx (s : State) : (readFree s).nodeIdx = s.nodeIdx := rfl
@[simp] theorem readFree_heapIdx (s : State) : (readFree s).heapIdx = s.heapIdx := rfl
@[simp] theorem readFree_freq (s : State) : (readFree s).freq = s.freq := rfl
@[simp] theorem readFree_code (s : State) : (readFree s).code = s.code := rfl
@[simp] theorem readFree_len (s : State) : (readFree s).len = s.len := rfl
@[simp] theorem readFree_nodes (s : State) : (readFree s).nodes = s.nodes := rfl
@[simp] theorem readFree_heap (s : State) : (readFree s).heap = s.heap := rfl
@[simp] theorem readFree_dstack (s : State) : (readFree s).dstack = s.dstack := rfl
@[simp] theorem readFree_inSeq (s : State) : (readFree s).inSeq = s.inSeq := rfl
@[simp] theorem readFree_outSeq (s : State) : (readFree s).outSeq = s.outSeq := rfl
@[simp] theorem readFree_cmdWord (s : State) : (readFree s).cmdWord = s.cmdWord := rfl
@[simp] theorem readFree_waitOut (s : State) : (readFree s).waitOut = s.waitOut := rfl
@[simp] theorem readFree_outRoom (s : State) : (readFree s).outRoom = s.outRoom := rfl
@[simp] theorem readFree_inputs (s : State) : (readFree s).inputs = s.inputs := rfl
@[simp] theorem readFree_readData (s : State) : (readFree s).readData = Config.busyRead s.draws := rfl
@[simp] theorem readFree_hcPage (s : State) : (readFree s).hcPage = s.hcPage := rfl
@[simp] theorem readFree_draws (s : State) : (readFree s).draws = s.draws + 1 := rfl

/-! ### setOutReady: the OUT port's readiness (20_memory R59) -/

@[simp] theorem setOutReady_busy (room : Option Nat) (s : State) : (setOutReady room s).busy = s.busy := rfl
@[simp] theorem setOutReady_err (room : Option Nat) (s : State) : (setOutReady room s).err = s.err := rfl
@[simp] theorem setOutReady_ovr (room : Option Nat) (s : State) : (setOutReady room s).ovr = s.ovr := rfl
@[simp] theorem setOutReady_errCode (room : Option Nat) (s : State) : (setOutReady room s).errCode = s.errCode := rfl
@[simp] theorem setOutReady_errCmd (room : Option Nat) (s : State) : (setOutReady room s).errCmd = s.errCmd := rfl
@[simp] theorem setOutReady_errArg (room : Option Nat) (s : State) : (setOutReady room s).errArg = s.errArg := rfl
@[simp] theorem setOutReady_result (room : Option Nat) (s : State) : (setOutReady room s).result = s.result := rfl
@[simp] theorem setOutReady_root (room : Option Nat) (s : State) : (setOutReady room s).root = s.root := rfl
@[simp] theorem setOutReady_pad (room : Option Nat) (s : State) : (setOutReady room s).pad = s.pad := rfl
@[simp] theorem setOutReady_treeSize (room : Option Nat) (s : State) : (setOutReady room s).treeSize = s.treeSize := rfl
@[simp] theorem setOutReady_totalBits (room : Option Nat) (s : State) : (setOutReady room s).totalBits = s.totalBits := rfl
@[simp] theorem setOutReady_acc (room : Option Nat) (s : State) : (setOutReady room s).acc = s.acc := rfl
@[simp] theorem setOutReady_cnt (room : Option Nat) (s : State) : (setOutReady room s).cnt = s.cnt := rfl
@[simp] theorem setOutReady_buCur (room : Option Nat) (s : State) : (setOutReady room s).buCur = s.buCur := rfl
@[simp] theorem setOutReady_outCount (room : Option Nat) (s : State) : (setOutReady room s).outCount = s.outCount := rfl
@[simp] theorem setOutReady_inRem (room : Option Nat) (s : State) : (setOutReady room s).inRem = s.inRem := rfl
@[simp] theorem setOutReady_freqIdx (room : Option Nat) (s : State) : (setOutReady room s).freqIdx = s.freqIdx := rfl
@[simp] theorem setOutReady_codeIdx (room : Option Nat) (s : State) : (setOutReady room s).codeIdx = s.codeIdx := rfl
@[simp] theorem setOutReady_nodeIdx (room : Option Nat) (s : State) : (setOutReady room s).nodeIdx = s.nodeIdx := rfl
@[simp] theorem setOutReady_heapIdx (room : Option Nat) (s : State) : (setOutReady room s).heapIdx = s.heapIdx := rfl
@[simp] theorem setOutReady_freq (room : Option Nat) (s : State) : (setOutReady room s).freq = s.freq := rfl
@[simp] theorem setOutReady_code (room : Option Nat) (s : State) : (setOutReady room s).code = s.code := rfl
@[simp] theorem setOutReady_len (room : Option Nat) (s : State) : (setOutReady room s).len = s.len := rfl
@[simp] theorem setOutReady_nodes (room : Option Nat) (s : State) : (setOutReady room s).nodes = s.nodes := rfl
@[simp] theorem setOutReady_heap (room : Option Nat) (s : State) : (setOutReady room s).heap = s.heap := rfl
@[simp] theorem setOutReady_dstack (room : Option Nat) (s : State) : (setOutReady room s).dstack = s.dstack := rfl
@[simp] theorem setOutReady_inSeq (room : Option Nat) (s : State) : (setOutReady room s).inSeq = s.inSeq := rfl
@[simp] theorem setOutReady_outSeq (room : Option Nat) (s : State) : (setOutReady room s).outSeq = s.outSeq := rfl
@[simp] theorem setOutReady_cmdWord (room : Option Nat) (s : State) : (setOutReady room s).cmdWord = s.cmdWord := rfl
@[simp] theorem setOutReady_waitOut (room : Option Nat) (s : State) : (setOutReady room s).waitOut = s.waitOut := rfl
@[simp] theorem setOutReady_outRoom (room : Option Nat) (s : State) : (setOutReady room s).outRoom = room.map fun n => n + s.waitOut.length := rfl
@[simp] theorem setOutReady_inputs (room : Option Nat) (s : State) : (setOutReady room s).inputs = s.inputs := rfl
@[simp] theorem setOutReady_readData (room : Option Nat) (s : State) : (setOutReady room s).readData = s.readData := rfl
@[simp] theorem setOutReady_hcPage (room : Option Nat) (s : State) : (setOutReady room s).hcPage = s.hcPage := rfl
@[simp] theorem setOutReady_draws (room : Option Nat) (s : State) : (setOutReady room s).draws = s.draws := rfl

/-! ### issueWord: an accepted word and the engine's turn (40_control R84) -/

@[simp] theorem issueWord_busy (w : Word) (s : State) : (issueWord w s).busy = true := rfl
@[simp] theorem issueWord_err (w : Word) (s : State) : (issueWord w s).err = s.err := rfl
@[simp] theorem issueWord_ovr (w : Word) (s : State) : (issueWord w s).ovr = s.ovr := rfl
@[simp] theorem issueWord_errCode (w : Word) (s : State) : (issueWord w s).errCode = s.errCode := rfl
@[simp] theorem issueWord_errCmd (w : Word) (s : State) : (issueWord w s).errCmd = s.errCmd := rfl
@[simp] theorem issueWord_errArg (w : Word) (s : State) : (issueWord w s).errArg = s.errArg := rfl
@[simp] theorem issueWord_result (w : Word) (s : State) : (issueWord w s).result = s.result := rfl
@[simp] theorem issueWord_root (w : Word) (s : State) : (issueWord w s).root = s.root := rfl
@[simp] theorem issueWord_pad (w : Word) (s : State) : (issueWord w s).pad = s.pad := rfl
@[simp] theorem issueWord_treeSize (w : Word) (s : State) : (issueWord w s).treeSize = s.treeSize := rfl
@[simp] theorem issueWord_totalBits (w : Word) (s : State) : (issueWord w s).totalBits = s.totalBits := rfl
@[simp] theorem issueWord_acc (w : Word) (s : State) : (issueWord w s).acc = s.acc := rfl
@[simp] theorem issueWord_cnt (w : Word) (s : State) : (issueWord w s).cnt = s.cnt := rfl
@[simp] theorem issueWord_buCur (w : Word) (s : State) : (issueWord w s).buCur = s.buCur := rfl
@[simp] theorem issueWord_outCount (w : Word) (s : State) : (issueWord w s).outCount = s.outCount := rfl
@[simp] theorem issueWord_inRem (w : Word) (s : State) : (issueWord w s).inRem = s.inRem := rfl
@[simp] theorem issueWord_freqIdx (w : Word) (s : State) : (issueWord w s).freqIdx = s.freqIdx := rfl
@[simp] theorem issueWord_codeIdx (w : Word) (s : State) : (issueWord w s).codeIdx = s.codeIdx := rfl
@[simp] theorem issueWord_nodeIdx (w : Word) (s : State) : (issueWord w s).nodeIdx = s.nodeIdx := rfl
@[simp] theorem issueWord_heapIdx (w : Word) (s : State) : (issueWord w s).heapIdx = s.heapIdx := rfl
@[simp] theorem issueWord_freq (w : Word) (s : State) : (issueWord w s).freq = s.freq := rfl
@[simp] theorem issueWord_code (w : Word) (s : State) : (issueWord w s).code = s.code := rfl
@[simp] theorem issueWord_len (w : Word) (s : State) : (issueWord w s).len = s.len := rfl
@[simp] theorem issueWord_nodes (w : Word) (s : State) : (issueWord w s).nodes = s.nodes := rfl
@[simp] theorem issueWord_heap (w : Word) (s : State) : (issueWord w s).heap = s.heap := rfl
@[simp] theorem issueWord_dstack (w : Word) (s : State) : (issueWord w s).dstack = s.dstack := rfl
@[simp] theorem issueWord_inSeq (w : Word) (s : State) : (issueWord w s).inSeq = s.inSeq := rfl
@[simp] theorem issueWord_outSeq (w : Word) (s : State) : (issueWord w s).outSeq = s.outSeq := rfl
@[simp] theorem issueWord_cmdWord (w : Word) (s : State) : (issueWord w s).cmdWord = w := rfl
@[simp] theorem issueWord_waitOut (w : Word) (s : State) : (issueWord w s).waitOut = [] := rfl
@[simp] theorem issueWord_outRoom (w : Word) (s : State) : (issueWord w s).outRoom = s.outRoom := rfl
@[simp] theorem issueWord_inputs (w : Word) (s : State) : (issueWord w s).inputs = .engine :: s.inputs := rfl
@[simp] theorem issueWord_readData (w : Word) (s : State) : (issueWord w s).readData = s.readData := rfl
@[simp] theorem issueWord_hcPage (w : Word) (s : State) : (issueWord w s).hcPage = s.hcPage := rfl
@[simp] theorem issueWord_draws (w : Word) (s : State) : (issueWord w s).draws = s.draws := rfl

/-! ### resetCore: Reset() (70_reset_and_hazards R149) -/

@[simp] theorem resetCore_busy (s : State) : (resetCore s).busy = State.reset.busy := rfl
@[simp] theorem resetCore_err (s : State) : (resetCore s).err = State.reset.err := rfl
@[simp] theorem resetCore_ovr (s : State) : (resetCore s).ovr = State.reset.ovr := rfl
@[simp] theorem resetCore_errCode (s : State) : (resetCore s).errCode = State.reset.errCode := rfl
@[simp] theorem resetCore_errCmd (s : State) : (resetCore s).errCmd = State.reset.errCmd := rfl
@[simp] theorem resetCore_errArg (s : State) : (resetCore s).errArg = State.reset.errArg := rfl
@[simp] theorem resetCore_result (s : State) : (resetCore s).result = State.reset.result := rfl
@[simp] theorem resetCore_root (s : State) : (resetCore s).root = State.reset.root := rfl
@[simp] theorem resetCore_pad (s : State) : (resetCore s).pad = State.reset.pad := rfl
@[simp] theorem resetCore_treeSize (s : State) : (resetCore s).treeSize = State.reset.treeSize := rfl
@[simp] theorem resetCore_totalBits (s : State) : (resetCore s).totalBits = State.reset.totalBits := rfl
@[simp] theorem resetCore_acc (s : State) : (resetCore s).acc = State.reset.acc := rfl
@[simp] theorem resetCore_cnt (s : State) : (resetCore s).cnt = State.reset.cnt := rfl
@[simp] theorem resetCore_buCur (s : State) : (resetCore s).buCur = State.reset.buCur := rfl
@[simp] theorem resetCore_outCount (s : State) : (resetCore s).outCount = State.reset.outCount := rfl
@[simp] theorem resetCore_inRem (s : State) : (resetCore s).inRem = State.reset.inRem := rfl
@[simp] theorem resetCore_freqIdx (s : State) : (resetCore s).freqIdx = State.reset.freqIdx := rfl
@[simp] theorem resetCore_codeIdx (s : State) : (resetCore s).codeIdx = State.reset.codeIdx := rfl
@[simp] theorem resetCore_nodeIdx (s : State) : (resetCore s).nodeIdx = State.reset.nodeIdx := rfl
@[simp] theorem resetCore_heapIdx (s : State) : (resetCore s).heapIdx = State.reset.heapIdx := rfl
@[simp] theorem resetCore_freq (s : State) : (resetCore s).freq = State.reset.freq := rfl
@[simp] theorem resetCore_code (s : State) : (resetCore s).code = State.reset.code := rfl
@[simp] theorem resetCore_len (s : State) : (resetCore s).len = State.reset.len := rfl
@[simp] theorem resetCore_nodes (s : State) : (resetCore s).nodes = State.reset.nodes := rfl
@[simp] theorem resetCore_heap (s : State) : (resetCore s).heap = State.reset.heap := rfl
@[simp] theorem resetCore_dstack (s : State) : (resetCore s).dstack = State.reset.dstack := rfl
@[simp] theorem resetCore_inSeq (s : State) : (resetCore s).inSeq = State.reset.inSeq := rfl
@[simp] theorem resetCore_outSeq (s : State) : (resetCore s).outSeq = s.outSeq := rfl
@[simp] theorem resetCore_cmdWord (s : State) : (resetCore s).cmdWord = State.reset.cmdWord := rfl
@[simp] theorem resetCore_waitOut (s : State) : (resetCore s).waitOut = State.reset.waitOut := rfl
@[simp] theorem resetCore_outRoom (s : State) : (resetCore s).outRoom = s.outRoom := rfl
@[simp] theorem resetCore_inputs (s : State) : (resetCore s).inputs = s.inputs := rfl
@[simp] theorem resetCore_readData (s : State) : (resetCore s).readData = s.readData := rfl
@[simp] theorem resetCore_hcPage (s : State) : (resetCore s).hcPage = s.hcPage := rfl
@[simp] theorem resetCore_draws (s : State) : (resetCore s).draws = s.draws := rfl

end Sys2Proof.Machine
end

