-- ==== Sys2Proof/Laws/Run.lean ====
section
/-! SUPPORT. What running a command can do: the outcomes of `andThen`, `finish`, the streams and the allocator. -/

namespace Sys2Proof.Machine

/-! ### Sequencing -/

@[simp] theorem andThen_done {α β : Type} (a : α) (s : State) (k : α → State → Run β) :
    (Run.done a s).andThen k = k a s := rfl
@[simp] theorem andThen_raise {α β : Type} (e : ErrKind) (arg : Word) (s : State) (k : α → State → Run β) :
    (Run.raise e arg s : Run α).andThen k = .raise e arg s := rfl
@[simp] theorem andThen_wait {α β : Type} (s : State) (k : α → State → Run β) :
    (Run.wait s : Run α).andThen k = .wait s := rfl
@[simp] theorem andThen_stop {α β : Type} (f : Fault) (k : α → State → Run β) :
    (Run.stop f : Run α).andThen k = .stop f := rfl

@[simp] theorem finish_done (s₀ s : State) (u : Unit) : finish s₀ (.done u s) = .next (completeCommand s) := rfl
@[simp] theorem finish_raise (s₀ s : State) (e : ErrKind) (arg : Word) :
    finish s₀ (.raise e arg s) = .next (takeError e arg s) := rfl
@[simp] theorem finish_wait (s₀ s : State) :
    finish s₀ (.wait s) = .next { s₀ with waitOut := s.outSeq.drop s₀.outSeq.length } := rfl
@[simp] theorem finish_stop (s₀ : State) (f : Fault) : finish s₀ (.stop f) = .fault f := rfl

/-- A run in which every outcome's state meets its condition: `Q` where it ran to its end, `E` at a raise, `W` where
it waits, and `F` whether the model may stop it. -/
def Run.Sat {α : Type} (Q : α → State → Prop) (E : ErrKind → Word → State → Prop) (W : State → Prop) (F : Prop) :
    Run α → Prop
  | .done a s => Q a s
  | .raise e arg s => E e arg s
  | .wait s => W s
  | .stop _ => F

@[simp] theorem sat_done {α : Type} (Q : α → State → Prop) (E W F) (a : α) (s : State) :
    (Run.done a s).Sat Q E W F ↔ Q a s := Iff.rfl
@[simp] theorem sat_raise {α : Type} (Q : α → State → Prop) (E W F) (e : ErrKind) (arg : Word) (s : State) :
    (Run.raise e arg s).Sat Q E W F ↔ E e arg s := Iff.rfl
@[simp] theorem sat_wait {α : Type} (Q : α → State → Prop) (E W F) (s : State) :
    (Run.wait s).Sat Q E W F ↔ W s := Iff.rfl
@[simp] theorem sat_stop {α : Type} (Q : α → State → Prop) (E W F) (f : Fault) :
    (Run.stop f).Sat Q E W F ↔ F := Iff.rfl

/-- Sequencing: the rest starts where the first part ended. -/
theorem Run.Sat.andThen {α β : Type} {Q : α → State → Prop} {Q' : β → State → Prop} {E W F} {r : Run α}
    {k : α → State → Run β} (h : r.Sat Q E W F) (hk : ∀ a s, Q a s → (k a s).Sat Q' E W F) :
    (r.andThen k).Sat Q' E W F := by
  cases r with
  | done a s => exact hk a s h
  | raise e arg s => exact h
  | wait s => exact h
  | stop f => exact h

/-- Weakening of the conditions. -/
theorem Run.Sat.mono {α : Type} {Q Q' : α → State → Prop} {E E' : ErrKind → Word → State → Prop}
    {W W' : State → Prop} {F F' : Prop} {r : Run α} (h : r.Sat Q E W F) (hQ : ∀ a s, Q a s → Q' a s)
    (hE : ∀ e arg s, E e arg s → E' e arg s) (hW : ∀ s, W s → W' s) (hF : F → F') : r.Sat Q' E' W' F' := by
  cases r with
  | done a s => exact hQ a s h
  | raise e arg s => exact hE e arg s h
  | wait s => exact hW s h
  | stop f => exact hF h

/-- Every way a command can answer a next state. -/
theorem finish_next {s₀ t : State} {r : Run Unit} (h : finish s₀ r = .next t) :
    (∃ s, r = .done () s ∧ t = completeCommand s) ∨ (∃ e arg s, r = .raise e arg s ∧ t = takeError e arg s)
    ∨ ∃ s, r = .wait s ∧ t = { s₀ with waitOut := s.outSeq.drop s₀.outSeq.length } := by
  cases r with
  | done a s => exact .inl ⟨s, rfl, by simpa using h.symm⟩
  | raise e arg s => exact .inr (.inl ⟨e, arg, s, rfl, by simpa using h.symm⟩)
  | wait s => exact .inr (.inr ⟨s, rfl, by simpa using h.symm⟩)
  | stop f => simp at h

/-- What a next state of a command looks like, from what its run does. -/
theorem finish_sat {s₀ t : State} {r : Run Unit} {Q : Unit → State → Prop} {E : ErrKind → Word → State → Prop}
    {W : State → Prop} {F : Prop} (hr : r.Sat Q E W F) (h : finish s₀ r = .next t) :
    (∃ s, Q () s ∧ t = completeCommand s) ∨ (∃ e arg s, E e arg s ∧ t = takeError e arg s)
    ∨ ∃ s, W s ∧ t = { s₀ with waitOut := s.outSeq.drop s₀.outSeq.length } := by
  rcases finish_next h with ⟨s, rfl, rfl⟩ | ⟨e, arg, s, rfl, rfl⟩ | ⟨s, rfl, rfl⟩
  · exact .inl ⟨s, hr, rfl⟩
  · exact .inr (.inl ⟨e, arg, s, hr, rfl⟩)
  · exact .inr (.inr ⟨s, hr, rfl⟩)

/-- A command never answers a refusal. -/
theorem finish_not_refused (s₀ : State) (r : Run Unit) (x : Refusal) : finish s₀ r ≠ .refused x := by
  cases r <;> simp

/-! ### The streams -/

theorem inRead_cons {s : State} {b : Byte} {rest : List Byte} (h : s.inSeq = b :: rest) :
    inRead s = .done b { s with inSeq := rest, inRem := s.inRem - 1#32 } := by
  simp [inRead, h]

theorem inRead_nil {s : State} (h : s.inSeq = []) : inRead s = .wait s := by
  simp [inRead, h]

/-- InRead takes the front byte, or waits. -/
theorem inRead_sat (s : State) :
    (inRead s).Sat (fun b t => ∃ rest, s.inSeq = b :: rest ∧ t = { s with inSeq := rest, inRem := s.inRem - 1#32 })
      (fun _ _ _ => False) (fun t => s.inSeq = [] ∧ t = s) False := by
  rcases h : s.inSeq with _ | ⟨b, rest⟩
  · simp [inRead_nil h]
  · simp [inRead_cons h]

theorem emit_open {s : State} (b : Byte) (h : s.outRoom = none) : emit b s = .done () (putByte b s) := by
  simp [emit, h]

/-- Emit appends the byte, or waits. -/
theorem emit_sat (b : Byte) (s : State) :
    (emit b s).Sat
      (fun _ t => ∃ room, t = { s with outSeq := s.outSeq ++ [b], outCount := s.outCount + 1#32, outRoom := room }
        ∧ (s.outRoom = none → room = none))
      (fun _ _ _ => False) (fun t => s.outRoom = some 0 ∧ t = s) False := by
  rcases h : s.outRoom with _ | _ | n
  · exact (emit_open b h) ▸ ⟨none, by simp [putByte, ← h], fun _ => rfl⟩
  · simp [emit, h]
  · simp only [emit, h]
    exact ⟨some n, by simp [putByte], by simp⟩

theorem emitAll_open (bytes : List Byte) (s : State) (h : s.outRoom = none) :
    emitAll bytes s = .done ()
      { s with outSeq := s.outSeq ++ bytes, outCount := s.outCount + BitVec.ofNat 32 bytes.length } := by
  induction bytes generalizing s with
  | nil => simp [emitAll]
  | cons b rest ih =>
    simp only [emitAll, emit_open b h, andThen_done]
    rw [ih _ (by simpa using h)]
    simp only [putByte, List.append_assoc, List.singleton_append, List.length_cons]
    congr 2
    rw [BitVec.add_assoc, Nat.add_comm, BitVec.ofNat_add]

/-- Emitting a list appends a prefix of it, all of it where it ran to its end. -/
theorem emitAll_sat (bytes : List Byte) (s : State) :
    (emitAll bytes s).Sat
      (fun _ t => ∃ room, t = { s with
        outSeq := s.outSeq ++ bytes, outCount := s.outCount + BitVec.ofNat 32 bytes.length, outRoom := room })
      (fun _ _ _ => False)
      (fun t => s.outRoom ≠ none ∧ ∃ room cnt pre, pre <+: bytes ∧ t = { s with
        outSeq := s.outSeq ++ pre, outCount := cnt, outRoom := room }) False := by
  induction bytes generalizing s with
  | nil => exact ⟨s.outRoom, by simp⟩
  | cons b rest ih =>
    rcases h : s.outRoom with _ | _ | n
    · rw [emitAll_open _ _ h]
      exact ⟨none, by simp [h]⟩
    · simp only [emitAll, emit, h, andThen_wait, sat_wait]
      exact ⟨by simp, some 0, s.outCount, [], by simp, by simp [← h]⟩
    · simp only [emitAll, emit, h, andThen_done]
      refine (ih _).mono ?_ (by simp) ?_ id
      · rintro _ t ⟨room, rfl⟩
        refine ⟨room, ?_⟩
        simp only [putByte, List.append_assoc, List.singleton_append, List.length_cons]
        congr 1
        rw [BitVec.add_assoc, Nat.add_comm, BitVec.ofNat_add]
      · rintro t ⟨-, room, cnt, pre, hp, rfl⟩
        refine ⟨by simp, room, cnt, b :: pre, by simpa using hp, ?_⟩
        simp [putByte]

/-! ### The allocator -/

theorem allocNode_room {n : Node} {e : ErrKind} {s : State} (h : s.nodes.length ≠ 511) :
    allocNode n e s = .done (BitVec.ofNat 9 s.nodes.length) { s with nodes := s.nodes ++ [n] } := by
  simp [allocNode, Config.nodeCap, h]

theorem allocNode_full {n : Node} {e : ErrKind} {s : State} (h : s.nodes.length = 511) :
    allocNode n e s = .raise e 511#32 s := by
  simp [allocNode, Config.nodeCap, h]

/-- AllocNode appends the entry, or raises its caller's error in a full arena. -/
theorem allocNode_sat (n : Node) (e : ErrKind) (s : State) :
    (allocNode n e s).Sat
      (fun i t => s.nodes.length ≠ 511 ∧ i = BitVec.ofNat 9 s.nodes.length ∧ t = { s with nodes := s.nodes ++ [n] })
      (fun e' arg t => s.nodes.length = 511 ∧ e' = e ∧ arg = 511#32 ∧ t = s) (fun _ => False) False := by
  by_cases h : s.nodes.length = 511
  · simp [allocNode_full h, h]
  · simp [allocNode_room h, h]

/-! ### The arena -/

theorem nodeIn_of_getElem? {nodes : List Node} {i : NodeIdx} {n : Node} (h : nodes[i.toNat]? = some n) :
    nodeIn nodes i = n := by
  simp [nodeIn, h]

theorem nodeAt_of_getElem? {s : State} {i : NodeIdx} {n : Node} (h : s.nodes[i.toNat]? = some n) : nodeAt s i = n :=
  nodeIn_of_getElem? h

/-- An allocated entry reads the same in an arena that has grown. -/
theorem nodeIn_append {nodes more : List Node} {i : NodeIdx} (h : i.toNat < nodes.length) :
    nodeIn (nodes ++ more) i = nodeIn nodes i := by
  simp [nodeIn, List.getElem?_append_left h]

theorem nodeIn_last {nodes : List Node} {n : Node} (h : nodes.length < 512) :
    nodeIn (nodes ++ [n]) (BitVec.ofNat 9 nodes.length) = n := by
  simp [nodeIn, BitVec.toNat_ofNat, Nat.mod_eq_of_lt h]

/-! ### The tables -/

@[simp] theorem freqAt_setFreq_self (b : Byte) (v : Word) (s : State) : freqAt (setFreq b v s) b = v := by
  simp [freqAt, setFreq]

theorem freqAt_setFreq_ne {b c : Byte} (v : Word) (s : State) (h : c ≠ b) :
    freqAt (setFreq b v s) c = freqAt s c := by
  have : b.toNat ≠ c.toNat := fun hc => h (BitVec.eq_of_toNat_eq hc.symm)
  simp [freqAt, setFreq, this]

@[simp] theorem codeAt_setCode_self (b : Byte) (path depth : Nat) (s : State) :
    codeAt (setCode b path depth s) b = BitVec.ofNat 32 path := by
  simp [codeAt, setCode]

@[simp] theorem lenAt_setCode_self (b : Byte) (path depth : Nat) (s : State) :
    lenAt (setCode b path depth s) b = BitVec.ofNat 6 depth := by
  simp [lenAt, setCode]

theorem codeAt_setCode_ne {b c : Byte} (path depth : Nat) (s : State) (h : c ≠ b) :
    codeAt (setCode b path depth s) c = codeAt s c := by
  have : b.toNat ≠ c.toNat := fun hc => h (BitVec.eq_of_toNat_eq hc.symm)
  simp [codeAt, setCode, this]

theorem lenAt_setCode_ne {b c : Byte} (path depth : Nat) (s : State) (h : c ≠ b) :
    lenAt (setCode b path depth s) c = lenAt s c := by
  have : b.toNat ≠ c.toNat := fun hc => h (BitVec.eq_of_toNat_eq hc.symm)
  simp [lenAt, setCode, this]

@[simp] theorem codeAt_clearCodes (b : Byte) (s : State) : codeAt (clearCodes s) b = 0#32 := by
  simp [codeAt, clearCodes]

@[simp] theorem lenAt_clearCodes (b : Byte) (s : State) : lenAt (clearCodes s) b = 0#6 := by
  simp [lenAt, clearCodes]

end Sys2Proof.Machine
end

