-- ==== Sys2Proof/Laws/Arena.lean ====
section
/-! SUPPORT. The trees an arena holds, and how they stay when it grows (10_state R46, R50). -/

namespace Sys2Proof.Machine

/-! ### Trees -/

theorem CodeTree.leafCount_pos (T : CodeTree) : 1 ≤ T.leafCount := by
  induction T with
  | leaf sym => exact Nat.le_refl 1
  | node l r ihl ihr => simp only [CodeTree.leafCount]; omega

theorem CodeTree.paths_length (T : CodeTree) : T.paths.length = T.leafCount := by
  induction T with
  | leaf sym => rfl
  | node l r ihl ihr => simp [CodeTree.paths, CodeTree.leafCount, ihl, ihr]

theorem CodeTree.symbols_node (l r : CodeTree) : (CodeTree.node l r).symbols = l.symbols ++ r.symbols := by
  simp [CodeTree.symbols, CodeTree.paths, Function.comp_def]

theorem CodeTree.codes_length (T : CodeTree) : T.codes.length = T.leafCount := by
  cases T with
  | leaf sym => rfl
  | node l r => exact CodeTree.paths_length _

/-- A serialized tree has two or three bytes a leaf and one byte an internal node (44_tree_serializer R119). -/
theorem CodeTree.bytes_length (T : CodeTree) :
    3 * T.leafCount - 1 ≤ T.bytes.length ∧ T.bytes.length ≤ 4 * T.leafCount - 1 := by
  induction T with
  | leaf sym => simp only [CodeTree.bytes, writtenLeaf, CodeTree.leafCount]; split <;> simp
  | node l r ihl ihr =>
    have := l.leafCount_pos
    have := r.leafCount_pos
    simp only [CodeTree.bytes, CodeTree.leafCount, List.length_cons, List.length_append]
    omega

/-! ### The arena -/

@[simp] theorem keyOf_with_heap (s : State) (h : List NodeIdx) : keyOf { s with heap := h } = keyOf s := rfl

/-- The keys depend only on the arena. -/
theorem keyOf_congr {s t : State} (h : t.nodes = s.nodes) : keyOf t = keyOf s := by
  funext i; simp [keyOf, nodeAt, h]

/-- An allocated node keeps its key when the arena grows. -/
theorem keyOf_append {s t : State} {more : List Node} {i : NodeIdx} (ht : t.nodes = s.nodes ++ more)
    (h : i.toNat < s.nodes.length) : keyOf t i = keyOf s i := by
  simp [keyOf, nodeAt, ht, nodeIn_append h]

theorem HoldsTree.lt {nodes : List Node} {i : NodeIdx} {T : CodeTree} (h : HoldsTree nodes i T) :
    i.toNat < nodes.length := by
  cases h with
  | leaf i n hn hl => exact (List.getElem?_eq_some_iff.1 hn).1
  | node i n l r hn hl _ _ => exact (List.getElem?_eq_some_iff.1 hn).1

/-- A tree stays when the arena grows. -/
theorem HoldsTree.append {nodes more : List Node} {i : NodeIdx} {T : CodeTree} (h : HoldsTree nodes i T) :
    HoldsTree (nodes ++ more) i T := by
  have key : ∀ {i : NodeIdx} {n : Node}, nodes[i.toNat]? = some n → (nodes ++ more)[i.toNat]? = some n := by
    intro i n hn
    rw [List.getElem?_append_left (List.getElem?_eq_some_iff.1 hn).1]; exact hn
  induction h with
  | leaf i n hn hl => exact .leaf i n (key hn) hl
  | node i n l r hn hl _ _ ihl ihr => exact .node i n l r (key hn) hl ihl ihr

theorem getElem?_last {nodes : List Node} {n : Node} (h : nodes.length < 512) :
    (nodes ++ [n])[(BitVec.ofNat 9 nodes.length).toNat]? = some n := by
  simp [BitVec.toNat_ofNat, Nat.mod_eq_of_lt h]

/-- The entry just allocated as a leaf holds that leaf. -/
theorem HoldsTree.newLeaf {nodes : List Node} (sym : Byte) (freq : Word) (h : nodes.length < 512) :
    HoldsTree (nodes ++ [leafNode sym freq]) (BitVec.ofNat 9 nodes.length) (.leaf sym) :=
  .leaf _ (leafNode sym freq) (getElem?_last h) rfl

/-- The entry just allocated as an internal node holds its children's trees joined. -/
theorem HoldsTree.newInternal {nodes : List Node} {a b : NodeIdx} {l r : CodeTree} (freq : Word)
    (h : nodes.length < 512) (hl : HoldsTree nodes a l) (hr : HoldsTree nodes b r) :
    HoldsTree (nodes ++ [internalNode freq a b]) (BitVec.ofNat 9 nodes.length) (.node l r) :=
  .node _ (internalNode freq a b) l r (getElem?_last h) rfl hl.append hr.append

/-- The tree at an index is unique. -/
theorem HoldsTree.unique {nodes : List Node} {i : NodeIdx} {T U : CodeTree} (h : HoldsTree nodes i T)
    (h' : HoldsTree nodes i U) : T = U := by
  induction h generalizing U with
  | leaf i n hn hl =>
    cases h' with
    | leaf _ m hm _ => rw [hn] at hm; cases hm; rfl
    | node _ m _ _ hm hl' _ _ => rw [hn] at hm; cases hm; simp [hl] at hl'
  | node i n l r hn hl _ _ ihl ihr =>
    cases h' with
    | leaf _ m hm hl' => rw [hn] at hm; cases hm; simp [hl] at hl'
    | node _ m _ _ hm _ hleft hright => rw [hn] at hm; cases hm; rw [ihl hleft, ihr hright]

/-- Trees at the nodes of a list. -/
def Forest (nodes : List Node) (h : List NodeIdx) (Ts : List CodeTree) : Prop := List.Forall₂ (HoldsTree nodes) h Ts

theorem Forest.append {nodes more : List Node} {h : List NodeIdx} {Ts : List CodeTree} (hf : Forest nodes h Ts) :
    Forest (nodes ++ more) h Ts := List.Forall₂.imp (fun _ _ hT => hT.append) hf

/-- A forest's trees follow its nodes in any order. -/
theorem Forest.perm {nodes : List Node} {h h' : List NodeIdx} {Ts : List CodeTree} (hf : Forest nodes h Ts)
    (hp : h'.Perm h) : ∃ Ts', Forest nodes h' Ts' ∧ Ts'.Perm Ts := List.perm_comp_forall₂ hp hf

/-! ### The invariants of the arena (R50 items 4 and 5) -/

/-- R50 items 4 and 5 of an arena. -/
structure ArenaOk (nodes : List Node) : Prop where
  below : ∀ (i : Nat) (n : Node), nodes[i]? = some n → n.leaf = false → n.left.toNat < i ∧ n.right.toNat < i
  links : ∀ n ∈ nodes, n.leaf = true → n.left = Config.nil ∧ n.right = Config.nil

theorem arenaOk_nil : ArenaOk [] := ⟨fun i n h => by simp at h, fun n h => by simp at h⟩

/-- Allocating a leaf, or an internal node over allocated children, keeps R50 items 4 and 5. -/
theorem ArenaOk.append {nodes : List Node} {n : Node} (h : ArenaOk nodes)
    (hb : n.leaf = false → n.left.toNat < nodes.length ∧ n.right.toNat < nodes.length)
    (hl : n.leaf = true → n.left = Config.nil ∧ n.right = Config.nil) : ArenaOk (nodes ++ [n]) := by
  constructor
  · intro i m hm
    rcases Nat.lt_trichotomy i nodes.length with hi | rfl | hi
    · rw [List.getElem?_append_left hi] at hm; exact h.below i m hm
    · simp at hm; subst hm; exact hb
    · rw [List.getElem?_eq_none (by simp; omega)] at hm; cases hm
  · intro m hm
    rcases List.mem_append.1 hm with hm | hm
    · exact h.links m hm
    · simp at hm; subst hm; exact hl

theorem ArenaOk.leaf {nodes : List Node} (sym : Byte) (freq : Word) (h : ArenaOk nodes) :
    ArenaOk (nodes ++ [leafNode sym freq]) := h.append (by simp [leafNode]) (by simp [leafNode])

theorem ArenaOk.internal {nodes : List Node} (freq : Word) {a b : NodeIdx} (h : ArenaOk nodes)
    (ha : a.toNat < nodes.length) (hb : b.toNat < nodes.length) :
    ArenaOk (nodes ++ [internalNode freq a b]) := h.append (fun _ => ⟨ha, hb⟩) (by simp [internalNode])

end Sys2Proof.Machine
end

