-- ==== Sys2Proof/Laws/CodeTable.lean ====
section
/-! SUPPORT. CG_GENERATE's walk as an assignment of codes to the leaves in pre-order (43_code_table R110). -/

namespace Sys2Proof.Machine

/-! ### Bit strings -/

theorem foldl_bits (bits : List Bool) (v : Nat) :
    bits.foldl (fun v b => 2 * v + b.toNat) v = v * 2 ^ bits.length + bitsValue bits := by
  induction bits generalizing v with
  | nil => simp [bitsValue]
  | cons b rest ih =>
    simp only [bitsValue, List.foldl_cons, List.length_cons, ih (2 * v + b.toNat), ih (2 * 0 + b.toNat)]
    ring

theorem bitsValue_cons (b : Bool) (bits : List Bool) :
    bitsValue (b :: bits) = b.toNat * 2 ^ bits.length + bitsValue bits := by
  rw [bitsValue, List.foldl_cons, foldl_bits]; simp

theorem bitsValue_lt (bits : List Bool) : bitsValue bits < 2 ^ bits.length := by
  induction bits with
  | nil => simp [bitsValue]
  | cons b rest ih =>
    rw [bitsValue_cons, List.length_cons, Nat.pow_succ]
    cases b <;> simp <;> omega

theorem bitsValue_append (xs ys : List Bool) : bitsValue (xs ++ ys) = bitsValue xs * 2 ^ ys.length + bitsValue ys := by
  rw [bitsValue, List.foldl_append, ← bitsValue, foldl_bits]

/-- Bit strings of one length are told apart by their numbers. -/
theorem bitsValue_inj : ∀ {xs ys : List Bool}, xs.length = ys.length → bitsValue xs = bitsValue ys → xs = ys
  | [], [], _, _ => rfl
  | x :: xs, y :: ys, hl, hv => by
    simp only [List.length_cons, Nat.add_right_cancel_iff] at hl
    rw [bitsValue_cons, bitsValue_cons, hl] at hv
    have h1 := bitsValue_lt xs
    have h2 := bitsValue_lt ys
    rw [hl] at h1
    have hxy : x = y := by
      cases x <;> cases y <;> simp at hv ⊢ <;> omega
    subst hxy
    rw [bitsValue_inj hl (by omega)]

/-- A bit string whose number is the front of another's is a prefix of it. -/
theorem prefix_of_shift {xs ys : List Bool} (hl : xs.length ≤ ys.length)
    (h : bitsValue ys >>> (ys.length - xs.length) = bitsValue xs) : xs <+: ys := by
  have hy : ys.take xs.length ++ ys.drop xs.length = ys := List.take_append_drop _ _
  have hlt : (ys.take xs.length).length = xs.length := by rw [List.length_take]; omega
  have hld : (ys.drop xs.length).length = ys.length - xs.length := List.length_drop
  have hv : bitsValue ys = bitsValue (ys.take xs.length) * 2 ^ (ys.length - xs.length)
      + bitsValue (ys.drop xs.length) := by
    rw [← hld, ← bitsValue_append, hy]
  have hd := bitsValue_lt (ys.drop xs.length)
  rw [hld] at hd
  rw [Nat.shiftRight_eq_div_pow, hv, Nat.mul_comm, Nat.mul_add_div (Nat.two_pow_pos _), Nat.div_eq_of_lt hd,
    Nat.add_zero] at h
  rw [← bitsValue_inj hlt h]
  exact List.take_prefix _ _

/-! ### The paths of a tree (43_code_table R111) -/

/-- No leaf's path is a prefix of another symbol's. -/
theorem CodeTree.paths_prefix_free (T : CodeTree) {c d : Byte × List Bool} (hc : c ∈ T.paths) (hd : d ∈ T.paths)
    (h : c.1 ≠ d.1) : ¬ c.2 <+: d.2 := by
  induction T generalizing c d with
  | leaf v =>
    simp only [CodeTree.paths, List.mem_singleton] at hc hd
    exact absurd (hc.trans hd.symm ▸ rfl) h
  | node l r ihl ihr =>
    simp only [CodeTree.paths, List.mem_append, List.mem_map] at hc hd
    rcases hc with ⟨c, hc, rfl⟩ | ⟨c, hc, rfl⟩ <;> rcases hd with ⟨d, hd, rfl⟩ | ⟨d, hd, rfl⟩ <;>
      simp only [List.cons_prefix_cons, Bool.false_eq_true, Bool.true_eq_false, false_and, not_false_eq_true, true_and]
    · exact ihl hc hd h
    · exact ihr hc hd h

/-- The paths fill the code space exactly. -/
theorem CodeTree.paths_fill (T : CodeTree) {n : Nat} (h : ∀ c ∈ T.paths, c.2.length ≤ n) :
    (T.paths.map fun c => 2 ^ (n - c.2.length)).sum = 2 ^ n := by
  induction T generalizing n with
  | leaf v => simp [CodeTree.paths]
  | node l r ihl ihr =>
    simp only [CodeTree.paths, List.mem_append, List.mem_map] at h
    have h1 : ∀ c ∈ l.paths, c.2.length + 1 ≤ n := fun c hc => by simpa using h _ (.inl ⟨c, hc, rfl⟩)
    have h2 : ∀ c ∈ r.paths, c.2.length + 1 ≤ n := fun c hc => by simpa using h _ (.inr ⟨c, hc, rfl⟩)
    obtain ⟨m, rfl⟩ : ∃ m, n = m + 1 := by
      obtain ⟨c, cs, hc⟩ := List.exists_cons_of_length_pos (l := l.paths) (by
        rw [CodeTree.paths_length]; exact l.leafCount_pos)
      have := h1 c (by rw [hc]; simp)
      exact ⟨n - 1, by omega⟩
    have e1 := ihl (n := m) fun c hc => by have := h1 c hc; omega
    have e2 := ihr (n := m) fun c hc => by have := h2 c hc; omega
    simp only [CodeTree.paths, List.map_append, List.map_map, List.sum_append, Function.comp_def, List.length_cons,
      Nat.add_sub_add_right, e1, e2, Nat.pow_succ]
    omega

/-! ### The leaves in pre-order -/

/-- A leaf to be given a code: its symbol, path and depth. -/
structure LeafCode where
  sym : Byte
  path : Nat
  depth : Nat

/-- The leaves of a subtree that stands at `path` and `depth`. -/
def CodeTree.leafCodes (T : CodeTree) (path depth : Nat) : List LeafCode :=
  T.paths.map fun c => ⟨c.1, path * 2 ^ c.2.length + bitsValue c.2, depth + c.2.length⟩

theorem CodeTree.leafCodes_leaf (sym : Byte) (path depth : Nat) :
    (CodeTree.leaf sym).leafCodes path depth = [⟨sym, path, depth⟩] := by
  simp [CodeTree.leafCodes, CodeTree.paths, bitsValue]

theorem CodeTree.leafCodes_node (l r : CodeTree) (path depth : Nat) :
    (CodeTree.node l r).leafCodes path depth
      = l.leafCodes (2 * path) (depth + 1) ++ r.leafCodes (2 * path + 1) (depth + 1) := by
  simp only [CodeTree.leafCodes, CodeTree.paths, List.map_append, List.map_map]
  congr 1 <;> refine List.map_congr_left fun c _ => ?_ <;>
    simp only [Function.comp_apply, List.length_cons, bitsValue_cons, Bool.toNat_false, Bool.toNat_true,
      LeafCode.mk.injEq, true_and] <;> constructor <;> ring

/-- What the walk does at one leaf. -/
def assignLeaf (c : LeafCode) (count : Nat) (s : State) : Run Nat :=
  if 512 ≤ c.depth then .stop .runawayWalk
  else if c.depth > 32 then .raise .codeTooLong (c.sym.setWidth 32) s
  else if lenAt s c.sym ≠ 0#6 then .raise .dupSymbol (c.sym.setWidth 32) s
  else .done (count + 1) (setCode c.sym c.path c.depth s)

/-- The leaves in order. -/
def assignAll : List LeafCode → Nat → State → Run Nat
  | [], count, s => .done count s
  | c :: rest, count, s => (assignLeaf c count s).andThen fun count' s' => assignAll rest count' s'

theorem assignAll_append (xs ys : List LeafCode) (count : Nat) (s : State) :
    assignAll (xs ++ ys) count s = (assignAll xs count s).andThen fun count' s' => assignAll ys count' s' := by
  induction xs generalizing count s with
  | nil => rfl
  | cons c rest ih =>
    simp only [List.cons_append, assignAll]
    cases assignLeaf c count s <;> simp [ih]

/-- Assigning codes leaves everything but the code table. -/
theorem assignAll_frame (xs : List LeafCode) (count : Nat) (s : State) :
    (assignAll xs count s).Sat (fun _ t => t = { s with code := t.code, len := t.len })
      (fun e _ t => (e = .codeTooLong ∨ e = .dupSymbol) ∧ t = { s with code := t.code, len := t.len })
      (fun _ => False) True := by
  induction xs generalizing count s with
  | nil => rfl
  | cons c rest ih =>
    simp only [assignAll, assignLeaf]
    split_ifs
    · trivial
    · exact ⟨.inl rfl, rfl⟩
    · exact ⟨.inr rfl, rfl⟩
    · refine (ih _ _).mono ?_ ?_ (fun _ h => h) id
      · intro _ t ht; rw [ht]; rfl
      · rintro e _ t ⟨he, ht⟩; exact ⟨he, by rw [ht]; rfl⟩

/-- The first leaf at or below depth 512 stops the model; so does everything deeper. -/
theorem assignAll_deep {T : CodeTree} {path depth count : Nat} {s : State} (h : 512 ≤ depth) (rest : List LeafCode) :
    assignAll (T.leafCodes path depth ++ rest) count s = .stop .runawayWalk := by
  have hp := T.paths_length
  have hl := T.leafCount_pos
  obtain ⟨c, cs, hc⟩ := List.exists_cons_of_length_pos (l := T.paths) (by omega)
  simp only [CodeTree.leafCodes, hc, List.map_cons, List.cons_append, assignAll, assignLeaf]
  rw [if_pos (by omega), andThen_stop]

/-- Walk visits the leaves of the tree at its node, in pre-order. -/
theorem walk_eq_assignAll {s : State} {i : NodeIdx} {T : CodeTree} (hT : HoldsTree s.nodes i T) {fuel path depth : Nat}
    (hd : fuel + depth = 512) (count : Nat) :
    walk fuel i path depth count s = assignAll (T.leafCodes path depth) count s := by
  induction T generalizing i fuel path depth count s with
  | leaf sym =>
    rcases fuel with _ | fuel
    · have := assignAll_deep (T := .leaf sym) (path := path) (depth := depth) (count := count) (s := s) (by omega) []
      simpa [walk] using this.symm
    · obtain ⟨n, hn, hl, rfl⟩ : ∃ n, s.nodes[i.toNat]? = some n ∧ n.leaf = true ∧ n.sym = sym := by
        cases hT with | leaf _ n hn hl => exact ⟨n, hn, hl, rfl⟩
      have h1 : ¬ 512 ≤ depth := by omega
      rw [CodeTree.leafCodes_leaf]
      simp only [walk, isLeaf, nodeAt_of_getElem? hn, hl, if_true, Config.maxCodeLen, assignAll, assignLeaf, if_neg h1]
      split_ifs <;> rfl
  | node l r ihl ihr =>
    rcases fuel with _ | fuel
    · have := assignAll_deep (T := .node l r) (path := path) (depth := depth) (count := count) (s := s) (by omega) []
      simpa [walk] using this.symm
    · obtain ⟨n, hn, hl, hL, hR⟩ : ∃ n, s.nodes[i.toNat]? = some n ∧ n.leaf = false ∧ HoldsTree s.nodes n.left l
          ∧ HoldsTree s.nodes n.right r := by
        cases hT with | node _ n _ _ hn hl hL hR => exact ⟨n, hn, hl, hL, hR⟩
      rw [CodeTree.leafCodes_node, assignAll_append]
      simp only [walk, isLeaf, nodeAt_of_getElem? hn, hl, Bool.false_eq_true, if_false]
      rw [ihl hL (by omega)]
      have hf := assignAll_frame (l.leafCodes (2 * path) (depth + 1)) count s
      rcases hr : assignAll (l.leafCodes (2 * path) (depth + 1)) count s with ⟨c, t⟩ | ⟨e, arg, t⟩ | t | f
      · rw [hr] at hf
        have ht : t.nodes = s.nodes := by rw [show t = _ from hf]
        rw [andThen_done, andThen_done]
        exact ihr (by rw [ht]; exact hR) (by omega) c
      · rfl
      · rfl
      · rfl

/-! ### Assigning codes that fit -/

/-- Leaves of depth 1 to 32, no symbol twice, none with a code yet: each gets its code, and no other entry changes. -/
theorem assignAll_done (xs : List LeafCode) (count : Nat) (s : State)
    (hd : ∀ c ∈ xs, 1 ≤ c.depth ∧ c.depth ≤ 32) (hp : ∀ c ∈ xs, c.path < 2 ^ c.depth)
    (hn : (xs.map LeafCode.sym).Nodup) (hf : ∀ c ∈ xs, lenAt s c.sym = 0#6) :
    ∃ t, assignAll xs count s = .done (count + xs.length) t
      ∧ t = { s with code := t.code, len := t.len }
      ∧ (∀ c ∈ xs, (codeAt t c.sym).toNat = c.path ∧ (lenAt t c.sym).toNat = c.depth)
      ∧ (∀ b, b ∉ xs.map LeafCode.sym → codeAt t b = codeAt s b ∧ lenAt t b = lenAt s b) := by
  induction xs generalizing count s with
  | nil => exact ⟨s, rfl, rfl, by simp, fun _ _ => ⟨rfl, rfl⟩⟩
  | cons c rest ih =>
    have hc := hd c (by simp)
    have hpc := hp c (by simp)
    simp only [List.map_cons, List.nodup_cons] at hn
    have hne : ∀ c' ∈ rest, c'.sym ≠ c.sym := fun c' hc' he => hn.1 (he ▸ List.mem_map_of_mem hc')
    obtain ⟨t, he, hfr, hin, hout⟩ := ih (count + 1) (setCode c.sym c.path c.depth s)
      (fun c' h => hd c' (by simp [h])) (fun c' h => hp c' (by simp [h])) hn.2
      (fun c' h => by rw [lenAt_setCode_ne _ _ _ (hne c' h)]; exact hf c' (by simp [h]))
    refine ⟨t, ?_, by rw [hfr]; rfl, ?_, ?_⟩
    · simp only [assignAll, assignLeaf]
      rw [if_neg (by omega), if_neg (by omega), if_neg (by simp [hf c (by simp)]), andThen_done, he, List.length_cons]
      congr 1; omega
    · intro c' hc'
      rcases List.mem_cons.1 hc' with rfl | hc'
      · obtain ⟨h1, h2⟩ := hout c'.sym hn.1
        rw [h1, h2, codeAt_setCode_self, lenAt_setCode_self]
        have : (2 : Nat) ^ c'.depth ≤ 2 ^ 32 := Nat.pow_le_pow_right (by omega) hc.2
        rw [BitVec.toNat_ofNat, BitVec.toNat_ofNat, Nat.mod_eq_of_lt (by omega), Nat.mod_eq_of_lt (by omega)]
        exact ⟨rfl, rfl⟩
      · exact hin c' hc'
    · intro b hb
      simp only [List.map_cons, List.mem_cons, not_or] at hb
      obtain ⟨h1, h2⟩ := hout b hb.2
      rw [h1, h2, codeAt_setCode_ne _ _ _ hb.1, lenAt_setCode_ne _ _ _ hb.1]
      exact ⟨rfl, rfl⟩

/-- A walk that ends without error met only leaves that fit, no symbol twice. -/
theorem assignAll_done_inv (xs : List LeafCode) (count : Nat) (s t : State) (count' : Nat)
    (hd : ∀ c ∈ xs, 1 ≤ c.depth) (h : assignAll xs count s = .done count' t) :
    (∀ c ∈ xs, c.depth ≤ 32) ∧ (xs.map LeafCode.sym).Nodup ∧ ∀ c ∈ xs, lenAt s c.sym = 0#6 := by
  induction xs generalizing count s with
  | nil => simp
  | cons c rest ih =>
    have hdc := hd c (by simp)
    simp only [assignAll, assignLeaf] at h
    split_ifs at h with h1 h2 h3
    · cases h
    · cases h
    · cases h
    rw [andThen_done] at h
    obtain ⟨ha, hb, hc⟩ := ih _ _ (fun c' h => hd c' (by simp [h])) h
    simp only [ne_eq, Decidable.not_not] at h3
    have hne : ∀ c' ∈ rest, c'.sym ≠ c.sym := by
      intro c' hc' he
      have := hc c' hc'
      rw [he, lenAt_setCode_self] at this
      have := congrArg BitVec.toNat this
      simp only [BitVec.toNat_ofNat] at this
      omega
    refine ⟨?_, ?_, ?_⟩
    · intro c' hc'
      rcases List.mem_cons.1 hc' with rfl | hc'
      · omega
      · exact ha c' hc'
    · simp only [List.map_cons, List.nodup_cons]
      refine ⟨fun hm => ?_, hb⟩
      obtain ⟨c', hc', he⟩ := List.mem_map.1 hm
      exact hne c' hc' he
    · intro c' hc'
      rcases List.mem_cons.1 hc' with rfl | hc'
      · exact h3
      · rw [← hc c' hc', lenAt_setCode_ne _ _ _ (hne c' hc')]

/-- Every assigned code fits its length, whatever the walk ends with. -/
theorem assignAll_codes_fit (xs : List LeafCode) (count : Nat) (s : State) (hp : ∀ c ∈ xs, c.path < 2 ^ c.depth)
    (hs : ∀ b, (lenAt s b).toNat ≤ 32 ∧ (codeAt s b).toNat < 2 ^ (lenAt s b).toNat) :
    (assignAll xs count s).Sat
      (fun _ t => ∀ b, (lenAt t b).toNat ≤ 32 ∧ (codeAt t b).toNat < 2 ^ (lenAt t b).toNat)
      (fun _ _ t => ∀ b, (lenAt t b).toNat ≤ 32 ∧ (codeAt t b).toNat < 2 ^ (lenAt t b).toNat)
      (fun _ => False) True := by
  induction xs generalizing count s with
  | nil => exact hs
  | cons c rest ih =>
    simp only [assignAll, assignLeaf]
    split_ifs with h1 h2 h3
    · trivial
    · exact hs
    · exact hs
    · refine ih _ _ (fun c' h => hp c' (by simp [h])) fun b => ?_
      by_cases hb : b = c.sym
      · subst hb
        rw [lenAt_setCode_self, codeAt_setCode_self, BitVec.toNat_ofNat, BitVec.toNat_ofNat,
          Nat.mod_eq_of_lt (show c.depth < 2 ^ 6 by omega)]
        exact ⟨by omega, Nat.lt_of_le_of_lt (Nat.mod_le _ _) (hp c (by simp))⟩
      · rw [lenAt_setCode_ne _ _ _ hb, codeAt_setCode_ne _ _ _ hb]; exact hs b

theorem assignAll_no_stop (xs : List LeafCode) (hx : ∀ c ∈ xs, c.depth < 512) (count : Nat) (s : State) (f : Fault) :
    assignAll xs count s ≠ .stop f := by
  induction xs generalizing count s with
  | nil => intro h; cases h
  | cons c rest ih =>
    have := hx c (by simp)
    simp only [assignAll, assignLeaf]
    split_ifs
    · omega
    · exact fun h => by cases h
    · exact fun h => by cases h
    · exact ih (fun c' h => hx c' (by simp [h])) _ _

theorem CodeTree.leafCodes_fit (T : CodeTree) {path depth : Nat} (h : path < 2 ^ depth) :
    ∀ c ∈ T.leafCodes path depth, c.path < 2 ^ c.depth := by
  intro c hc
  obtain ⟨p, hp, rfl⟩ := List.mem_map.1 hc
  have := bitsValue_lt p.2
  simp only [Nat.pow_add]
  have h' : path + 1 ≤ 2 ^ depth := h
  calc path * 2 ^ p.2.length + bitsValue p.2 < (path + 1) * 2 ^ p.2.length := by rw [Nat.add_mul]; omega
    _ ≤ _ := Nat.mul_le_mul_right _ h'

theorem clearCodes_fit (s : State) (b : Byte) :
    (lenAt (clearCodes s) b).toNat ≤ 32 ∧ (codeAt (clearCodes s) b).toNat < 2 ^ (lenAt (clearCodes s) b).toNat := by
  simp

/-- Everything CG_GENERATE can do on the tree at ROOT: it writes only the code table and RESULT. -/
theorem runCgGenerate_sat (s : State)
    (h : s.root = Config.nil ∨ ∃ T, HoldsTree s.nodes s.root T ∧ ∀ c ∈ T.paths, c.2.length < 512) :
    (runCgGenerate s).Sat
      (fun _ t => t = { s with code := t.code, len := t.len, result := t.result }
        ∧ ∀ b, (lenAt t b).toNat ≤ 32 ∧ (codeAt t b).toNat < 2 ^ (lenAt t b).toNat)
      (fun e _ t => (e = .codeTooLong ∨ e = .dupSymbol) ∧ t = { s with code := t.code, len := t.len }
        ∧ ∀ b, (lenAt t b).toNat ≤ 32 ∧ (codeAt t b).toNat < 2 ^ (lenAt t b).toNat)
      (fun _ => False) False := by
  rw [runCgGenerate, generateCodes]
  by_cases h0 : (clearCodes s).root = Config.nil
  · rw [if_pos h0]
    exact ⟨rfl, clearCodes_fit s⟩
  · obtain ⟨T, hT, hdeep⟩ := h.resolve_left h0
    rw [if_neg h0]
    by_cases hlf : isLeaf (clearCodes s) (clearCodes s).root = true
    · rw [if_pos hlf]
      refine ⟨rfl, fun b => ?_⟩
      generalize (nodeAt (clearCodes s) (clearCodes s).root).sym = v
      have h1 : lenAt (setResult 1#32 (setCode v 0 1 (clearCodes s))) b = lenAt (setCode v 0 1 (clearCodes s)) b := rfl
      have h2 : codeAt (setResult 1#32 (setCode v 0 1 (clearCodes s))) b = codeAt (setCode v 0 1 (clearCodes s)) b := rfl
      rw [h1, h2]
      by_cases hb : b = v
      · subst hb; simp
      · rw [lenAt_setCode_ne _ _ _ hb, codeAt_setCode_ne _ _ _ hb]; exact clearCodes_fit s b
    · rw [if_neg hlf, walk_eq_assignAll (s := clearCodes s) (i := (clearCodes s).root) (T := T) hT (by omega)]
      have hfr := assignAll_frame (T.leafCodes 0 0) 0 (clearCodes s)
      have hfit := assignAll_codes_fit (T.leafCodes 0 0) 0 (clearCodes s) (T.leafCodes_fit (by simp))
        (clearCodes_fit s)
      have hns := assignAll_no_stop (T.leafCodes 0 0) (fun c hc => by
        obtain ⟨p, hp, rfl⟩ := List.mem_map.1 hc
        simpa using hdeep p hp) 0 (clearCodes s)
      rcases hr : assignAll (T.leafCodes 0 0) 0 (clearCodes s) with ⟨c, t⟩ | ⟨e, arg, t⟩ | t | f <;>
        rw [hr] at hfr hfit
      · refine ⟨?_, hfit⟩
        rw [show t = _ from hfr]; rfl
      · refine ⟨hfr.1, ?_, hfit⟩
        rw [hfr.2]; rfl
      · exact hfr
      · exact hns f hr

end Sys2Proof.Machine
end

