-- ==== Sys2Proof/Laws/Stream.lean ====
section
/-! SUPPORT. What commands may do to the IN stream: take bytes from its front, in step with IN_REM (10_state R49,
20_memory R58). -/

namespace Sys2Proof.Machine

/-- The host has not supplied the whole stream: the engine may have to wait. -/
def Starved (s : State) : Prop := s.inSeq.length ≤ s.inRem.toNat → s.inSeq.length < s.inRem.toNat

/-- From `s` to `t` only bytes at the stream's front went, and IN_REM fell with each. -/
structure Consumed (s t : State) : Prop where
  suffix : t.inSeq <:+ s.inSeq
  within : s.inSeq.length ≤ s.inRem.toNat → t.inSeq.length ≤ t.inRem.toNat
  missing : s.inSeq.length ≤ s.inRem.toNat →
    t.inRem.toNat - t.inSeq.length = s.inRem.toNat - s.inSeq.length

theorem Consumed.refl (s : State) : Consumed s s := ⟨List.suffix_refl _, id, fun _ => rfl⟩

theorem Consumed.trans {s t u : State} (h : Consumed s t) (h' : Consumed t u) : Consumed s u :=
  ⟨h'.suffix.trans h.suffix, fun hs => h'.within (h.within hs),
    fun hs => (h'.missing (h.within hs)).trans (h.missing hs)⟩

/-- Only the stream matters. -/
theorem Consumed.to_eq {s t u : State} (h : Consumed s t) (h1 : u.inSeq = t.inSeq) (h2 : u.inRem = t.inRem) :
    Consumed s u := ⟨h1 ▸ h.suffix, by rw [h1, h2]; exact h.within, by rw [h1, h2]; exact h.missing⟩

theorem Consumed.from_to {s s' t : State} (h : Consumed s t) (h1 : s'.inSeq = s.inSeq) (h2 : s'.inRem = s.inRem) :
    Consumed s' t := ⟨h1 ▸ h.suffix, by rw [h1, h2]; exact h.within, by rw [h1, h2]; exact h.missing⟩

theorem Consumed.from_eq {s t : State} {ds : List Frame} (h : Consumed { s with dstack := ds } t) : Consumed s t :=
  h.from_to rfl rfl

/-- A stream starved later was starved before. -/
theorem Consumed.starved {s t : State} (h : Consumed s t) (ht : Starved t) : Starved s := fun hs => by
  have := h.missing hs
  have := ht (h.within hs)
  omega

theorem starved_of_empty {s : State} (h1 : s.inSeq = []) (h2 : s.inRem ≠ 0#32) : Starved s := fun _ => by
  have : s.inRem.toNat ≠ 0 := fun h => h2 (BitVec.eq_of_toNat_eq h)
  rw [h1]; simp; omega

/-- A host that keeps its duties never starves the engine. -/
theorem not_starved {s : State} (h : s.inSeq.length = s.inRem.toNat) : ¬ Starved s := fun hs => by
  have := hs (by omega)
  omega

/-- InRead, with IN_REM > 0. -/
theorem inRead_consumed (s : State) (h : s.inRem ≠ 0#32) :
    (inRead s).Sat (fun _ t => t = { s with inSeq := t.inSeq, inRem := t.inRem } ∧ Consumed s t) (fun _ _ _ => False)
      (fun t => t = s ∧ s.inSeq = [] ∧ s.inRem ≠ 0#32) False := by
  rcases hin : s.inSeq with _ | ⟨b, rest⟩
  · rw [inRead_nil hin]; exact ⟨rfl, rfl, h⟩
  · rw [inRead_cons hin]
    have h0 : s.inRem.toNat ≠ 0 := fun h' => h (BitVec.eq_of_toNat_eq h')
    refine ⟨rfl, ⟨by rw [hin]; exact List.suffix_cons b rest, fun hs => ?_, fun hs => ?_⟩⟩ <;>
      rw [hin, List.length_cons] at hs <;> simp only [hin, List.length_cons] <;> bv_omega

end Sys2Proof.Machine
end

