-- ==== Sys2Proof/Laws/Deserializer.lean ====
section
/-! SUPPORT. What reading a tree does: it rebuilds the tree its bytes read as, and whatever the bytes are it only
grows the arena and consumes the stream (45_tree_deserializer R121). -/

namespace Sys2Proof.Machine

/-! ### Rebuilding a tree -/

theorem treeByte_cons {consumed : Nat} {s : State} {b : Byte} {rest : List Byte} (hc : consumed < s.treeSize.toNat)
    (h : s.inSeq = b :: rest) (hr : s.inSeq.length ≤ s.inRem.toNat) :
    treeByte consumed s = .done b { s with inSeq := rest, inRem := s.inRem - 1#32 } := by
  have h0 : s.inRem ≠ 0#32 := by
    rintro h0
    rw [h0, h] at hr; simp at hr
  rw [treeByte, if_neg (by omega), if_neg h0, inRead_cons h]

/-- What the machine does once it has a finished subtree `n`, with pending frames `ds` (R121). -/
def afterSubtree (fuel consumed : Nat) (n : NodeIdx) (ds : List Frame) (s : State) : Run Unit :=
  (attach n ds s).andThen fun root s' =>
    match root with
    | some r => endTree r consumed s'
    | none => readTree fuel consumed s'

/-- The turn at a leaf's tag. -/
theorem readTree_leaf {fuel consumed : Nat} {s : State} {rest : List Byte} (hc : consumed < s.treeSize.toNat)
    (h : s.inSeq = 0x31#8 :: rest) (hr : s.inSeq.length ≤ s.inRem.toNat) :
    readTree (fuel + 1) consumed s
      = (leafValue (consumed + 1) { s with inSeq := rest, inRem := s.inRem - 1#32 }).andThen fun vc s₂ =>
          (allocNode (leafNode vc.1 0#32) .fmtTreeTooLarge s₂).andThen fun n s₃ =>
            afterSubtree fuel vc.2 n s₃.dstack s₃ := by
  rw [readTree, treeByte_cons hc h hr, andThen_done, if_neg (by decide), if_neg (by decide)]
  rfl

/-- The turn at an internal node's tag. -/
theorem readTree_internal {fuel consumed : Nat} {s : State} {rest : List Byte} (hc : consumed < s.treeSize.toNat)
    (h : s.inSeq = 0x30#8 :: rest) (hr : s.inSeq.length ≤ s.inRem.toNat) (hd : s.dstack.length ≠ 255) :
    readTree (fuel + 1) consumed s
      = readTree fuel (consumed + 1)
          { s with inSeq := rest, inRem := s.inRem - 1#32, dstack := ⟨false, Config.nil⟩ :: s.dstack } := by
  rw [readTree, treeByte_cons hc h hr, andThen_done, if_pos (by decide), if_neg (by exact hd)]

/-- A left subtree done: its right sibling is next. -/
theorem afterSubtree_left (fuel consumed : Nat) (n : NodeIdx) (ds : List Frame) (f : Frame) (hf : f.hasLeft = false)
    (s : State) :
    afterSubtree fuel consumed n (f :: ds) s = readTree fuel consumed { s with dstack := ⟨true, n⟩ :: ds } := by
  rw [afterSubtree, attach, if_neg (by simp [hf]), andThen_done]

/-- A right subtree done: the internal node is allocated and is a finished subtree itself. -/
theorem afterSubtree_right (fuel consumed : Nat) (n l : NodeIdx) (ds : List Frame) (s : State)
    (hn : s.nodes.length ≠ 511) :
    afterSubtree fuel consumed n (⟨true, l⟩ :: ds) s
      = afterSubtree fuel consumed (BitVec.ofNat 9 s.nodes.length) ds
          { s with nodes := s.nodes ++ [internalNode 0#32 l n] } := by
  rw [afterSubtree, attach, if_pos rfl, allocNode_room hn, andThen_done, afterSubtree]

theorem sub_ofNat_assoc (x : Word) (a b : Nat) :
    x - BitVec.ofNat 32 a - BitVec.ofNat 32 b = x - BitVec.ofNat 32 (a + b) := by
  rw [BitVec.ofNat_add]; bv_omega

theorem toNat_sub_one_ge {x : Word} {n : Nat} (h : n + 1 ≤ x.toNat) : n ≤ (x - 1#32).toNat := by bv_omega

theorem sub_one_one (x : Word) : x - 1#32 - 1#32 = x - 2#32 := by bv_omega
theorem sub_one_two (x : Word) : x - 1#32 - 2#32 = x - 3#32 := by bv_omega

/-- A leaf's value in one byte. -/
theorem leafValue_plain {consumed : Nat} {s : State} {v : Byte} {rest : List Byte} (hv : v ≠ 0x5C#8)
    (hc : consumed < s.treeSize.toNat) (h : s.inSeq = v :: rest) (hr : s.inSeq.length ≤ s.inRem.toNat) :
    leafValue consumed s = .done (v, consumed + 1) { s with inSeq := rest, inRem := s.inRem - 1#32 } := by
  rw [leafValue, treeByte_cons hc h hr, andThen_done, if_neg (by exact hv)]

/-- A leaf's value after an escape. -/
theorem leafValue_escaped {consumed : Nat} {s : State} {v : Byte} {rest : List Byte}
    (hc : consumed + 1 < s.treeSize.toNat) (h : s.inSeq = 0x5C#8 :: v :: rest)
    (hr : s.inSeq.length ≤ s.inRem.toNat) :
    leafValue consumed s = .done (v, consumed + 2) { s with inSeq := rest, inRem := s.inRem - 2#32 } := by
  have hl : rest.length + 1 + 1 ≤ s.inRem.toNat := by rw [h] at hr; simpa using hr
  rw [leafValue, treeByte_cons (by omega) h hr, andThen_done, if_pos (by rfl),
    treeByte_cons (s := { s with inSeq := v :: rest, inRem := s.inRem - 1#32 }) (b := v) (rest := rest) hc rfl (toNat_sub_one_ge hl),
    andThen_done, sub_one_one]

/-- A tree of `n` leaves has at most `n - 1` levels below its root. -/
theorem CodeTree.height_lt (T : CodeTree) : T.height < T.leafCount := by
  induction T with
  | leaf v => simp [CodeTree.height, CodeTree.leafCount]
  | node l r ihl ihr => simp only [CodeTree.height, CodeTree.leafCount]; omega

theorem CodeTree.entries_length (T : CodeTree) (base : Nat) : (T.entries base).length = 2 * T.leafCount - 1 := by
  induction T generalizing base with
  | leaf v => rfl
  | node l r ihl ihr =>
    have := l.leafCount_pos
    have := r.leafCount_pos
    simp only [CodeTree.entries, CodeTree.leafCount, List.length_append, ihl, ihr, List.length_singleton]
    omega

theorem CodeTree.entries_freq (T : CodeTree) (base : Nat) : ∀ n ∈ T.entries base, n.freq = 0#32 := by
  induction T generalizing base with
  | leaf v => simp [CodeTree.entries]
  | node l r ihl ihr =>
    simp only [CodeTree.entries, List.mem_append, List.mem_singleton]
    rintro n ((hn | hn) | rfl)
    · exact ihl _ n hn
    · exact ihr _ n hn
    · rfl

/-- After an arena, a tree's entries hold the tree, at the last of them. -/
theorem CodeTree.entries_holds (T : CodeTree) (ns : List Node) (h : ns.length + (2 * T.leafCount - 1) ≤ 512) :
    HoldsTree (ns ++ T.entries ns.length) (BitVec.ofNat 9 (ns.length + (2 * T.leafCount - 1) - 1)) T := by
  induction T generalizing ns with
  | leaf v => exact HoldsTree.newLeaf v 0#32 (by simp only [CodeTree.leafCount] at h; omega)
  | node l r ihl ihr =>
    have hlp := l.leafCount_pos
    have hrp := r.leafCount_pos
    simp only [CodeTree.leafCount] at h
    have hl := ihl ns (by omega)
    have hlen : (ns ++ l.entries ns.length).length = ns.length + (2 * l.leafCount - 1) := by
      rw [List.length_append, l.entries_length]
    have hr := ihr (ns ++ l.entries ns.length) (by omega)
    rw [hlen] at hr
    have := HoldsTree.newInternal 0#32 (by rw [List.length_append, hlen, r.entries_length]; omega) hl.append hr
    rw [List.length_append, hlen, r.entries_length] at this
    simp only [CodeTree.entries, CodeTree.leafCount, ← List.append_assoc]
    rwa [show ns.length + (2 * (l.leafCount + r.leafCount) - 1) - 1
      = ns.length + (2 * l.leafCount - 1) + (2 * r.leafCount - 1) by omega]

/-- Reading a subtree: the machine arrives at its finished node, with the subtree's bytes consumed and its entries at the
end of the arena. -/
theorem readTree_subtree {bytes : List Byte} {T : CodeTree} (hT : ReadsAs bytes T) : ∀ (fuel consumed : Nat) (s : State)
    (rest : List Byte), s.inSeq = bytes ++ rest → s.inSeq.length ≤ s.inRem.toNat →
    consumed + bytes.length ≤ s.treeSize.toNat → s.treeSize.toNat ≤ fuel + consumed →
    s.nodes.length + (2 * T.leafCount - 1) ≤ 511 → s.dstack.length + T.height ≤ 255 →
    ∃ fuel' t, readTree fuel consumed s
        = afterSubtree fuel' (consumed + bytes.length) (BitVec.ofNat 9 (s.nodes.length + (2 * T.leafCount - 1) - 1))
            s.dstack t
      ∧ s.treeSize.toNat ≤ fuel' + (consumed + bytes.length)
      ∧ t = { s with
          nodes := s.nodes ++ T.entries s.nodes.length
          inSeq := rest, inRem := s.inRem - BitVec.ofNat 32 bytes.length, dstack := t.dstack } := by
  induction hT with
  | plain v hv =>
    intro fuel consumed s rest hin hrem hc hf hn hd
    obtain ⟨fuel, rfl⟩ : ∃ f, fuel = f + 1 := ⟨fuel - 1, by simp at hc; omega⟩
    have hlen : s.inSeq.length = rest.length + 2 := by rw [hin]; simp
    simp only [List.cons_append, List.nil_append] at hin
    simp only [List.length_cons, List.length_nil, Nat.zero_add, CodeTree.leafCount, CodeTree.height] at *
    refine ⟨fuel, { s with
      nodes := s.nodes ++ [leafNode v 0#32], inSeq := rest, inRem := s.inRem - 2#32 }, ?_, by omega, rfl⟩
    rw [readTree_leaf (by omega) hin hrem,
      leafValue_plain (s := { s with inSeq := _, inRem := _ }) hv (by show consumed + 1 < s.treeSize.toNat; omega)
        rfl (toNat_sub_one_ge (by simp; omega)), andThen_done,
      allocNode_room (by show s.nodes.length ≠ 511; omega), andThen_done, sub_one_one]
    simp
  | escaped v =>
    intro fuel consumed s rest hin hrem hc hf hn hd
    obtain ⟨fuel, rfl⟩ : ∃ f, fuel = f + 1 := ⟨fuel - 1, by simp at hc; omega⟩
    have hlen : s.inSeq.length = rest.length + 3 := by rw [hin]; simp
    simp only [List.cons_append, List.nil_append] at hin
    simp only [List.length_cons, List.length_nil, Nat.zero_add, CodeTree.leafCount, CodeTree.height] at *
    refine ⟨fuel, { s with
      nodes := s.nodes ++ [leafNode v 0#32], inSeq := rest, inRem := s.inRem - 3#32 }, ?_, by omega, rfl⟩
    rw [readTree_leaf (by omega) hin hrem,
      leafValue_escaped (s := { s with inSeq := _, inRem := _ }) (by show consumed + 1 + 1 < s.treeSize.toNat; omega)
        rfl (toNat_sub_one_ge (by simp; omega)), andThen_done,
      allocNode_room (by show s.nodes.length ≠ 511; omega), andThen_done, sub_one_two]
    simp
  | node bl br l r hl hr ihl ihr =>
    intro fuel consumed s rest hin hrem hc hf hn hd
    have hlp := l.leafCount_pos
    have hrp := r.leafCount_pos
    obtain ⟨fuel, rfl⟩ : ∃ f, fuel = f + 1 := ⟨fuel - 1, by simp at hc; omega⟩
    simp only [List.cons_append, List.append_assoc] at hin
    simp only [List.length_cons, List.length_append, CodeTree.leafCount, CodeTree.height] at *
    have hlen : s.inSeq.length = bl.length + br.length + rest.length + 1 := by rw [hin]; simp; omega
    obtain ⟨f1, t1, he1, hf1, ht1⟩ := ihl fuel (consumed + 1)
      { s with inSeq := bl ++ (br ++ rest), inRem := s.inRem - 1#32, dstack := ⟨false, Config.nil⟩ :: s.dstack } (br ++ rest) rfl
      (toNat_sub_one_ge (by simp; omega)) (by show _ ≤ s.treeSize.toNat; omega)
      (by show s.treeSize.toNat ≤ _; omega) (by show s.nodes.length + _ ≤ _; omega) (by simp only [List.length_cons]; omega)
    have hrem1 : t1.inRem = s.inRem - 1#32 - BitVec.ofNat 32 bl.length := by rw [ht1]
    have hn1 : t1.nodes = s.nodes ++ l.entries s.nodes.length := by rw [ht1]
    have hnl1 : t1.nodes.length = s.nodes.length + (2 * l.leafCount - 1) := by
      rw [hn1, List.length_append, l.entries_length]
    obtain ⟨f2, t2, he2, hf2, ht2⟩ := ihr f1 (consumed + 1 + bl.length)
      { t1 with dstack := ⟨true, BitVec.ofNat 9 (s.nodes.length + (2 * l.leafCount - 1) - 1)⟩ :: s.dstack } rest
      (by show t1.inSeq = _; rw [ht1]) (by
        show t1.inSeq.length ≤ t1.inRem.toNat
        rw [hrem1, show t1.inSeq = br ++ rest by rw [ht1]]
        have hs : (br ++ rest).length = br.length + rest.length := List.length_append
        have := s.inRem.isLt
        generalize hx : s.inRem = x at *
        rw [hs]
        have : bl.length < 2 ^ 32 := by omega
        bv_omega)
      (by show _ ≤ t1.treeSize.toNat; rw [ht1]; show _ ≤ s.treeSize.toNat; omega)
      (by show t1.treeSize.toNat ≤ _; rw [ht1]; show s.treeSize.toNat ≤ _; exact hf1)
      (by show t1.nodes.length + _ ≤ _; rw [hnl1]; omega) (by simp only [List.length_cons]; omega)
    simp only [hnl1] at he2 ht2
    have hn2 : t2.nodes = t1.nodes ++ r.entries (s.nodes.length + (2 * l.leafCount - 1)) := by rw [ht2]
    have hnl2 : t2.nodes.length = s.nodes.length + (2 * l.leafCount - 1) + (2 * r.leafCount - 1) := by
      rw [hn2, List.length_append, hnl1, r.entries_length]
    refine ⟨f2, { t2 with
      nodes := t2.nodes ++ [internalNode 0#32 (BitVec.ofNat 9 (s.nodes.length + (2 * l.leafCount - 1) - 1))
        (BitVec.ofNat 9 (s.nodes.length + (2 * l.leafCount - 1) + (2 * r.leafCount - 1) - 1))] }, ?_, ?_, ?_⟩
    · rw [readTree_internal (by omega) hin hrem (by omega), he1, afterSubtree_left _ _ _ _ _ rfl, he2]
      rw [afterSubtree_right _ _ _ _ _ _ (by omega), hnl2]
      congr 1
      · omega
      · congr 1; omega
    · have : t1.treeSize.toNat ≤ f2 + (consumed + 1 + bl.length + br.length) := hf2
      rw [show t1.treeSize = s.treeSize by rw [ht1]] at this
      omega
    · rw [hn2, hn1]
      rw [ht2]
      simp only
      rw [hrem1, sub_ofNat_assoc, show (1#32 : Word) = BitVec.ofNat 32 1 from rfl, sub_ofNat_assoc]
      rw [ht1]
      simp only
      rw [show 1 + (bl.length + br.length) = bl.length + br.length + 1 by omega]
      simp only [CodeTree.entries, internalNode, List.append_assoc]

/-- A whole tree, from an empty arena and stack, arrives at the end of the tree. -/
theorem readTree_whole {bytes rest : List Byte} {T : CodeTree} (hT : ReadsAs bytes T) {s : State}
    (hin : s.inSeq = bytes ++ rest) (hrem : s.inSeq.length ≤ s.inRem.toNat) (hsize : bytes.length ≤ s.treeSize.toNat)
    (hleaves : T.leafCount ≤ 256) (hn : s.nodes = []) (hd : s.dstack = []) :
    ∃ t, readTree s.treeSize.toNat 0 s = endTree (BitVec.ofNat 9 (2 * T.leafCount - 2)) bytes.length t
      ∧ t = { s with
          nodes := T.entries 0, inSeq := rest, inRem := s.inRem - BitVec.ofNat 32 bytes.length, dstack := [] } := by
  have hp := T.leafCount_pos
  obtain ⟨f, t, he, -, ht⟩ := readTree_subtree hT s.treeSize.toNat 0 s rest hin hrem (by omega) (by omega)
    (by rw [hn]; simp; omega) (by have := T.height_lt; rw [hd]; simp; omega)
  rw [hn, List.length_nil, List.nil_append] at ht
  refine ⟨{ t with dstack := [] }, ?_, by rw [ht]⟩
  rw [he, hd, hn, afterSubtree, attach, andThen_done, Nat.zero_add, List.length_nil]
  simp only
  congr 2; omega

/-- The tree that a whole tree's entries hold. -/
theorem CodeTree.entries_holds_zero (T : CodeTree) (h : T.leafCount ≤ 256) :
    HoldsTree (T.entries 0) (BitVec.ofNat 9 (2 * T.leafCount - 2)) T := by
  have := T.entries_holds [] (by simp; omega)
  simpa [Nat.sub_sub] using this

/-- The written form of a tree reads back as that tree (44_tree_serializer R119). -/
theorem readsAs_leaf (sym : Byte) : ReadsAs (writtenLeaf sym) (.leaf sym) := by
  rw [writtenLeaf]
  split
  · exact .escaped sym
  · rename_i h
    exact .plain sym fun he => h (.inr he)

/-! ### Where reading stops inside a tree -/

theorem toNat_sub_ofNat_ge {x : Word} {k n : Nat} (h : k + n ≤ x.toNat) : n ≤ (x - BitVec.ofNat 32 k).toNat := by
  have := x.isLt
  have : k < 2 ^ 32 := by omega
  bv_omega

theorem toNat_sub_ofNat {x : Word} {k : Nat} (h : k ≤ x.toNat) : (x - BitVec.ofNat 32 k).toNat = x.toNat - k := by
  have := x.isLt
  have : k < 2 ^ 32 := by omega
  bv_omega

/-- Pending nodes came from an arena that held. -/
theorem PendingAfter.nodes_le {bs : List Byte} {fs : List (Option NodeIdx)} {ns : List Node} (h : PendingAfter bs fs ns) :
    ns.length ≤ 511 := by
  induction h with
  | start => simp
  | left _ _ _ _ _ ih => exact ih
  | right _ _ _ _ l _ _ _ hn _ => rw [List.length_append, l.entries_length]; exact hn

/-- A frame of the deserializer's stack as a pending node: its left child, where that is complete. -/
def Frame.pending (f : Frame) : Option NodeIdx := if f.hasLeft then some f.left else none

/-- Bytes that leave nodes pending leave the machine in tag position, with those nodes on its stack. -/
theorem readTree_pending {bs : List Byte} {fs : List (Option NodeIdx)} {ns : List Node} (hp : PendingAfter bs fs ns) :
    ∀ (s : State) (rest : List Byte), s.inSeq = bs ++ rest → s.inSeq.length ≤ s.inRem.toNat →
    bs.length ≤ s.treeSize.toNat → s.nodes = [] → s.dstack = [] →
    ∃ fuel t, readTree s.treeSize.toNat 0 s = readTree fuel bs.length t ∧ s.treeSize.toNat ≤ fuel + bs.length
      ∧ t = { s with
          nodes := ns, inSeq := rest, inRem := s.inRem - BitVec.ofNat 32 bs.length, dstack := t.dstack }
      ∧ t.dstack.map Frame.pending = fs := by
  induction hp with
  | start =>
    intro s rest hin hrem hc hn hd
    exact ⟨_, s, rfl, by simp, by simp at hin; simp [← hin, ← hn], by simp [hd]⟩
  | left bs fs ns h hd ih =>
    intro s rest hin hrem hc hn hds
    simp only [List.length_append, List.length_singleton] at hc
    obtain ⟨f, t, he, hf, ht, hm⟩ := ih s (0x30#8 :: rest) (by simp [hin]) hrem (by omega) hn hds
    have hlen : s.inSeq.length = bs.length + 1 + rest.length := by rw [hin]; simp; omega
    have hts : t.treeSize = s.treeSize := by rw [ht]
    have hti : t.inSeq = 0x30#8 :: rest := by rw [ht]
    have htr : t.inRem = s.inRem - BitVec.ofNat 32 bs.length := by rw [ht]
    have htd : t.dstack.length = fs.length := by rw [← hm]; simp
    obtain ⟨f, rfl⟩ : ∃ g, f = g + 1 := ⟨f - 1, by omega⟩
    refine ⟨f, { t with inSeq := rest, inRem := t.inRem - 1#32, dstack := ⟨false, Config.nil⟩ :: t.dstack }, ?_, ?_, ?_,
      by simp [hm, Frame.pending]⟩
    · rw [he, readTree_internal (by rw [hts]; omega) hti (by
        rw [hti, htr]
        exact toNat_sub_ofNat_ge (by simp only [List.length_cons]; omega)) (by omega)]
      simp
    · simp only [List.length_append, List.length_singleton]; omega
    · rw [htr, show (1#32 : Word) = BitVec.ofNat 32 1 from rfl, sub_ofNat_assoc, ht]
      simp
  | right bs bl fs ns l h hl hd hn ih =>
    intro s rest hin hrem hc hns hds
    simp only [List.length_append, List.length_cons] at hc
    have hlp := l.leafCount_pos
    obtain ⟨f, t, he, hf, ht, hm⟩ := ih s (0x30#8 :: (bl ++ rest)) (by simp [hin]) hrem (by omega) hns hds
    have hlen : s.inSeq.length = bs.length + (bl.length + rest.length + 1) := by rw [hin]; simp
    have hts : t.treeSize = s.treeSize := by rw [ht]
    have hti : t.inSeq = 0x30#8 :: (bl ++ rest) := by rw [ht]
    have htn : t.nodes = ns := by rw [ht]
    have htr : t.inRem = s.inRem - BitVec.ofNat 32 bs.length := by rw [ht]
    have htd : t.dstack.length = fs.length := by rw [← hm]; simp
    obtain ⟨f, rfl⟩ : ∃ g, f = g + 1 := ⟨f - 1, by omega⟩
    have hti1 : bl.length + rest.length + 1 ≤ t.inRem.toNat := by rw [htr]; exact toNat_sub_ofNat_ge (by omega)
    obtain ⟨f', u, he', hf', hu⟩ := readTree_subtree hl f (bs.length + 1)
      { t with inSeq := bl ++ rest, inRem := t.inRem - 1#32, dstack := ⟨false, Config.nil⟩ :: t.dstack } rest rfl
      (toNat_sub_one_ge (by simpa using hti1)) (by show _ ≤ t.treeSize.toNat; rw [hts]; omega)
      (by show t.treeSize.toNat ≤ _; rw [hts]; omega) (by show t.nodes.length + _ ≤ _; rw [htn]; exact hn)
      (by simp only [List.length_cons]; omega)
    refine ⟨f', { u with dstack := ⟨true, BitVec.ofNat 9 (t.nodes.length + (2 * l.leafCount - 1) - 1)⟩ :: t.dstack },
      ?_, ?_, ?_, by simp [hm, htn, Frame.pending]⟩
    · rw [he, readTree_internal (by rw [hts]; omega) hti (by rw [hti]; simpa using hti1) (by omega), he',
        afterSubtree_left _ _ _ _ _ rfl]
      simp only [List.length_append, List.length_cons]
      congr 1; omega
    · have : t.treeSize.toNat ≤ f' + (bs.length + 1 + bl.length) := hf'
      rw [hts] at this
      simp only [List.length_append, List.length_cons]; omega
    · rw [hu]
      simp only
      rw [htr, show (1#32 : Word) = BitVec.ofNat 32 1 from rfl, sub_ofNat_assoc, sub_ofNat_assoc, ht]
      simp only [List.length_append, List.length_cons]
      rw [show 1 + bl.length = bl.length + 1 by omega]

/-- Attaching the last node of the arena needs a node for each pending node whose left subtree is done, up to the first
without one; with too few left in the arena it raises FMT_TREE_TOO_LARGE with 511, the arena full of the first of them. -/
theorem attach_full : ∀ (ds : List Frame) (i : Nat) (s : State), s.nodes.length = i + 1 → i + 1 ≤ 511 →
    511 < i + 1 + (completedBy i (ds.map Frame.pending)).length →
    attach (BitVec.ofNat 9 i) ds s = .raise .fmtTreeTooLarge 511#32
      { s with nodes := (s.nodes ++ completedBy i (ds.map Frame.pending)).take 511 }
  | [], _, s, _, h, hf => by simp [completedBy] at hf; omega
  | f :: ds, i, s, hi, h, hf => by
    rcases hl : f.hasLeft with _ | _
    · simp [hl, Frame.pending, completedBy] at hf; omega
    · have hc : completedBy i ((f :: ds).map Frame.pending)
          = internalNode 0#32 f.left (BitVec.ofNat 9 i) :: completedBy (i + 1) (ds.map Frame.pending) := by
        simp [Frame.pending, hl, completedBy, internalNode]
      rw [hc] at hf ⊢
      rw [List.length_cons] at hf
      rw [attach, if_pos hl]
      by_cases hn : s.nodes.length = 511
      · rw [allocNode_full hn, List.take_left' hn]; rfl
      · rw [allocNode_room hn, andThen_done, hi]
        rw [attach_full ds (i + 1) { s with nodes := s.nodes ++ [internalNode 0#32 f.left (BitVec.ofNat 9 i)] }
          (by simp [hi]) (by omega) (by omega)]
        simp

/-- Next() at the tree's last byte. -/
theorem treeByte_size {consumed : Nat} {s : State} (h : consumed = s.treeSize.toNat) :
    treeByte consumed s = .raise .fmtTreeSizeMismatch (BitVec.ofNat 32 consumed) s := by
  rw [treeByte, if_pos h]

/-- Next() at the end of the stream. -/
theorem treeByte_eos {consumed : Nat} {s : State} (h : consumed < s.treeSize.toNat) (h0 : s.inRem = 0#32) :
    treeByte consumed s = .raise .fmtTreeEos (BitVec.ofNat 32 consumed) s := by
  rw [treeByte, if_neg (by omega), if_pos h0]

/-- Where Next() raises in tag position, after a leaf's tag or after an escape, so does reading the tree. -/
theorem readTree_stops {part rest : List Byte} (hp : part ∈ [[], [0x31#8], [0x31#8, 0x5C#8]]) {fuel consumed : Nat}
    {s : State} {e : ErrKind} {arg : Word} (hfuel : s.treeSize.toNat ≤ fuel + consumed)
    (hin : s.inSeq = part ++ rest) (hrem : s.inSeq.length ≤ s.inRem.toNat)
    (hc : consumed + part.length ≤ s.treeSize.toNat)
    (he : treeByte (consumed + part.length)
        { s with inSeq := rest, inRem := s.inRem - BitVec.ofNat 32 part.length }
      = .raise e arg { s with inSeq := rest, inRem := s.inRem - BitVec.ofNat 32 part.length })
    (h0 : part = [] → consumed < s.treeSize.toNat ∨ (e = .fmtTreeSizeMismatch ∧ arg = BitVec.ofNat 32 consumed)) :
    readTree fuel consumed s
      = .raise e arg { s with inSeq := rest, inRem := s.inRem - BitVec.ofNat 32 part.length } := by
  simp only [List.mem_cons, List.not_mem_nil, or_false] at hp
  rcases hp with rfl | rfl | rfl
  · have hs : { s with inSeq := rest, inRem := s.inRem - BitVec.ofNat 32 ([] : List Byte).length } = s := by
      simp at hin; simp [← hin]
    rw [hs] at he ⊢
    rcases fuel with _ | fuel
    · rcases h0 rfl with h | ⟨rfl, rfl⟩
      · omega
      · rfl
    · rw [readTree, show consumed = consumed + ([] : List Byte).length from rfl, he]; rfl
  · simp only [List.length_singleton, List.singleton_append] at *
    obtain ⟨fuel, rfl⟩ : ∃ g, fuel = g + 1 := ⟨fuel - 1, by omega⟩
    rw [readTree_leaf (by omega) hin hrem, leafValue]
    rw [show (1#32 : Word) = BitVec.ofNat 32 1 from rfl, he]
    rfl
  · simp only [List.length_cons, List.length_nil, Nat.zero_add, List.cons_append, List.nil_append] at *
    obtain ⟨fuel, rfl⟩ : ∃ g, fuel = g + 1 := ⟨fuel - 1, by omega⟩
    have hl : rest.length + 1 + 1 ≤ s.inRem.toNat := by rw [hin] at hrem; simpa using hrem
    rw [readTree_leaf (by omega) hin hrem, leafValue, treeByte_cons (b := 0x5C#8) (rest := rest)
      (by show consumed + 1 < s.treeSize.toNat; omega) rfl (toNat_sub_one_ge (by simpa using hl)), andThen_done,
      if_pos (by rfl)]
    simp only [sub_one_one]
    rw [show (2#32 : Word) = BitVec.ofNat 32 2 from rfl, show consumed + 1 + 1 = consumed + (1 + 1) by omega, he]
    rfl

/-- A tag that is none. -/
theorem readTree_badTag {fuel consumed : Nat} {s : State} {x : Byte} {rest : List Byte} (hc : consumed < s.treeSize.toNat)
    (h : s.inSeq = x :: rest) (hr : s.inSeq.length ≤ s.inRem.toNat) (h0 : x ≠ 0x30#8) (h1 : x ≠ 0x31#8) :
    readTree (fuel + 1) consumed s = .raise .fmtBadTag (BitVec.ofNat 32 (consumed * 256 + x.toNat))
      { s with inSeq := rest, inRem := s.inRem - 1#32 } := by
  rw [readTree, treeByte_cons hc h hr, andThen_done, if_neg (by exact h0), if_pos (by exact h1)]
  rw [← Nat.shiftLeft_add_eq_or_of_lt x.isLt, Nat.shiftLeft_eq]

/-- A 256th pending internal node. -/
theorem readTree_stackFull {fuel consumed : Nat} {s : State} {rest : List Byte} (hc : consumed < s.treeSize.toNat)
    (h : s.inSeq = 0x30#8 :: rest) (hr : s.inSeq.length ≤ s.inRem.toNat) (hd : s.dstack.length = 255) :
    readTree (fuel + 1) consumed s = .raise .fmtTreeTooLarge (BitVec.ofNat 32 (consumed + 1))
      { s with inSeq := rest, inRem := s.inRem - 1#32 } := by
  rw [readTree, treeByte_cons hc h hr, andThen_done, if_pos (by decide), if_pos (by exact hd)]

/-- A leaf for which, with the internal nodes it completes, the arena has too little room. -/
theorem readTree_arenaFull {lf : List Byte} {v : Byte} (hlf : ReadsAs lf (.leaf v)) {fuel consumed : Nat} {s : State}
    {rest : List Byte} {fs : List (Option NodeIdx)} {all : List Node} (hf : s.treeSize.toNat ≤ fuel + consumed)
    (hc : consumed + lf.length ≤ s.treeSize.toNat) (h : s.inSeq = lf ++ rest) (hr : s.inSeq.length ≤ s.inRem.toNat)
    (hn : s.nodes.length ≤ 511) (hd : s.dstack.map Frame.pending = fs)
    (hall : all = s.nodes ++ (CodeTree.leaf v).entries s.nodes.length ++ completedBy s.nodes.length fs)
    (hfull : 511 < all.length) :
    readTree fuel consumed s = .raise .fmtTreeTooLarge 511#32
      { s with nodes := all.take 511, inSeq := rest, inRem := s.inRem - BitVec.ofNat 32 lf.length } := by
  have hlen : all.length = s.nodes.length + 1 + (completedBy s.nodes.length fs).length := by
    rw [hall]; simp only [List.length_append, CodeTree.entries, List.length_singleton]
  have key : ∀ (c : Nat) (s₂ : State), s₂.nodes = s.nodes → s₂.dstack = s.dstack → ∀ f : Nat,
      ((allocNode (leafNode v 0#32) .fmtTreeTooLarge s₂).andThen fun n s₃ => afterSubtree f c n s₃.dstack s₃)
        = .raise .fmtTreeTooLarge 511#32 { s₂ with nodes := all.take 511 } := by
    intro c s₂ h1 h2 f
    by_cases h511 : s₂.nodes.length = 511
    · rw [allocNode_full h511, hall, List.append_assoc, List.take_left' (h1 ▸ h511), ← h1]; rfl
    · rw [allocNode_room h511, andThen_done, afterSubtree]
      rw [h1] at h511
      have := attach_full s₂.dstack s₂.nodes.length { s₂ with nodes := s₂.nodes ++ [leafNode v 0#32] } (by simp)
        (by rw [h1]; omega) (by rw [h1, h2, hd]; omega)
      rw [this, h1, h2, hd, hall]
      rfl
  cases hlf with
  | plain v hv =>
    simp only [List.length_cons, List.length_nil, Nat.zero_add, List.cons_append, List.nil_append] at *
    obtain ⟨fuel, rfl⟩ : ∃ g, fuel = g + 1 := ⟨fuel - 1, by omega⟩
    have hl : rest.length + 1 + 1 ≤ s.inRem.toNat := by rw [h] at hr; simpa using hr
    rw [readTree_leaf (by omega) h hr,
      leafValue_plain (s := { s with inSeq := _, inRem := _ }) hv (by show consumed + 1 < s.treeSize.toNat; omega) rfl
        (toNat_sub_one_ge (by simpa using hl)), andThen_done, sub_one_one]
    exact key (consumed + 1 + 1) { s with inSeq := rest, inRem := s.inRem - 2#32 } rfl rfl fuel
  | escaped v =>
    simp only [List.length_cons, List.length_nil, Nat.zero_add, List.cons_append, List.nil_append] at *
    obtain ⟨fuel, rfl⟩ : ∃ g, fuel = g + 1 := ⟨fuel - 1, by omega⟩
    have hl : rest.length + 1 + 1 + 1 ≤ s.inRem.toNat := by rw [h] at hr; simpa using hr
    rw [readTree_leaf (by omega) h hr,
      leafValue_escaped (s := { s with inSeq := _, inRem := _ }) (by show consumed + 1 + 1 < s.treeSize.toNat; omega) rfl
        (toNat_sub_one_ge (by simpa using hl)), andThen_done, sub_one_two]
    exact key (consumed + 1 + 2) { s with inSeq := rest, inRem := s.inRem - 3#32 } rfl rfl fuel

/-! ### Whatever the bytes are -/

/-- The frames' left subtrees are allocated. -/
def FramesOk (nodes : List Node) (ds : List Frame) : Prop := ∀ f ∈ ds, f.hasLeft = true → f.left.toNat < nodes.length

theorem FramesOk.grow {nodes nodes' : List Node} {ds : List Frame} (h : FramesOk nodes ds)
    (hp : nodes <+: nodes') : FramesOk nodes' ds :=
  fun f hf hl => Nat.lt_of_lt_of_le (h f hf hl) hp.length_le

/-- What the arena and the frames keep while a tree is read. -/
structure ReadOk (s : State) : Prop where
  room : s.nodes.length ≤ 511
  arena : ArenaOk s.nodes
  frames : FramesOk s.nodes s.dstack

theorem attach_sat : ∀ (ds : List Frame) (n : NodeIdx) (s : State), s.nodes.length ≤ 511 → ArenaOk s.nodes →
    FramesOk s.nodes ds → n.toNat < s.nodes.length →
    (attach n ds s).Sat
      (fun root t => t = { s with nodes := t.nodes, dstack := t.dstack } ∧ ReadOk t
        ∧ ∀ r, root = some r → r.toNat < t.nodes.length ∧ t.dstack = [])
      (fun e _ t => e = .fmtTreeTooLarge ∧ t = { s with nodes := t.nodes, dstack := t.dstack }
        ∧ t.nodes.length ≤ 511 ∧ ArenaOk t.nodes)
      (fun _ => False) False
  | [], n, s, hr, ha, _, hn => by
    refine ⟨rfl, ⟨hr, ha, fun f hf => by simp at hf⟩, ?_⟩
    rintro r ⟨⟩
    exact ⟨hn, rfl⟩
  | f :: ds, n, s, hr, ha, hf, hn => by
    rw [attach]
    split
    · rename_i hl
      by_cases hfull : s.nodes.length = 511
      · rw [allocNode_full hfull]
        exact ⟨rfl, rfl, hr, ha⟩
      · rw [allocNode_room hfull, andThen_done]
        have hpre : s.nodes <+: s.nodes ++ [internalNode 0#32 f.left n] := List.prefix_append _ _
        refine (attach_sat ds _ _ ?_ ?_ ?_ ?_).mono ?_ ?_ (fun _ h => h) id
        · simp; omega
        · exact ha.internal 0#32 (hf f (by simp) hl) hn
        · exact FramesOk.grow (fun g hg => hf g (by simp [hg])) hpre
        · simp [BitVec.toNat_ofNat]; omega
        · rintro root t ⟨ht, hok⟩; exact ⟨by rw [ht], hok⟩
        · rintro e _ t ⟨he, ht, hok⟩; exact ⟨he, by rw [ht], hok⟩
    · refine ⟨rfl, ⟨hr, ha, ?_⟩, fun r h => by cases h⟩
      intro g hg hl
      rcases List.mem_cons.1 hg with rfl | hg
      · exact hn
      · exact hf g (by simp [hg]) hl

theorem treeByte_sat (consumed : Nat) (s : State) :
    (treeByte consumed s).Sat
      (fun _ t => t = { s with inSeq := t.inSeq, inRem := t.inRem } ∧ Consumed s t)
      (fun e _ t => (e = .fmtTreeSizeMismatch ∨ e = .fmtTreeEos) ∧ t = s)
      (fun t => t = s ∧ s.inSeq = [] ∧ s.inRem ≠ 0#32) False := by
  rw [treeByte]
  split_ifs with h1 h2
  · exact ⟨.inl rfl, rfl⟩
  · exact ⟨.inr rfl, rfl⟩
  · exact (inRead_consumed s h2).mono (fun _ _ h => h) (fun _ _ _ h => h.elim) (fun _ h => h) id

theorem leafValue_sat (consumed : Nat) (s : State) :
    (leafValue consumed s).Sat
      (fun _ t => t = { s with inSeq := t.inSeq, inRem := t.inRem } ∧ Consumed s t)
      (fun e _ t => (e = .fmtTreeSizeMismatch ∨ e = .fmtTreeEos) ∧ t = { s with inSeq := t.inSeq, inRem := t.inRem }
        ∧ Consumed s t)
      (fun t => t = { s with inSeq := t.inSeq, inRem := t.inRem } ∧ Starved s) False := by
  rw [leafValue]
  refine Run.Sat.andThen (Q := fun _ t => t = { s with inSeq := t.inSeq, inRem := t.inRem } ∧ Consumed s t)
    ((treeByte_sat consumed s).mono (fun _ _ h => h) ?_ ?_ id) ?_
  · rintro e _ t ⟨he, rfl⟩; exact ⟨he, rfl, .refl _⟩
  · rintro t ⟨rfl, h1, h2⟩; exact ⟨rfl, starved_of_empty h1 h2⟩
  · rintro v t ⟨ht, hct⟩
    split
    · refine Run.Sat.andThen (Q := fun _ u => u = { s with inSeq := u.inSeq, inRem := u.inRem } ∧ Consumed s u)
        ((treeByte_sat _ t).mono ?_ ?_ ?_ id) ?_
      · rintro _ u ⟨hu, hcu⟩; exact ⟨by rw [hu, ht], hct.trans hcu⟩
      · rintro e _ u ⟨he, rfl⟩; exact ⟨he, ht, hct⟩
      · rintro u ⟨rfl, h1, h2⟩; exact ⟨ht, hct.starved (starved_of_empty h1 h2)⟩
      · rintro v' u h; exact h
    · exact ⟨ht, hct⟩

/-- Everything reading a tree can do: it grows the arena, consumes the stream, and ends with a root it allocated, with
one of four errors, or waiting for a byte. -/
theorem readTree_sat : ∀ (fuel consumed : Nat) (s : State), ReadOk s →
    (readTree fuel consumed s).Sat
      (fun _ t => t = { s with
          nodes := t.nodes, root := t.root, buCur := t.root, result := t.root.setWidth 32, dstack := []
          inSeq := t.inSeq, inRem := t.inRem }
        ∧ Consumed s t ∧ t.nodes.length ≤ 511 ∧ ArenaOk t.nodes ∧ t.root.toNat < t.nodes.length)
      (fun e _ t => e ∈ [ErrKind.fmtBadTag, .fmtTreeSizeMismatch, .fmtTreeEos, .fmtTreeTooLarge]
        ∧ t = { s with nodes := t.nodes, dstack := t.dstack, inSeq := t.inSeq, inRem := t.inRem }
        ∧ Consumed s t ∧ t.nodes.length ≤ 511 ∧ ArenaOk t.nodes)
      (fun t => t.outSeq = s.outSeq ∧ Starved s) False
  | 0, consumed, s, hs => by
    exact ⟨by simp, rfl, .refl _, hs.room, hs.arena⟩
  | fuel + 1, consumed, s, hs => by
    rw [readTree]
    refine Run.Sat.andThen (Q := fun _ t => t = { s with inSeq := t.inSeq, inRem := t.inRem } ∧ Consumed s t)
      ((treeByte_sat consumed s).mono (fun _ _ h => h) ?_ ?_ id) ?_
    · rintro e _ t ⟨he, rfl⟩
      exact ⟨by rcases he with rfl | rfl <;> simp, rfl, .refl _, hs.room, hs.arena⟩
    · rintro t ⟨rfl, h1, h2⟩; exact ⟨rfl, starved_of_empty h1 h2⟩
    · rintro tag s₁ ⟨h1, hc1⟩
      have hn1 : s₁.nodes = s.nodes := by rw [h1]
      have hd1 : s₁.dstack = s.dstack := by rw [h1]
      have ho1 : s₁.outSeq = s.outSeq := by rw [h1]
      split_ifs with htag hfull hbad
      · exact ⟨by simp, by rw [h1], hc1, by rw [hn1]; exact hs.room, by rw [hn1]; exact hs.arena⟩
      · refine (readTree_sat fuel _ _ ⟨?_, ?_, ?_⟩).mono ?_ ?_ ?_ id
        · show s₁.nodes.length ≤ 511; rw [hn1]; exact hs.room
        · show ArenaOk s₁.nodes; rw [hn1]; exact hs.arena
        · intro f hf hl
          rcases List.mem_cons.1 hf with rfl | hf
          · simp at hl
          · rw [show _ = s₁.nodes from rfl, hn1]
            exact hs.frames f (hd1 ▸ hf) hl
        · rintro _ t ⟨ht, hct, hok⟩
          exact ⟨by rw [ht, h1], hc1.trans hct.from_eq, hok⟩
        · rintro e _ t ⟨he, ht, hct, hok⟩
          exact ⟨he, by rw [ht, h1], hc1.trans hct.from_eq, hok⟩
        · rintro t ⟨ho, hst⟩
          exact ⟨ho.trans ho1, hc1.starved hst⟩
      · exact ⟨by simp, by rw [h1], hc1, by rw [hn1]; exact hs.room, by rw [hn1]; exact hs.arena⟩
      · refine Run.Sat.andThen (Q := fun _ t => t = { s with inSeq := t.inSeq, inRem := t.inRem } ∧ Consumed s t)
          ((leafValue_sat _ s₁).mono ?_ ?_ ?_ id) ?_
        · rintro _ t ⟨ht, hct⟩; exact ⟨by rw [ht, h1], hc1.trans hct⟩
        · rintro e _ t ⟨he, ht, hct⟩
          have hn : t.nodes = s.nodes := by rw [ht, h1]
          exact ⟨by rcases he with rfl | rfl <;> simp, by rw [ht, h1], hc1.trans hct, by rw [hn]; exact hs.room,
            by rw [hn]; exact hs.arena⟩
        · rintro t ⟨ht, hst⟩; exact ⟨by rw [ht, h1], hc1.starved hst⟩
        · rintro vc s₂ ⟨h2, hc2⟩
          have hn2 : s₂.nodes = s.nodes := by rw [h2]
          by_cases hroom : s₂.nodes.length = 511
          · rw [allocNode_full hroom]
            exact ⟨by simp, by rw [h2], hc2, by rw [hn2]; exact hs.room, by rw [hn2]; exact hs.arena⟩
          · rw [allocNode_room hroom, andThen_done]
            have hr := hs.room
            have hlen : (s₂.nodes ++ [leafNode vc.1 0#32]).length = s.nodes.length + 1 := by simp [hn2]
            have hat := attach_sat s₂.dstack (BitVec.ofNat 9 s₂.nodes.length)
              { s₂ with nodes := s₂.nodes ++ [leafNode vc.1 0#32] }
              (by show (s₂.nodes ++ [leafNode vc.1 0#32]).length ≤ 511; rw [hn2] at hroom; omega)
              (by show ArenaOk (s₂.nodes ++ [leafNode vc.1 0#32]); rw [hn2]; exact hs.arena.leaf _ _)
              (by
                show FramesOk (s₂.nodes ++ [leafNode vc.1 0#32]) s₂.dstack
                rw [show s₂.dstack = s.dstack by rw [h2], hn2]
                exact hs.frames.grow (List.prefix_append _ _))
              (by
                show _ < (s₂.nodes ++ [leafNode vc.1 0#32]).length
                rw [hlen, hn2, BitVec.toNat_ofNat]; omega)
            refine Run.Sat.andThen (Q := fun root t => t = { s with
                nodes := t.nodes, dstack := t.dstack, inSeq := t.inSeq, inRem := t.inRem } ∧ Consumed s t ∧ ReadOk t
                ∧ ∀ r, root = some r → r.toNat < t.nodes.length ∧ t.dstack = []) (hat.mono ?_ ?_ (fun _ h => h.elim) id) ?_
            · rintro root t ⟨ht, hok⟩
              exact ⟨by rw [ht, h2], hc2.to_eq (by rw [ht]) (by rw [ht]), hok⟩
            · rintro e _ t ⟨he, ht, hok⟩
              exact ⟨by simp [he], by rw [ht, h2], hc2.to_eq (by rw [ht]) (by rw [ht]), hok⟩
            · rintro root t ⟨ht, hct, hok, hroot⟩
              rcases root with _ | r
              · simp only
                refine (readTree_sat fuel _ t hok).mono ?_ ?_ ?_ id
                · rintro _ u ⟨hu, hcu, hok'⟩
                  exact ⟨by rw [hu, ht], hct.trans hcu, hok'⟩
                · rintro e _ u ⟨he, hu, hcu, hok'⟩
                  exact ⟨he, by rw [hu, ht], hct.trans hcu, hok'⟩
                · rintro u ⟨ho, hst⟩
                  exact ⟨by rw [ho, ht], hct.starved hst⟩
              · obtain ⟨hr', hd'⟩ := hroot r rfl
                simp only [endTree]
                split_ifs
                · exact ⟨by simp, by rw [ht], hct, hok.room, hok.arena⟩
                · refine ⟨?_, hct.to_eq rfl rfl, hok.room, hok.arena, hr'⟩
                  show { t with root := r, buCur := r, result := r.setWidth 32 } = _
                  rw [ht]
                  simp only
                  rw [hd']

end Sys2Proof.Machine
end

