-- ==== Sys2Proof/Laws/Packer.lean ====
section
/-! SUPPORT. The packer as a stream of bits: what is sent when a bit, a code or a stream of bytes is added
(46_bit_packer R122, R123, R128). -/

namespace Sys2Proof.Machine

/-- A bit as a Boolean. -/
def bitTrue (x : BitVec 1) : Bool := x == 1#1

/-- From `s` to `t` the packer sent `bits`, and nothing else changed but its accumulator and the OUT stream. -/
structure Sent (s : State) (bits : List Bool) (t : State) : Prop where
  sent : sentBits t = sentBits s ++ bits
  frame : t = { s with acc := t.acc, cnt := t.cnt, outSeq := t.outSeq, outCount := t.outCount }
  prefix_out : s.outSeq <+: t.outSeq
  count : t.outCount = s.outCount + BitVec.ofNat 32 (t.outSeq.length - s.outSeq.length)

theorem Sent.refl (s : State) : Sent s [] s := ⟨by simp, rfl, List.prefix_rfl, by simp⟩

theorem Sent.trans {s t u : State} {xs ys : List Bool} (h : Sent s xs t) (h' : Sent t ys u) : Sent s (xs ++ ys) u := by
  refine ⟨?_, ?_, h.prefix_out.trans h'.prefix_out, ?_⟩
  · rw [h'.sent, h.sent, List.append_assoc]
  · rw [h'.frame, h.frame]
  · have h1 := h.prefix_out.length_le
    have h2 := h'.prefix_out.length_le
    rw [h'.count, h.count, BitVec.add_assoc, ← BitVec.ofNat_add]
    congr 2; omega

theorem Sent.outRoom {s t : State} {xs : List Bool} (h : Sent s xs t) : t.outRoom = s.outRoom := by rw [h.frame]
theorem Sent.code {s t : State} {xs : List Bool} (h : Sent s xs t) : t.code = s.code := by rw [h.frame]
theorem Sent.len {s t : State} {xs : List Bool} (h : Sent s xs t) : t.len = s.len := by rw [h.frame]

theorem bitsOf_append (xs ys : List Byte) : bitsOf (xs ++ ys) = bitsOf xs ++ bitsOf ys := by simp [bitsOf]

theorem bitsOf_singleton (b : Byte) : bitsOf [b] = byteBits b := by simp [bitsOf]

theorem shiftIn_getLsbD (acc : Byte) (x : BitVec 1) (i : Nat) :
    (shiftIn acc x).getLsbD i = if i = 0 then bitTrue x else decide (i < 8) && acc.getLsbD (i - 1) := by
  have hx : x = 0#1 ∨ x = 1#1 := by bv_omega
  rcases i with _ | i
  · rcases hx with rfl | rfl <;> simp [shiftIn, bitTrue]
  · rcases hx with rfl | rfl <;> simp [shiftIn, BitVec.getLsbD_shiftLeft, BitVec.getLsbD_one]

/-- The bits held after one more. -/
theorem held_shiftIn (acc : Byte) (x : BitVec 1) (n : Nat) (hn : n < 8) :
    ((List.range (n + 1)).reverse.map fun i => (shiftIn acc x).getLsbD i)
      = ((List.range n).reverse.map fun i => acc.getLsbD i) ++ [bitTrue x] := by
  have h : ((List.range (n + 1)).map fun i => (shiftIn acc x).getLsbD i)
      = bitTrue x :: ((List.range n).map fun i => acc.getLsbD i) := by
    rw [List.range_succ_eq_map, List.map_cons, List.map_map]
    congr 1
    · exact shiftIn_getLsbD acc x 0
    · refine List.map_congr_left fun i hi => ?_
      have : i + 1 < 8 := by have := List.mem_range.1 hi; omega
      simp [shiftIn_getLsbD, this]
  rw [List.map_reverse, h, List.reverse_cons, List.map_reverse]

theorem byteBits_eq (b : Byte) : byteBits b = (List.range 8).reverse.map fun i => b.getLsbD i := rfl

/-- AddBit, where the host accepts the byte (R122). -/
theorem addBit_open (x : BitVec 1) (s : State) (h : s.outRoom = none) :
    ∃ t, addBit x s = .done () t ∧ Sent s [bitTrue x] t := by
  rw [addBit]
  by_cases hc : s.cnt = 7#3
  · rw [if_pos hc, emit_open _ h, andThen_done]
    refine ⟨_, rfl, ⟨?_, rfl, List.prefix_append _ _, ?_⟩⟩
    · have := held_shiftIn s.acc x 7 (by omega)
      simp only [sentBits, heldBits, putByte, hc, bitsOf_append, bitsOf_singleton, byteBits_eq]
      simp only [BitVec.toNat_ofNat, List.append_assoc]
      rw [show 7 % 2 ^ 3 = 7 from rfl, this]
      simp
    · simp [putByte]
  · rw [if_neg hc]
    refine ⟨_, rfl, ⟨?_, rfl, List.prefix_rfl, by simp⟩⟩
    have hlt : s.cnt.toNat < 7 := by bv_omega
    have hs : (s.cnt + 1#3).toNat = s.cnt.toNat + 1 := by bv_omega
    simp only [sentBits, heldBits, hs, List.append_assoc]
    rw [held_shiftIn _ _ _ (by omega)]

theorem bitTrue_extract (c : Word) (n : Nat) : bitTrue (c.extractLsb' n 1) = c.getLsbD n := by
  rw [bitTrue]
  have : c.extractLsb' n 1 = BitVec.ofBool (c.getLsbD n) := by
    ext i hi
    have : i = 0 := by omega
    subst this
    simp
  rw [this]
  cases c.getLsbD n <;> rfl

theorem addBits_open (c : Word) : ∀ (n : Nat) (s : State), s.outRoom = none →
    ∃ t, addBits c n s = .done () t ∧ Sent s ((List.range n).reverse.map fun i => c.getLsbD i) t
  | 0, s, _ => ⟨s, rfl, .refl s⟩
  | n + 1, s, h => by
    obtain ⟨t, he, ht⟩ := addBit_open (c.extractLsb' n 1) s h
    obtain ⟨u, he', hu⟩ := addBits_open c n t (ht.outRoom.trans h)
    refine ⟨u, by rw [addBits, he, andThen_done, he'], ?_⟩
    have := ht.trans hu
    rwa [bitTrue_extract, show [c.getLsbD n] ++ (List.range n).reverse.map (fun i => c.getLsbD i)
      = (List.range (n + 1)).reverse.map fun i => c.getLsbD i by simp [List.range_succ]] at this

/-- Encode(b) sends the code of `b` (R123). -/
theorem encodeSym_open (b : Byte) (s : State) (hl : lenAt s b ≠ 0#6) (h : s.outRoom = none) :
    ∃ t, encodeSym b s = .done () t ∧ Sent s (codeBits s b) t := by
  rw [encodeSym, if_neg hl]
  exact addBits_open _ _ s h

theorem encodeSym_noCode {b : Byte} {s : State} (hl : lenAt s b = 0#6) :
    encodeSym b s = .raise .noCode (b.setWidth 32) s := by
  rw [encodeSym, if_pos hl]

/-- What the IN stream holds plays no part in what is sent. -/
theorem Sent.setIn {s t : State} {xs : List Bool} (h : Sent s xs t) (bytes : List Byte) (v : Word) :
    Sent { s with inSeq := bytes, inRem := v } xs { t with inSeq := bytes, inRem := v } :=
  ⟨h.sent, by rw [h.frame], h.prefix_out, h.count⟩

/-- The stream's loop over bytes that all have a code (R128). -/
theorem encodeStream_codes : ∀ (bs rest : List Byte) (fuel k : Nat) (s : State), s.inSeq = bs ++ rest →
    s.outRoom = none → (∀ b ∈ bs, lenAt s b ≠ 0#6) →
    ∃ t, encodeStream (bs.length + fuel) k s = encodeStream fuel (k + bs.length) t
      ∧ t.inSeq = rest ∧ t.inRem = s.inRem - BitVec.ofNat 32 bs.length
      ∧ Sent { s with inSeq := rest, inRem := s.inRem - BitVec.ofNat 32 bs.length } (bs.flatMap (codeBits s)) t
  | [], rest, fuel, k, s, hin, _, _ => by
    simp only [List.nil_append] at hin
    refine ⟨s, by simp, hin, by simp, ?_⟩
    have : { s with inSeq := rest, inRem := s.inRem - BitVec.ofNat 32 ([] : List Byte).length } = s := by
      simp [← hin]
    rw [this]
    exact .refl s
  | b :: bs, rest, fuel, k, s, hin, h, hl => by
    obtain ⟨t, he, ht⟩ := encodeSym_open b { s with inSeq := bs ++ rest, inRem := s.inRem - 1#32 }
      (hl b (by simp)) h
    have hlen : t.len = s.len := ht.len
    have hcode : t.code = s.code := ht.code
    have hbits : codeBits t = codeBits s := by funext c; simp [codeBits, lenAt, codeAt, hlen, hcode]
    obtain ⟨u, he', hi, hr, hu⟩ := encodeStream_codes bs rest fuel (k + 1) t (by rw [ht.frame]) (ht.outRoom.trans h)
      (fun c hc => by rw [lenAt]; simp only [hlen]; exact hl c (by simp [hc]))
    have hrem : t.inRem - BitVec.ofNat 32 bs.length = s.inRem - BitVec.ofNat 32 (bs.length + 1) := by
      rw [show t.inRem = s.inRem - 1#32 by rw [ht.frame], BitVec.ofNat_add]; bv_omega
    refine ⟨u, ?_, hi, by rw [hr, hrem, List.length_cons], ?_⟩
    · have hin' : s.inSeq = b :: (bs ++ rest) := hin
      rw [show (b :: bs).length + fuel = (bs.length + fuel) + 1 by simp; omega, encodeStream, inRead_cons hin',
        andThen_done, he, andThen_done, he', List.length_cons]
      congr 1; omega
    · rw [hrem, hbits] at hu
      exact (ht.setIn rest (s.inRem - BitVec.ofNat 32 (bs.length + 1))).trans hu

/-! ### Whatever the host accepts -/

/-- From `s` to `t` only bits were added: the accumulator and the OUT stream. -/
structure BitsOut (s t : State) : Prop where
  frame : t = { s with
    acc := t.acc, cnt := t.cnt, outSeq := t.outSeq, outCount := t.outCount, outRoom := t.outRoom }
  prefix_out : s.outSeq <+: t.outSeq
  fits : s.acc.toNat < 2 ^ s.cnt.toNat → t.acc.toNat < 2 ^ t.cnt.toNat
  room : s.outRoom = none → t.outRoom = none

theorem BitsOut.refl (s : State) : BitsOut s s := ⟨rfl, List.prefix_rfl, id, id⟩

theorem BitsOut.trans {s t u : State} (h : BitsOut s t) (h' : BitsOut t u) : BitsOut s u :=
  ⟨by rw [h'.frame, h.frame], h.prefix_out.trans h'.prefix_out, h'.fits ∘ h.fits, h'.room ∘ h.room⟩

/-- Where bits wait, the host does not accept every byte. -/
def BitsWait (s t : State) : Prop := BitsOut s t ∧ s.outRoom ≠ none

theorem BitsWait.before {s t u : State} (h : BitsOut s t) (h' : BitsWait t u) : BitsWait s u :=
  ⟨h.trans h'.1, fun hs => h'.2 (h.room hs)⟩

/-- From `s` to `t` a packer command changed only what it may: the accumulator, the OUT stream and the IN stream. -/
structure Packed (s t : State) : Prop where
  frame : t = { s with
    acc := t.acc, cnt := t.cnt, outSeq := t.outSeq, outCount := t.outCount, outRoom := t.outRoom
    inSeq := t.inSeq, inRem := t.inRem }
  prefix_out : s.outSeq <+: t.outSeq
  consumed : Consumed s t
  fits : s.acc.toNat < 2 ^ s.cnt.toNat → t.acc.toNat < 2 ^ t.cnt.toNat
  room : s.outRoom = none → t.outRoom = none

theorem Packed.refl (s : State) : Packed s s := ⟨rfl, List.prefix_rfl, .refl s, id, id⟩

theorem Packed.trans {s t u : State} (h : Packed s t) (h' : Packed t u) : Packed s u :=
  ⟨by rw [h'.frame, h.frame], h.prefix_out.trans h'.prefix_out, h.consumed.trans h'.consumed, h'.fits ∘ h.fits,
    h'.room ∘ h.room⟩

theorem BitsOut.inRem {s t : State} (h : BitsOut s t) : t.inRem = s.inRem := by rw [h.frame]

theorem BitsOut.packed {s t : State} (h : BitsOut s t) : Packed s t :=
  ⟨by rw [h.frame], h.prefix_out, (Consumed.refl s).to_eq (by rw [h.frame]) h.inRem, h.fits, h.room⟩

/-- Where a packer command waits, the host has not kept a duty. -/
def PackWait (s t : State) : Prop := Packed s t ∧ (s.outRoom ≠ none ∨ Starved s)

theorem PackWait.before {s t u : State} (h : Packed s t) (h' : PackWait t u) : PackWait s u :=
  ⟨h.trans h'.1, h'.2.imp (fun hr hs => hr (h.room hs)) h.consumed.starved⟩

theorem emit_bitsOut (b : Byte) (s : State) :
    (emit b s).Sat (fun _ t => BitsOut s t) (fun _ _ _ => False) (fun t => BitsWait s t) False := by
  refine (emit_sat b s).mono ?_ (fun _ _ _ h => h) ?_ id
  · rintro _ t ⟨room, rfl, hr⟩
    exact ⟨rfl, List.prefix_append _ _, id, hr⟩
  · rintro t ⟨h, rfl⟩
    exact ⟨.refl _, by simp [h]⟩

theorem shiftIn_lt {acc : Byte} {x : BitVec 1} {n : Nat} (h : acc.toNat < 2 ^ n) :
    (shiftIn acc x).toNat < 2 ^ (n + 1) := by
  have hx : x = 0#1 ∨ x = 1#1 := by bv_omega
  have h1 : (acc <<< 1).toNat ≤ 2 * acc.toNat := by
    rw [BitVec.toNat_shiftLeft, Nat.shiftLeft_eq]; omega
  rw [Nat.pow_succ]
  rcases hx with rfl | rfl
  · simp only [shiftIn, BitVec.setWidth_zero, BitVec.or_zero]
    omega
  · have h2 : (shiftIn acc 1#1) = acc <<< 1 + 1#8 := by
      rw [shiftIn, BitVec.add_eq_or_of_and_eq_zero]
      · rfl
      · ext i hi
        rcases i with _ | i <;> simp [BitVec.getElem_one]
    rw [h2, BitVec.toNat_add]
    simp only [BitVec.toNat_ofNat]
    omega

theorem addBit_bitsOut (x : BitVec 1) (s : State) :
    (addBit x s).Sat (fun _ t => BitsOut s t) (fun _ _ _ => False) (fun t => BitsWait s t) False := by
  rw [addBit]
  split
  · refine Run.Sat.andThen (emit_bitsOut _ s) ?_
    rintro _ t ht
    exact ⟨by rw [ht.frame], ht.prefix_out, fun _ => by simp, ht.room⟩
  · rename_i hc
    refine ⟨rfl, List.prefix_rfl, fun h => ?_, id⟩
    have hs : (s.cnt + 1#3).toNat = s.cnt.toNat + 1 := by bv_omega
    show (shiftIn s.acc x).toNat < 2 ^ (s.cnt + 1#3).toNat
    rw [hs]
    exact shiftIn_lt h

theorem addBits_bitsOut (c : Word) : ∀ (n : Nat) (s : State),
    (addBits c n s).Sat (fun _ t => BitsOut s t) (fun _ _ _ => False) (fun t => BitsWait s t) False
  | 0, s => .refl s
  | n + 1, s => by
    rw [addBits]
    refine Run.Sat.andThen (addBit_bitsOut _ s) fun _ t ht => (addBits_bitsOut c n t).mono ?_ (fun _ _ _ h => h) ?_ id
    · exact fun _ u hu => ht.trans hu
    · exact fun u hu => BitsWait.before ht hu

/-- Encode(b) only adds bits, or raises NO_CODE before any. -/
theorem encodeSym_bitsOut (b : Byte) (s : State) :
    (encodeSym b s).Sat (fun _ t => BitsOut s t) (fun e _ t => e = .noCode ∧ t = s) (fun t => BitsWait s t) False := by
  rw [encodeSym]
  split
  · exact ⟨rfl, rfl⟩
  · exact (addBits_bitsOut _ _ s).mono (fun _ _ h => h) (fun _ _ _ h => h.elim) (fun _ h => h) id

/-- Everything the stream's loop can do. -/
theorem encodeStream_packed : ∀ (fuel k : Nat) (s : State), fuel ≤ s.inRem.toNat →
    (encodeStream fuel k s).Sat (fun _ t => Packed s t) (fun e _ t => e = .noCode ∧ Packed s t)
      (fun t => PackWait s t) False
  | 0, k, s, _ => .refl s
  | fuel + 1, k, s, hf => by
    rw [encodeStream]
    have h0 : s.inRem ≠ 0#32 := by rintro h; rw [h] at hf; simp at hf
    refine Run.Sat.andThen (Q := fun _ t => Packed s t ∧ fuel ≤ t.inRem.toNat) ?_ fun b s₁ ⟨h1, hf1⟩ => ?_
    · rcases hin : s.inSeq with _ | ⟨b, rest⟩
      · rw [inRead_nil hin]
        exact ⟨.refl s, .inr (starved_of_empty hin h0)⟩
      · have hc := inRead_consumed s h0
        rw [inRead_cons hin] at hc ⊢
        exact ⟨⟨rfl, List.prefix_rfl, hc.2, id, id⟩, by show fuel ≤ (s.inRem - 1#32).toNat; bv_omega⟩
    · refine Run.Sat.andThen (Q := fun _ t => Packed s t ∧ fuel ≤ t.inRem.toNat)
        ((encodeSym_bitsOut b s₁).mono ?_ ?_ ?_ id) fun _ s₂ ⟨h2, hf2⟩ => ?_
      · exact fun _ t ht => ⟨h1.trans ht.packed, by rw [ht.inRem]; exact hf1⟩
      · rintro e _ t ⟨he, rfl⟩; exact ⟨he, h1⟩
      · exact fun t ht => ⟨h1.trans ht.1.packed, .inl fun hs => ht.2 (h1.room hs)⟩
      · refine (encodeStream_packed fuel _ s₂ hf2).mono ?_ ?_ ?_ id
        · exact fun _ t ht => h2.trans ht
        · exact fun e _ t ⟨he, ht⟩ => ⟨he, h2.trans ht⟩
        · exact fun t ht => PackWait.before h2 ht

end Sys2Proof.Machine
end

