-- ==== Sys2Proof/Laws/Serializer.lean ====
section
/-! SUPPORT. The serializing walk reads the tree's serialized form (44_tree_serializer R112, R113), and the payload's
bit count as a sum over the byte values (R115). -/

namespace Sys2Proof.Machine

theorem leafBytes_eq_writtenLeaf (sym : Byte) : leafBytes sym = writtenLeaf sym := rfl

/-- The walk gives the front of the serialized forms of its nodes' trees: all of it, or at least one byte a visit. -/
theorem serWalk_prefix (nodes : List Node) : ∀ (fuel : Nat) (todo : List NodeIdx) (Ts : List CodeTree),
    Forest nodes todo Ts →
    ∃ rest, Ts.flatMap CodeTree.bytes = serWalk nodes fuel todo ++ rest
      ∧ (rest = [] ∨ fuel ≤ (serWalk nodes fuel todo).length)
  | 0, _, Ts, _ => ⟨Ts.flatMap CodeTree.bytes, by simp [serWalk]⟩
  | fuel + 1, [], _, h => by
    cases h
    exact ⟨[], by simp [serWalk]⟩
  | fuel + 1, i :: todo, _, h => by
    cases h with
    | cons hT hF =>
      rename_i T Ts
      cases hT with
      | leaf _ n hn hl =>
        obtain ⟨rest, he, hr⟩ := serWalk_prefix nodes fuel todo Ts hF
        refine ⟨rest, ?_, ?_⟩
        · simp [serWalk, nodeIn_of_getElem? hn, hl, he, CodeTree.bytes, leafBytes_eq_writtenLeaf]
        · simp only [serWalk, nodeIn_of_getElem? hn, hl, if_true, List.length_append]
          have : 1 ≤ (leafBytes n.sym).length := by simp only [leafBytes]; split <;> simp
          exact hr.imp id fun h => by omega
      | node _ n l r hn hl hL hR =>
        obtain ⟨rest, he, hr⟩ := serWalk_prefix nodes fuel (n.left :: n.right :: todo) (l :: r :: Ts)
          (.cons hL (.cons hR hF))
        refine ⟨rest, ?_, ?_⟩
        · simp only [List.flatMap_cons] at he
          simp [serWalk, nodeIn_of_getElem? hn, hl, CodeTree.bytes, Config.tagInternal, ← he]
        · simp only [serWalk, nodeIn_of_getElem? hn, hl, Bool.false_eq_true, if_false, List.length_cons]
          exact hr.imp id fun h => by omega

/-- Ser and its saturated size, for the tree at an index (R112, R113). -/
theorem serTree_of_holdsTree {s : State} {i : NodeIdx} {T : CodeTree} (hi : i ≠ Config.nil) (hT : HoldsTree s.nodes i T) :
    (T.bytes.length ≤ 8191 → serTree s i = T.bytes ∧ serSizeSat s i = T.bytes.length)
    ∧ (8191 < T.bytes.length → serSizeSat s i = 8192) := by
  obtain ⟨rest, he, hr⟩ := serWalk_prefix s.nodes 8192 [i] [T] (.cons hT .nil)
  have hser : serTree s i = serWalk s.nodes 8192 [i] := by simp [serTree, hi, Config.maxTreeSize]
  simp only [List.flatMap_cons, List.flatMap_nil, List.append_nil] at he
  have hlen := congrArg List.length he
  rw [List.length_append] at hlen
  refine ⟨fun h => ?_, fun h => ?_⟩
  · have hnil : rest = [] := by
      rcases hr with hr | hr
      · exact hr
      · omega
    subst hnil
    rw [List.append_nil] at he
    rw [serSizeSat, hser, ← he, Config.maxTreeSize]
    exact ⟨rfl, by omega⟩
  · rw [serSizeSat, hser, Config.maxTreeSize]
    rcases hr with rfl | hr
    · simp at hlen; omega
    · omega

theorem serTree_nil (s : State) : serTree s Config.nil = [] := by simp [serTree]

theorem serSizeSat_le (s : State) (i : NodeIdx) : serSizeSat s i ≤ 8192 := by
  rw [serSizeSat, Config.maxTreeSize]; omega

/-- The payload's bit count is a sum over the byte values. -/
theorem payloadBits_eq_sum (s : State) :
    payloadBits s = (allBytes.map fun b => (freqAt s b).toNat * (lenAt s b).toNat).sum := by
  rw [payloadBits]
  congr 1
  refine List.ext_getElem (by simp [allBytes]) fun i h1 h2 => ?_
  have hi : i < 256 := by simpa [allBytes] using h2
  simp [allBytes, freqAt, lenAt, BitVec.toNat_ofNat, Nat.mod_eq_of_lt hi]

theorem sum_le_length_mul {l : List Nat} {m : Nat} (h : ∀ x ∈ l, x ≤ m) : l.sum ≤ l.length * m := by
  induction l with
  | nil => simp
  | cons a rest ih =>
    have := h a (by simp)
    have := ih fun x hx => h x (by simp [hx])
    simp only [List.sum_cons, List.length_cons, Nat.add_mul]
    omega

/-- The payload's bit count fits TOTAL_BITS (10_state R51). -/
theorem payloadBits_lt (s : State) : payloadBits s < 2 ^ 64 := by
  rw [payloadBits_eq_sum]
  refine Nat.lt_of_le_of_lt (sum_le_length_mul (m := (2 ^ 32 - 1) * 63) fun x hx => ?_) ?_
  · obtain ⟨b, -, rfl⟩ := List.mem_map.1 hx
    exact Nat.mul_le_mul (by have := (freqAt s b).isLt; omega) (by have := (lenAt s b).isLt; omega)
  · simp [allBytes]

theorem paddingFor_spec (t : Nat) : paddingFor t < 8 ∧ (t + paddingFor t) % 8 = 0 := by
  simp only [paddingFor]; omega

end Sys2Proof.Machine
end

