-- ==== Sys2Proof/Laws/Heap.lean ====
section
/-! SUPPORT. What the queue's heap functions do to a heap array: they permute it, and they keep the heap property
(41_priority_queue R94 to R96). -/

namespace Sys2Proof.Machine

/-! ### Slots -/

theorem slot_eq_getElem {h : List NodeIdx} {i : Nat} (hi : i < h.length) : slot h i = h[i] := by
  simp [slot, List.getD, hi]

theorem slot_mem {h : List NodeIdx} {i : Nat} (hi : i < h.length) : slot h i ∈ h := by
  rw [slot_eq_getElem hi]; exact List.getElem_mem hi

@[simp] theorem slot_cons_zero (a : NodeIdx) (h : List NodeIdx) : slot (a :: h) 0 = a := rfl

theorem slot_append_left {h more : List NodeIdx} {i : Nat} (hi : i < h.length) : slot (h ++ more) i = slot h i := by
  simp [slot, List.getD, List.getElem?_append_left hi]

@[simp] theorem swapSlots_length (h : List NodeIdx) (i j : Nat) : (swapSlots h i j).length = h.length := by
  simp [swapSlots]

/-- A swap exchanges two slots and leaves every other. -/
theorem slot_swapSlots {h : List NodeIdx} {i j k : Nat} (hi : i < h.length) (hj : j < h.length) :
    slot (swapSlots h i j) k = if k = j then slot h i else if k = i then slot h j else slot h k := by
  by_cases hk : k < h.length
  · rw [slot_eq_getElem (by simpa using hk)]
    simp only [swapSlots, List.getElem_set]
    grind [slot_eq_getElem]
  · have hkj : k ≠ j := by omega
    have hki : k ≠ i := by omega
    simp [slot, List.getD, hk, hkj, hki, swapSlots]

theorem swapSlots_perm {h : List NodeIdx} {i j : Nat} (hi : i < h.length) (hj : j < h.length) :
    (swapSlots h i j).Perm h := by
  rw [swapSlots, slot_eq_getElem hi, slot_eq_getElem hj]
  exact List.set_set_perm hi hj

/-! ### The heap property -/

/-- The heap property depends only on the keys of the queued nodes. -/
theorem HeapOrdered.congr {key key' : NodeIdx → Word} {h : List NodeIdx} (hk : ∀ m ∈ h, key m = key' m)
    (ho : HeapOrdered key h) : HeapOrdered key' h := fun i h0 hi => by
  rw [← hk _ (slot_mem hi), ← hk _ (slot_mem (by omega))]
  exact ho i h0 hi

theorem heapOrdered_nil (key : NodeIdx → Word) : HeapOrdered key [] := fun _ _ hi => by simp at hi

theorem heapOrdered_singleton (key : NodeIdx → Word) (n : NodeIdx) : HeapOrdered key [n] :=
  fun _ h0 hi => by simp at hi; omega

/-- Slot 0 holds a least key (R96). -/
theorem HeapOrdered.root_least {key : NodeIdx → Word} {h : List NodeIdx} (ho : HeapOrdered key h) :
    ∀ m ∈ h, key (slot h 0) ≤ key m := by
  have hs : ∀ i, i < h.length → key (slot h 0) ≤ key (slot h i) := by
    intro i
    induction i using Nat.strongRecOn with
    | _ i ih =>
      intro hi
      rcases Nat.eq_zero_or_pos i with rfl | h0
      · exact BitVec.le_refl _
      · exact BitVec.le_trans (ih _ (by omega) (by omega)) (ho i h0 hi)
  intro m hm
  obtain ⟨i, hi, rfl⟩ := List.getElem_of_mem hm
  rw [← slot_eq_getElem hi]
  exact hs i hi

/-! ### Sifting up -/

theorem siftUp_perm (key : NodeIdx → Word) : ∀ (fuel i : Nat) (h : List NodeIdx), i < h.length →
    (siftUp key fuel i h).Perm h
  | 0, _, _, _ => .refl _
  | fuel + 1, i, h, hi => by
    rw [siftUp]
    split
    · exact .refl _
    · split
      · exact (siftUp_perm key fuel _ _ (by simp; omega)).trans (swapSlots_perm (by omega) hi)
      · exact .refl _

/-- Sifting up from slot `i` restores the heap property, where only slot `i` may be below its parent. -/
theorem siftUp_ordered (key : NodeIdx → Word) : ∀ (fuel i : Nat) (h : List NodeIdx), i < h.length → i ≤ fuel →
    (∀ k, 0 < k → k < h.length → k ≠ i → key (slot h ((k - 1) / 2)) ≤ key (slot h k)) →
    (∀ k, 0 < i → 0 < k → k < h.length → (k - 1) / 2 = i → key (slot h ((i - 1) / 2)) ≤ key (slot h k)) →
    HeapOrdered key (siftUp key fuel i h)
  | 0, i, h, _, hf, ho, _ => fun k h0 hk => ho k h0 hk (by omega)
  | fuel + 1, i, h, hi, hf, ho, hc => by
    rw [siftUp]
    split
    · exact fun k h0 hk => ho k h0 hk (by omega)
    · split
      · rename_i hi0 hgt
        have hp : (i - 1) / 2 < h.length := by omega
        apply siftUp_ordered key fuel _ _ (by simpa using hp) (by omega)
        · intro k h0 hk hne
          simp only [swapSlots_length] at hk
          rw [slot_swapSlots hp hi, slot_swapSlots hp hi]
          have hok := ho k h0 hk
          have hck := hc k (by omega) h0 hk
          simp only [gt_iff_lt, BitVec.le_def, BitVec.lt_def] at *
          clear ho hc
          split_ifs <;> simp_all <;> omega
        · intro k h0 h0k hk hpk
          simp only [swapSlots_length] at hk
          rw [slot_swapSlots hp hi, slot_swapSlots hp hi]
          have hok := ho k h0k hk
          have hop := ho ((i - 1) / 2) h0 hp (by omega)
          clear ho hc
          rw [hpk] at hok
          have hpi : (i - 1) / 2 < i := by omega
          generalize (i - 1) / 2 = p at *
          have hpp : (p - 1) / 2 ≠ i ∧ (p - 1) / 2 ≠ p := by omega
          rw [if_neg hpp.1, if_neg hpp.2]
          split_ifs
          · exact hop
          · omega
          · exact BitVec.le_trans hop (hok ‹_›)
      · rename_i hi0 hgt
        intro k h0 hk
        by_cases hki : k = i
        · subst hki; simpa [BitVec.not_lt] using hgt
        · exact ho k h0 hk hki

/-! ### Sifting down -/

/-- What the choice of the smallest slot says (R95). -/
theorem smallestSlot_spec (key : NodeIdx → Word) (h : List NodeIdx) {i : Nat} (hi : i < h.length) :
    smallestSlot key h i < h.length
    ∧ (smallestSlot key h i = i ∨ (0 < smallestSlot key h i ∧ (smallestSlot key h i - 1) / 2 = i))
    ∧ key (slot h (smallestSlot key h i)) ≤ key (slot h i)
    ∧ ∀ k, 0 < k → k < h.length → (k - 1) / 2 = i → key (slot h (smallestSlot key h i)) ≤ key (slot h k) := by
  have hk : ∀ k, 0 < k → (k - 1) / 2 = i → k = 2 * i + 1 ∨ k = 2 * i + 2 := by omega
  simp only [smallestSlot, BitVec.le_def, BitVec.lt_def]
  split <;> split <;> refine ⟨by omega, by omega, by omega, fun k h0 hkl hkp => ?_⟩ <;>
    rcases hk k h0 hkp with rfl | rfl <;> omega

theorem siftDown_perm (key : NodeIdx → Word) : ∀ (fuel i : Nat) (h : List NodeIdx), i < h.length →
    (siftDown key fuel i h).Perm h
  | 0, _, _, _ => .refl _
  | fuel + 1, i, h, hi => by
    have hs := (smallestSlot_spec key h hi).1
    rw [siftDown]
    split
    · exact .refl _
    · exact (siftDown_perm key fuel _ _ (by simpa using hs)).trans (swapSlots_perm hs hi)

/-- Sifting down from slot `i` restores the heap property, where only slot `i` may be above its children. -/
theorem siftDown_ordered (key : NodeIdx → Word) : ∀ (fuel i : Nat) (h : List NodeIdx), i < h.length →
    h.length ≤ fuel + i →
    (∀ k, 0 < k → k < h.length → (k - 1) / 2 ≠ i → key (slot h ((k - 1) / 2)) ≤ key (slot h k)) →
    (∀ k, 0 < i → 0 < k → k < h.length → (k - 1) / 2 = i → key (slot h ((i - 1) / 2)) ≤ key (slot h k)) →
    HeapOrdered key (siftDown key fuel i h)
  | 0, i, h, hi, hf, _, _ => by omega
  | fuel + 1, i, h, hi, hf, ho, hc => by
    obtain ⟨hs, hsi, hle, hleast⟩ := smallestSlot_spec key h hi
    rw [siftDown]
    split
    · rename_i hm
      rw [hm] at hleast
      intro k h0 hk
      by_cases hki : (k - 1) / 2 = i
      · rw [hki]; exact hleast k h0 hk hki
      · exact ho k h0 hk hki
    · rename_i hm
      generalize smallestSlot key h i = m at *
      obtain ⟨h0m, hpm⟩ := hsi.resolve_left hm
      apply siftDown_ordered key fuel _ _ (by simpa using hs) (by simp; omega)
      · intro k h0 hk hne
        simp only [swapSlots_length] at hk
        rw [slot_swapSlots hs hi, slot_swapSlots hs hi]
        have hok := ho k h0 hk
        have hck := hc k
        have hl := hleast k h0 hk
        have hoi := hc m
        simp only [BitVec.le_def] at *
        clear ho hc hleast
        split_ifs <;> simp_all
      · intro k h0 h0k hk hpk
        simp only [swapSlots_length] at hk
        rw [slot_swapSlots hs hi, slot_swapSlots hs hi]
        have hok := ho k h0k hk
        simp only [BitVec.le_def] at *
        clear ho hc hleast
        split_ifs <;> simp_all

/-! ### Insertion and removal -/

theorem heapInsert_perm (key : NodeIdx → Word) (n : NodeIdx) (h : List NodeIdx) :
    (heapInsert key n h).Perm (n :: h) :=
  (siftUp_perm key _ _ _ (by simp)).trans (List.perm_append_singleton n h)

/-- PqInsert keeps the heap property (R94, R96). -/
theorem heapInsert_ordered {key : NodeIdx → Word} (n : NodeIdx) {h : List NodeIdx} (ho : HeapOrdered key h) :
    HeapOrdered key (heapInsert key n h) := by
  refine siftUp_ordered key _ _ _ (by simp) (Nat.le_refl _) (fun k h0 hk hne => ?_) (fun k _ _ hk _ => ?_)
  · simp at hk
    rw [slot_append_left (by omega), slot_append_left (by omega)]
    exact ho k h0 (by omega)
  · simp at hk; omega

theorem heapRemove_perm (key : NodeIdx → Word) (r : NodeIdx) (rest : List NodeIdx) :
    (heapRemove key (r :: rest)).Perm rest := by
  rcases List.eq_nil_or_concat rest with rfl | ⟨front, last, rfl⟩
  · exact .refl _
  · have hl : (((r :: (front ++ [last])).set 0 (slot (r :: (front ++ [last])) (front.length + 1))).take
        (front.length + 1)) = last :: front := by
      simp [slot]
    simp only [heapRemove, List.length_cons, List.length_append, List.length_nil, Nat.zero_add, Nat.add_sub_cancel,
      List.concat_eq_append]
    rw [hl]
    exact (siftDown_perm key _ 0 _ (by simp)).trans (List.perm_append_singleton last front).symm

/-- PqRemoveMin keeps the heap property (R95, R96). -/
theorem heapRemove_ordered {key : NodeIdx → Word} {h : List NodeIdx} (ho : HeapOrdered key h) :
    HeapOrdered key (heapRemove key h) := by
  rcases h with _ | ⟨r, rest⟩
  · exact heapOrdered_nil key
  rcases List.eq_nil_or_concat rest with rfl | ⟨front, last, rfl⟩
  · exact heapOrdered_nil key
  · have hl : (((r :: (front ++ [last])).set 0 (slot (r :: (front ++ [last])) (front.length + 1))).take
        (front.length + 1)) = last :: front := by
      simp [slot]
    simp only [heapRemove, List.length_cons, List.length_append, List.length_nil, Nat.zero_add, Nat.add_sub_cancel,
      List.concat_eq_append]
    rw [hl]
    refine siftDown_ordered key _ 0 _ (by simp) (by simp) (fun k h0 hk hne => ?_) (fun _ h _ _ _ => by omega)
    have h1 : ∀ j, 0 < j → j < front.length + 1 → slot (last :: front) j = slot (r :: (front ++ [last])) j := by
      intro j hj hjl
      obtain ⟨j, rfl⟩ : ∃ i, j = i + 1 := ⟨j - 1, by omega⟩
      simp [slot, List.getD, List.getElem?_append_left (show j < front.length by omega)]
    simp only [List.length_cons] at hk
    rw [h1 _ (by omega) (by omega), h1 _ (by omega) (by omega)]
    simpa using ho k h0 (by simp; omega)

theorem heapInsert_length (key : NodeIdx → Word) (n : NodeIdx) (h : List NodeIdx) :
    (heapInsert key n h).length = h.length + 1 := by
  simpa using (heapInsert_perm key n h).length_eq

theorem heapRemove_length (key : NodeIdx → Word) (h : List NodeIdx) : (heapRemove key h).length = h.length - 1 := by
  rcases h with _ | ⟨r, rest⟩
  · rfl
  · simpa using (heapRemove_perm key r rest).length_eq

/-- The nodes that stay queued were queued. -/
theorem heapRemove_subset {key : NodeIdx → Word} {h : List NodeIdx} {m : NodeIdx} (hm : m ∈ heapRemove key h) :
    m ∈ h := by
  rcases h with _ | ⟨r, rest⟩
  · exact hm
  · exact List.mem_cons_of_mem _ ((heapRemove_perm key r rest).mem_iff.1 hm)

/-! ### The queue's operations on a state -/

theorem pqInsertNode_room {n : NodeIdx} {s : State} (h : s.heap.length ≠ 256) :
    pqInsertNode n s = .done () { s with heap := heapInsert (keyOf s) n s.heap } := by
  simp [pqInsertNode, Config.heapCap, h]

theorem pqInsertNode_full {n : NodeIdx} {s : State} (h : s.heap.length = 256) :
    pqInsertNode n s = .raise .pqFull (n.setWidth 32) s := by
  simp [pqInsertNode, Config.heapCap, h]

theorem pqRemoveNode_nonempty {s : State} (h : s.heap.length ≠ 0) :
    pqRemoveNode s = .done (slot s.heap 0) { s with heap := heapRemove (keyOf s) s.heap } := by
  simp [pqRemoveNode, h]

/-- PqInsert queues the node, or raises PQ_FULL. -/
theorem pqInsertNode_sat (n : NodeIdx) (s : State) :
    (pqInsertNode n s).Sat
      (fun _ t => s.heap.length ≠ 256 ∧ t = { s with heap := heapInsert (keyOf s) n s.heap })
      (fun e arg t => s.heap.length = 256 ∧ e = .pqFull ∧ arg = n.setWidth 32 ∧ t = s) (fun _ => False) False := by
  by_cases h : s.heap.length = 256
  · simp [pqInsertNode_full h, h]
  · simp [pqInsertNode_room h, h]

/-- PqRemoveMin takes slot 0 out, or raises PQ_EMPTY. -/
theorem pqRemoveNode_sat (s : State) :
    (pqRemoveNode s).Sat
      (fun a t => s.heap.length ≠ 0 ∧ a = slot s.heap 0 ∧ t = { s with heap := heapRemove (keyOf s) s.heap })
      (fun e arg t => s.heap.length = 0 ∧ e = .pqEmpty ∧ arg = 0#32 ∧ t = s) (fun _ => False) False := by
  by_cases h : s.heap.length = 0
  · simp [pqRemoveNode, h]
  · simp [pqRemoveNode_nonempty h, h]

end Sys2Proof.Machine
end

