-- ==== Sys2Proof/Laws/HeapOrder.lean ====
section
/-! SUPPORT. Exactly which slots the queue's heap functions change, so which of several equal keys comes first
(41_priority_queue R94, R95, R97). -/

namespace Sys2Proof.Machine

/-! ### Insertion -/

theorem slotAbove_succ (i k : Nat) : slotAbove i (k + 1) = slotAbove ((i - 1) / 2) k := by
  induction k with
  | zero => rfl
  | succ k ih => rw [slotAbove, ih]; rfl

theorem slotAbove_le (i k : Nat) : slotAbove i k ≤ i := by
  induction k with
  | zero => exact Nat.le_refl _
  | succ k ih => rw [slotAbove]; omega

/-- A slot further up is lower while it is not slot 0. -/
theorem slotAbove_lt {i j : Nat} (h : 0 < slotAbove i j) : slotAbove i (j + 1) < slotAbove i j := by
  rw [slotAbove]; omega

/-- Sifting `n` up from slot `i` (R94). -/
theorem siftUp_path (key : NodeIdx → Word) (n : NodeIdx) : ∀ (fuel i : Nat) (h : List NodeIdx), i < h.length →
    i ≤ fuel → slot h i = n →
    ∃ k, slot (siftUp key fuel i h) (slotAbove i k) = n
      ∧ (∀ j < k, 0 < slotAbove i j ∧ key n < key (slot h (slotAbove i (j + 1)))
          ∧ slot (siftUp key fuel i h) (slotAbove i j) = slot h (slotAbove i (j + 1)))
      ∧ (slotAbove i k = 0 ∨ key (slot h (slotAbove i (k + 1))) ≤ key n)
      ∧ ∀ x, (∀ j ≤ k, x ≠ slotAbove i j) → slot (siftUp key fuel i h) x = slot h x
  | 0, i, h, _, hf, hn => ⟨0, hn, by simp, .inl (by simp only [slotAbove]; omega), fun _ _ => rfl⟩
  | fuel + 1, i, h, hi, hf, hn => by
    rw [siftUp]
    split
    · rename_i h0
      exact ⟨0, hn, by simp, .inl h0, fun _ _ => rfl⟩
    · rename_i h0
      split
      · rename_i hgt
        rw [hn] at hgt
        have hp : (i - 1) / 2 < h.length := by omega
        have hs := fun k => slot_swapSlots (h := h) (k := k) hp hi
        obtain ⟨k, h1, h2, h3, h4⟩ := siftUp_path key n fuel ((i - 1) / 2) (swapSlots h ((i - 1) / 2) i) (by simpa using hp)
          (by omega) (by rw [hs, if_neg (by omega), if_pos rfl, hn])
        have hle : ∀ j, slotAbove ((i - 1) / 2) j ≤ (i - 1) / 2 := slotAbove_le _
        have hold : ∀ j, 0 < slotAbove ((i - 1) / 2) j → slot (swapSlots h ((i - 1) / 2) i) (slotAbove ((i - 1) / 2) (j + 1))
            = slot h (slotAbove ((i - 1) / 2) (j + 1)) := fun j hj => by
          have h5 := slotAbove_lt hj
          have h6 := hle j
          rw [hs, if_neg (by omega), if_neg (by omega)]
        refine ⟨k + 1, by rw [slotAbove_succ]; exact h1, ?_, ?_, ?_⟩
        · intro j hj
          rcases j with _ | j
          · refine ⟨by simp only [slotAbove]; omega, hgt, ?_⟩
            rw [h4 _ fun j' _ => by have := hle j'; simp only [slotAbove]; omega, hs]
            simp [slotAbove]
          · rw [slotAbove_succ, slotAbove_succ]
            obtain ⟨g1, g2, g3⟩ := h2 j (by omega)
            rw [hold j g1] at g2 g3
            exact ⟨g1, g2, g3⟩
        · rw [slotAbove_succ, slotAbove_succ]
          rcases Nat.eq_zero_or_pos (slotAbove ((i - 1) / 2) k) with h0 | h0
          · exact .inl h0
          · rw [hold k h0] at h3; exact h3
        · intro x hx
          have hx0 : x ≠ i := hx 0 (by omega)
          have hx1 : x ≠ (i - 1) / 2 := hx 1 (by omega)
          rw [h4 x fun j hj => by rw [← slotAbove_succ]; exact hx (j + 1) (by omega), hs, if_neg hx0, if_neg hx1]
      · rename_i hgt
        rw [hn] at hgt
        exact ⟨0, hn, by simp, .inr (by simpa [slotAbove, BitVec.not_lt] using hgt), fun _ _ => rfl⟩

/-- PqInsert changes the array as R94 says. -/
theorem heapInsert_insertedUp (key : NodeIdx → Word) (n : NodeIdx) (h : List NodeIdx) :
    InsertedUp key n h (heapInsert key n h) := by
  refine ⟨heapInsert_length key n h, ?_⟩
  have hold : ∀ {i}, i < h.length → slot (h ++ [n]) i = slot h i := fun hi => slot_append_left hi
  obtain ⟨k, h1, h2, h3, h4⟩ := siftUp_path key n h.length h.length (h ++ [n]) (by simp) (Nat.le_refl _)
    (by simp [slot])
  have hlt : ∀ j, 0 < slotAbove h.length j → slotAbove h.length (j + 1) < h.length := fun j hj =>
    Nat.lt_of_lt_of_le (slotAbove_lt hj) (slotAbove_le _ _)
  refine ⟨k, h1, fun j hj => ?_, ?_, fun i hi hx => by rw [← hold hi]; exact h4 i hx⟩
  · obtain ⟨g1, g2, g3⟩ := h2 j hj
    rw [hold (hlt j g1)] at g2 g3
    exact ⟨g1, g2, g3⟩
  · rcases Nat.eq_zero_or_pos (slotAbove h.length k) with h0 | h0
    · exact .inl h0
    · rw [hold (hlt k h0)] at h3; exact h3

/-- Only the keys of the nodes concerned matter. -/
theorem InsertedUp.congr {key key' : NodeIdx → Word} {n : NodeIdx} {h h' : List NodeIdx} (hi : InsertedUp key n h h')
    (hn : key n = key' n) (hk : ∀ m ∈ h, key m = key' m) : InsertedUp key' n h h' := by
  obtain ⟨hl, k, h1, h2, h3, h4⟩ := hi
  have hlt : ∀ j, 0 < slotAbove h.length j → key (slot h (slotAbove h.length (j + 1)))
      = key' (slot h (slotAbove h.length (j + 1))) := fun j hj =>
    hk _ (slot_mem (Nat.lt_of_lt_of_le (slotAbove_lt hj) (slotAbove_le _ _)))
  refine ⟨hl, k, h1, fun j hj => ?_, ?_, h4⟩
  · obtain ⟨g1, g2, g3⟩ := h2 j hj
    exact ⟨g1, by rw [← hn, ← hlt j g1]; exact g2, g3⟩
  · rcases Nat.eq_zero_or_pos (slotAbove h.length k) with h0 | h0
    · exact .inl h0
    · rw [← hn, ← hlt k h0]; exact h3

/-- Only the node inserted is new. -/
theorem InsertedUp.mem {key : NodeIdx → Word} {n m : NodeIdx} {h h' : List NodeIdx} (hi : InsertedUp key n h h')
    (hm : m ∈ h') : m = n ∨ m ∈ h := by
  obtain ⟨hl, k, h1, h2, -, h4⟩ := hi
  obtain ⟨i, hilt, rfl⟩ := List.getElem_of_mem hm
  rw [← slot_eq_getElem hilt]
  by_cases hx : ∀ j ≤ k, i ≠ slotAbove h.length j
  · have : i < h.length := by
      have : i ≠ h.length := hx 0 (Nat.zero_le _)
      omega
    exact .inr (h4 i this hx ▸ slot_mem this)
  · simp only [not_forall, not_not] at hx
    obtain ⟨j, hj, rfl⟩ := hx
    rcases Nat.lt_or_eq_of_le hj with hj | rfl
    · obtain ⟨g1, -, g3⟩ := h2 j hj
      exact .inr (g3 ▸ slot_mem (Nat.lt_of_lt_of_le (slotAbove_lt g1) (slotAbove_le _ _)))
    · exact .inl h1

theorem InsertedInTurn.mem {key : NodeIdx → Word} {ns h : List NodeIdx} (hi : InsertedInTurn key ns h) :
    ∀ m ∈ h, m ∈ ns := by
  induction hi with
  | nil => simp
  | insert ns h h' n _ hn ih =>
    intro m hm
    rcases hn.mem hm with rfl | hm
    · simp
    · exact List.mem_append_left _ (ih m hm)

theorem InsertedInTurn.congr {key key' : NodeIdx → Word} {ns h : List NodeIdx} (hi : InsertedInTurn key ns h)
    (hk : ∀ m ∈ ns, key m = key' m) : InsertedInTurn key' ns h := by
  induction hi with
  | nil => exact .nil
  | insert ns h h' n hh hn ih =>
    have hns : ∀ m ∈ ns, key m = key' m := fun m hm => hk m (List.mem_append_left _ hm)
    exact .insert _ _ _ _ (ih hns) (hn.congr (hk n (by simp)) fun m hm => hns m (hh.mem m hm))

/-! ### Removal -/

theorem smallerChild_gt (key : NodeIdx → Word) (h : List NodeIdx) (m i : Nat) : i < smallerChild key h m i := by
  unfold smallerChild; split <;> omega

theorem slotBelow_ge (key : NodeIdx → Word) (h : List NodeIdx) (m i k : Nat) : i ≤ slotBelow key h m i k := by
  induction k with
  | zero => exact Nat.le_refl _
  | succ k ih =>
    rw [slotBelow]
    exact Nat.le_of_lt (Nat.lt_of_le_of_lt ih (smallerChild_gt _ _ _ _))

theorem slotBelow_succ (key : NodeIdx → Word) (h : List NodeIdx) (m i k : Nat) :
    slotBelow key h m i (k + 1) = slotBelow key h m (smallerChild key h m i) k := by
  induction k with
  | zero => rfl
  | succ k ih => rw [slotBelow, ih]; rfl

/-- The way down from slot `i` depends only on the slots below it. -/
theorem slotBelow_congr {key : NodeIdx → Word} {h g : List NodeIdx} {m i : Nat}
    (hs : ∀ x, i < x → x < m → slot g x = slot h x) (k : Nat) : slotBelow key g m i k = slotBelow key h m i k := by
  induction k with
  | zero => rfl
  | succ k ih =>
    have := slotBelow_ge key h m i k
    rw [slotBelow, slotBelow, ih, smallerChild, smallerChild]
    by_cases hm : 2 * slotBelow key h m i k + 2 < m
    · rw [hs _ (by omega) hm, hs _ (by omega) (by omega)]
    · simp [hm]

/-- The smallest of a slot and its children is the slot itself, or its smaller child where that is strictly less. -/
theorem smallestSlot_eq (key : NodeIdx → Word) (h : List NodeIdx) (i : Nat) :
    (smallestSlot key h i = i ∧ (smallerChild key h h.length i < h.length →
        key (slot h i) ≤ key (slot h (smallerChild key h h.length i))))
    ∨ (smallestSlot key h i = smallerChild key h h.length i ∧ smallerChild key h h.length i < h.length
        ∧ key (slot h (smallerChild key h h.length i)) < key (slot h i)) := by
  simp only [smallestSlot, smallerChild, BitVec.lt_def, BitVec.le_def]
  split_ifs <;> first | (right; refine ⟨rfl, ?_, ?_⟩ <;> omega) | (left; refine ⟨rfl, ?_⟩; intro _; omega) | omega

/-- Sifting `x` down from slot `i` (R95). -/
theorem siftDown_path (key : NodeIdx → Word) (x : NodeIdx) : ∀ (fuel i : Nat) (h : List NodeIdx), i < h.length →
    h.length ≤ fuel + i → slot h i = x →
    ∃ k, slot (siftDown key fuel i h) (slotBelow key h h.length i k) = x
      ∧ (∀ j < k, slotBelow key h h.length i (j + 1) < h.length
          ∧ key (slot h (slotBelow key h h.length i (j + 1))) < key x
          ∧ slot (siftDown key fuel i h) (slotBelow key h h.length i j) = slot h (slotBelow key h h.length i (j + 1)))
      ∧ (slotBelow key h h.length i (k + 1) < h.length →
          key x ≤ key (slot h (slotBelow key h h.length i (k + 1))))
      ∧ ∀ y, (∀ j ≤ k, y ≠ slotBelow key h h.length i j) → slot (siftDown key fuel i h) y = slot h y
  | 0, i, h, hi, hf, _ => by omega
  | fuel + 1, i, h, hi, hf, hx => by
    rw [siftDown]
    rcases smallestSlot_eq key h i with ⟨he, hle⟩ | ⟨he, hlt, hless⟩
    · rw [if_pos he]
      exact ⟨0, hx, by simp, by rw [← hx]; exact hle, fun _ _ => rfl⟩
    · have hgt := smallerChild_gt key h h.length i
      rw [if_neg (by omega), he]
      generalize hc : smallerChild key h h.length i = c at *
      have hs := fun k => slot_swapSlots (h := h) (k := k) hlt hi
      obtain ⟨k, h1, h2, h3, h4⟩ := siftDown_path key x fuel c (swapSlots h c i) (by simpa using hlt) (by simp; omega)
        (by rw [hs, if_neg (by omega), if_pos rfl, hx])
      have hold : ∀ y, c < y → slot (swapSlots h c i) y = slot h y := fun y hy => by
        rw [hs, if_neg (by omega), if_neg (by omega)]
      have hb : ∀ j, slotBelow key (swapSlots h c i) h.length c j = slotBelow key h h.length c j :=
        slotBelow_congr fun y hy _ => hold y hy
      have hgt' : ∀ j, c < slotBelow key h h.length c (j + 1) := fun j =>
        Nat.lt_of_le_of_lt (slotBelow_ge _ _ _ _ j) (smallerChild_gt _ _ _ _)
      simp only [swapSlots_length, hb] at h1 h2 h3 h4
      have hsucc : ∀ j, slotBelow key h h.length i (j + 1) = slotBelow key h h.length c j := fun j => by
        rw [slotBelow_succ, hc]
      refine ⟨k + 1, by rw [hsucc]; exact h1, ?_, ?_, ?_⟩
      · intro j hj
        rcases j with _ | j
        · refine ⟨by rw [hsucc]; exact hlt, by rw [hsucc, ← hx]; exact hless, ?_⟩
          rw [hsucc]
          show slot _ i = slot h c
          rw [h4 i fun j' _ => by have := slotBelow_ge key h h.length c j'; omega, hs, if_pos rfl]
        · rw [hsucc, hsucc]
          obtain ⟨g1, g2, g3⟩ := h2 j (by omega)
          rw [hold _ (hgt' j)] at g2 g3
          exact ⟨g1, g2, g3⟩
      · rw [hsucc]
        intro hl
        have := h3 hl
        rwa [hold _ (hgt' k)] at this
      · intro y hy
        have hy0 : y ≠ i := hy 0 (by omega)
        have hy1 : y ≠ c := by have := hy 1 (by omega); rwa [hsucc] at this
        rw [h4 y fun j hj => by rw [← hsucc]; exact hy (j + 1) (by omega), hs, if_neg hy0, if_neg hy1]

/-- PqRemoveMin changes the array as R95 says. -/
theorem heapRemove_removedDown (key : NodeIdx → Word) (h : List NodeIdx) : RemovedDown key h (heapRemove key h) := by
  refine ⟨heapRemove_length key h, fun h1 => ?_⟩
  generalize hg : (h.set 0 (slot h (h.length - 1))).take (h.length - 1) = g
  have hlen : g.length = h.length - 1 := by rw [← hg]; simp
  have hr : heapRemove key h = siftDown key (h.length - 1) 0 g := by rw [← hg]; rfl
  have hold : ∀ y, 0 < y → y < h.length - 1 → slot g y = slot h y := fun y h0 hy => by
    rw [← hg]
    simp only [slot, List.getD]
    rw [List.getElem?_take_of_lt hy, List.getElem?_set_ne (by omega)]
  obtain ⟨k, h2, h3, h4, h5⟩ := siftDown_path key (slot h (h.length - 1)) (h.length - 1) 0 g (by omega) (by omega) (by
    rw [← hg]
    simp only [slot, List.getD]
    rw [List.getElem?_take_of_lt (by omega), List.getElem?_set_self (by omega)]
    rfl)
  have hb : ∀ j, slotBelow key g (h.length - 1) 0 j = slotBelow key h (h.length - 1) 0 j := slotBelow_congr hold
  have hpos : ∀ j, 0 < slotBelow key h (h.length - 1) 0 (j + 1) := fun j =>
    Nat.lt_of_le_of_lt (Nat.zero_le _) (smallerChild_gt _ _ _ _)
  simp only [hlen, hb] at h2 h3 h4 h5
  rw [hr]
  refine ⟨k, h2, fun j hj => ?_, fun hl => ?_, fun i hi hx => ?_⟩
  · obtain ⟨g1, g2, g3⟩ := h3 j hj
    rw [hold _ (hpos j) g1] at g2 g3
    exact ⟨g1, g2, g3⟩
  · have := h4 hl
    rwa [hold _ (hpos k) hl] at this
  · rw [h5 i hx, hold i (Nat.pos_of_ne_zero (hx 0 (Nat.zero_le _))) hi]

end Sys2Proof.Machine
end

