-- ==== Sys2Proof/Laws/TreeBuilder.lean ====
section
/-! SUPPORT. What the tree builder's operations do: one merge, the merges of TB_BUILD, the leaves of TB_LOAD_LEAVES
(42_tree_builder R103, R106, R108). -/

namespace Sys2Proof.Machine

theorem slot_cons_succ (a : NodeIdx) (h : List NodeIdx) (i : Nat) : slot (a :: h) (i + 1) = slot h i := rfl

theorem ofNat_toNat_of_lt {n : Nat} (h : n < 512) : (BitVec.ofNat 9 n).toNat = n := by
  simp [BitVec.toNat_ofNat, Nat.mod_eq_of_lt h]

/-- The sum of the queued frequencies. -/
def queuedFreq (s : State) : Nat := (s.heap.map fun m => (keyOf s m).toNat).sum

/-! ### One merge -/

/-- The queue after MergeStep took its two nodes out. -/
def heapWithoutTwo (s : State) : List NodeIdx := heapRemove (keyOf s) (heapRemove (keyOf s) s.heap)

/-- The first node MergeStep takes out. -/
def firstOut (s : State) : NodeIdx := slot s.heap 0

/-- The second node MergeStep takes out. -/
def secondOut (s : State) : NodeIdx := slot (heapRemove (keyOf s) s.heap) 0

/-- The arena after MergeStep allocated the merged node. -/
def mergedNodes (s : State) : List Node :=
  s.nodes ++ [internalNode (keyOf s (firstOut s) + keyOf s (secondOut s)) (firstOut s) (secondOut s)]

/-- The state after one MergeStep. -/
def mergedState (s : State) : State :=
  { s with
    nodes := mergedNodes s
    heap := heapInsert (keyOf { s with nodes := mergedNodes s }) (BitVec.ofNat 9 s.nodes.length) (heapWithoutTwo s) }

theorem heapWithoutTwo_length (s : State) : (heapWithoutTwo s).length = s.heap.length - 2 := by
  simp only [heapWithoutTwo, heapRemove_length]; omega

/-- The two nodes and the rest are what was queued. -/
theorem merge_perm {s : State} (h : 2 ≤ s.heap.length) :
    s.heap.Perm (firstOut s :: secondOut s :: heapWithoutTwo s) := by
  obtain ⟨a, rest, he⟩ : ∃ a rest, s.heap = a :: rest := List.exists_cons_of_length_pos (by omega)
  have hr := heapRemove_perm (keyOf s) a rest
  rw [← he] at hr
  have hl : 0 < (heapRemove (keyOf s) s.heap).length := by rw [heapRemove_length]; omega
  obtain ⟨b, rest', he'⟩ := List.exists_cons_of_length_pos hl
  have hr' := heapRemove_perm (keyOf s) b rest'
  rw [← he'] at hr'
  have h1 : firstOut s = a := by rw [firstOut, he]; rfl
  have h2 : secondOut s = b := by rw [secondOut, he']; rfl
  rw [h1, h2, heapWithoutTwo]
  exact (List.Perm.of_eq he).trans (((hr.symm.trans (List.Perm.of_eq he')).trans (hr'.symm.cons b)).cons a)

theorem firstOut_mem {s : State} (h : 2 ≤ s.heap.length) : firstOut s ∈ s.heap := slot_mem (by omega)

theorem secondOut_mem {s : State} (h : 2 ≤ s.heap.length) : secondOut s ∈ s.heap :=
  heapRemove_subset (slot_mem (by rw [heapRemove_length]; omega))

theorem heapWithoutTwo_subset {s : State} {m : NodeIdx} (h : m ∈ heapWithoutTwo s) : m ∈ s.heap :=
  heapRemove_subset (heapRemove_subset h)

/-- From a queue with the heap property the two nodes out are the two least, in order. -/
theorem merge_least {s : State} (h : 2 ≤ s.heap.length) (ho : HeapOrdered (keyOf s) s.heap) :
    keyOf s (firstOut s) ≤ keyOf s (secondOut s) ∧ ∀ m ∈ heapWithoutTwo s, keyOf s (secondOut s) ≤ keyOf s m :=
  ⟨ho.root_least _ (secondOut_mem h), fun _ hm => (heapRemove_ordered ho).root_least _ (heapRemove_subset hm)⟩

/-- With two nodes queued MergeStep takes two out and goes on. -/
theorem mergeStep_two {s : State} (h : 2 ≤ s.heap.length) :
    mergeStep s = mergeNodes (firstOut s) (secondOut s) { s with heap := heapWithoutTwo s } := by
  have hr : (heapRemove (keyOf s) s.heap).length ≠ 0 := by rw [heapRemove_length]; omega
  rw [mergeStep, if_neg (by omega), pqRemoveNode_nonempty (by omega), andThen_done, pqRemoveNode_nonempty hr,
    andThen_done]
  rfl

theorem mergeNodes_done {a b : NodeIdx} {s : State} (hn : s.nodes.length ≠ 511) (hh : s.heap.length ≠ 256)
    (hf : (keyOf s a).toNat + (keyOf s b).toNat ≤ 2 ^ 32 - 1) :
    mergeNodes a b s = .done (BitVec.ofNat 9 s.nodes.length)
      { s with
        nodes := s.nodes ++ [internalNode (keyOf s a + keyOf s b) a b]
        heap := heapInsert (keyOf { s with nodes := s.nodes ++ [internalNode (keyOf s a + keyOf s b) a b] })
          (BitVec.ofNat 9 s.nodes.length) s.heap } := by
  rw [mergeNodes, Config.nodeCap, if_neg hn, if_neg (by omega), allocNode_room hn, andThen_done,
    pqInsertNode_room (by exact hh), andThen_done]

theorem mergeNodes_full {a b : NodeIdx} {s : State} (hn : s.nodes.length = 511) :
    mergeNodes a b s = .raise .arenaFull 511#32 s := by
  rw [mergeNodes, Config.nodeCap, if_pos hn, hn]

theorem mergeNodes_overflow {a b : NodeIdx} {s : State} (hn : s.nodes.length ≠ 511)
    (hf : (keyOf s a).toNat + (keyOf s b).toNat > 2 ^ 32 - 1) :
    mergeNodes a b s = .raise .freqOverflow ((b.setWidth 32 <<< 16) ||| a.setWidth 32) s := by
  rw [mergeNodes, Config.nodeCap, if_neg hn, if_pos hf]

/-- MergeStep, where the arena has room, the sum fits and the queue is within its capacity. -/
theorem mergeStep_done {s : State} (h : 2 ≤ s.heap.length) (hc : s.heap.length ≤ 256)
    (hn : s.nodes.length ≠ 511)
    (hf : (keyOf s (firstOut s)).toNat + (keyOf s (secondOut s)).toNat ≤ 2 ^ 32 - 1) :
    mergeStep s = .done (BitVec.ofNat 9 s.nodes.length) (mergedState s) := by
  have hw := heapWithoutTwo_length s
  rw [mergeStep_two h]
  exact mergeNodes_done hn (by show (heapWithoutTwo s).length ≠ 256; omega) hf

/-- MergeStep's errors, in their order. -/
theorem mergeStep_underflow {s : State} (h : s.heap.length < 2) :
    mergeStep s = .raise .mergeUnderflow (BitVec.ofNat 32 s.heap.length) s := by
  rw [mergeStep, if_pos h]

theorem mergeStep_full {s : State} (h : 2 ≤ s.heap.length) (hn : s.nodes.length = 511) :
    mergeStep s = .raise .arenaFull 511#32 { s with heap := heapWithoutTwo s } := by
  rw [mergeStep_two h]
  exact mergeNodes_full hn

theorem mergeStep_overflow {s : State} (h : 2 ≤ s.heap.length) (hn : s.nodes.length ≠ 511)
    (hf : (keyOf s (firstOut s)).toNat + (keyOf s (secondOut s)).toNat > 2 ^ 32 - 1) :
    mergeStep s = .raise .freqOverflow (((secondOut s).setWidth 32 <<< 16) ||| (firstOut s).setWidth 32)
      { s with heap := heapWithoutTwo s } := by
  rw [mergeStep_two h]
  exact mergeNodes_overflow hn hf

/-- Everything MergeStep can do to a queue within its capacity. -/
theorem mergeStep_sat (s : State) (hc : s.heap.length ≤ 256) :
    (mergeStep s).Sat
      (fun n t => 2 ≤ s.heap.length ∧ s.nodes.length ≠ 511 ∧ n = BitVec.ofNat 9 s.nodes.length ∧ t = mergedState s
        ∧ (keyOf s (firstOut s)).toNat + (keyOf s (secondOut s)).toNat ≤ 2 ^ 32 - 1)
      (fun e _ t => (s.heap.length < 2 ∧ e = .mergeUnderflow ∧ t = s)
        ∨ (2 ≤ s.heap.length ∧ (e = .arenaFull ∨ e = .freqOverflow) ∧ t = { s with heap := heapWithoutTwo s }))
      (fun _ => False) False := by
  by_cases h : s.heap.length < 2
  · simp [mergeStep_underflow h, h]
  · by_cases hn : s.nodes.length = 511
    · rw [mergeStep_full (by omega) hn]
      exact .inr ⟨by omega, .inl rfl, rfl⟩
    · by_cases hf : (keyOf s (firstOut s)).toNat + (keyOf s (secondOut s)).toNat ≤ 2 ^ 32 - 1
      · rw [mergeStep_done (by omega) hc hn hf]
        exact ⟨by omega, hn, rfl, rfl, hf⟩
      · rw [mergeStep_overflow (by omega) hn (by omega)]
        exact .inr ⟨by omega, .inr rfl, rfl⟩

/-- What one merge makes of arena and queue. -/
theorem mergedState_heap_perm (s : State) :
    (mergedState s).heap.Perm (BitVec.ofNat 9 s.nodes.length :: heapWithoutTwo s) := heapInsert_perm _ _ _

theorem mergedState_heap_length {s : State} (h : 2 ≤ s.heap.length) :
    (mergedState s).heap.length = s.heap.length - 1 := by
  rw [(mergedState_heap_perm s).length_eq, List.length_cons, heapWithoutTwo_length]; omega

theorem mergedState_nodes_length (s : State) : (mergedState s).nodes.length = s.nodes.length + 1 := by
  simp [mergedState, mergedNodes]

/-- An allocated node keeps its key through a merge. -/
theorem keyOf_mergedState {s : State} {i : NodeIdx} (h : i.toNat < s.nodes.length) :
    keyOf (mergedState s) i = keyOf s i := keyOf_append (more := [_]) rfl h

theorem keyOf_merged {s : State} (h : s.nodes.length < 512) :
    keyOf (mergedState s) (BitVec.ofNat 9 s.nodes.length) = keyOf s (firstOut s) + keyOf s (secondOut s) := by
  simp only [keyOf, nodeAt, mergedState, mergedNodes]
  rw [nodeIn_last h]; rfl

/-- A merge keeps the heap property. -/
theorem mergedState_ordered {s : State} (ha : ∀ m ∈ s.heap, m.toNat < s.nodes.length)
    (ho : HeapOrdered (keyOf s) s.heap) : HeapOrdered (keyOf (mergedState s)) (mergedState s).heap := by
  refine heapInsert_ordered _ (HeapOrdered.congr (key := keyOf s) (fun m hm => ?_)
    (heapRemove_ordered (heapRemove_ordered ho)))
  exact (keyOf_append (t := { s with nodes := mergedNodes s }) (more := [_]) rfl (ha m (heapWithoutTwo_subset hm))).symm

/-- After a merge every queued node is allocated. -/
theorem mergedState_allocated {s : State} (h : s.nodes.length < 512) (ha : ∀ m ∈ s.heap, m.toNat < s.nodes.length) :
    ∀ m ∈ (mergedState s).heap, m.toNat < (mergedState s).nodes.length := by
  intro m hm
  rw [mergedState_nodes_length]
  rcases List.mem_cons.1 ((mergedState_heap_perm s).mem_iff.1 hm) with rfl | hm
  · rw [ofNat_toNat_of_lt h]; omega
  · exact Nat.lt_succ_of_lt (ha m (heapWithoutTwo_subset hm))

/-- A merge keeps the sum of the queued frequencies, where it fits. -/
theorem mergedState_queuedFreq {s : State} (h : 2 ≤ s.heap.length) (hn : s.nodes.length < 512)
    (ha : ∀ m ∈ s.heap, m.toNat < s.nodes.length)
    (hf : (keyOf s (firstOut s)).toNat + (keyOf s (secondOut s)).toNat ≤ 2 ^ 32 - 1) :
    queuedFreq (mergedState s) = queuedFreq s := by
  have hsum : (keyOf s (firstOut s) + keyOf s (secondOut s)).toNat
      = (keyOf s (firstOut s)).toNat + (keyOf s (secondOut s)).toNat := by
    rw [BitVec.toNat_add, Nat.mod_eq_of_lt]; omega
  have hrest : (heapWithoutTwo s).map (fun m => (keyOf (mergedState s) m).toNat)
      = (heapWithoutTwo s).map (fun m => (keyOf s m).toNat) :=
    List.map_congr_left fun m hm => by rw [keyOf_mergedState (ha m (heapWithoutTwo_subset hm))]
  rw [queuedFreq, ((mergedState_heap_perm s).map _).sum_eq, queuedFreq, ((merge_perm h).map _).sum_eq]
  simp only [List.map_cons, List.sum_cons, hrest, keyOf_merged hn, hsum]
  omega

/-- A merge joins the two trees it takes out. -/
theorem mergedState_forest {s : State} {Ts : List CodeTree} (h : 2 ≤ s.heap.length) (hn : s.nodes.length < 512)
    (hF : Forest s.nodes s.heap Ts) :
    ∃ l r rest, Ts.Perm (l :: r :: rest) ∧ HoldsTree s.nodes (firstOut s) l ∧ HoldsTree s.nodes (secondOut s) r
      ∧ Forest s.nodes (heapWithoutTwo s) rest
      ∧ Forest (mergedState s).nodes (BitVec.ofNat 9 s.nodes.length :: heapWithoutTwo s) (.node l r :: rest) := by
  obtain ⟨Ts', hF', hp⟩ := hF.perm (merge_perm h).symm
  obtain ⟨l, Ts1, hl, hF1, rfl⟩ := List.forall₂_cons_left_iff.1 hF'
  obtain ⟨r, rest, hr, hF2, rfl⟩ := List.forall₂_cons_left_iff.1 hF1
  exact ⟨l, r, rest, hp.symm, hl, hr, hF2, .cons (.newInternal _ hn hl hr) (Forest.append hF2)⟩

/-! ### TB_BUILD's merges -/

/-- What TB_BUILD's loop makes of a queue whose frequencies' sum fits, where the arena has room. -/
theorem mergeAll_done : ∀ (fuel : Nat) (s : State), s.heap.length ≤ fuel → s.heap.length ≤ 256 →
    (∀ m ∈ s.heap, m.toNat < s.nodes.length) → s.nodes.length ≤ 511 →
    s.nodes.length + (s.heap.length - 1) ≤ 511 → queuedFreq s ≤ 2 ^ 32 - 1 →
    ∃ t, mergeAll fuel s = .done () t
      ∧ t = { s with nodes := t.nodes, heap := t.heap }
      ∧ s.nodes <+: t.nodes ∧ t.nodes.length = s.nodes.length + (s.heap.length - 1)
      ∧ t.heap.length = min s.heap.length 1
      ∧ (s.heap.length ≤ 1 → t = s)
      ∧ (2 ≤ s.heap.length → t.heap = [BitVec.ofNat 9 (t.nodes.length - 1)])
      ∧ (∀ m ∈ t.heap, m.toNat < t.nodes.length) ∧ queuedFreq t = queuedFreq s
      ∧ ∀ Ts, Forest s.nodes s.heap Ts → ∃ Us, Forest t.nodes t.heap Us
        ∧ (Us.flatMap CodeTree.symbols).Perm (Ts.flatMap CodeTree.symbols)
  | 0, s, hfuel, _, ha, _, _, _ => by
    have h0 : s.heap.length = 0 := by omega
    refine ⟨s, rfl, rfl, List.prefix_rfl, by omega, by omega, fun _ => rfl, by omega, ha, rfl, ?_⟩
    exact fun Ts hT => ⟨Ts, hT, .refl _⟩
  | fuel + 1, s, hfuel, hc, ha, hn, hroom, hsum => by
    rw [mergeAll]
    split
    · rename_i h2
      have hab : (keyOf s (firstOut s)).toNat + (keyOf s (secondOut s)).toNat ≤ 2 ^ 32 - 1 := by
        have := ((merge_perm (s := s) h2).map fun m => (keyOf s m).toNat).sum_eq
        simp only [List.map_cons, List.sum_cons] at this
        rw [queuedFreq] at hsum
        omega
      have hnl := mergedState_nodes_length s
      have hhl := mergedState_heap_length (s := s) h2
      obtain ⟨t, he, hfr, hpre, hlen, hhlen, h1, h2', hal, hq, hF⟩ :=
        mergeAll_done fuel (mergedState s) (by omega) (by omega)
          (mergedState_allocated (by omega) ha) (by omega) (by omega)
          (by rw [mergedState_queuedFreq h2 (by omega) ha hab]; exact hsum)
      refine ⟨t, ?_, ?_, ?_, by omega, by omega, by omega, fun _ => ?_, hal, ?_, fun Ts hT => ?_⟩
      · rw [mergeStep_done h2 hc (by omega) hab, andThen_done, he]
      · rw [hfr]; rfl
      · exact (List.prefix_append _ _).trans hpre
      · rcases Nat.lt_or_ge 2 s.heap.length with h3 | h3
        · exact h2' (by omega)
        · rw [h1 (by omega)]
          have hw : heapWithoutTwo s = [] := List.eq_nil_of_length_eq_zero (by rw [heapWithoutTwo_length]; omega)
          have := mergedState_heap_perm s
          rw [hw] at this
          rw [List.perm_singleton.1 this, mergedState_nodes_length, Nat.add_sub_cancel]
      · rw [hq, mergedState_queuedFreq h2 (by omega) ha hab]
      · obtain ⟨l, r, rest, hp, _, _, _, hFm⟩ := mergedState_forest h2 (by omega) hT
        obtain ⟨Ts', hF', hp'⟩ := hFm.perm (mergedState_heap_perm s)
        obtain ⟨Us, hU, hUp⟩ := hF Ts' hF'
        refine ⟨Us, hU, hUp.trans ((hp'.flatMap_right _).trans (List.Perm.trans ?_ (hp.flatMap_right _).symm))⟩
        simp [CodeTree.symbols_node]
    · rename_i h2
      refine ⟨s, rfl, rfl, List.prefix_rfl, by omega, by omega, fun _ => rfl, by omega, ha, rfl, ?_⟩
      exact fun Ts hT => ⟨Ts, hT, .refl _⟩

/-- Everything TB_BUILD's loop can do to a queue within its capacity: it only merges, and a queue with the heap
property over allocated nodes keeps it. -/
theorem mergeAll_sat : ∀ (fuel : Nat) (s : State), s.heap.length ≤ 256 →
    (mergeAll fuel s).Sat
      (fun _ t => t = { s with nodes := t.nodes, heap := t.heap } ∧ s.nodes <+: t.nodes ∧ t.heap.length ≤ s.heap.length)
      (fun e _ t => (e = .arenaFull ∨ e = .freqOverflow) ∧ t = { s with nodes := t.nodes, heap := t.heap }
        ∧ s.nodes <+: t.nodes ∧ t.nodes.length + t.heap.length + 2 = s.nodes.length + s.heap.length)
      (fun _ => False) False
  | 0, s, _ => by simp [mergeAll]
  | fuel + 1, s, hc => by
    rw [mergeAll]
    split
    · rename_i h2
      have hm := mergeStep_sat s hc
      rcases hr : mergeStep s with ⟨n, t⟩ | ⟨e, arg, t⟩ | t | f <;> rw [hr] at hm
      · obtain ⟨-, -, -, rfl, -⟩ := hm
        have hl := mergedState_heap_length (s := s) h2
        have hpre : s.nodes <+: (mergedState s).nodes := List.prefix_append _ _
        rw [andThen_done]
        refine (mergeAll_sat fuel _ (by omega)).mono ?_ ?_ (fun _ h => h) id
        · rintro _ t ⟨ht, hp, hh⟩
          exact ⟨by rw [ht]; rfl, hpre.trans hp, by omega⟩
        · rintro e _ t ⟨he, ht, hp, hh⟩
          rw [mergedState_nodes_length] at hh
          exact ⟨he, by rw [ht]; rfl, hpre.trans hp, by omega⟩
      · rcases hm with ⟨h, -, -⟩ | ⟨-, he, rfl⟩
        · omega
        · refine ⟨he, rfl, List.prefix_rfl, ?_⟩
          show s.nodes.length + (heapWithoutTwo s).length + 2 = _
          rw [heapWithoutTwo_length]; omega
      · exact hm
      · exact hm
    · exact ⟨rfl, List.prefix_rfl, Nat.le_refl _⟩

/-- The two nodes a merge takes out have at most the queue's sum. -/
theorem mergedFreq_le {s : State} (h : 2 ≤ s.heap.length) :
    (keyOf s (firstOut s)).toNat + (keyOf s (secondOut s)).toNat ≤ queuedFreq s := by
  rw [queuedFreq, ((merge_perm h).map _).sum_eq]
  simp only [List.map_cons, List.sum_cons]
  omega

/-- A MergeStep that succeeds is one that `MergesInto` describes. -/
theorem mergesInto_mergedState {s : State} (h : 2 ≤ s.heap.length) (hn : s.nodes.length ≠ 511)
    (hf : (keyOf s (firstOut s)).toNat + (keyOf s (secondOut s)).toNat ≤ 2 ^ 32 - 1) : MergesInto s (mergedState s) :=
  ⟨_, _, _, _, h, rfl, heapRemove_removedDown _ _, rfl, heapRemove_removedDown _ _, hn, hf, heapInsert_insertedUp _ _ _,
    rfl⟩

/-- What merges over allocated nodes keep: the nodes and the queued nodes together, and the sum of the queued
frequencies. -/
structure MergesKept (s t : State) : Prop where
  count : t.nodes.length + t.heap.length = s.nodes.length + s.heap.length
  room : t.nodes.length ≤ 511
  sum : queuedFreq t = queuedFreq s

/-- Everything TB_BUILD's loop can do, by its merges: it ends with at most one node queued, or at the merge that
raises (R108). -/
theorem mergeAll_merged : ∀ (fuel : Nat) (s : State), s.heap.length ≤ fuel → s.heap.length ≤ 256 →
    (mergeAll fuel s).Sat
      (fun _ t => Merged s t ∧ t.heap.length ≤ 1
        ∧ ((∀ m ∈ s.heap, m.toNat < s.nodes.length) → s.nodes.length ≤ 511 → MergesKept s t))
      (fun e arg t => ∃ u, Merged s u ∧ MergeRaises e arg u t ∧ (e = .freqOverflow → 2 ^ 32 - 1 < queuedFreq u)
        ∧ ((∀ m ∈ s.heap, m.toNat < s.nodes.length) → s.nodes.length ≤ 511 → MergesKept s u))
      (fun _ => False) False
  | 0, s, h, _ => ⟨.done s, by omega, fun _ hn => ⟨rfl, hn, rfl⟩⟩
  | fuel + 1, s, h, hc => by
    rw [mergeAll]
    split
    · rename_i h2
      have h2 : 2 ≤ s.heap.length := h2
      have removed : ∀ {e : ErrKind} {arg : Word}, ((nodeCount s = 511 ∧ e = .arenaFull ∧ arg = 511#32)
          ∨ (nodeCount s ≠ 511 ∧ 2 ^ 32 - 1 < (keyOf s (firstOut s)).toNat + (keyOf s (secondOut s)).toNat
            ∧ e = .freqOverflow ∧ arg = ((secondOut s).setWidth 32 <<< 16) ||| (firstOut s).setWidth 32)) →
          MergeRaises e arg s { s with heap := heapWithoutTwo s } := fun he =>
        ⟨_, _, _, _, h2, rfl, heapRemove_removedDown _ _, rfl, heapRemove_removedDown _ _, rfl, he⟩
      by_cases hn : s.nodes.length = 511
      · rw [mergeStep_full h2 hn]
        exact ⟨s, .done s, removed (.inl ⟨hn, rfl, rfl⟩), fun he => (nomatch he), fun _ hn => ⟨rfl, hn, rfl⟩⟩
      · by_cases hf : (keyOf s (firstOut s)).toNat + (keyOf s (secondOut s)).toNat ≤ 2 ^ 32 - 1
        · have hm := mergesInto_mergedState h2 hn hf
          have hl := mergedState_heap_length h2
          have hnl := mergedState_nodes_length s
          rw [mergeStep_done h2 hc hn hf, andThen_done]
          have kept : ∀ {u : State}, ((∀ m ∈ (mergedState s).heap, m.toNat < (mergedState s).nodes.length) →
              (mergedState s).nodes.length ≤ 511 → MergesKept (mergedState s) u) →
              (∀ m ∈ s.heap, m.toNat < s.nodes.length) → s.nodes.length ≤ 511 → MergesKept s u := fun hk ha hn' => by
            obtain ⟨k1, k2, k3⟩ := hk (mergedState_allocated (by omega) ha) (by omega)
            exact ⟨by omega, k2, k3.trans (mergedState_queuedFreq h2 (by omega) ha hf)⟩
          refine (mergeAll_merged fuel _ (by omega) (by omega)).mono ?_ ?_ (fun _ h => h) id
          · rintro _ t ⟨ht, h1, hk⟩
            exact ⟨.step _ _ _ hm ht, h1, kept hk⟩
          · rintro e arg t ⟨u, hu, hr, he, hk⟩
            exact ⟨u, .step _ _ _ hm hu, hr, he, kept hk⟩
        · rw [mergeStep_overflow h2 hn (by omega)]
          exact ⟨s, .done s, removed (.inr ⟨hn, by omega, rfl, rfl⟩),
            fun _ => Nat.lt_of_lt_of_le (by omega) (mergedFreq_le h2), fun _ hn => ⟨rfl, hn, rfl⟩⟩
    · exact ⟨.done s, by omega, fun _ hn => ⟨rfl, hn, rfl⟩⟩

/-! ### TB_LOAD_LEAVES's leaves -/

/-- The byte values of a list with a nonzero frequency. -/
def usedIn (s : State) (bs : List Byte) : List Byte := bs.filter fun b => freqAt s b ≠ 0#32

theorem usedIn_length_le (s : State) (bs : List Byte) : (usedIn s bs).length ≤ bs.length := List.length_filter_le _ _

/-- What TB_LOAD_LEAVES's loop does where arena and queue have room: a leaf for each byte value of nonzero frequency,
in order, each queued. -/
theorem loadLeaves_done : ∀ (bs : List Byte) (k : Nat) (s : State),
    s.nodes.length + (usedIn s bs).length ≤ 511 → s.heap.length + (usedIn s bs).length ≤ 256 →
    ∃ t, loadLeaves bs k s = .done (k + (usedIn s bs).length) t
      ∧ t = { s with nodes := t.nodes, heap := t.heap }
      ∧ t.nodes = s.nodes ++ (usedIn s bs).map (fun b => leafNode b (freqAt s b))
      ∧ t.heap.Perm (s.heap ++ (List.range' s.nodes.length (usedIn s bs).length).map (BitVec.ofNat 9))
      ∧ ((∀ m ∈ s.heap, m.toNat < s.nodes.length) → HeapOrdered (keyOf s) s.heap → HeapOrdered (keyOf t) t.heap)
      ∧ ∀ ns : List NodeIdx, (∀ m ∈ ns, m.toNat < s.nodes.length) → InsertedInTurn (keyOf s) ns s.heap →
        InsertedInTurn (keyOf t) (ns ++ (List.range' s.nodes.length (usedIn s bs).length).map (BitVec.ofNat 9)) t.heap
  | [], k, s, _, _ => by
    exact ⟨s, rfl, rfl, by simp [usedIn], by simp [usedIn], fun _ h => h, fun ns _ h => by
      simpa [usedIn] using h⟩
  | b :: rest, k, s, hn, hh => by
    rw [loadLeaves]
    by_cases h0 : freqAt s b = 0#32
    · have hu : usedIn s (b :: rest) = usedIn s rest := by simp [usedIn, h0]
      rw [if_pos h0, hu]
      rw [hu] at hn hh
      exact loadLeaves_done rest k s hn hh
    · have hu : usedIn s (b :: rest) = b :: usedIn s rest := by simp [usedIn, h0]
      rw [hu, List.length_cons] at hn hh
      rw [if_neg h0, allocNode_room (by omega), andThen_done, pqInsertNode_room (by simp only; omega), andThen_done]
      generalize hs2 : State.mk .. = s₂
      have hf2 : ∀ c, freqAt s₂ c = freqAt s c := fun c => by rw [← hs2]; rfl
      have hu2 : usedIn s₂ rest = usedIn s rest := by simp [usedIn, hf2]
      have hn2 : s₂.nodes = s.nodes ++ [leafNode b (freqAt s b)] := by rw [← hs2]
      have hh2 : s₂.heap.Perm (BitVec.ofNat 9 s.nodes.length :: s.heap) := by rw [← hs2]; exact heapInsert_perm _ _ _
      have hl2 := hh2.length_eq
      simp only [List.length_cons] at hl2
      obtain ⟨t, he, hfr, hnodes, hheap, hord, hturn⟩ := loadLeaves_done rest (k + 1) s₂
        (by rw [hu2, hn2, List.length_append, List.length_singleton]; omega) (by rw [hu2]; omega)
      refine ⟨t, ?_, ?_, ?_, ?_, fun ha ho => hord ?_ ?_, fun ns ha hi => ?_⟩
      · rw [he, hu, hu2, List.length_cons]; congr 1; omega
      · rw [hfr, ← hs2]
      · rw [hnodes, hn2, hu2, hu]; simp [hf2]
      · refine hheap.trans ?_
        rw [hu2, hn2, hu, List.length_cons, List.range'_succ, List.map_cons, List.length_append, List.length_singleton]
        exact (hh2.append_right _).trans List.perm_middle.symm
      · intro m hm
        rw [hn2, List.length_append, List.length_singleton]
        rcases List.mem_cons.1 (hh2.mem_iff.1 hm) with rfl | hm
        · rw [ofNat_toNat_of_lt (by omega)]; omega
        · exact Nat.lt_succ_of_lt (ha m hm)
      · have hk2 : HeapOrdered (keyOf s₂) s.heap := ho.congr fun m hm => (keyOf_append hn2 (ha m hm)).symm
        have hk : keyOf s₂ = keyOf { s with nodes := s.nodes ++ [leafNode b (freqAt s b)] } := keyOf_congr hn2
        rw [hk] at hk2 ⊢
        rw [← hs2]
        exact heapInsert_ordered _ hk2
      · have hk : keyOf s₂ = keyOf { s with nodes := s.nodes ++ [leafNode b (freqAt s b)] } := keyOf_congr hn2
        have hi2 : InsertedInTurn (keyOf s₂) ns s.heap := hi.congr fun m hm => (keyOf_append hn2 (ha m hm)).symm
        have hins : InsertedUp (keyOf s₂) (BitVec.ofNat 9 s.nodes.length) s.heap s₂.heap := by
          rw [hk, ← hs2]; exact heapInsert_insertedUp _ _ _
        have := hturn (ns ++ [BitVec.ofNat 9 s.nodes.length]) (fun m hm => by
          rw [hn2, List.length_append, List.length_singleton]
          rcases List.mem_append.1 hm with hm | hm
          · exact Nat.lt_succ_of_lt (ha m hm)
          · rw [List.mem_singleton.1 hm, ofNat_toNat_of_lt (by omega)]; omega) (.insert _ _ _ _ hi2 hins)
        rw [hu2, hn2, List.length_append, List.length_singleton] at this
        rw [hu, List.length_cons, List.range'_succ, List.map_cons]
        simpa using this

theorem allBytes_length : allBytes.length = 256 := by simp [allBytes]

theorem mem_allBytes (b : Byte) : b ∈ allBytes := by
  simp only [allBytes, List.mem_map, List.mem_range]
  exact ⟨b.toNat, b.isLt, by simp⟩

theorem allBytes_nodup : allBytes.Nodup := by
  rw [allBytes, List.nodup_map_iff_inj_on List.nodup_range]
  intro a ha b hb h
  have := congrArg BitVec.toNat h
  simp only [BitVec.toNat_ofNat, List.mem_range] at *
  omega

theorem usedBytes_length_le (s : State) : (usedBytes s).length ≤ 256 :=
  allBytes_length ▸ List.length_filter_le _ allBytes

/-- TB_LOAD_LEAVES's loop from the cleared tree never meets a full arena or a full queue (R106). -/
theorem loadLeaves_all (s : State) :
    ∃ t, loadLeaves allBytes 0 (treeClear s) = .done (usedBytes s).length t
      ∧ t = { treeClear s with nodes := t.nodes, heap := t.heap }
      ∧ t.nodes = (usedBytes s).map (fun b => leafNode b (freqAt s b))
      ∧ t.heap.Perm ((List.range (usedBytes s).length).map (BitVec.ofNat 9))
      ∧ HeapOrdered (keyOf t) t.heap
      ∧ InsertedInTurn (keyOf t) ((List.range (usedBytes s).length).map (BitVec.ofNat 9)) t.heap := by
  have hu : usedIn (treeClear s) allBytes = usedBytes s := rfl
  have hl := usedBytes_length_le s
  obtain ⟨t, he, hfr, hn, hh, ho, hi⟩ := loadLeaves_done allBytes 0 (treeClear s)
    (by rw [hu]; simp [treeClear]; omega) (by rw [hu]; simp [treeClear]; omega)
  refine ⟨t, by simpa [hu] using he, hfr, by rw [hn, hu]; rfl, ?_, ?_, ?_⟩
  · rw [hu] at hh
    simpa [treeClear, List.range_eq_range'] using hh
  · exact ho (by simp [treeClear]) (heapOrdered_nil _)
  · have := hi [] (by simp) .nil
    rw [hu] at this
    simpa [treeClear, List.range_eq_range'] using this

end Sys2Proof.Machine
end

