-- ==== Sys2Proof/Laws/Unpacker.lean ====
section
/-! SUPPORT. The unpacker as a descent of the tree: what decoding the bits of codes emits, and what decoding any bits can
do (47_bit_unpacker R129, R132). -/

namespace Sys2Proof.Machine

/-! ### One bit -/

theorem emitSym_open (v : Byte) (s : State) (h : s.outRoom = none) :
    emitSym v s = .done (0x100#32 ||| v.setWidth 32) (putByte v s) := by
  rw [emitSym, emit_open v h, andThen_done]

theorem symResult_ne_zero (v : Byte) : 0x100#32 ||| v.setWidth 32 ≠ 0#32 := by
  intro h
  have := congrArg (fun w : Word => w.getLsbD 8) h
  simp at this

/-- A bit on a tree that is a single leaf. -/
theorem decodeBit_single {s : State} {r : Node} (h0 : s.root ≠ Config.nil) (hr : s.nodes[s.root.toNat]? = some r)
    (hl : r.leaf = true) (x : BitVec 1) (pos : Word) :
    decodeBit x pos s = if x = 0#1 then emitSym r.sym s else .raise .fmtBadCode pos s := by
  simp only [decodeBit, if_neg h0, isLeaf, nodeAt_of_getElem? hr, hl, if_true]

/-- A bit on a tree with an internal root. -/
theorem decodeBit_internal {s : State} {r c n : Node} {nx : NodeIdx} (h0 : s.root ≠ Config.nil)
    (hr : s.nodes[s.root.toNat]? = some r) (hl : r.leaf = false) (hc : s.nodes[s.buCur.toNat]? = some c) (x : BitVec 1)
    (hx : nx = childOf x c) (hn : s.nodes[nx.toNat]? = some n) (pos : Word) :
    decodeBit x pos s = if n.leaf then (emitSym n.sym s).andThen fun r s' => .done r { s' with buCur := s'.root }
      else .done 0#32 { s with buCur := nx } := by
  subst hx
  simp only [decodeBit, if_neg h0, isLeaf, nodeAt_of_getElem? hr, hl, Bool.false_eq_true, if_false,
    nodeAt_of_getElem? hc, nodeAt_of_getElem? hn]

/-! ### The bits of codes -/

theorem CodeTree.codes_ne_nil {T : CodeTree} {c : Byte × List Bool} (h : c ∈ T.codes) : c.2 ≠ [] := by
  cases T with
  | leaf v => simp [CodeTree.codes] at h; simp [h]
  | node l r =>
    simp only [CodeTree.codes, CodeTree.paths, List.mem_append, List.mem_map] at h
    rcases h with ⟨_, _, rfl⟩ | ⟨_, _, rfl⟩ <;> simp

theorem nodeAlong_nil (nodes : List Node) (root : NodeIdx) : nodeAlong nodes root [] = root := rfl

/-- One bit further. -/
theorem nodeAlong_snoc {nodes : List Node} {root : NodeIdx} {q : List Bool} {m : Node} (b : Bool)
    (hm : nodes[(nodeAlong nodes root q).toNat]? = some m) :
    nodeAlong nodes root (q ++ [b]) = childOf (BitVec.ofBool b) m := by
  rw [nodeAlong, List.foldl_append]
  show (if b = true then (nodeIn nodes (nodeAlong nodes root q)).right else (nodeIn nodes (nodeAlong nodes root q)).left) = _
  rw [nodeIn_of_getElem? hm]
  cases b <;> rfl

/-- The cursor is where the bits `bs` decode to the leaves of `msg`: at the root between codes, or inside the code of
the first, where that code's first bits `q` lead. -/
def Follows (nodes : List Node) (root : NodeIdx) (T : CodeTree) (cur : NodeIdx) (msg : List (Byte × List Bool))
    (bs : List Bool) : Prop :=
  (cur = root ∧ bs = msg.flatMap Prod.snd ∧ ∀ c ∈ msg, c ∈ T.codes)
  ∨ ∃ l r c p msg', (∃ a b, T = .node a b) ∧ HoldsTree nodes cur (.node l r) ∧ msg = c :: msg'
      ∧ (c.1, p) ∈ (CodeTree.node l r).paths ∧ bs = p ++ msg'.flatMap Prod.snd ∧ (∀ d ∈ msg', d ∈ T.codes)
      ∧ ∃ q, q ≠ [] ∧ c.2 = q ++ p ∧ cur = nodeAlong nodes root q

/-- With no bits left every leaf has been emitted and the cursor is at the root. -/
theorem Follows.end {nodes : List Node} {root cur : NodeIdx} {T : CodeTree} {msg : List (Byte × List Bool)}
    (h : Follows nodes root T cur msg []) : cur = root ∧ msg = [] := by
  rcases h with ⟨hc, hb, hm⟩ | ⟨l, r, c, p, msg', _, _, _, hp, hb, _, _⟩
  · refine ⟨hc, ?_⟩
    rcases msg with _ | ⟨c, msg⟩
    · rfl
    · have := CodeTree.codes_ne_nil (hm c (by simp))
      simp at hb
      exact absurd hb.1 this
  · have := (List.append_eq_nil_iff.1 hb.symm).1
    subst this
    simp [CodeTree.paths] at hp

/-- One bit of a code is decoded: it ends the first leaf's code, whose symbol is emitted, or the descent goes on. -/
theorem decodeBit_follows {s : State} {T : CodeTree} (h0 : s.root ≠ Config.nil) (hT : HoldsTree s.nodes s.root T)
    (ho : s.outRoom = none) {b : Bool} {bs : List Bool} {msg : List (Byte × List Bool)}
    (h : Follows s.nodes s.root T s.buCur msg (b :: bs)) (pos : Word) :
    (∃ r c msg', decodeBit (BitVec.ofBool b) pos s = .done r { putByte c.1 s with buCur := s.root } ∧ r ≠ 0#32
      ∧ msg = c :: msg' ∧ Follows s.nodes s.root T s.root msg' bs)
    ∨ ∃ nx, decodeBit (BitVec.ofBool b) pos s = .done 0#32 { s with buCur := nx }
      ∧ Follows s.nodes s.root T nx msg bs := by
  cases T with
  | leaf v =>
    obtain ⟨r, hr, hl, rfl⟩ : ∃ n, s.nodes[s.root.toNat]? = some n ∧ n.leaf = true ∧ n.sym = v := by
      cases hT with | leaf _ n hn hl => exact ⟨n, hn, hl, rfl⟩
    rcases h with ⟨hc, hb, hm⟩ | ⟨_, _, _, _, _, ⟨_, _, he⟩, _⟩
    · rcases msg with _ | ⟨c, msg⟩
      · simp at hb
      · have hcm := hm c (by simp)
        simp only [CodeTree.codes, List.mem_singleton] at hcm
        subst hcm
        simp only [List.flatMap_cons, List.singleton_append, List.cons.injEq] at hb
        obtain ⟨rfl, rfl⟩ := hb
        refine .inl ⟨0x100#32 ||| r.sym.setWidth 32, _, msg, ?_, symResult_ne_zero _, rfl, .inl ⟨rfl, rfl, ?_⟩⟩
        · rw [decodeBit_single h0 hr hl, if_pos (by rfl), emitSym_open _ _ ho]
          simp only [putByte, ← hc]
        · exact fun d hd => hm d (by simp [hd])
    · cases he
  | node a d =>
    have hin : ∃ l r c p msg', HoldsTree s.nodes s.buCur (.node l r) ∧ msg = c :: msg'
        ∧ (c.1, p) ∈ (CodeTree.node l r).paths ∧ b :: bs = p ++ msg'.flatMap Prod.snd
        ∧ (∀ d' ∈ msg', d' ∈ (CodeTree.node a d).codes)
        ∧ ∃ q, c.2 = q ++ p ∧ s.buCur = nodeAlong s.nodes s.root q := by
      rcases h with ⟨hc, hb, hm⟩ | ⟨l, r, c, p, msg', _, hrest⟩
      · rcases msg with _ | ⟨c, msg⟩
        · simp at hb
        · exact ⟨a, d, c, c.2, msg, hc ▸ hT, rfl, hm c (by simp), by simpa using hb, fun d' hd => hm d' (by simp [hd]), [],
            rfl, hc⟩
      · obtain ⟨h1, h2, h3, h4, h5, q, -, h6, h7⟩ := hrest
        exact ⟨l, r, c, p, msg', h1, h2, h3, h4, h5, q, h6, h7⟩
    obtain ⟨l, r, c, p, msg', hcur, rfl, hp, hb, hm, q₀, hq₀, hcq⟩ := hin
    obtain ⟨n, hn, hl⟩ : ∃ n, s.nodes[s.root.toNat]? = some n ∧ n.leaf = false := by
      cases hT with | node _ n _ _ hn hl _ _ => exact ⟨n, hn, hl⟩
    obtain ⟨m, hm', hml, hL, hR⟩ : ∃ m, s.nodes[s.buCur.toNat]? = some m ∧ m.leaf = false
        ∧ HoldsTree s.nodes m.left l ∧ HoldsTree s.nodes m.right r := by
      cases hcur with | node _ n _ _ hn hl hL hR => exact ⟨n, hn, hl, hL, hR⟩
    have halong : nodeAlong s.nodes s.root (q₀ ++ [b]) = childOf (BitVec.ofBool b) m := nodeAlong_snoc b (hcq ▸ hm')
    have key : ∀ (U : CodeTree) (p' : List Bool), HoldsTree s.nodes (childOf (BitVec.ofBool b) m) U → (c.1, p') ∈ U.paths →
        bs = p' ++ msg'.flatMap Prod.snd → p = b :: p' →
        (∃ r c' msg'', decodeBit (BitVec.ofBool b) pos s = .done r { putByte c'.1 s with buCur := s.root } ∧ r ≠ 0#32
          ∧ c :: msg' = c' :: msg'' ∧ Follows s.nodes s.root (.node a d) s.root msg'' bs)
        ∨ ∃ nx, decodeBit (BitVec.ofBool b) pos s = .done 0#32 { s with buCur := nx }
          ∧ Follows s.nodes s.root (.node a d) nx (c :: msg') bs := by
      intro U p' hU hp' hbs hpb
      cases U with
      | leaf v =>
        obtain ⟨k, hk, hkl, rfl⟩ : ∃ k, s.nodes[(childOf (BitVec.ofBool b) m).toNat]? = some k ∧ k.leaf = true
            ∧ k.sym = v := by
          cases hU with | leaf _ n hn hl => exact ⟨n, hn, hl, rfl⟩
        simp only [CodeTree.paths, List.mem_singleton, Prod.mk.injEq] at hp'
        obtain ⟨hv, rfl⟩ := hp'
        refine .inl ⟨0x100#32 ||| k.sym.setWidth 32, c, msg', ?_, symResult_ne_zero _, rfl, .inl ⟨rfl, by simpa using hbs, hm⟩⟩
        rw [decodeBit_internal h0 hn hl hm' _ rfl hk, if_pos hkl, emitSym_open _ _ ho, andThen_done, hv]
        rfl
      | node u v =>
        obtain ⟨k, hk, hkl⟩ : ∃ k, s.nodes[(childOf (BitVec.ofBool b) m).toNat]? = some k ∧ k.leaf = false := by
          cases hU with | node _ n _ _ hn hl _ _ => exact ⟨n, hn, hl⟩
        refine .inr ⟨_, ?_, .inr ⟨u, v, c, p', msg', ⟨a, d, rfl⟩, hU, rfl, hp', hbs, hm, q₀ ++ [b], by simp,
          by rw [hq₀, hpb]; simp, halong.symm⟩⟩
        rw [decodeBit_internal h0 hn hl hm' _ rfl hk, if_neg (by simp [hkl])]
    simp only [CodeTree.paths, List.mem_append, List.mem_map, Prod.mk.injEq] at hp
    rcases hp with ⟨q, hq, hq1, rfl⟩ | ⟨q, hq, hq1, rfl⟩ <;>
      simp only [List.cons_append, List.cons.injEq] at hb <;> obtain ⟨rfl, hbs⟩ := hb
    · exact key l q.2 hL (hq1 ▸ hq) hbs rfl
    · exact key r q.2 hR (hq1 ▸ hq) hbs rfl

/-- Bits `k` on of a payload byte, `n` of them. -/
def bitsFrom (y : Byte) (k n : Nat) : List Bool := (List.range' k n).map fun i => y.getLsbD (7 - i)

theorem bitsFrom_take (y : Byte) (n : Nat) (hn : n ≤ 8) : bitsFrom y 0 n = (byteBits y).take n := by
  have : ∀ m : Fin 9, bitsFrom y 0 m.1 = (byteBits y).take m.1 := by
    intro m
    fin_cases m <;> rfl
  exact this ⟨n, by omega⟩

theorem extract_ofBool (y : Byte) (i : Nat) : y.extractLsb' i 1 = BitVec.ofBool (y.getLsbD i) := by
  ext j hj
  have : j = 0 := by omega
  subst this
  simp

/-- From `s` to `t` the leaves of `msg` were emitted, and only the cursor moved besides. -/
structure Emitted (s : State) (msg : List (Byte × List Bool)) (t : State) : Prop where
  frame : t = { s with
    buCur := t.buCur, outSeq := s.outSeq ++ msg.map Prod.fst, outCount := s.outCount + BitVec.ofNat 32 msg.length }

theorem Emitted.trans {s t u : State} {xs ys : List (Byte × List Bool)} (h : Emitted s xs t) (h' : Emitted t ys u) :
    Emitted s (xs ++ ys) u := by
  refine ⟨?_⟩
  rw [h'.frame, h.frame]
  simp only [List.map_append, List.append_assoc, List.length_append]
  rw [BitVec.ofNat_add, BitVec.add_assoc]

theorem decodeBits_follows (y : Byte) (j : Nat) : ∀ (n k e : Nat) (s : State) (T : CodeTree) (msg : List (Byte × List Bool))
    (bs : List Bool), s.root ≠ Config.nil → HoldsTree s.nodes s.root T → s.outRoom = none →
    Follows s.nodes s.root T s.buCur msg (bitsFrom y k n ++ bs) →
    ∃ t msg₁ msg₂, decodeBits y j n k e s = .done (e + msg₁.length) t ∧ msg = msg₁ ++ msg₂ ∧ Emitted s msg₁ t
      ∧ Follows t.nodes t.root T t.buCur msg₂ bs
  | 0, k, e, s, T, msg, bs, _, _, _, h => ⟨s, [], msg, rfl, rfl, ⟨by simp⟩, by simpa [bitsFrom] using h⟩
  | n + 1, k, e, s, T, msg, bs, h0, hT, ho, h => by
    have hcons : bitsFrom y k (n + 1) ++ bs = y.getLsbD (7 - k) :: (bitsFrom y (k + 1) n ++ bs) := by
      simp [bitsFrom, List.range'_succ]
    rw [hcons] at h
    rw [decodeBits, extract_ofBool]
    rcases decodeBit_follows h0 hT ho h (bitPos j k) with ⟨r, c, msg', he, hr, rfl, hf⟩ | ⟨nx, he, hf⟩
    · obtain ⟨t, m1, m2, he', hm, hem, hf'⟩ := decodeBits_follows y j n (k + 1) (e + 1)
        { putByte c.1 s with buCur := s.root } T msg' bs h0 hT ho hf
      refine ⟨t, c :: m1, m2, ?_, by simp [hm], ?_, hf'⟩
      · rw [he, andThen_done, if_pos hr, he', List.length_cons]
        congr 1; omega
      · exact Emitted.trans (xs := [c]) (t := { putByte c.1 s with buCur := s.root }) ⟨rfl⟩ hem
    · obtain ⟨t, m1, m2, he', hm, hem, hf'⟩ := decodeBits_follows y j n (k + 1) e { s with buCur := nx } T msg bs h0 hT ho hf
      refine ⟨t, m1, m2, ?_, hm, ?_, hf'⟩
      · rw [he, andThen_done, if_neg (by simp), he']
      · exact ⟨by rw [hem.frame]⟩

/-- The payload's loop over bytes whose bits, less the last byte's padding, begin the codes of `msg` and leave `bs` of
them (R132). -/
theorem decodeBytes_partial : ∀ (bytes : List Byte) (j e : Nat) (s : State) (T : CodeTree) (msg : List (Byte × List Bool))
    (bs : List Bool), s.root ≠ Config.nil → HoldsTree s.nodes s.root T → s.outRoom = none → s.inSeq = bytes → bytes ≠ [] →
    Follows s.nodes s.root T s.buCur msg ((bitsOf bytes).take (8 * bytes.length - s.pad.toNat) ++ bs) →
    ∃ t msg₁ msg₂, decodeBytes bytes.length j e s = .done (e + msg₁.length) t ∧ msg = msg₁ ++ msg₂
      ∧ t = { s with
          outSeq := s.outSeq ++ msg₁.map Prod.fst, outCount := s.outCount + BitVec.ofNat 32 msg₁.length
          inSeq := [], inRem := s.inRem - BitVec.ofNat 32 bytes.length, buCur := t.buCur }
      ∧ Follows t.nodes t.root T t.buCur msg₂ bs
  | [], _, _, _, _, _, _, _, _, _, _, h, _ => absurd rfl h
  | [y], j, e, s, T, msg, bs, h0, hT, ho, hin, _, h => by
    have hp := s.pad.isLt
    have h8 : (byteBits y).length = 8 := rfl
    have hb : (bitsOf [y]).take (8 * [y].length - s.pad.toNat) = bitsFrom y 0 (8 - s.pad.toNat) := by
      rw [bitsFrom_take _ _ (by omega)]; simp [bitsOf]
    rw [hb] at h
    obtain ⟨t, m1, m2, he, hm, hem, hf⟩ := decodeBits_follows y j (8 - s.pad.toNat) 0 e
      { s with inSeq := [], inRem := s.inRem - 1#32 } T msg bs h0 hT ho h
    refine ⟨t, m1, m2, ?_, hm, ?_, hf⟩
    · rw [List.length_singleton, decodeBytes, inRead_cons hin, andThen_done]
      show ((decodeBits y j (8 - s.pad.toNat) 0 e _).andThen _) = _
      rw [he, andThen_done, decodeBytes]
    · rw [hem.frame]
      simp
  | y :: y' :: bytes, j, e, s, T, msg, bs, h0, hT, ho, hin, _, h => by
    have hp := s.pad.isLt
    have hb : (bitsOf (y :: y' :: bytes)).take (8 * (y :: y' :: bytes).length - s.pad.toNat)
        = bitsFrom y 0 8 ++ (bitsOf (y' :: bytes)).take (8 * (y' :: bytes).length - s.pad.toNat) := by
      have h1 : bitsOf (y :: y' :: bytes) = byteBits y ++ bitsOf (y' :: bytes) := rfl
      have h2 : 8 * (y :: y' :: bytes).length - s.pad.toNat
          = (byteBits y).length + (8 * (y' :: bytes).length - s.pad.toNat) := by
        simp only [List.length_cons, byteBits, List.length_nil]; omega
      rw [h1, h2, List.take_length_add_append, bitsFrom_take _ _ (by omega)]
      rfl
    rw [hb, List.append_assoc] at h
    obtain ⟨t, m1, m2, he, hm, hem, hf⟩ := decodeBits_follows y j 8 0 e
      { s with inSeq := y' :: bytes, inRem := s.inRem - 1#32 } T msg _ h0 hT ho h
    have hroot : t.root = s.root := by rw [hem.frame]
    have hnodes : t.nodes = s.nodes := by rw [hem.frame]
    have hpad : t.pad = s.pad := by rw [hem.frame]
    obtain ⟨u, m3, m4, he', hm', hu, hf'⟩ := decodeBytes_partial (y' :: bytes) (j + 1) (e + m1.length) t T m2 bs
      (hroot ▸ h0) (by rw [hroot, hnodes]; exact hT) (by rw [hem.frame]; exact ho) (by rw [hem.frame]) (by simp)
      (by rw [hpad]; exact hf)
    refine ⟨u, m1 ++ m3, m4, ?_, by rw [hm, hm', List.append_assoc], ?_, hf'⟩
    · rw [show (y :: y' :: bytes).length = (y' :: bytes).length + 1 by simp, decodeBytes, inRead_cons hin, andThen_done]
      show ((decodeBits y j (bitsToDecode ((y' :: bytes).length == 0) s.pad) 0 e _).andThen _) = _
      rw [show bitsToDecode ((y' :: bytes).length == 0) s.pad = 8 by simp [bitsToDecode], he, andThen_done, he',
        List.length_append]
      congr 1; omega
    · rw [hu, hem.frame]
      simp only [List.map_append, List.append_assoc, List.length_append]
      congr 1
      · rw [BitVec.ofNat_add, BitVec.add_assoc]
      · rw [show (y :: y' :: bytes).length = (y' :: bytes).length + 1 by simp, BitVec.ofNat_add]; bv_omega

/-- The payload's loop over bytes whose bits, less the last byte's padding, are codes (R132). -/
theorem decodeBytes_follows (bytes : List Byte) (j e : Nat) (s : State) (T : CodeTree) (msg : List (Byte × List Bool))
    (h0 : s.root ≠ Config.nil) (hT : HoldsTree s.nodes s.root T) (ho : s.outRoom = none) (hin : s.inSeq = bytes)
    (hne : bytes ≠ [])
    (h : Follows s.nodes s.root T s.buCur msg ((bitsOf bytes).take (8 * bytes.length - s.pad.toNat))) :
    ∃ t, decodeBytes bytes.length j e s = .done (e + msg.length) t
      ∧ t = { s with
          outSeq := s.outSeq ++ msg.map Prod.fst, outCount := s.outCount + BitVec.ofNat 32 msg.length
          inSeq := [], inRem := s.inRem - BitVec.ofNat 32 bytes.length, buCur := s.root } := by
  obtain ⟨t, m1, m2, he, hm, ht, hf⟩ := decodeBytes_partial bytes j e s T msg [] h0 hT ho hin hne (by simpa using h)
  obtain ⟨hcur, rfl⟩ := hf.end
  rw [List.append_nil] at hm
  subst hm
  have hroot : t.root = s.root := by rw [ht]
  exact ⟨t, he, by rw [ht, hcur, hroot]⟩

/-- Bits that start some leaf's path lead to a subtree, as many levels lower. -/
theorem HoldsTree.along {nodes : List Node} {i : NodeIdx} {T : CodeTree} (h : HoldsTree nodes i T) :
    ∀ (part : List Bool) (c : Byte × List Bool), c ∈ T.paths → part <+: c.2 →
      ∃ U, HoldsTree nodes (nodeAlong nodes i part) U ∧ U.height + part.length ≤ T.height := by
  induction h with
  | leaf i n hn hl =>
    intro part c hc hp
    simp only [CodeTree.paths, List.mem_singleton] at hc
    subst hc
    rw [List.prefix_nil.1 hp]
    exact ⟨_, .leaf i n hn hl, by simp⟩
  | node i n l r hn hl hleft hright ihl ihr =>
    intro part c hc hp
    cases part with
    | nil => exact ⟨_, .node i n l r hn hl hleft hright, by simp⟩
    | cons b part =>
      have hstep : nodeAlong nodes i (b :: part) = nodeAlong nodes (if b then n.right else n.left) part := by
        rw [nodeAlong, List.foldl_cons, nodeIn_of_getElem? hn]; rfl
      rw [hstep, List.length_cons]
      simp only [CodeTree.paths, List.mem_append, List.mem_map] at hc
      simp only [CodeTree.height]
      rcases hc with ⟨d, hd, rfl⟩ | ⟨d, hd, rfl⟩ <;> obtain ⟨rfl, hq⟩ := List.cons_prefix_cons.1 hp
      · obtain ⟨U, hU, hh⟩ := ihl part d hd hq
        exact ⟨U, hU, by omega⟩
      · obtain ⟨U, hU, hh⟩ := ihr part d hd hq
        exact ⟨U, hU, by omega⟩

/-- Bits inside a code lead away from the root. -/
theorem HoldsTree.along_ne_root {nodes : List Node} {root : NodeIdx} {T : CodeTree} {c : Byte × List Bool}
    {part : List Bool} (h : HoldsTree nodes root T) (hc : c ∈ T.codes) (hp : part <+: c.2) (hp0 : part ≠ [])
    (hp1 : part ≠ c.2) : nodeAlong nodes root part ≠ root := by
  have hlen := List.length_pos_iff.2 hp0
  cases T with
  | leaf v =>
    simp only [CodeTree.codes, List.mem_singleton] at hc
    subst hc
    exact absurd (hp.eq_of_length (Nat.le_antisymm hp.length_le (by simpa using Nat.succ_le_of_lt hlen))) hp1
  | node l r =>
    intro heq
    obtain ⟨U, hU, hh⟩ := h.along part c hc hp
    rw [heq] at hU
    rw [hU.unique h] at hh
    omega

/-- A payload that ends inside the code `c`, after the bits `part` of it: the leaves before it are emitted, and the cursor
is where `part` leads (R132). -/
theorem decodeBytes_truncated {bytes : List Byte} {s : State} {T : CodeTree} {msg : List (Byte × List Bool)}
    {c : Byte × List Bool} {part : List Bool} (j e : Nat) (h0 : s.root ≠ Config.nil) (hT : HoldsTree s.nodes s.root T)
    (ho : s.outRoom = none) (hin : s.inSeq = bytes) (hne : bytes ≠ []) (hcur : s.buCur = s.root)
    (hm : ∀ d ∈ msg, d ∈ T.codes) (hc : c ∈ T.codes) (hp : part <+: c.2) (hp0 : part ≠ []) (hp1 : part ≠ c.2)
    (hb : (bitsOf bytes).take (8 * bytes.length - s.pad.toNat) = msg.flatMap Prod.snd ++ part) :
    ∃ t, decodeBytes bytes.length j e s = .done (e + msg.length) t
      ∧ t = { s with
          outSeq := s.outSeq ++ msg.map Prod.fst, outCount := s.outCount + BitVec.ofNat 32 msg.length
          inSeq := [], inRem := s.inRem - BitVec.ofNat 32 bytes.length, buCur := nodeAlong s.nodes s.root part } := by
  obtain ⟨suf, hsuf⟩ := hp
  have hs0 : suf ≠ [] := by rintro rfl; exact hp1 (by simpa using hsuf)
  obtain ⟨t, m1, m2, he, hmm, ht, hf⟩ := decodeBytes_partial bytes j e s T (msg ++ [c]) suf h0 hT ho hin hne (.inl ⟨hcur, by
    rw [hb, List.append_assoc, hsuf]; simp, fun d hd => by
      rcases List.mem_append.1 hd with hd | hd
      · exact hm d hd
      · rw [List.mem_singleton.1 hd]; exact hc⟩)
  have hnodes : t.nodes = s.nodes := by rw [ht]
  have hroot : t.root = s.root := by rw [ht]
  -- the codes begun so far are exactly those of `msg`
  have split : ∀ (q : List Bool) (c' : Byte × List Bool) (m' : List (Byte × List Bool)), m2 = c' :: m' →
      m1.flatMap Prod.snd ++ q = msg.flatMap Prod.snd ++ part → q.length < c'.2.length → m1 = msg := by
    intro q c' m' hm2 hq hql
    rw [hm2] at hmm
    rcases List.eq_nil_or_concat m' with rfl | ⟨m'', d, rfl⟩
    · exact (List.append_inj' hmm (by simp)).1.symm
    · exfalso
      rw [List.concat_eq_append, show m1 ++ c' :: (m'' ++ [d]) = (m1 ++ c' :: m'') ++ [d] by simp] at hmm
      have := (List.append_inj' hmm (by simp)).1
      rw [this] at hq
      have := congrArg List.length hq
      simp at this
      omega
  have htot : m1.flatMap Prod.snd ++ m2.flatMap Prod.snd = msg.flatMap Prod.snd ++ part ++ suf := by
    rw [← List.flatMap_append, ← hmm, List.flatMap_append, List.append_assoc, hsuf]; simp
  have hpart : m1 = msg ∧ t.buCur = nodeAlong s.nodes s.root part := by
    rcases hf with ⟨-, hsm, hm2⟩ | ⟨l, r, c', p, m', -, -, hm2, hpp, hsm, -, q, hq0, hcq, hcur'⟩
    · exfalso
      rcases m2 with _ | ⟨c', m'⟩
      · exact hs0 (by simpa using hsm)
      · rw [hsm] at htot
        have hq := List.append_cancel_right htot
        have hne' := CodeTree.codes_ne_nil (hm2 c' (by simp))
        have := split [] c' m' rfl (by simpa using hq) (by
          rcases hcc : c'.2 with _ | ⟨x, xs⟩
          · exact absurd hcc hne'
          · simp)
        rw [this] at hq
        exact hp0 (by simpa using hq.symm)
    · have hp' : p ≠ [] := by rintro rfl; simp [CodeTree.paths] at hpp
      have hq : m1.flatMap Prod.snd ++ q = msg.flatMap Prod.snd ++ part := by
        rw [hm2, List.flatMap_cons, hcq, hsm] at htot
        refine List.append_cancel_right (bs := p ++ m'.flatMap Prod.snd) ?_
        simpa using htot
      have hm1 := split q c' m' hm2 hq (by
        rw [hcq, List.length_append]
        have := List.length_pos_iff.2 hp'
        omega)
      refine ⟨hm1, ?_⟩
      rw [hm1] at hq
      rw [hcur', List.append_cancel_left hq, hnodes, hroot]
  obtain ⟨rfl, hbu⟩ := hpart
  exact ⟨t, he, by rw [ht, hbu]⟩

/-! ### Bits on a tree that is a single leaf -/

/-- From `s` to `t` the symbol `v` was emitted `k` times. -/
def EmittedTimes (s : State) (v : Byte) (k : Nat) (t : State) : Prop :=
  t = { s with outSeq := s.outSeq ++ List.replicate k v, outCount := s.outCount + BitVec.ofNat 32 k }

theorem EmittedTimes.step {s t : State} {v : Byte} {k : Nat} (h : EmittedTimes (putByte v s) v k t) :
    EmittedTimes s v (k + 1) t := by
  rw [EmittedTimes] at h ⊢
  rw [h]
  simp only [putByte, List.replicate_succ, List.append_assoc, List.singleton_append]
  congr 1
  rw [BitVec.add_assoc, Nat.add_comm k 1, BitVec.ofNat_add]

/-- Bits 0 emit the leaf's symbol. -/
theorem decodeBits_zeros (y : Byte) (j : Nat) {r : Node} : ∀ (n k e : Nat) (s : State), s.root ≠ Config.nil →
    s.nodes[s.root.toNat]? = some r → r.leaf = true → s.outRoom = none → bitsFrom y k n = List.replicate n false →
    ∃ t, decodeBits y j n k e s = .done (e + n) t ∧ EmittedTimes s r.sym n t
  | 0, _, _, s, _, _, _, _, _ => ⟨s, rfl, by simp [EmittedTimes]⟩
  | n + 1, k, e, s, h0, hr, hl, ho, hb => by
    have hcons : bitsFrom y k (n + 1) = y.getLsbD (7 - k) :: bitsFrom y (k + 1) n := by simp [bitsFrom, List.range'_succ]
    rw [hcons, List.replicate_succ, List.cons.injEq] at hb
    obtain ⟨t, he, ht⟩ := decodeBits_zeros y j n (k + 1) (e + 1) (putByte r.sym s) h0 hr hl ho hb.2
    refine ⟨t, ?_, ht.step⟩
    rw [decodeBits, extract_ofBool, hb.1, decodeBit_single h0 hr hl, if_pos (by rfl), emitSym_open _ _ ho, andThen_done,
      if_pos (symResult_ne_zero _), he]
    congr 1; omega

/-- The first bit 1 raises FMT_BAD_CODE. -/
theorem decodeBits_one (y : Byte) (j : Nat) {r : Node} : ∀ (i n k e : Nat) (s : State) (bs : List Bool),
    s.root ≠ Config.nil → s.nodes[s.root.toNat]? = some r → r.leaf = true → s.outRoom = none →
    bitsFrom y k n = List.replicate i false ++ true :: bs →
    ∃ t, decodeBits y j n k e s = .raise .fmtBadCode (bitPos j (k + i)) t ∧ EmittedTimes s r.sym i t
  | i, 0, k, _, _, _, _, _, _, _, hb => by simp [bitsFrom] at hb
  | 0, n + 1, k, e, s, bs, h0, hr, hl, ho, hb => by
    have hcons : bitsFrom y k (n + 1) = y.getLsbD (7 - k) :: bitsFrom y (k + 1) n := by simp [bitsFrom, List.range'_succ]
    rw [hcons, List.replicate_zero, List.nil_append, List.cons.injEq] at hb
    refine ⟨s, ?_, by simp [EmittedTimes]⟩
    rw [decodeBits, extract_ofBool, hb.1, decodeBit_single h0 hr hl, if_neg (by decide)]
    rfl
  | i + 1, n + 1, k, e, s, bs, h0, hr, hl, ho, hb => by
    have hcons : bitsFrom y k (n + 1) = y.getLsbD (7 - k) :: bitsFrom y (k + 1) n := by simp [bitsFrom, List.range'_succ]
    rw [hcons, List.replicate_succ, List.cons_append, List.cons.injEq] at hb
    obtain ⟨t, he, ht⟩ := decodeBits_one y j i n (k + 1) (e + 1) (putByte r.sym s) bs h0 hr hl ho hb.2
    refine ⟨t, ?_, ht.step⟩
    rw [decodeBits, extract_ofBool, hb.1, decodeBit_single h0 hr hl, if_pos (by rfl), emitSym_open _ _ ho, andThen_done,
      if_pos (symResult_ne_zero _), he]
    congr 2; omega

theorem bitPos_eq (j k : Nat) (hk : k < 8) : bitPos j k = BitVec.ofNat 32 (8 * j + k) := by
  rw [bitPos, ← Nat.shiftLeft_add_eq_or_of_lt (show k < 2 ^ 3 from hk), Nat.shiftLeft_eq]
  congr 1; omega

/-- The payload's loop on a single leaf: the first bit 1, at position `p` of the bytes left, raises FMT_BAD_CODE with its
position in the payload (R132). -/
theorem decodeBytes_badCode {r : Node} : ∀ (p : Nat) (bytes : List Byte) (rest j e : Nat) (s : State) (bs : List Bool),
    s.root ≠ Config.nil → s.nodes[s.root.toNat]? = some r → r.leaf = true → s.outRoom = none → s.inSeq = bytes →
    bytes.length ≤ rest → p + s.pad.toNat < 8 * rest → bitsOf bytes = List.replicate p false ++ true :: bs →
    ∃ t, decodeBytes rest j e s = .raise .fmtBadCode (BitVec.ofNat 32 (8 * j + p)) t
      ∧ t = { s with
          outSeq := s.outSeq ++ List.replicate p r.sym, outCount := s.outCount + BitVec.ofNat 32 p
          inSeq := bytes.drop (p / 8 + 1), inRem := s.inRem - BitVec.ofNat 32 (p / 8 + 1) }
  | p, [], _, _, _, _, _, _, _, _, _, _, _, _, hb => by simp [bitsOf] at hb
  | p, y :: bytes, 0, _, _, _, _, _, _, _, _, _, hl, _, _ => by simp at hl
  | p, y :: bytes, rest + 1, j, e, s, bs, h0, hr, hl, ho, hin, hlen, hp, hb => by
    have hpad := s.pad.isLt
    have hbits : bitsOf (y :: bytes) = bitsFrom y 0 8 ++ bitsOf bytes := by
      rw [bitsFrom_take y 8 (by omega)]; rfl
    rw [hbits] at hb
    have h8 : (bitsFrom y 0 8).length = 8 := by simp [bitsFrom]
    rw [decodeBytes, inRead_cons hin, andThen_done]
    by_cases hp8 : p < 8
    · have hlt : p < bitsToDecode (rest == 0) s.pad := by
        rcases rest with _ | rest
        · simp [bitsToDecode]; omega
        · simp [bitsToDecode]; omega
      have hle : bitsToDecode (rest == 0) s.pad ≤ 8 := by unfold bitsToDecode; split <;> omega
      have hfrom : bitsFrom y 0 (bitsToDecode (rest == 0) s.pad)
          = List.replicate p false ++ true :: ((bitsFrom y 0 (bitsToDecode (rest == 0) s.pad)).drop (p + 1)) := by
        have htake : bitsFrom y 0 (bitsToDecode (rest == 0) s.pad)
            = (List.replicate p false ++ true :: bs).take (bitsToDecode (rest == 0) s.pad) := by
          rw [← hb, List.take_append_of_le_length (by omega), bitsFrom_take _ _ hle, bitsFrom_take _ _ (Nat.le_refl _),
            List.take_take, Nat.min_eq_left hle]
        generalize bitsToDecode (rest == 0) s.pad = d at *
        obtain ⟨d, rfl⟩ : ∃ d', d = p + (d' + 1) := ⟨d - p - 1, by omega⟩
        rw [htake, List.take_append, List.length_replicate, Nat.add_sub_cancel_left, List.take_succ_cons]
        rw [List.take_of_length_le (by simp)]
        simp [List.drop_append]
      obtain ⟨t, he, ht⟩ := decodeBits_one y j p _ 0 e { s with inSeq := bytes, inRem := s.inRem - 1#32 } _ h0 hr hl ho hfrom
      refine ⟨t, ?_, ?_⟩
      · show ((decodeBits y j (bitsToDecode (rest == 0) s.pad) 0 e _).andThen _) = _
        rw [he, andThen_raise, Nat.zero_add, bitPos_eq j p hp8]
      · rw [ht, show p / 8 = 0 by omega]
        simp
    · obtain ⟨p, rfl⟩ : ∃ q, p = 8 + q := ⟨p - 8, by omega⟩
      have hrest : rest ≠ 0 := by omega
      rw [show List.replicate (8 + p) false = List.replicate 8 false ++ List.replicate p false from
        List.replicate_append_replicate.symm, List.append_assoc] at hb
      obtain ⟨hz, hb'⟩ := List.append_inj hb (by simp [h8])
      obtain ⟨t, he, ht⟩ := decodeBits_zeros y j 8 0 e { s with inSeq := bytes, inRem := s.inRem - 1#32 } h0 hr hl ho hz
      have hroot : t.root = s.root := by rw [ht]
      obtain ⟨u, he', hu⟩ := decodeBytes_badCode p bytes rest (j + 1) (e + 8) t bs (by rw [hroot]; exact h0)
        (by rw [hroot, ht]; exact hr) hl (by rw [ht]; exact ho) (by rw [ht]) (by simpa using hlen)
        (by rw [show t.pad = s.pad by rw [ht]]; omega) hb'
      refine ⟨u, ?_, ?_⟩
      · show ((decodeBits y j (bitsToDecode (rest == 0) s.pad) 0 e _).andThen _) = _
        rw [show bitsToDecode (rest == 0) s.pad = 8 by simp [bitsToDecode, hrest], he, andThen_done, he']
        congr 2; omega
      · rw [hu, ht, show (8 + p) / 8 = p / 8 + 1 by omega]
        simp only [List.drop_succ_cons, List.append_assoc, List.replicate_append_replicate]
        congr 1
        · rw [BitVec.ofNat_add 8 p, BitVec.add_assoc]
        · rw [show p / 8 + 1 + 1 = 1 + (p / 8 + 1) by omega, BitVec.ofNat_add 1]; bv_omega

/-! ### Whatever the bits are -/

/-- What R50 says of the cursor of a tree that is not empty. -/
structure CursorOk (s : State) : Prop where
  arena : ArenaOk s.nodes
  nonempty : s.root ≠ Config.nil
  allocated : s.root.toNat < s.nodes.length
  leaf : ∀ n, s.nodes[s.root.toNat]? = some n → n.leaf = true → s.buCur = s.root
  internal : ∀ n, s.nodes[s.root.toNat]? = some n → n.leaf = false →
    Reachable s.nodes s.root s.buCur ∧ ∃ m, s.nodes[s.buCur.toNat]? = some m ∧ m.leaf = false

/-- The cursor at the root is a good one. -/
theorem CursorOk.atRoot {s : State} (ha : ArenaOk s.nodes) (h0 : s.root ≠ Config.nil)
    (hl : s.root.toNat < s.nodes.length) (hc : s.buCur = s.root) : CursorOk s :=
  ⟨ha, h0, hl, fun _ _ _ => hc, fun n hn hlf => by rw [hc]; exact ⟨.root, n, hn, hlf⟩⟩

/-- From `s` to `t` decoding changed only what it may: the cursor, the OUT stream and the IN stream. -/
structure Unpacked (s t : State) : Prop where
  frame : t = { s with
    buCur := t.buCur, outSeq := t.outSeq, outCount := t.outCount, outRoom := t.outRoom
    inSeq := t.inSeq, inRem := t.inRem }
  prefix_out : s.outSeq <+: t.outSeq
  consumed : Consumed s t
  cursor : CursorOk s → CursorOk t
  room : s.outRoom = none → t.outRoom = none

theorem Unpacked.refl (s : State) : Unpacked s s := ⟨rfl, List.prefix_rfl, .refl s, id, id⟩

theorem Unpacked.trans {s t u : State} (h : Unpacked s t) (h' : Unpacked t u) : Unpacked s u :=
  ⟨by rw [h'.frame, h.frame], h.prefix_out.trans h'.prefix_out, h.consumed.trans h'.consumed, h'.cursor ∘ h.cursor,
    h'.room ∘ h.room⟩

/-- Where decoding waits, the host has not kept a duty. -/
def UnpackWait (s t : State) : Prop := Unpacked s t ∧ (s.outRoom ≠ none ∨ Starved s)

theorem UnpackWait.before {s t u : State} (h : Unpacked s t) (h' : UnpackWait t u) : UnpackWait s u :=
  ⟨h.trans h'.1, h'.2.imp (fun hr hs => hr (h.room hs)) h.consumed.starved⟩

theorem emitSym_sat (v : Byte) (s : State) :
    (emitSym v s).Sat
      (fun _ t => ∃ room, t = { s with outSeq := s.outSeq ++ [v], outCount := s.outCount + 1#32, outRoom := room }
        ∧ (s.outRoom = none → room = none))
      (fun _ _ _ => False) (fun t => s.outRoom = some 0 ∧ t = s) False :=
  Run.Sat.andThen (emit_sat v s) fun _ _ h => h

/-- Everything one bit can do. -/
theorem decodeBit_sat (x : BitVec 1) (pos : Word) (s : State) :
    (decodeBit x pos s).Sat (fun _ t => Unpacked s t ∧ s.root ≠ Config.nil ∧ t.inSeq = s.inSeq ∧ t.inRem = s.inRem)
      (fun e _ t => (e = .fmtNoTree ∧ s.root = Config.nil ∨ e = .fmtBadCode) ∧ t = s)
      (fun t => UnpackWait s t) False := by
  rw [decodeBit]
  split_ifs with h0 hl hx
  · exact ⟨.inl ⟨rfl, h0⟩, rfl⟩
  · refine (emitSym_sat _ s).mono ?_ (fun _ _ _ h => h.elim) ?_ id
    · rintro _ t ⟨room, rfl, hr⟩
      exact ⟨⟨rfl, List.prefix_append _ _, ⟨List.suffix_refl _, id, fun _ => rfl⟩,
        fun h => ⟨h.arena, h.nonempty, h.allocated, h.leaf, h.internal⟩, hr⟩, h0, rfl, rfl⟩
    · rintro t ⟨h, rfl⟩; exact ⟨.refl _, .inl (by simp [h])⟩
  · exact ⟨.inr rfl, rfl⟩
  · simp only
    have hnode : CursorOk s → ∃ m n, s.nodes[s.buCur.toNat]? = some m ∧ m.leaf = false ∧ nodeAt s s.buCur = m
        ∧ s.nodes[(childOf x m).toNat]? = some n ∧ Reachable s.nodes s.root (childOf x m) := by
      intro h
      obtain ⟨n, hn⟩ : ∃ n, s.nodes[s.root.toNat]? = some n := ⟨_, List.getElem?_eq_getElem h.allocated⟩
      have hnl : n.leaf = false := by
        rw [isLeaf, nodeAt_of_getElem? hn] at hl; simpa using hl
      obtain ⟨hreach, m, hm, hml⟩ := h.internal n hn hnl
      have hb := h.arena.below _ m hm hml
      have hmlt := (List.getElem?_eq_some_iff.1 hm).1
      have hc : (childOf x m).toNat < s.nodes.length := by
        simp only [childOf]; split <;> omega
      refine ⟨m, _, hm, hml, nodeAt_of_getElem? hm, List.getElem?_eq_getElem hc, ?_⟩
      simp only [childOf]
      split
      · exact .left _ m hreach hm hml
      · exact .right _ m hreach hm hml
    split
    · refine Run.Sat.andThen (emitSym_sat _ s |>.mono (fun _ _ h => h) (fun _ _ _ h => h.elim) ?_ id) ?_
      · rintro t ⟨h, rfl⟩; exact ⟨.refl _, .inl (by simp [h])⟩
      · rintro r t ⟨room, rfl, hr⟩
        exact ⟨⟨rfl, List.prefix_append _ _, ⟨List.suffix_refl _, id, fun _ => rfl⟩,
          fun h => CursorOk.atRoot h.arena h.nonempty h.allocated rfl, hr⟩, h0, rfl, rfl⟩
    · rename_i hxl
      refine ⟨⟨rfl, List.prefix_rfl, ⟨List.suffix_refl _, id, fun _ => rfl⟩, fun h => ?_, id⟩, h0, rfl, rfl⟩
      obtain ⟨m, n, hm, hml, hat, hn, hreach⟩ := hnode h
      rw [hat, isLeaf, nodeAt_of_getElem? hn] at hxl
      refine ⟨h.arena, h.nonempty, h.allocated, fun r hr hrl => ?_, fun r hr _ => ?_⟩
      · rw [isLeaf, nodeAt_of_getElem? (s := s) (n := r) hr] at hl; exact absurd hrl hl
      · show Reachable s.nodes s.root (childOf x (nodeAt s s.buCur))
          ∧ ∃ m, s.nodes[(childOf x (nodeAt s s.buCur)).toNat]? = some m ∧ m.leaf = false
        rw [hat]
        exact ⟨hreach, n, hn, by simpa using hxl⟩

theorem decodeBits_sat (y : Byte) (j : Nat) : ∀ (n k e : Nat) (s : State),
    (decodeBits y j n k e s).Sat (fun _ t => Unpacked s t ∧ t.inRem = s.inRem)
      (fun e _ t => (e = .fmtNoTree ∧ s.root = Config.nil ∨ e = .fmtBadCode) ∧ Unpacked s t)
      (fun t => UnpackWait s t) False
  | 0, k, e, s => ⟨.refl s, rfl⟩
  | n + 1, k, e, s => by
    rw [decodeBits]
    refine Run.Sat.andThen ((decodeBit_sat _ _ s).mono (fun _ _ h => h) ?_ (fun _ h => h) id) ?_
    · rintro e _ t ⟨he, rfl⟩; exact ⟨he, .refl _⟩
    · rintro r t ⟨ht, -, -, hr⟩
      have hroot : t.root = s.root := by rw [ht.frame]
      refine (decodeBits_sat y j n (k + 1) _ t).mono ?_ ?_ ?_ id
      · exact fun _ u ⟨hu, hur⟩ => ⟨ht.trans hu, hur.trans hr⟩
      · rintro e _ u ⟨he, hu⟩; exact ⟨hroot ▸ he, ht.trans hu⟩
      · exact fun u hu => UnpackWait.before ht hu

theorem decodeBytes_sat : ∀ (rest j e : Nat) (s : State), rest ≤ s.inRem.toNat →
    (decodeBytes rest j e s).Sat (fun _ t => Unpacked s t)
      (fun e _ t => (e = .fmtNoTree ∧ s.root = Config.nil ∨ e = .fmtBadCode) ∧ Unpacked s t)
      (fun t => UnpackWait s t) False
  | 0, j, e, s, _ => .refl s
  | rest + 1, j, e, s, hf => by
    rw [decodeBytes]
    have h0 : s.inRem ≠ 0#32 := by rintro h; rw [h] at hf; simp at hf
    refine Run.Sat.andThen (Q := fun _ t => Unpacked s t ∧ rest ≤ t.inRem.toNat) ?_ fun y s₁ ⟨h1, hf1⟩ => ?_
    · rcases hin : s.inSeq with _ | ⟨b, bs⟩
      · rw [inRead_nil hin]
        exact ⟨.refl s, .inr (starved_of_empty hin h0)⟩
      · have hc := inRead_consumed s h0
        rw [inRead_cons hin] at hc ⊢
        exact ⟨⟨rfl, List.prefix_rfl, hc.2, fun h => ⟨h.arena, h.nonempty, h.allocated, h.leaf, h.internal⟩, id⟩,
          by show rest ≤ (s.inRem - 1#32).toNat; bv_omega⟩
    · have hr1 : s₁.root = s.root := by rw [h1.frame]
      refine Run.Sat.andThen (Q := fun _ t => Unpacked s t ∧ rest ≤ t.inRem.toNat)
        ((decodeBits_sat y j _ 0 e s₁).mono ?_ ?_ ?_ id) fun e' s₂ ⟨h2, hf2⟩ => ?_
      · exact fun _ t ⟨ht, hr⟩ => ⟨h1.trans ht, by rw [hr]; exact hf1⟩
      · rintro e _ t ⟨he, ht⟩; exact ⟨hr1 ▸ he, h1.trans ht⟩
      · exact fun t ht => UnpackWait.before h1 ht
      · have hr2 : s₂.root = s.root := by rw [h2.frame]
        refine (decodeBytes_sat rest _ _ s₂ hf2).mono ?_ ?_ ?_ id
        · exact fun _ t ht => h2.trans ht
        · rintro e _ t ⟨he, ht⟩; exact ⟨hr2 ▸ he, h2.trans ht⟩
        · exact fun t ht => UnpackWait.before h2 ht

end Sys2Proof.Machine
end

