-- ==== Sys2Proof/Laws/Commands.lean ====
section
/-! SUPPORT. Each command's pseudocode in one lemma: how it can end, what it may have changed then, and that it keeps
the invariants of the structures it changes (40_control to 47_bit_unpacker, 10_state R50). -/

namespace Sys2Proof.Machine

/-! ### The invariants by structure -/

/-- R50 items 1, 2, 4, 5 and R96: the arena and the queue. -/
structure QueueOk (s : State) : Prop where
  arena : ArenaOk s.nodes
  room : s.nodes.length ≤ 511
  heapRoom : s.heap.length ≤ 256
  allocated : ∀ m ∈ s.heap, m.toNat < s.nodes.length
  ordered : HeapOrdered (keyOf s) s.heap

/-- R50 items 3 and 6: the root and the cursor. -/
def RootOk (s : State) : Prop := (s.root = Config.nil ∧ s.buCur = Config.nil) ∨ CursorOk s

/-- R50 item 7. -/
def AccOk (s : State) : Prop := s.acc.toNat < 2 ^ s.cnt.toNat

/-- R45. -/
def CodesOk (s : State) : Prop := ∀ b, (lenAt s b).toNat ≤ 32 ∧ (codeAt s b).toNat < 2 ^ (lenAt s b).toNat

/-- R49. -/
def StreamOk (s : State) : Prop := s.inSeq.length ≤ s.inRem.toNat

/-- The invariants of the structures that commands change. -/
structure DataOk (s : State) : Prop where
  queue : QueueOk s
  root : RootOk s
  acc : AccOk s
  codes : CodesOk s
  stream : StreamOk s

theorem AccOk.congr {s t : State} (h : AccOk s) (h1 : t.acc = s.acc) (h2 : t.cnt = s.cnt) : AccOk t := by
  simpa [AccOk, h1, h2] using h

theorem CodesOk.congr {s t : State} (h : CodesOk s) (h1 : t.code = s.code) (h2 : t.len = s.len) : CodesOk t := by
  intro b; simpa [lenAt, codeAt, h1, h2] using h b

theorem StreamOk.congr {s t : State} (h : StreamOk s) (h1 : t.inSeq = s.inSeq) (h2 : t.inRem = s.inRem) :
    StreamOk t := by
  simpa [StreamOk, h1, h2] using h

theorem StreamOk.consumed {s t : State} (h : StreamOk s) (hc : Consumed s t) : StreamOk t := hc.within h

/-- Where a command waits, the host has not kept a duty; the bytes put out before stay in order. -/
def Waiting (s t : State) : Prop := s.outSeq <+: t.outSeq ∧ (s.outRoom ≠ none ∨ Starved s)

theorem nil_not_lt {s : State} (h : QueueOk s) : ¬ Config.nil.toNat < s.nodes.length := by
  have := h.room
  show ¬ 511 < s.nodes.length
  omega

theorem ne_nil_of_lt {s : State} (h : QueueOk s) {i : NodeIdx} (hi : i.toNat < s.nodes.length) : i ≠ Config.nil := by
  rintro rfl; exact nil_not_lt h hi

theorem queueOk_cleared (s : State) (h1 : s.nodes = []) (h2 : s.heap = []) : QueueOk s := by
  refine ⟨h1 ▸ arenaOk_nil, by simp [h1], by simp [h2], by simp [h2], ?_⟩
  rw [h2]; exact heapOrdered_nil _

theorem reachable_append {nodes more : List Node} {r i : NodeIdx} (h : Reachable nodes r i) :
    Reachable (nodes ++ more) r i := by
  have key : ∀ {i : NodeIdx} {n : Node}, nodes[i.toNat]? = some n → (nodes ++ more)[i.toNat]? = some n := by
    intro i n hn
    rw [List.getElem?_append_left (List.getElem?_eq_some_iff.1 hn).1]; exact hn
  induction h with
  | root => exact .root
  | left i n _ hn hl ih => exact .left i n ih (key hn) hl
  | right i n _ hn hl ih => exact .right i n ih (key hn) hl

/-- A good cursor stays good when the arena grows. -/
theorem RootOk.grow {s t : State} (h : RootOk s) (hp : s.nodes <+: t.nodes) (ha : ArenaOk t.nodes)
    (h1 : t.root = s.root) (h2 : t.buCur = s.buCur) : RootOk t := by
  obtain ⟨more, hm⟩ := hp
  rcases h with ⟨h3, h4⟩ | h
  · exact .inl ⟨h1.trans h3, h2.trans h4⟩
  · refine .inr ⟨ha, h1 ▸ h.nonempty, ?_, ?_, ?_⟩
    · rw [h1, ← hm, List.length_append]; have := h.allocated; omega
    · intro n hn hl
      rw [h1, ← hm, List.getElem?_append_left h.allocated] at hn
      rw [h1, h2]; exact h.leaf n hn hl
    · intro n hn hl
      rw [h1, ← hm, List.getElem?_append_left h.allocated] at hn
      obtain ⟨hr, m, hm', hml⟩ := h.internal n hn hl
      rw [h1, h2, ← hm]
      refine ⟨reachable_append hr, m, ?_, hml⟩
      rw [List.getElem?_append_left (List.getElem?_eq_some_iff.1 hm').1]; exact hm'

/-- A good cursor depends on the arena, the root and itself. -/
theorem RootOk.congr {s t : State} (h : RootOk s) (h0 : t.nodes = s.nodes) (h1 : t.root = s.root)
    (h2 : t.buCur = s.buCur) : RootOk t := by
  rcases h with ⟨h3, h4⟩ | h
  · exact .inl ⟨h1.trans h3, h2.trans h4⟩
  · refine .inr ⟨h0 ▸ h.arena, h1 ▸ h.nonempty, by rw [h0, h1]; exact h.allocated, ?_, ?_⟩
    · rw [h0, h1, h2]; exact h.leaf
    · rw [h0, h1, h2]; exact h.internal

/-- A root that is NIL or allocated, with the cursor on it. -/
theorem RootOk.atRoot {s : State} (ha : ArenaOk s.nodes) (hr : s.nodes.length ≤ 511)
    (hl : s.root.toNat < s.nodes.length) (hc : s.buCur = s.root) : RootOk s := by
  refine .inr (.atRoot ha ?_ hl hc)
  intro h
  rw [h] at hl
  have : 511 < s.nodes.length := hl
  omega

/-! ### The priority queue -/

theorem runPqInsert_sat (n : NodeIdx) (s : State) :
    (runPqInsert n s).Sat
      (fun _ t => n.toNat < s.nodes.length ∧ s.heap.length ≠ 256
        ∧ t = { s with heap := heapInsert (keyOf s) n s.heap })
      (fun e _ t => (e = .badNodeIndex ∨ e = .pqFull) ∧ t = s) (fun _ => False) False := by
  rw [runPqInsert, nodeCount]
  split
  · exact ⟨.inl rfl, rfl⟩
  · refine (pqInsertNode_sat n s).mono ?_ ?_ (fun _ h => h) id
    · rintro _ t ⟨h, rfl⟩; exact ⟨by omega, h, rfl⟩
    · rintro e _ t ⟨-, rfl, -, rfl⟩; exact ⟨.inr rfl, rfl⟩

theorem runPqRemoveMin_sat (s : State) :
    (runPqRemoveMin s).Sat
      (fun _ t => s.heap.length ≠ 0
        ∧ t = { s with heap := heapRemove (keyOf s) s.heap, result := (slot s.heap 0).setWidth 32 })
      (fun e _ t => e = .pqEmpty ∧ t = s) (fun _ => False) False := by
  rw [runPqRemoveMin]
  refine Run.Sat.andThen ((pqRemoveNode_sat s).mono (fun _ _ h => h) ?_ (fun _ h => h) id) ?_
  · rintro e _ t ⟨-, rfl, -, rfl⟩; exact ⟨rfl, rfl⟩
  · rintro a t ⟨h, rfl, rfl⟩; exact ⟨h, rfl⟩

/-- Inserting an allocated node keeps the queue's invariants. -/
theorem QueueOk.insert {s : State} (h : QueueOk s) {n : NodeIdx} (hn : n.toNat < s.nodes.length)
    (hr : s.heap.length ≠ 256) : QueueOk { s with heap := heapInsert (keyOf s) n s.heap } := by
  refine ⟨h.arena, h.room, ?_, ?_, heapInsert_ordered _ h.ordered⟩
  · show (heapInsert (keyOf s) n s.heap).length ≤ 256
    rw [heapInsert_length]; have := h.heapRoom; omega
  · intro m hm
    rcases List.mem_cons.1 ((heapInsert_perm _ _ _).mem_iff.1 hm) with rfl | hm
    · exact hn
    · exact h.allocated m hm

/-- Removing the least keeps the queue's invariants. -/
theorem QueueOk.remove {s : State} (h : QueueOk s) : QueueOk { s with heap := heapRemove (keyOf s) s.heap } := by
  refine ⟨h.arena, h.room, ?_, fun m hm => h.allocated m (heapRemove_subset hm), heapRemove_ordered h.ordered⟩
  show (heapRemove (keyOf s) s.heap).length ≤ 256
  rw [heapRemove_length]; have := h.heapRoom; omega

/-- The queue's invariants depend on the arena and the queue. -/
theorem QueueOk.congr {s t : State} (h : QueueOk s) (h1 : t.nodes = s.nodes) (h2 : t.heap = s.heap) : QueueOk t :=
  ⟨h1 ▸ h.arena, h1 ▸ h.room, h2 ▸ h.heapRoom, by rw [h1, h2]; exact h.allocated,
    by rw [keyOf_congr h1, h2]; exact h.ordered⟩

/-! ### The tree builder -/

theorem runTbNewLeaf_sat (sym : Byte) (s : State) :
    (runTbNewLeaf sym s).Sat
      (fun _ t => s.nodes.length ≠ 511 ∧ t = { s with
        nodes := s.nodes ++ [leafNode sym (freqAt s sym)], result := (BitVec.ofNat 9 s.nodes.length).setWidth 32 })
      (fun e _ t => e = .arenaFull ∧ t = s) (fun _ => False) False := by
  rw [runTbNewLeaf]
  refine Run.Sat.andThen ((allocNode_sat _ _ s).mono (fun _ _ h => h) ?_ (fun _ h => h) id) ?_
  · rintro e _ t ⟨-, rfl, -, rfl⟩; exact ⟨rfl, rfl⟩
  · rintro i t ⟨h, rfl, rfl⟩; exact ⟨h, rfl⟩

/-- Allocating a leaf keeps the queue's invariants. -/
theorem QueueOk.newLeaf {s : State} (h : QueueOk s) (sym : Byte) (freq : Word) (hr : s.nodes.length ≠ 511) :
    QueueOk { s with nodes := s.nodes ++ [leafNode sym freq] } := by
  refine ⟨h.arena.leaf _ _, ?_, h.heapRoom, ?_, ?_⟩
  · show (s.nodes ++ [leafNode sym freq]).length ≤ 511
    rw [List.length_append, List.length_singleton]; have := h.room; omega
  · intro m hm
    show m.toNat < (s.nodes ++ [leafNode sym freq]).length
    rw [List.length_append, List.length_singleton]; have := h.allocated m hm; omega
  · exact h.ordered.congr fun m hm => (keyOf_append (more := [_]) rfl (h.allocated m hm)).symm

/-- TB_LOAD_LEAVES always ends, with the alphabet's leaves queued. -/
theorem runTbLoadLeaves_done (s : State) :
    ∃ t, runTbLoadLeaves s = .done () t
      ∧ t = { s with
          nodes := t.nodes, heap := t.heap, root := Config.nil, buCur := Config.nil
          result := BitVec.ofNat 32 (usedBytes s).length }
      ∧ QueueOk t := by
  obtain ⟨t, he, hfr, hn, hh, ho, -⟩ := loadLeaves_all s
  have hl := usedBytes_length_le s
  have hnl : t.nodes.length = (usedBytes s).length := by rw [hn, List.length_map]
  refine ⟨setResult (BitVec.ofNat 32 (usedBytes s).length) t, by rw [runTbLoadLeaves, he, andThen_done],
    by rw [hfr]; rfl, ?_, ?_, ?_, ?_, ho⟩
  · show ArenaOk t.nodes
    rw [hn]
    refine ⟨fun i n hi hlf => ?_, fun n hm hlf => ?_⟩
    · have := List.mem_of_getElem? hi
      obtain ⟨b, -, rfl⟩ := List.mem_map.1 this
      cases hlf
    · obtain ⟨b, -, rfl⟩ := List.mem_map.1 hm
      exact ⟨rfl, rfl⟩
  · show t.nodes.length ≤ 511; omega
  · show t.heap.length ≤ 256
    rw [hh.length_eq]; simp; omega
  · intro m hm
    obtain ⟨i, hi, rfl⟩ := List.mem_map.1 (hh.mem_iff.1 hm)
    have := List.mem_range.1 hi
    show _ < t.nodes.length
    rw [ofNat_toNat_of_lt (by omega)]; omega

/-- One merge keeps the queue's invariants. -/
theorem QueueOk.merge {s : State} (h : QueueOk s) (h2 : 2 ≤ s.heap.length) (hr : s.nodes.length ≠ 511) :
    QueueOk (mergedState s) := by
  have hroom := h.room
  refine ⟨?_, ?_, ?_, mergedState_allocated (by omega) h.allocated, mergedState_ordered h.allocated h.ordered⟩
  · exact h.arena.internal _ (h.allocated _ (firstOut_mem h2)) (h.allocated _ (secondOut_mem h2))
  · rw [mergedState_nodes_length]; omega
  · rw [mergedState_heap_length h2]; have := h.heapRoom; omega

/-- Taking two nodes out keeps the queue's invariants. -/
theorem QueueOk.withoutTwo {s : State} (h : QueueOk s) : QueueOk { s with heap := heapWithoutTwo s } := h.remove.remove

theorem runTbMerge_sat (s : State) (hq : QueueOk s) :
    (runTbMerge s).Sat
      (fun _ t => t = { s with nodes := t.nodes, heap := t.heap, result := t.result } ∧ s.nodes <+: t.nodes ∧ QueueOk t)
      (fun _ _ t => t = { s with heap := t.heap } ∧ QueueOk t) (fun _ => False) False := by
  rw [runTbMerge]
  refine Run.Sat.andThen ((mergeStep_sat s hq.heapRoom).mono (fun _ _ h => h) ?_ (fun _ h => h) id) ?_
  · rintro e _ t (⟨-, -, rfl⟩ | ⟨-, -, rfl⟩)
    · exact ⟨rfl, hq⟩
    · exact ⟨rfl, hq.withoutTwo⟩
  · rintro n t ⟨h2, hr, -, rfl, -⟩
    exact ⟨rfl, List.prefix_append _ _, (hq.merge h2 hr).congr rfl rfl⟩

/-- Whatever the queue holds, MergeStep changes only the arena and the queue. -/
theorem mergeStep_frame (s : State) :
    (mergeStep s).Sat (fun _ t => t = { s with nodes := t.nodes, heap := t.heap })
      (fun _ _ t => t = { s with nodes := t.nodes, heap := t.heap }) (fun _ => False) False := by
  have hmn : ∀ a b (u : State), (mergeNodes a b u).Sat (fun _ t => t = { u with nodes := t.nodes, heap := t.heap })
      (fun _ _ t => t = { u with nodes := t.nodes, heap := t.heap }) (fun _ => False) False := by
    intro a b u
    rw [mergeNodes]
    split_ifs
    · rfl
    · rfl
    · refine Run.Sat.andThen ((allocNode_sat _ _ u).mono (fun _ _ h => h) ?_ (fun _ h => h) id) ?_
      · rintro _ _ t ⟨-, -, -, rfl⟩; rfl
      · rintro i t ⟨-, -, rfl⟩
        refine Run.Sat.andThen ((pqInsertNode_sat _ _).mono (fun _ _ h => h) ?_ (fun _ h => h) id) ?_
        · rintro _ _ t ⟨-, -, -, rfl⟩; rfl
        · rintro _ t ⟨-, rfl⟩; rfl
  by_cases h : s.heap.length < 2
  · rw [mergeStep_underflow h]; rfl
  · rw [mergeStep_two (by omega)]
    exact hmn _ _ _

theorem mergeAll_frame : ∀ (fuel : Nat) (s : State),
    (mergeAll fuel s).Sat (fun _ t => t = { s with nodes := t.nodes, heap := t.heap })
      (fun _ _ t => t = { s with nodes := t.nodes, heap := t.heap }) (fun _ => False) False
  | 0, _ => rfl
  | fuel + 1, s => by
    rw [mergeAll]
    split
    · refine Run.Sat.andThen (mergeStep_frame s) fun _ t ht => (mergeAll_frame fuel t).mono ?_ ?_ (fun _ h => h) id
      · intro _ u hu; rw [hu, show t = _ from ht]
      · intro _ _ u hu; rw [hu, show t = _ from ht]
    · rfl

/-- Whatever the queue holds, TB_BUILD changes only the arena, the queue, the root, the cursor and RESULT. -/
theorem runTbBuild_frame (s : State) :
    (runTbBuild s).Sat
      (fun _ t => t = { s with
        nodes := t.nodes, heap := t.heap, root := t.root, buCur := t.buCur, result := t.result })
      (fun _ _ t => t = { s with nodes := t.nodes, heap := t.heap }) (fun _ => False) False := by
  rw [runTbBuild]
  refine Run.Sat.andThen (mergeAll_frame s.heap.length s) fun _ t ht => ?_
  split
  · rw [pqRemoveNode_nonempty (by omega), andThen_done, show t = _ from ht]; rfl
  · rw [show t = _ from ht]; rfl

/-- Whatever the queue holds, TB_MERGE changes only the arena, the queue and RESULT. -/
theorem runTbMerge_frame (s : State) :
    (runTbMerge s).Sat
      (fun _ t => t = { s with nodes := t.nodes, heap := t.heap, result := t.result })
      (fun _ _ t => t = { s with nodes := t.nodes, heap := t.heap }) (fun _ => False) False := by
  rw [runTbMerge]
  refine Run.Sat.andThen (mergeStep_frame s) fun n t ht => ?_
  rw [show t = _ from ht]; rfl

theorem mergeAll_queueOk : ∀ (fuel : Nat) (s : State), QueueOk s →
    (mergeAll fuel s).Sat (fun _ t => QueueOk t) (fun _ _ t => QueueOk t) (fun _ => False) False
  | 0, s, h => h
  | fuel + 1, s, h => by
    rw [mergeAll]
    split
    · refine Run.Sat.andThen ((mergeStep_sat s h.heapRoom).mono (fun _ _ h => h) ?_ (fun _ h => h) id) ?_
      · rintro e _ t (⟨-, -, rfl⟩ | ⟨-, -, rfl⟩)
        · exact h
        · exact h.withoutTwo
      · rintro n t ⟨h2, hr, -, rfl, -⟩
        exact mergeAll_queueOk fuel _ (h.merge h2 hr)
    · exact h

theorem runTbBuild_sat (s : State) (hq : QueueOk s) (hro : RootOk s) :
    (runTbBuild s).Sat
      (fun _ t => t = { s with
          nodes := t.nodes, heap := t.heap, root := t.root, buCur := t.buCur, result := t.result }
        ∧ QueueOk t ∧ RootOk t)
      (fun _ _ t => t = { s with nodes := t.nodes, heap := t.heap } ∧ QueueOk t ∧ RootOk t)
      (fun _ => False) False := by
  rw [runTbBuild]
  have h1 := mergeAll_sat s.heap.length s hq.heapRoom
  have h2 := mergeAll_queueOk s.heap.length s hq
  rcases hr : mergeAll s.heap.length s with ⟨u, t⟩ | ⟨e, arg, t⟩ | t | f <;> rw [hr] at h1 h2
  · obtain ⟨ht, hp, -⟩ := h1
    rw [andThen_done]
    split
    · rename_i hlen
      have hlt : (slot t.heap 0).toNat < t.nodes.length := h2.allocated _ (slot_mem (by omega))
      rw [pqRemoveNode_nonempty (by omega), andThen_done]
      refine ⟨by rw [ht]; rfl, h2.remove.congr rfl rfl, ?_⟩
      exact .atRoot h2.arena h2.room hlt rfl
    · exact ⟨by rw [ht]; rfl, h2.congr rfl rfl, .inl ⟨rfl, rfl⟩⟩
  · obtain ⟨-, ht, hp, -⟩ := h1
    exact ⟨ht, h2, hro.grow hp h2.arena (by rw [ht]) (by rw [ht])⟩
  · exact h1
  · exact h1

/-! ### The code table -/

/-- Whatever the arena holds, the walk changes only the code table. -/
theorem walk_frame : ∀ (fuel : Nat) (n : NodeIdx) (path depth count : Nat) (s : State),
    (walk fuel n path depth count s).Sat (fun _ t => t = { s with code := t.code, len := t.len })
      (fun _ _ t => t = { s with code := t.code, len := t.len }) (fun _ => False) True
  | 0, _, _, _, _, _ => trivial
  | fuel + 1, n, path, depth, count, s => by
    rw [walk]
    split_ifs
    · rfl
    · rfl
    · rfl
    · refine Run.Sat.andThen (walk_frame fuel _ _ _ _ s) fun _ t ht =>
        (walk_frame fuel _ _ _ _ t).mono ?_ ?_ (fun _ h => h) id
      · intro _ u hu; rw [hu, show t = _ from ht]
      · intro _ _ u hu; rw [hu, show t = _ from ht]

/-- Whatever the arena holds, CG_GENERATE changes only the code table and RESULT. -/
theorem runCgGenerate_frame (s : State) :
    (runCgGenerate s).Sat (fun _ t => t = { s with code := t.code, len := t.len, result := t.result })
      (fun _ _ t => t = { s with code := t.code, len := t.len }) (fun _ => False) True := by
  rw [runCgGenerate, generateCodes]
  split_ifs
  · rfl
  · rfl
  · refine Run.Sat.andThen (Q := fun _ t => t = { s with code := t.code, len := t.len })
      ((walk_frame _ _ _ _ _ (clearCodes s)).mono ?_ ?_ (fun _ h => h) id) fun _ t ht => ?_
    · intro _ t ht; rw [ht]; rfl
    · intro _ _ t ht; rw [ht]; rfl
    · rw [show t = _ from ht]; rfl

/-! ### The serializer -/

theorem runTsMeasure_sat (s : State) :
    (runTsMeasure s).Sat (fun _ t => t = { s with treeSize := t.treeSize, result := t.result })
      (fun e _ t => e = .hdrRange ∧ t = s) (fun _ => False) False := by
  simp only [runTsMeasure]
  split
  · exact ⟨rfl, rfl⟩
  · rfl

theorem emitAll_waiting (bytes : List Byte) (s : State) :
    (emitAll bytes s).Sat
      (fun _ t => t = { s with outSeq := t.outSeq, outCount := t.outCount, outRoom := t.outRoom }
        ∧ s.outSeq <+: t.outSeq)
      (fun _ _ _ => False) (fun t => Waiting s t) False := by
  refine (emitAll_sat bytes s).mono ?_ (fun _ _ _ h => h) ?_ id
  · rintro _ t ⟨room, rfl⟩; exact ⟨rfl, List.prefix_append _ _⟩
  · rintro t ⟨h, room, cnt, pre, -, rfl⟩; exact ⟨List.prefix_append _ _, .inl h⟩

theorem runTsWriteTree_sat (s : State) :
    (runTsWriteTree s).Sat
      (fun _ t => t = { s with
          outSeq := t.outSeq, outCount := t.outCount, outRoom := t.outRoom, result := t.result }
        ∧ s.outSeq <+: t.outSeq)
      (fun e _ t => e = .hdrRange ∧ t = s) (fun t => Waiting s t) False := by
  simp only [runTsWriteTree]
  split
  · exact ⟨rfl, rfl⟩
  · refine Run.Sat.andThen ((emitAll_waiting _ s).mono (fun _ _ h => h) (fun _ _ _ h => h.elim) (fun _ h => h) id) ?_
    rintro _ t ⟨ht, hp⟩
    exact ⟨by rw [ht]; rfl, hp⟩

/-! ### The deserializer -/

theorem headerByte_sat (already : Word) (s : State) :
    (headerByte already s).Sat (fun _ t => t = { s with inSeq := t.inSeq, inRem := t.inRem } ∧ Consumed s t)
      (fun e _ t => e = .fmtTruncatedHeader ∧ t = s) (fun t => t = s ∧ Starved s) False := by
  rw [headerByte]
  split
  · exact ⟨rfl, rfl⟩
  · rename_i h
    refine (inRead_consumed s h).mono (fun _ _ h => h) (fun _ _ _ h => h.elim) ?_ id
    rintro t ⟨rfl, h1, h2⟩; exact ⟨rfl, starved_of_empty h1 h2⟩

theorem runTdReadHeader_sat (s : State) :
    (runTdReadHeader s).Sat
      (fun _ t => t = { s with
          inSeq := t.inSeq, inRem := t.inRem, pad := t.pad, treeSize := t.treeSize, result := t.result }
        ∧ Consumed s t)
      (fun e _ t => e = .fmtTruncatedHeader ∧ t = { s with inSeq := t.inSeq, inRem := t.inRem } ∧ Consumed s t)
      (fun t => Waiting s t) False := by
  rw [runTdReadHeader]
  refine Run.Sat.andThen ((headerByte_sat _ s).mono (fun _ _ h => h) ?_ ?_ id) ?_
  · rintro e _ t ⟨he, rfl⟩; exact ⟨he, rfl, .refl _⟩
  · rintro t ⟨rfl, h⟩; exact ⟨List.prefix_rfl, .inr h⟩
  · rintro b0 t ⟨ht, hc⟩
    refine Run.Sat.andThen ((headerByte_sat _ t).mono (fun _ _ h => h) ?_ ?_ id) ?_
    · rintro e _ u ⟨he, rfl⟩; exact ⟨he, ht, hc⟩
    · rintro u ⟨rfl, h⟩
      exact ⟨by rw [ht], .inr (hc.starved h)⟩
    · rintro b1 u ⟨hu, hcu⟩
      exact ⟨by rw [hu, ht]; rfl, (hc.trans hcu).to_eq rfl rfl⟩

theorem runTdReadTree_sat (s : State) :
    (runTdReadTree s).Sat
      (fun _ t => t = { s with
          nodes := t.nodes, heap := [], root := t.root, buCur := t.buCur, result := t.result
          dstack := t.dstack, inSeq := t.inSeq, inRem := t.inRem }
        ∧ Consumed s t ∧ (t.dstack = s.dstack ∨ t.dstack = []) ∧ QueueOk t ∧ RootOk t)
      (fun e _ t => e ∈ [ErrKind.fmtBadTag, .fmtTreeSizeMismatch, .fmtTreeEos, .fmtTreeTooLarge]
        ∧ t = { s with
          nodes := t.nodes, heap := [], root := Config.nil, buCur := Config.nil, dstack := t.dstack
          inSeq := t.inSeq, inRem := t.inRem }
        ∧ Consumed s t ∧ QueueOk t ∧ RootOk t)
      (fun t => Waiting s t) False := by
  rw [runTdReadTree]
  split
  · exact ⟨rfl, (Consumed.refl s).to_eq rfl rfl, .inl rfl, queueOk_cleared _ rfl rfl, .inl ⟨rfl, rfl⟩⟩
  · refine (readTree_sat _ 0 { treeClear s with dstack := [] } ⟨by simp [treeClear], arenaOk_nil, fun f hf => by simp at hf⟩).mono
      ?_ ?_ ?_ id
    · rintro _ t ⟨ht, hc, hn, ha, hr⟩
      have hh : t.heap = [] := by rw [ht]; rfl
      refine ⟨by rw [ht]; rfl, hc.from_to rfl rfl, .inr (by rw [ht]), ⟨ha, hn, by simp [hh], by simp [hh], ?_⟩, ?_⟩
      · rw [hh]; exact heapOrdered_nil _
      · exact .atRoot ha hn hr (by rw [ht])
    · rintro e _ t ⟨he, ht, hc, hn, ha⟩
      have hh : t.heap = [] := by rw [ht]; rfl
      refine ⟨he, by rw [ht]; rfl, hc.from_to rfl rfl, ⟨ha, hn, by simp [hh], by simp [hh], ?_⟩, .inl ⟨by rw [ht]; rfl, by rw [ht]; rfl⟩⟩
      rw [hh]; exact heapOrdered_nil _
    · rintro t ⟨ho, hst⟩
      refine ⟨?_, .inr hst⟩
      rw [ho]
      exact List.prefix_rfl

/-! ### The packer -/

theorem BitsWait.waiting {s t : State} (h : BitsWait s t) : Waiting s t := ⟨h.1.prefix_out, .inl h.2⟩

theorem runBpFlush_sat (s : State) :
    (runBpFlush s).Sat (fun _ t => BitsOut s t ∧ t.acc = 0#8) (fun _ _ _ => False) (fun t => Waiting s t) False := by
  rw [runBpFlush]
  refine Run.Sat.andThen (Q := fun _ t => BitsOut s t) ?_ fun _ t ht =>
    ⟨⟨by rw [ht.frame], ht.prefix_out, fun _ => by simp, ht.room⟩, rfl⟩
  split
  · exact .refl s
  · exact (emit_bitsOut _ s).mono (fun _ _ h => h) (fun _ _ _ h => h) (fun _ h => h.waiting) id

theorem runBpEncodeStream_sat (s : State) :
    (runBpEncodeStream s).Sat (fun _ t => ∃ u, Packed s u ∧ t = { u with result := t.result })
      (fun e _ t => e = .noCode ∧ Packed s t) (fun t => Waiting s t) False := by
  rw [runBpEncodeStream]
  refine Run.Sat.andThen ((encodeStream_packed _ 0 s (Nat.le_refl _)).mono (fun _ _ h => h) (fun _ _ _ h => h) ?_ id) ?_
  · exact fun t ht => ⟨ht.1.prefix_out, ht.2⟩
  · exact fun k t ht => ⟨t, ht, rfl⟩

/-! ### The unpacker -/

theorem runBuBit_sat (x : BitVec 1) (s : State) :
    (runBuBit x s).Sat
      (fun _ t => ∃ u, Unpacked s u ∧ s.root ≠ Config.nil ∧ u.inSeq = s.inSeq ∧ u.inRem = s.inRem
        ∧ t = { u with result := t.result })
      (fun e _ t => (e = .fmtNoTree ∨ e = .fmtBadCode) ∧ t = s) (fun t => Waiting s t) False := by
  rw [runBuBit]
  refine Run.Sat.andThen ((decodeBit_sat x 0#32 s).mono (fun _ _ h => h) ?_ ?_ id) ?_
  · rintro e _ t ⟨he, rfl⟩; exact ⟨he.imp And.left id, rfl⟩
  · exact fun t ht => ⟨ht.1.prefix_out, ht.2⟩
  · exact fun r t ht => ⟨t, ht.1, ht.2.1, ht.2.2.1, ht.2.2.2, rfl⟩

/-- Whatever the arena holds, BU_DECODE_STREAM changes only the cursor, the streams and RESULT. -/
theorem runBuDecodeStream_frame (s : State) :
    (runBuDecodeStream s).Sat
      (fun _ t => t = { s with
          buCur := t.buCur, outSeq := t.outSeq, outCount := t.outCount, outRoom := t.outRoom, inSeq := t.inSeq
          inRem := t.inRem, result := t.result }
        ∧ s.outSeq <+: t.outSeq)
      (fun _ _ t => t = { s with
          buCur := t.buCur, outSeq := t.outSeq, outCount := t.outCount, outRoom := t.outRoom, inSeq := t.inSeq
          inRem := t.inRem }
        ∧ s.outSeq <+: t.outSeq)
      (fun t => Waiting s t) False := by
  rw [runBuDecodeStream]
  split_ifs
  · exact ⟨rfl, List.prefix_rfl⟩
  · exact ⟨rfl, List.prefix_rfl⟩
  · exact ⟨rfl, List.prefix_rfl⟩
  · refine Run.Sat.andThen ((decodeBytes_sat _ 0 0 { s with buCur := s.root } (Nat.le_refl _)).mono (fun _ _ h => h)
      ?_ ?_ id) ?_
    · rintro e _ t ⟨-, ht⟩; exact ⟨by rw [ht.frame], ht.prefix_out⟩
    · exact fun t ht => ⟨ht.1.prefix_out, ht.2⟩
    · intro e t ht
      rw [endPayload]
      split
      · exact ⟨by rw [ht.frame], ht.prefix_out⟩
      · exact ⟨by rw [ht.frame]; rfl, ht.prefix_out⟩

theorem runBuDecodeStream_sat (s : State) (hro : RootOk s) :
    (runBuDecodeStream s).Sat
      (fun _ t => t = { s with
          buCur := t.buCur, outSeq := t.outSeq, outCount := t.outCount, outRoom := t.outRoom, inSeq := t.inSeq
          inRem := t.inRem, result := t.result }
        ∧ s.outSeq <+: t.outSeq ∧ Consumed s t ∧ RootOk t)
      (fun e _ t => e ∈ [ErrKind.fmtPadNoPayload, .fmtNoTree, .fmtBadCode, .fmtPayloadTruncated]
        ∧ t = { s with
          buCur := t.buCur, outSeq := t.outSeq, outCount := t.outCount, outRoom := t.outRoom, inSeq := t.inSeq
          inRem := t.inRem }
        ∧ s.outSeq <+: t.outSeq ∧ Consumed s t ∧ RootOk t)
      (fun t => Waiting s t) False := by
  rw [runBuDecodeStream]
  split_ifs with h1 h2 h3
  · exact ⟨by simp, rfl, List.prefix_rfl, .refl s, hro⟩
  · exact ⟨rfl, List.prefix_rfl, (Consumed.refl s).to_eq rfl rfl, hro.congr rfl rfl rfl⟩
  · exact ⟨by simp, rfl, List.prefix_rfl, .refl s, hro⟩
  · have hcur : CursorOk { s with buCur := s.root } := by
      rcases hro with ⟨h, -⟩ | h
      · exact absurd h h2
      · exact .atRoot h.arena h.nonempty h.allocated rfl
    have hunp : ∀ {t}, Unpacked { s with buCur := s.root } t → t = { s with
          buCur := t.buCur, outSeq := t.outSeq, outCount := t.outCount, outRoom := t.outRoom, inSeq := t.inSeq
          inRem := t.inRem } ∧ s.outSeq <+: t.outSeq ∧ Consumed s t ∧ RootOk t := by
      intro t ht
      exact ⟨by rw [ht.frame], ht.prefix_out, ht.consumed.from_to rfl rfl, .inr (ht.cursor hcur)⟩
    refine Run.Sat.andThen ((decodeBytes_sat _ 0 0 { s with buCur := s.root } (Nat.le_refl _)).mono (fun _ _ h => h)
      ?_ ?_ id) ?_
    · rintro e _ t ⟨he, ht⟩
      exact ⟨by rcases he with ⟨rfl, -⟩ | rfl <;> simp, hunp ht⟩
    · exact fun t ht => ⟨ht.1.prefix_out, ht.2⟩
    · rintro e t ht
      obtain ⟨hf, hp, hc, hr⟩ := hunp ht
      rw [endPayload]
      split
      · exact ⟨by simp, hf, hp, hc, hr⟩
      · exact ⟨by rw [hf]; rfl, hp, hc.to_eq rfl rfl, hr.congr rfl rfl rfl⟩

end Sys2Proof.Machine
end

