-- ==== Sys2Proof/Laws/Decode.lean ====
section
/-! SUPPORT. The fields of the words the encoder writes (30_encoding R76). -/

namespace Sys2Proof

/-- A field that stands at the low end of a concatenation. -/
theorem extract_low {m n : Nat} (hi : BitVec m) (lo : BitVec n) : (hi ++ lo).extractLsb' 0 n = lo := by
  refine BitVec.eq_of_getLsbD_eq fun i h => ?_
  simp [BitVec.getLsbD_append, h]

/-- A field that stands above a concatenation's low part. -/
theorem extract_high {m n : Nat} (hi : BitVec m) (lo : BitVec n) : (hi ++ lo).extractLsb' n m = hi := by
  refine BitVec.eq_of_getLsbD_eq fun i h => ?_
  simp [BitVec.getLsbD_append, h]

/-- The top field of three. -/
theorem extract_top {m k n : Nat} (hi : BitVec m) (mid : BitVec k) (lo : BitVec n) :
    (hi ++ mid ++ lo).extractLsb' (n + k) m = hi := by
  refine BitVec.eq_of_getLsbD_eq fun i h => ?_
  have h1 : ¬ n + k + i < n := by omega
  have h2 : ¬ n + k + i - n < k := by omega
  simp only [BitVec.getLsbD_extractLsb', BitVec.getLsbD_append, h1, h2, if_false, h, decide_true, Bool.true_and]
  congr 1; omega

/-- The middle field of three. -/
theorem extract_mid {m k n : Nat} (hi : BitVec m) (mid : BitVec k) (lo : BitVec n) :
    (hi ++ mid ++ lo).extractLsb' n k = mid := by
  refine BitVec.eq_of_getLsbD_eq fun i h => ?_
  have h1 : ¬ n + i < n := by omega
  have h2 : n + i - n < k := by omega
  simp only [BitVec.getLsbD_extractLsb', BitVec.getLsbD_append, h1, h2, if_false, if_true, h, decide_true,
    Bool.true_and]
  congr 1; omega

theorem opcOf_wordZ (opc : Byte) : opcOf (wordZ opc) = opc := extract_high opc 0#24
theorem opcOf_wordN (opc : Byte) (n : NodeIdx) : opcOf (wordN opc n) = opc := extract_top opc 0#15 n
theorem opcOf_wordS (opc sym : Byte) : opcOf (wordS opc sym) = opc := extract_top opc 0#16 sym
theorem opcOf_wordB (opc : Byte) (x : BitVec 1) : opcOf (wordB opc x) = opc := extract_top opc 0#23 x
theorem opcOf_wordH (opc : Byte) (h : BitVec 16) : opcOf (wordH opc h) = opc := extract_top opc 0#8 h

theorem fieldN_wordN (opc : Byte) (n : NodeIdx) : fieldN (wordN opc n) = n := extract_low (opc ++ 0#15) n
theorem fieldS_wordS (opc sym : Byte) : fieldS (wordS opc sym) = sym := extract_low (opc ++ 0#16) sym
theorem fieldB_wordB (opc : Byte) (x : BitVec 1) : fieldB (wordB opc x) = x := extract_low (opc ++ 0#23) x
theorem fieldH_wordH (opc : Byte) (h : BitVec 16) : fieldH (wordH opc h) = h := extract_low (opc ++ 0#8) h

theorem zeroBits_wordZ (opc : Byte) : zeroBits .z (wordZ opc) = true := by
  rw [zeroBits, beq_iff_eq]; exact extract_low opc 0#24
theorem zeroBits_wordN (opc : Byte) (n : NodeIdx) : zeroBits .n (wordN opc n) = true := by
  rw [zeroBits, beq_iff_eq]; exact extract_mid opc 0#15 n
theorem zeroBits_wordS (opc sym : Byte) : zeroBits .s (wordS opc sym) = true := by
  rw [zeroBits, beq_iff_eq]; exact extract_mid opc 0#16 sym
theorem zeroBits_wordB (opc : Byte) (x : BitVec 1) : zeroBits .b (wordB opc x) = true := by
  rw [zeroBits, beq_iff_eq]; exact extract_mid opc 0#23 x
theorem zeroBits_wordH (opc : Byte) (h : BitVec 16) : zeroBits .h (wordH opc h) = true := by
  rw [zeroBits, beq_iff_eq]; exact extract_mid opc 0#8 h

end Sys2Proof
end

