-- ==== Sys2Proof/Laws/HostProgram.lean ====
section
/-! SUPPORT. What a run of a host program says: it ends only with BUSY = 0, and WAIT goes on exactly while STATUS reads
BUSY = 1 (30_encoding R83, 70_reset_and_hazards R158). -/

namespace Sys2Proof.Machine

/-- The program's state where a run stops without a fault or a refusal. -/
theorem endRun_ended {p : ProgramState} {s : State} (h : endRun p = .ended s) :
    s = p.machine ∧ s.busy = false := by
  unfold endRun at h
  split at h
  · cases h
  · rename_i hb
    cases h; exact ⟨rfl, by simpa using hb⟩

/-- A run ends with BUSY = 0 (70_reset_and_hazards R158). -/
theorem runOps_ended_idle : ∀ (env : List (List PortMove)) (ops : List HostOp) (p : ProgramState) (s : State),
    runOps env ops p = .ended s → s.busy = false
  | [], [], p, s, h => (endRun_ended (by simpa [runOps] using h)).2
  | _ :: _, [], p, s, h => (endRun_ended (by simpa [runOps] using h)).2
  | [], _ :: _, p, s, h => by simp [runOps] at h
  | moves :: env, op :: ops, p, s, h => by
    rw [runOps] at h
    split at h
    · cases h
    · cases h
    · split at h
      · cases h
      · cases h
      · exact runOps_ended_idle env _ _ s h

theorem runProgram_ended_idle {env : List (List PortMove)} {supply : List Byte} {prog : List Pseudo} {s : State}
    (h : runProgram env supply prog = .ended s) : s.busy = false := runOps_ended_idle _ _ _ _ h

/-- STATUS bit 0 is BUSY, bit 1 ERR (10_state R24). -/
theorem statusWord_busy (s : State) : (statusWord s).getLsbD 0 = s.busy := by
  rw [statusWord, BitVec.getLsbD_append]; simp

theorem statusWord_err (s : State) : (statusWord s).getLsbD 1 = s.err := by
  rw [statusWord, BitVec.getLsbD_append, BitVec.getLsbD_append]; simp

/-- A STATUS read by the program hands over STATUS, whatever BUSY is, and changes nothing else. -/
theorem hostRead_status (p : ProgramState) :
    hostRead Reg.status.offset p = .next { p with machine := { p.machine with readData := statusWord p.machine } } := by
  have ho : offsetOf p.machine (hcBase p.machine + Reg.status.offset) = some Reg.status.offset := by
    simp [offsetOf, Reg.offset, Config.regSpan]
  have hb : busRead 4 (hcBase p.machine + Reg.status.offset) p.machine
      = { p.machine with readData := statusWord p.machine } := by
    rw [busRead, ho]
    simp only
    rw [if_pos (by cases p.machine.busy <;> rfl)]
    rfl
  rw [hostRead, hostAct, perform, hb]

/-- One turn of WAIT: it is over where BUSY = 0 and goes on where BUSY = 1. -/
theorem runOps_wait {moves : List PortMove} {env : List (List PortMove)} {ops : List HostOp} {p p₁ : ProgramState}
    (h : performMoves moves p = .next p₁) :
    runOps (moves :: env) (.untilIdle :: ops) p
      = runOps env (if p₁.machine.busy then .untilIdle :: ops else ops)
          { p₁ with machine := { p₁.machine with readData := statusWord p₁.machine } } := by
  rw [runOps, h]
  simp only [HostOp.perform, hostRead_status, HostOp.rest, statusWord_busy]

end Sys2Proof.Machine
end

