-- ==== Sys2Proof/Laws/Huffman.lean ====
section
/-! SUPPORT. Why merging the two least is optimal (42_tree_builder R109): a tree's leaves as weights at depths, the
exchange of the two least weights with two deepest siblings, and TB_BUILD's loop as a run of such merges. -/

namespace Sys2Proof.Machine

/-! ### The depths of a binary tree's leaves -/

/-- The lists of leaf depths of binary trees, in any order: one leaf at 0, or two deepest siblings below a list that
has their parent as a leaf. -/
inductive FullDepths : List Nat → Prop where
  | one : FullDepths [0]
  | split (d : Nat) (E : List Nat) (h : FullDepths (d :: E)) (hd : ∀ e ∈ E, e ≤ d + 1) :
      FullDepths ((d + 1) :: (d + 1) :: E)
  | perm (D D' : List Nat) (h : FullDepths D) (hp : D.Perm D') : FullDepths D'

theorem FullDepths.cases {D : List Nat} (h : FullDepths D) :
    D = [0] ∨ ∃ d E, D.Perm ((d + 1) :: (d + 1) :: E) ∧ FullDepths (d :: E) ∧ ∀ e ∈ E, e ≤ d + 1 := by
  induction h with
  | one => exact .inl rfl
  | split d E h hd _ => exact .inr ⟨d, E, .refl _, h, hd⟩
  | perm D D' _ hp ih =>
    rcases ih with rfl | ⟨d, E, hp', hE, hd⟩
    · exact .inl (List.singleton_perm.1 hp).symm
    · exact .inr ⟨d, E, hp.symm.trans hp', hE, hd⟩

/-- Two trees joined under a new root. -/
theorem FullDepths.node : ∀ (n : Nat) {L R : List Nat}, L.length + R.length ≤ n → FullDepths L → FullDepths R →
    FullDepths ((L ++ R).map (· + 1))
  | 0, L, R, hn, hL, _ => by
    rcases hL.cases with rfl | ⟨d, E, hp, -, -⟩
    · simp at hn
    · have := hp.length_eq; simp at this; omega
  | n + 1, L, R, hn, hL, hR => by
    have main : ∀ {L R : List Nat}, L.length + R.length ≤ n + 1 → FullDepths R → ∀ d E,
        L.Perm ((d + 1) :: (d + 1) :: E) → FullDepths (d :: E) → (∀ e ∈ E, e ≤ d + 1) → (∀ e ∈ R, e ≤ d + 1) →
        FullDepths ((L ++ R).map (· + 1)) := by
      intro L R hn hR d E hp hE hd hRd
      have hl := hp.length_eq
      simp only [List.length_cons] at hl
      have ih := FullDepths.node n (L := d :: E) (by simp only [List.length_cons]; omega) hE hR
      refine .perm _ _ (.split (d + 1) ((E ++ R).map (· + 1)) ih ?_) ?_
      · intro e he
        obtain ⟨e', he', rfl⟩ := List.mem_map.1 he
        rcases List.mem_append.1 he' with h | h
        · have := hd e' h; omega
        · have := hRd e' h; omega
      · exact ((hp.append_right R).map (· + 1)).symm
    rcases hL.cases with rfl | ⟨d, E, hp, hE, hd⟩ <;> rcases hR.cases with rfl | ⟨d', E', hp', hE', hd'⟩
    · exact .split 0 [] .one (by simp)
    · refine .perm _ _ (main (by omega) hL d' E' hp' hE' hd' (by simp)) ?_
      exact List.Perm.map _ List.perm_append_comm
    · exact main hn .one d E hp hE hd (by simp)
    · have hb : ∀ e ∈ L, e ≤ d + 1 := fun e he => by
        have := hp.mem_iff.1 he
        simp only [List.mem_cons] at this
        rcases this with rfl | rfl | h <;> first | omega | exact hd e h
      have hb' : ∀ e ∈ R, e ≤ d' + 1 := fun e he => by
        have := hp'.mem_iff.1 he
        simp only [List.mem_cons] at this
        rcases this with rfl | rfl | h <;> first | omega | exact hd' e h
      rcases Nat.le_total d' d with h | h
      · exact main hn hR d E hp hE hd fun e he => by have := hb' e he; omega
      · refine .perm _ _ (main (by omega) hL d' E' hp' hE' hd' fun e he => by have := hb e he; omega) ?_
        exact List.Perm.map _ List.perm_append_comm

/-- The depths of a tree's leaves. -/
theorem CodeTree.fullDepths (T : CodeTree) : FullDepths (T.paths.map fun c => c.2.length) := by
  induction T with
  | leaf v => exact .one
  | node l r ihl ihr =>
    have := FullDepths.node _ (Nat.le_refl _) ihl ihr
    simpa [CodeTree.paths, Function.comp_def] using this

/-! ### The exchange -/

/-- The cost of weights at depths. -/
def pairCost (P : List (Nat × Nat)) : Nat := (P.map fun c => c.1 * c.2).sum

theorem pairCost_perm {P Q : List (Nat × Nat)} (h : P.Perm Q) : pairCost P = pairCost Q := (h.map _).sum_eq

theorem pairCost_cons (c : Nat × Nat) (P : List (Nat × Nat)) : pairCost (c :: P) = c.1 * c.2 + pairCost P := by
  simp [pairCost]

theorem perm_cons_of_map {α : Type} {f : α → Nat} {l : List α} {b : Nat} {B : List Nat}
    (h : (l.map f).Perm (b :: B)) : ∃ c C, l.Perm (c :: C) ∧ f c = b ∧ (C.map f).Perm B := by
  obtain ⟨c, hc, rfl⟩ := List.mem_map.1 (h.symm.mem_iff.1 List.mem_cons_self)
  obtain ⟨l₁, l₂, rfl⟩ := List.append_of_mem hc
  have hp : (l₁ ++ c :: l₂).Perm (c :: (l₁ ++ l₂)) := List.perm_middle
  exact ⟨c, l₁ ++ l₂, hp, rfl, ((hp.map f).symm.trans h).cons_inv⟩

theorem exchange_le {a x d m : Nat} (ha : a ≤ x) (hd : d ≤ m) : a * m + x * d ≤ x * m + a * d := by
  obtain ⟨y, rfl⟩ := Nat.exists_eq_add_of_le ha
  obtain ⟨e, rfl⟩ := Nat.exists_eq_add_of_le hd
  ring_nf
  omega

/-- A least weight exchanged with the weight at a greatest depth. -/
theorem exchange_least {a x m : Nat} {Q : List (Nat × Nat)} (hm : ∀ q ∈ Q, q.2 ≤ m)
    (ha : a ∈ x :: Q.map Prod.fst) (hl : ∀ w ∈ x :: Q.map Prod.fst, a ≤ w) :
    ∃ Q', (a :: Q'.map Prod.fst).Perm (x :: Q.map Prod.fst) ∧ (Q'.map Prod.snd).Perm (Q.map Prod.snd)
      ∧ a * m + pairCost Q' ≤ x * m + pairCost Q := by
  rcases List.mem_cons.1 ha with rfl | ha
  · exact ⟨Q, .refl _, .refl _, Nat.le_refl _⟩
  · obtain ⟨c, hc, rfl⟩ := List.mem_map.1 ha
    obtain ⟨l₁, l₂, rfl⟩ := List.append_of_mem hc
    have hp : (l₁ ++ c :: l₂).Perm (c :: (l₁ ++ l₂)) := List.perm_middle
    refine ⟨(x, c.2) :: (l₁ ++ l₂), ?_, ?_, ?_⟩
    · exact (List.Perm.swap x c.1 _).trans (((hp.map Prod.fst).symm).cons x)
    · exact ((hp.map Prod.snd).symm)
    · rw [pairCost_cons, pairCost_perm hp, pairCost_cons]
      have := exchange_le (hl x (by simp)) (hm c hc)
      simp only
      omega

/-- The two least weights merge without loss: whatever tree has these weights at its leaves, one with the two replaced
by their sum costs less by that sum. -/
theorem merge_optimal {a b : Nat} {W : List Nat} (hab : a ≤ b) (hb : ∀ w ∈ W, b ≤ w) {P : List (Nat × Nat)}
    (hF : FullDepths (P.map Prod.snd)) (hP : (P.map Prod.fst).Perm (a :: b :: W)) :
    ∃ P', FullDepths (P'.map Prod.snd) ∧ (P'.map Prod.fst).Perm ((a + b) :: W)
      ∧ pairCost P' + (a + b) ≤ pairCost P := by
  rcases hF.cases with h1 | ⟨d, E, hp, hE, hd⟩
  · have := congrArg List.length h1
    have := hP.length_eq
    simp at *; omega
  · obtain ⟨⟨x, m⟩, P1, hP1, hx, hP1d⟩ := perm_cons_of_map hp
    simp only at hx
    subst hx
    have hw1 : (x :: P1.map Prod.fst).Perm (a :: b :: W) := ((hP1.map Prod.fst).symm.trans hP)
    have hle : ∀ w ∈ a :: b :: W, a ≤ w := by
      intro w hw
      simp only [List.mem_cons] at hw
      rcases hw with rfl | rfl | hw
      · exact Nat.le_refl _
      · exact hab
      · exact Nat.le_trans hab (hb w hw)
    obtain ⟨Q1, hQ1w, hQ1d, hQ1c⟩ := exchange_least (a := a) (x := x) (m := d + 1) (Q := P1)
      (fun q hq => by
        have := hP1d.mem_iff.1 (List.mem_map_of_mem (f := Prod.snd) hq)
        rcases List.mem_cons.1 this with h | h
        · omega
        · exact hd _ h)
      (hw1.symm.mem_iff.1 (by simp)) (fun w hw => hle w (hw1.mem_iff.1 hw))
    have hQ1w' : (Q1.map Prod.fst).Perm (b :: W) := (hQ1w.trans hw1).cons_inv
    obtain ⟨⟨y, m⟩, Q2, hQ2, hy, hQ2d⟩ := perm_cons_of_map (hQ1d.trans hP1d)
    simp only at hy
    subst hy
    have hw2 : (y :: Q2.map Prod.fst).Perm (b :: W) := (hQ2.map Prod.fst).symm.trans hQ1w'
    obtain ⟨Q3, hQ3w, hQ3d, hQ3c⟩ := exchange_least (a := b) (x := y) (m := d + 1) (Q := Q2)
      (fun q hq => hd _ (hQ2d.mem_iff.1 (List.mem_map_of_mem (f := Prod.snd) hq)))
      (hw2.symm.mem_iff.1 (by simp)) (fun w hw => by
        rcases List.mem_cons.1 (hw2.mem_iff.1 hw) with rfl | h
        · exact Nat.le_refl _
        · exact hb w h)
    refine ⟨(a + b, d) :: Q3, ?_, ?_, ?_⟩
    · exact .perm _ _ hE ((hQ3d.trans hQ2d).symm.cons d)
    · exact (((hQ3w.trans hw2).cons_inv).cons (a + b))
    · rw [pairCost_cons, pairCost_perm hP1, pairCost_cons]
      rw [pairCost_perm hQ2, pairCost_cons] at hQ1c
      simp only at *
      rw [Nat.mul_add] at hQ1c hQ3c
      rw [Nat.add_mul]
      omega

/-! ### Weighted trees -/

/-- The sum of the frequencies of a tree's leaves. -/
def CodeTree.weight (f : Byte → Nat) (T : CodeTree) : Nat := (T.symbols.map f).sum

theorem CodeTree.weight_node (f : Byte → Nat) (l r : CodeTree) :
    (CodeTree.node l r).weight f = l.weight f + r.weight f := by
  simp [CodeTree.weight, CodeTree.symbols_node]

theorem sum_map_succ {α : Type} (g : α → Nat) (h : α → Nat) (l : List α) :
    (l.map fun c => g c * (h c + 1)).sum = (l.map fun c => g c * h c).sum + (l.map g).sum := by
  induction l with
  | nil => rfl
  | cons a l ih => rw [List.map_cons, List.sum_cons, ih, Nat.mul_add]; simp only [List.map_cons, List.sum_cons]; omega

theorem CodeTree.weightedDepth_node (f : Byte → Nat) (l r : CodeTree) :
    (CodeTree.node l r).weightedDepth f = l.weightedDepth f + r.weightedDepth f + (l.weight f + r.weight f) := by
  have h := fun T : CodeTree => sum_map_succ (fun c : Byte × List Bool => f c.1) (fun c => c.2.length) T.paths
  have hw : ∀ T : CodeTree, (T.paths.map fun c => f c.1).sum = T.weight f := fun T => by
    simp [CodeTree.weight, CodeTree.symbols, Function.comp_def]
  simp only [CodeTree.weightedDepth, CodeTree.paths, List.map_append, List.map_map, List.sum_append, Function.comp_def,
    List.length_cons, h, hw]
  omega

theorem CodeTree.weightedDepth_eq_pairCost (f : Byte → Nat) (T : CodeTree) :
    T.weightedDepth f = pairCost (T.paths.map fun c => (f c.1, c.2.length)) := by
  simp [CodeTree.weightedDepth, pairCost, Function.comp_def]

/-- A forest whose nodes carry their trees' weights. -/
def WeightedForest (f : Byte → Nat) (s : State) (h : List NodeIdx) (Ts : List CodeTree) : Prop :=
  List.Forall₂ (fun i T => HoldsTree s.nodes i T ∧ (keyOf s i).toNat = T.weight f) h Ts

theorem WeightedForest.weights {f : Byte → Nat} {s : State} {h : List NodeIdx} {Ts : List CodeTree}
    (hF : WeightedForest f s h Ts) : h.map (fun i => (keyOf s i).toNat) = Ts.map (CodeTree.weight f) := by
  induction hF with
  | nil => rfl
  | cons h _ ih => simp [ih, h.2]

/-- TB_BUILD's loop from a queue with the heap property, as `mergeAll_done`, makes a tree no costlier than any tree over
the queued weights. -/
theorem mergeAll_optimal (f : Byte → Nat) : ∀ (fuel : Nat) (s : State) (Ts : List CodeTree), s.heap.length ≤ fuel →
    s.heap.length ≤ 256 → (∀ m ∈ s.heap, m.toNat < s.nodes.length) → s.nodes.length ≤ 511 →
    s.nodes.length + (s.heap.length - 1) ≤ 511 → queuedFreq s ≤ 2 ^ 32 - 1 → HeapOrdered (keyOf s) s.heap →
    1 ≤ s.heap.length → WeightedForest f s s.heap Ts →
    ∃ t x U, mergeAll fuel s = .done () t ∧ t.heap = [x] ∧ HoldsTree t.nodes x U
      ∧ (U.symbols).Perm (Ts.flatMap CodeTree.symbols)
      ∧ ∀ P : List (Nat × Nat), FullDepths (P.map Prod.snd) → (P.map Prod.fst).Perm (Ts.map (CodeTree.weight f)) →
        U.weightedDepth f ≤ (Ts.map (CodeTree.weightedDepth f)).sum + pairCost P
  | 0, s, Ts, hfuel, _, _, _, _, _, _, h1, _ => by omega
  | fuel + 1, s, Ts, hfuel, hc, ha, hn, hroom, hsum, ho, h1, hF => by
    rw [mergeAll]
    split
    · rename_i h2
      have hab : (keyOf s (firstOut s)).toNat + (keyOf s (secondOut s)).toNat ≤ 2 ^ 32 - 1 := by
        have := ((merge_perm (s := s) h2).map fun m => (keyOf s m).toNat).sum_eq
        simp only [List.map_cons, List.sum_cons] at this
        rw [queuedFreq] at hsum
        omega
      have hnl := mergedState_nodes_length s
      have hhl := mergedState_heap_length (s := s) h2
      have hkey : ∀ {i : NodeIdx}, i.toNat < s.nodes.length → keyOf (mergedState s) i = keyOf s i := keyOf_mergedState
      obtain ⟨Ts', hF', hpT⟩ : ∃ Ts', WeightedForest f s (firstOut s :: secondOut s :: heapWithoutTwo s) Ts'
          ∧ Ts'.Perm Ts := List.perm_comp_forall₂ (merge_perm (s := s) h2).symm hF
      obtain ⟨l, Ts1, ⟨hl, hlw⟩, hF1, rfl⟩ := List.forall₂_cons_left_iff.1 hF'
      obtain ⟨r, rest, ⟨hr, hrw⟩, hF2, rfl⟩ := List.forall₂_cons_left_iff.1 hF1
      have hsumw : (keyOf s (firstOut s) + keyOf s (secondOut s)).toNat
          = (keyOf s (firstOut s)).toNat + (keyOf s (secondOut s)).toNat := by
        rw [BitVec.toNat_add, Nat.mod_eq_of_lt]; omega
      have hFm : WeightedForest f (mergedState s) (BitVec.ofNat 9 s.nodes.length :: heapWithoutTwo s)
          (.node l r :: rest) := by
        refine .cons ⟨.newInternal _ (by omega) hl hr, ?_⟩ (List.Forall₂.imp ?_ hF2)
        · rw [keyOf_merged (by omega), hsumw, CodeTree.weight_node, hlw, hrw]
        · rintro i T ⟨hT, hw⟩
          exact ⟨hT.append, by rw [hkey hT.lt]; exact hw⟩
      obtain ⟨Ts2, hF3, hpT2⟩ : ∃ Ts2, WeightedForest f (mergedState s) (mergedState s).heap Ts2
          ∧ Ts2.Perm (.node l r :: rest) := List.perm_comp_forall₂ (mergedState_heap_perm s) hFm
      obtain ⟨t, x, U, he, hx, hU, hUs, hopt⟩ :=
        mergeAll_optimal f fuel (mergedState s) Ts2 (by omega) (by omega)
          (mergedState_allocated (by omega) ha) (by omega) (by omega)
          (by rw [mergedState_queuedFreq h2 (by omega) ha hab]; exact hsum) (mergedState_ordered ha ho) (by omega) hF3
      refine ⟨t, x, U, ?_, hx, hU, ?_, fun P hP hPw => ?_⟩
      · rw [mergeStep_done h2 hc (by omega) hab, andThen_done, he]
      · refine hUs.trans ((hpT2.flatMap_right _).trans (List.Perm.trans ?_ (hpT.flatMap_right _)))
        simp [CodeTree.symbols_node]
      · obtain ⟨hleast, hrest⟩ := merge_least (s := s) h2 ho
        have hw2 := WeightedForest.weights hF2
        have hPw' : (P.map Prod.fst).Perm (l.weight f :: r.weight f :: rest.map (CodeTree.weight f)) :=
          hPw.trans (hpT.map _).symm
        obtain ⟨P', hP', hPw2, hcost⟩ := merge_optimal (a := l.weight f) (b := r.weight f)
          (W := rest.map (CodeTree.weight f)) (by rw [← hlw, ← hrw]; exact hleast)
          (fun w hw => by
            rw [← hw2] at hw
            obtain ⟨i, hi, rfl⟩ := List.mem_map.1 hw
            rw [← hrw]
            exact hrest i hi) hP hPw'
        have := hopt P' hP' (hPw2.trans (by rw [← CodeTree.weight_node]; exact (hpT2.map _).symm))
        have e1 := (hpT2.map (CodeTree.weightedDepth f)).sum_eq
        have e2 := (hpT.map (CodeTree.weightedDepth f)).sum_eq
        simp only [List.map_cons, List.sum_cons, CodeTree.weightedDepth_node] at e1 e2
        omega
    · rename_i h2
      obtain ⟨x, hx⟩ : ∃ x, s.heap = [x] := List.length_eq_one_iff.1 (by omega)
      rw [hx] at hF
      obtain ⟨U, Us, ⟨hU, -⟩, hUs, rfl⟩ := List.forall₂_cons_left_iff.1 hF
      obtain rfl : Us = [] := List.forall₂_nil_left_iff.1 hUs
      refine ⟨s, x, U, rfl, hx, hU, by simp, fun P _ _ => by simp⟩

end Sys2Proof.Machine
end

