-- ==== Sys2Proof/Laws/PerInstr.lean ====
section
/-! SUPPORT. The statement made command by command: each command's word fits a row of the opcode map (30_encoding
R79), and the row gives the command's mnemonic and form. -/

namespace Sys2Proof.Laws.RowFit

/-- A row of R79 names the command, has the mask of its form, and matches its word. -/
def Statement (i : Instr) : Prop :=
  ∃ r ∈ opcodeRows, r.mnemonic = i.mnemonic ∧ r.form = i.form ∧ r.mask = i.form.mask ∧ r.fits (encode i) = true

/-- A mask that covers all but the low field leaves the high part. -/
theorem and_field {m n : Nat} (hi : BitVec m) (lo : BitVec n) :
    (hi ++ lo) &&& (BitVec.allOnes m ++ 0#n) = hi ++ 0#n := by
  refine BitVec.eq_of_getLsbD_eq fun i h => ?_
  rw [BitVec.getLsbD_and, BitVec.getLsbD_append, BitVec.getLsbD_append, BitVec.getLsbD_append]
  by_cases hn : i < n
  · simp [hn]
  · have : i - n < m := by omega
    simp [hn, this]

/-- Row `k` of the map stands for the command. -/
theorem of_row (i : Instr) (k : Nat) (hk : k < opcodeRows.length) (hm : opcodeRows[k].mnemonic = i.mnemonic)
    (hf : opcodeRows[k].form = i.form) (hmask : opcodeRows[k].mask = i.form.mask)
    (h : encode i &&& opcodeRows[k].mask = opcodeRows[k].pattern) : Statement i :=
  ⟨opcodeRows[k], List.getElem_mem hk, hm, hf, hmask, by rw [OpcodeRow.fits, beq_iff_eq]; exact h⟩

theorem nop : Statement .nop := of_row _ 0 (by decide) rfl rfl rfl rfl
theorem pqClear : Statement .pqClear := of_row _ 1 (by decide) rfl rfl rfl rfl
theorem pqInsert (n : NodeIdx) : Statement (.pqInsert n) :=
  of_row _ 2 (by simp [opcodeRows, opcodeRowsLow, opcodeRowsHigh]) rfl rfl rfl (and_field (0x11#8 ++ 0#15) n)
theorem pqRemoveMin : Statement .pqRemoveMin := of_row _ 3 (by decide) rfl rfl rfl rfl
theorem tbClear : Statement .tbClear := of_row _ 4 (by decide) rfl rfl rfl rfl
theorem tbNewLeaf (sym : Byte) : Statement (.tbNewLeaf sym) :=
  of_row _ 5 (by simp [opcodeRows, opcodeRowsLow, opcodeRowsHigh]) rfl rfl rfl (and_field (0x21#8 ++ 0#16) sym)
theorem tbLoadLeaves : Statement .tbLoadLeaves := of_row _ 6 (by decide) rfl rfl rfl rfl
theorem tbMerge : Statement .tbMerge := of_row _ 7 (by decide) rfl rfl rfl rfl
theorem tbBuild : Statement .tbBuild := of_row _ 8 (by decide) rfl rfl rfl rfl
theorem cgGenerate : Statement .cgGenerate := of_row _ 9 (by decide) rfl rfl rfl rfl
theorem tsMeasure : Statement .tsMeasure := of_row _ 10 (by decide) rfl rfl rfl rfl
theorem tsPad : Statement .tsPad := of_row _ 11 (by decide) rfl rfl rfl rfl
theorem tsWriteHeader : Statement .tsWriteHeader := of_row _ 12 (by decide) rfl rfl rfl rfl
theorem tsWriteHeaderImm (h : BitVec 16) : Statement (.tsWriteHeaderImm h) :=
  of_row _ 13 (by simp [opcodeRows, opcodeRowsLow, opcodeRowsHigh]) rfl rfl rfl (and_field (0x43#8 ++ 0#8) h)
theorem tsWriteTree : Statement .tsWriteTree := of_row _ 14 (by decide) rfl rfl rfl rfl
theorem tdReadHeader : Statement .tdReadHeader := of_row _ 15 (by decide) rfl rfl rfl rfl
theorem tdReadTree : Statement .tdReadTree := of_row _ 16 (by decide) rfl rfl rfl rfl
theorem bpReset : Statement .bpReset := of_row _ 17 (by decide) rfl rfl rfl rfl
theorem bpAddBit (x : BitVec 1) : Statement (.bpAddBit x) :=
  of_row _ 18 (by simp [opcodeRows, opcodeRowsLow, opcodeRowsHigh]) rfl rfl rfl (and_field (0x61#8 ++ 0#23) x)
theorem bpFlush : Statement .bpFlush := of_row _ 19 (by decide) rfl rfl rfl rfl
theorem bpEncodeByte (sym : Byte) : Statement (.bpEncodeByte sym) :=
  of_row _ 20 (by simp [opcodeRows, opcodeRowsLow, opcodeRowsHigh]) rfl rfl rfl (and_field (0x63#8 ++ 0#16) sym)
theorem bpEncodeStream : Statement .bpEncodeStream := of_row _ 21 (by decide) rfl rfl rfl rfl
theorem buReset : Statement .buReset := of_row _ 22 (by decide) rfl rfl rfl rfl
theorem buBit (x : BitVec 1) : Statement (.buBit x) :=
  of_row _ 23 (by simp [opcodeRows, opcodeRowsLow, opcodeRowsHigh]) rfl rfl rfl (and_field (0x71#8 ++ 0#23) x)
theorem buDecodeStream : Statement .buDecodeStream := of_row _ 24 (by decide) rfl rfl rfl rfl

end Sys2Proof.Laws.RowFit
end

