-- ==== Sys2Proof/Laws/Ports.lean ====
section
/-! SUPPORT. A command meets the host only at its ports: run anew with more of the stream supplied, or with another
readiness of the OUT port, it puts out the same bytes in the same order (20_memory R58, R59, R69, log 2). -/

namespace Sys2Proof.Machine

/-! ### The fields that are the host's while a command runs -/

/-- What the host can change while BUSY = 1, and what records the error that a command has yet to raise. -/
structure Ports where
  inSeq : List Byte
  outRoom : Option Nat
  ovr : Bool
  err : Bool
  errCode : BitVec 8
  errCmd : Word
  errArg : Word
  waitOut : List Byte
  inputs : List Input
  readData : Word
  draws : Nat

/-- `s` with these fields. -/
def Ports.on (x : Ports) (s : State) : State :=
  { s with
    inSeq := x.inSeq, outRoom := x.outRoom, ovr := x.ovr, err := x.err, errCode := x.errCode, errCmd := x.errCmd
    errArg := x.errArg, waitOut := x.waitOut, inputs := x.inputs, readData := x.readData, draws := x.draws }

/-- Room for at least as many bytes. -/
def RoomLe : Option Nat → Option Nat → Prop
  | _, none => True
  | none, some _ => False
  | some m, some n => m ≤ n

theorem RoomLe.refl : ∀ o, RoomLe o o
  | none => trivial
  | some _ => Nat.le_refl _

/-- `s'` is `s` with `extra` more of the stream supplied and at least as much room for output. -/
structure Ahead (extra : List Byte) (s s' : State) : Prop where
  ports : ∃ x : Ports, s' = x.on s ∧ x.inSeq = s.inSeq ++ extra ∧ RoomLe s.outRoom x.outRoom

/-- The fields of the ports that no command writes while it runs. -/
def portsKept (s : State) : Ports :=
  ⟨[], none, s.ovr, s.err, s.errCode, s.errCmd, s.errArg, s.waitOut, s.inputs, s.readData, s.draws⟩

/-- From `s` to `t` bytes were only appended to OUT_SEQ, each of them from the OUT port's room. -/
structure Grown (s t : State) : Prop where
  out : s.outSeq <+: t.outSeq
  room : t.outRoom.map (· + t.outSeq.length) = s.outRoom.map (· + s.outSeq.length)
  kept : portsKept t = portsKept s

theorem Grown.refl (s : State) : Grown s s := ⟨List.prefix_rfl, rfl, rfl⟩

theorem Grown.trans {s t u : State} (h : Grown s t) (h' : Grown t u) : Grown s u :=
  ⟨h.out.trans h'.out, h'.room.trans h.room, h'.kept.trans h.kept⟩

theorem Grown.of_eq {s t : State} (h1 : t.outSeq = s.outSeq) (h2 : (t.outRoom, portsKept t) = (s.outRoom, portsKept s)) :
    Grown s t :=
  ⟨by rw [h1], by rw [h1, (Prod.mk.inj h2).1], (Prod.mk.inj h2).2⟩

/-- However the run ends, its output has grown from `s`; it may be stopped only where `st` holds, and wait only where
it does not (only CG_GENERATE can be stopped, and it never waits). -/
def Run.GrowsFrom {α : Type} (st : Prop) (s : State) (r : Run α) : Prop :=
  r.Sat (fun _ t => Grown s t) (fun _ _ t => Grown s t) (fun t => Grown s t ∧ ¬ st) st

/-- However the run ends, its output begins with `out`. -/
def Run.OutFrom {α : Type} (st : Prop) (out : List Byte) (r : Run α) : Prop :=
  r.Sat (fun _ t => out <+: t.outSeq) (fun _ _ t => out <+: t.outSeq) (fun t => out <+: t.outSeq) st

theorem Run.GrowsFrom.outFrom {α : Type} {st : Prop} {s : State} {r : Run α} (h : r.GrowsFrom st s) :
    r.OutFrom st s.outSeq :=
  Run.Sat.mono h (fun _ _ h => h.out) (fun _ _ _ h => h.out) (fun _ h => h.1.out) id

/-- `r'` is what `r` becomes ahead: the same end further on, or, where `r` waits, at least the same output; and then a byte
more where the wait was for room that there now is, and the same wait unless a byte is now supplied. -/
def Run.GoesOn {α : Type} (st : Prop) (extra : List Byte) (r r' : Run α) : Prop :=
  match r with
  | .done a t => ∃ t', r' = .done a t' ∧ Ahead extra t t'
  | .raise e arg t => ∃ t', r' = .raise e arg t' ∧ Ahead extra t t'
  | .stop f => r' = .stop f
  | .wait t => r'.OutFrom st t.outSeq
      ∧ ((t.outRoom = some 0 ∧ ∃ b, r'.OutFrom st (t.outSeq ++ [b])) ∨ extra ≠ [] ∨ ∃ t', r' = .wait t' ∧ t'.outSeq = t.outSeq)

/-- A piece of pseudocode that meets the host only at its ports. -/
structure Ported {α : Type} (st : Prop) (f : State → Run α) : Prop where
  grows : ∀ s, (f s).GrowsFrom st s
  goesOn : ∀ extra s s', Ahead extra s s' → (f s).GoesOn st extra (f s')

variable {st : Prop}

/-! ### The pieces -/

theorem Ported.andThen {α β : Type} {f : State → Run α} {k : α → State → Run β} (hf : Ported st f)
    (hk : ∀ a, Ported st (k a)) : Ported st fun s => (f s).andThen k where
  grows s := by
    refine Run.Sat.andThen (Q := fun _ t => Grown s t) (hf.grows s) fun a t ht => ?_
    exact Run.Sat.mono ((hk a).grows t) (fun _ _ h => ht.trans h) (fun _ _ _ h => ht.trans h)
      (fun _ h => ⟨ht.trans h.1, h.2⟩) id
  goesOn extra s s' hs := by
    have h := hf.goesOn extra s s' hs
    have h' := hf.grows s'
    rcases hr : f s with ⟨a, t⟩ | ⟨e, arg, t⟩ | t | f' <;> rw [hr] at h
    · obtain ⟨t', ht', ha⟩ := h
      simp only [ht', andThen_done]
      exact (hk a).goesOn extra t t' ha
    · obtain ⟨t', ht', ha⟩ := h
      simp only [ht', andThen_raise]
      exact ⟨t', rfl, ha⟩
    · obtain ⟨ho, hw⟩ := h
      have goes : ∀ {out : List Byte}, (f s').OutFrom st out → ((f s').andThen k).OutFrom st out := fun ho =>
        Run.Sat.andThen (Q := fun _ u => _ <+: u.outSeq) ho fun a u hu =>
          Run.Sat.mono ((hk a).grows u).outFrom (fun _ _ h => hu.trans h) (fun _ _ _ h => hu.trans h)
            (fun _ h => hu.trans h) id
      refine ⟨goes ho, ?_⟩
      · rcases hw with ⟨h0, b, hb⟩ | hw | ⟨t', ht', he⟩
        · exact .inl ⟨h0, b, goes hb⟩
        · exact .inr (.inl hw)
        · exact .inr (.inr ⟨t', by rw [ht']; rfl, he⟩)
    · simp only [show f s' = .stop f' from h, andThen_stop]
      rfl

/-- A statement that neither reads nor writes a port's field. -/
theorem Ported.pure {α : Type} (a : State → α) (g : State → State) (ha : ∀ (x : Ports) s, a (x.on s) = a s)
    (hg : ∀ (x : Ports) s, g (x.on s) = x.on (g s)) (h1 : ∀ s, (g s).inSeq = s.inSeq)
    (h2 : ∀ s, (g s).outSeq = s.outSeq) (h3 : ∀ s, ((g s).outRoom, portsKept (g s)) = (s.outRoom, portsKept s)) :
    Ported st fun s => Run.done (a s) (g s) where
  grows s := .of_eq (h2 s) (h3 s)
  goesOn extra s s' hs := by
    obtain ⟨x, rfl, hi, ho⟩ := hs.ports
    exact ⟨g (x.on s), by rw [ha], ⟨x, hg x s, by rw [h1, hi], by rw [(Prod.mk.inj (h3 s)).1]; exact ho⟩⟩

theorem Ported.raise {α : Type} (e : ErrKind) (arg : State → Word) (ha : ∀ (x : Ports) s, arg (x.on s) = arg s) :
    Ported st fun s => (Run.raise e (arg s) s : Run α) where
  grows s := Grown.refl s
  goesOn extra s s' hs := by
    obtain ⟨x, rfl, hi, ho⟩ := hs.ports
    exact ⟨x.on s, by rw [ha], hs⟩

theorem Ported.stop {α : Type} (f : Fault) : Ported True fun _ => (Run.stop f : Run α) where
  grows _ := trivial
  goesOn _ _ _ _ := rfl

/-- What the rest depends on is no port's field. -/
theorem Ported.read {α β : Type} (v : State → β) {f : β → State → Run α} (hv : ∀ (x : Ports) s, v (x.on s) = v s)
    (hf : ∀ b, Ported st (f b)) : Ported st fun s => f (v s) s where
  grows s := (hf (v s)).grows s
  goesOn extra s s' hs := by
    obtain ⟨x, rfl, hi, ho⟩ := hs.ports
    simp only [hv]
    exact (hf (v s)).goesOn extra s _ hs

theorem Ported.ite {α : Type} {c : State → Prop} [∀ s, Decidable (c s)] {f g : State → Run α}
    (hc : ∀ (x : Ports) s, c (x.on s) ↔ c s) (hf : Ported st f) (hg : Ported st g) :
    Ported st fun s => if c s then f s else g s where
  grows s := by
    by_cases h : c s
    · simpa [h] using hf.grows s
    · simpa [h] using hg.grows s
  goesOn extra s s' hs := by
    obtain ⟨x, rfl, hi, ho⟩ := hs.ports
    by_cases h : c s
    · simpa [h, (hc x s).2 h] using hf.goesOn extra s _ hs
    · simpa [h, (hc x s).not.2 h] using hg.goesOn extra s _ hs

theorem Ported.inRead : Ported False inRead where
  grows s := by
    rcases h : s.inSeq with _ | ⟨b, rest⟩
    · rw [inRead_nil h]; exact ⟨.refl s, id⟩
    · rw [inRead_cons h]; exact .of_eq rfl rfl
  goesOn extra s s' hs := by
    obtain ⟨x, rfl, hi, ho⟩ := hs.ports
    rcases h : s.inSeq with _ | ⟨b, rest⟩
    · rw [inRead_nil h]
      rcases extra with _ | ⟨b, rest⟩
      · rw [inRead_nil (show (x.on s).inSeq = [] by simp [Ports.on, hi, h])]
        exact ⟨List.prefix_rfl, .inr (.inr ⟨_, rfl, rfl⟩)⟩
      · rw [inRead_cons (show (x.on s).inSeq = b :: rest by simp [Ports.on, hi, h])]
        exact ⟨List.prefix_rfl, .inr (.inl (by simp))⟩
    · rw [inRead_cons h, inRead_cons (show (x.on s).inSeq = b :: (rest ++ extra) by simp [Ports.on, hi, h])]
      exact ⟨_, rfl, ⟨{ x with inSeq := rest ++ extra }, rfl, rfl, ho⟩⟩

theorem Ported.emit (b : Byte) : Ported False (emit b) where
  grows s := by
    rcases h : s.outRoom with _ | _ | n <;> simp only [Machine.emit, h]
    · exact ⟨List.prefix_append _ _, by simp [putByte, h], rfl⟩
    · exact ⟨.refl s, id⟩
    · exact ⟨List.prefix_append _ _, by simp [putByte, h]; omega, rfl⟩
  goesOn extra s s' hs := by
    obtain ⟨x, rfl, hi, ho⟩ := hs.ports
    have hx : (x.on s).outRoom = x.outRoom := rfl
    rcases h : s.outRoom with _ | _ | n <;> rw [h] at ho <;> rcases h' : x.outRoom with _ | _ | m <;> rw [h'] at ho hx <;>
      simp only [Machine.emit, h, hx]
    case none.none => exact ⟨_, rfl, ⟨x, rfl, hi, by simp [putByte, h, h', RoomLe]⟩⟩
    case some.zero.none => exact ⟨List.prefix_append _ _, .inl ⟨h, b, List.prefix_rfl⟩⟩
    case some.zero.some.zero => exact ⟨List.prefix_rfl, .inr (.inr ⟨_, rfl, rfl⟩)⟩
    case some.zero.some.succ => exact ⟨List.prefix_append _ _, .inl ⟨h, b, List.prefix_rfl⟩⟩
    case some.succ.none => exact ⟨_, rfl, ⟨x, by simp [putByte, Ports.on], hi, by simp [putByte, h', RoomLe]⟩⟩
    case some.succ.some.succ =>
      exact ⟨_, rfl, ⟨{ x with outRoom := some m }, rfl, hi, by simpa [putByte, RoomLe] using ho⟩⟩
    all_goals exact absurd ho (by simp [RoomLe])

theorem Ported.emitAll : ∀ bytes : List Byte, Ported False (emitAll bytes)
  | [] => .pure (fun _ => ()) id (fun _ _ => rfl) (fun _ _ => rfl) (fun _ => rfl) (fun _ => rfl) (fun _ => rfl)
  | b :: rest => (Ported.emit b).andThen fun _ => Ported.emitAll rest

/-- A statement that writes fields of its own, and gives `a`. -/
theorem Ported.give {α : Type} (a : α) (g : State → State) (hg : ∀ (x : Ports) s, g (x.on s) = x.on (g s))
    (h1 : ∀ s, (g s).inSeq = s.inSeq) (h2 : ∀ s, (g s).outSeq = s.outSeq) (h3 : ∀ s, ((g s).outRoom, portsKept (g s)) = (s.outRoom, portsKept s)) :
    Ported st fun s => Run.done a (g s) := .pure (fun _ => a) g (fun _ _ => rfl) hg h1 h2 h3

theorem Ported.done {α : Type} (a : α) : Ported st fun s => Run.done a s :=
  .give a id (fun _ _ => rfl) (fun _ => rfl) (fun _ => rfl) (fun _ => rfl)

theorem Ported.raiseConst {α : Type} (e : ErrKind) (arg : Word) : Ported st fun s => (Run.raise e arg s : Run α) :=
  .raise e (fun _ => arg) fun _ _ => rfl

theorem Ported.setResult (v : Word) : Ported st fun s => Run.done () (setResult v s) :=
  .give () _ (fun _ _ => rfl) (fun _ => rfl) (fun _ => rfl) (fun _ => rfl)

/-! ### The commands -/

theorem Ported.allocNode (n : Node) (e : ErrKind) : Ported st (allocNode n e) :=
  .ite (fun _ _ => Iff.rfl) (.raise e _ fun _ _ => rfl)
    (.pure _ _ (fun _ _ => rfl) (fun _ _ => rfl) (fun _ => rfl) (fun _ => rfl) (fun _ => rfl))

theorem Ported.pqInsertNode (n : NodeIdx) : Ported st (pqInsertNode n) :=
  .ite (fun _ _ => Iff.rfl) (.raiseConst _ _)
    (.give () _ (fun _ _ => rfl) (fun _ => rfl) (fun _ => rfl) (fun _ => rfl))

theorem Ported.pqRemoveNode : Ported st pqRemoveNode :=
  .ite (fun _ _ => Iff.rfl) (.raiseConst _ _)
    (.pure _ _ (fun _ _ => rfl) (fun _ _ => rfl) (fun _ => rfl) (fun _ => rfl) (fun _ => rfl))

theorem Ported.mergeNodes (a b : NodeIdx) : Ported st (mergeNodes a b) :=
  .ite (fun _ _ => Iff.rfl) (.raise _ _ fun _ _ => rfl)
    (.ite (fun _ _ => Iff.rfl) (.raiseConst _ _)
      (.read (fun s => internalNode (keyOf s a + keyOf s b) a b) (fun _ _ => rfl) fun n =>
        (Ported.allocNode n _).andThen fun i => (Ported.pqInsertNode i).andThen fun _ => .done i))

theorem Ported.mergeStep : Ported st mergeStep :=
  .ite (fun _ _ => Iff.rfl) (.raise _ _ fun _ _ => rfl)
    (Ported.pqRemoveNode.andThen fun a => Ported.pqRemoveNode.andThen fun b => .mergeNodes a b)

theorem Ported.mergeAll : ∀ fuel, Ported st (mergeAll fuel)
  | 0 => .done ()
  | fuel + 1 => .ite (fun _ _ => Iff.rfl) (Ported.mergeStep.andThen fun _ => Ported.mergeAll fuel) (.done ())

theorem Ported.loadLeaves : ∀ (bs : List Byte) (k : Nat), Ported st (loadLeaves bs k)
  | [], k => .done k
  | b :: rest, k =>
    .ite (fun _ _ => Iff.rfl) (Ported.loadLeaves rest k)
      (.read (fun s => leafNode b (freqAt s b)) (fun _ _ => rfl) fun n =>
        (Ported.allocNode n _).andThen fun i => (Ported.pqInsertNode i).andThen fun _ => Ported.loadLeaves rest (k + 1))

theorem Ported.walk : ∀ (fuel : Nat) (n : NodeIdx) (path depth count : Nat), Ported True (walk fuel n path depth count)
  | 0, _, _, _, _ => .stop _
  | fuel + 1, n, path, depth, count =>
    .ite (fun _ _ => Iff.rfl)
      (.ite (fun _ _ => Iff.rfl) (.raise _ _ fun _ _ => rfl)
        (.ite (fun _ _ => Iff.rfl) (.raise _ _ fun _ _ => rfl)
          (.give _ _ (fun _ _ => rfl) (fun _ => rfl) (fun _ => rfl) (fun _ => rfl))))
      (.read (fun s => nodeAt s n) (fun _ _ => rfl)
        (f := fun m s => (Machine.walk fuel m.left (2 * path) (depth + 1) count s).andThen fun count' s' =>
          Machine.walk fuel (nodeAt s n).right (2 * path + 1) (depth + 1) count' s')
        fun m => .read (fun s => nodeAt s n) (fun _ _ => rfl)
          (f := fun m' s => (Machine.walk fuel m.left (2 * path) (depth + 1) count s).andThen fun count' s' =>
            Machine.walk fuel m'.right (2 * path + 1) (depth + 1) count' s')
          fun _ => (Ported.walk fuel _ _ _ _).andThen fun _ => Ported.walk fuel _ _ _ _)

theorem Ported.generateCodes : Ported True generateCodes :=
  .ite (fun _ _ => Iff.rfl) (.setResult _)
    (.ite (fun _ _ => Iff.rfl) (.give () _ (fun _ _ => rfl) (fun _ => rfl) (fun _ => rfl) (fun _ => rfl))
      (.read (fun s => s.root) (fun _ _ => rfl) fun r => (Ported.walk 512 r 0 0 0).andThen fun count =>
        .setResult (BitVec.ofNat 32 count)))

/-- A statement before the rest that writes fields of its own. -/
theorem Ported.after {α : Type} {f : State → Run α} (hf : Ported st f) (g : State → State)
    (hg : ∀ (x : Ports) s, g (x.on s) = x.on (g s)) (h1 : ∀ s, (g s).inSeq = s.inSeq)
    (h2 : ∀ s, (g s).outSeq = s.outSeq) (h3 : ∀ s, ((g s).outRoom, portsKept (g s)) = (s.outRoom, portsKept s)) : Ported st fun s => f (g s) :=
  (Ported.give () g hg h1 h2 h3).andThen fun _ => hf

theorem Ported.headerByte (already : Word) : Ported False (headerByte already) :=
  .ite (fun _ _ => Iff.rfl) (.raiseConst _ _) .inRead

theorem Ported.treeByte (consumed : Nat) : Ported False (treeByte consumed) :=
  .ite (fun _ _ => Iff.rfl) (.raiseConst _ _) (.ite (fun _ _ => Iff.rfl) (.raiseConst _ _) .inRead)

theorem Ported.attach : ∀ (ds : List Frame) (n : NodeIdx), Ported st (attach n ds)
  | [], _ => .give _ _ (fun _ _ => rfl) (fun _ => rfl) (fun _ => rfl) (fun _ => rfl)
  | _ :: ds, _ =>
    .ite (fun _ _ => Iff.rfl) ((Ported.allocNode _ _).andThen fun n' => Ported.attach ds n')
      (.give _ _ (fun _ _ => rfl) (fun _ => rfl) (fun _ => rfl) (fun _ => rfl))

theorem Ported.leafValue (consumed : Nat) : Ported False (leafValue consumed) :=
  (Ported.treeByte consumed).andThen fun v => by
    by_cases hv : v = Config.esc
    · simpa only [hv, if_true] using (Ported.treeByte (consumed + 1)).andThen fun v' => .done (v', consumed + 2)
    · simpa only [hv, if_false] using Ported.done (v, consumed + 1)

theorem Ported.endTree (n : NodeIdx) (consumed : Nat) : Ported st (endTree n consumed) :=
  .ite (fun _ _ => Iff.rfl) (.raiseConst _ _)
    (.give () _ (fun _ _ => rfl) (fun _ => rfl) (fun _ => rfl) (fun _ => rfl))

theorem Ported.readTree : ∀ fuel consumed, Ported False (readTree fuel consumed)
  | 0, _ => .raiseConst _ _
  | fuel + 1, consumed => (Ported.treeByte consumed).andThen fun tag => by
    by_cases h0 : tag = Config.tagInternal
    · simp only [h0, if_true]
      exact .ite (fun _ _ => Iff.rfl) (.raiseConst _ _)
        ((Ported.readTree fuel (consumed + 1)).after _ (fun _ _ => rfl) (fun _ => rfl) (fun _ => rfl) (fun _ => rfl))
    · by_cases h1 : tag ≠ Config.tagLeaf
      · simp only [h0, h1, if_false, ne_eq, not_false_eq_true, if_true]
        exact .raiseConst _ _
      · simp only [h0, h1, if_false]
        refine (Ported.leafValue (consumed + 1)).andThen fun vc => (Ported.allocNode _ _).andThen fun n => ?_
        refine .read (fun s => s.dstack) (fun _ _ => rfl)
          (f := fun ds s => (Machine.attach n ds s).andThen fun root s₄ =>
            match root with
            | some r => Machine.endTree r vc.2 s₄
            | none => Machine.readTree fuel vc.2 s₄) fun ds => (Ported.attach ds n).andThen fun root => ?_
        cases root with
        | some r => exact .endTree r vc.2
        | none => exact Ported.readTree fuel vc.2

theorem Ported.addBit (x : BitVec 1) : Ported False (addBit x) :=
  .ite (fun _ _ => Iff.rfl)
    (.read (fun s => shiftIn s.acc x) (fun _ _ => rfl) fun b =>
      (Ported.emit b).andThen fun _ => .give () (fun s' => { s' with acc := 0#8, cnt := 0#3 }) (fun _ _ => rfl) (fun _ => rfl) (fun _ => rfl) (fun _ => rfl))
    (.give () _ (fun _ _ => rfl) (fun _ => rfl) (fun _ => rfl) (fun _ => rfl))

theorem Ported.addBits (c : Word) : ∀ n, Ported False (addBits c n)
  | 0 => .done ()
  | n + 1 => (Ported.addBit _).andThen fun _ => Ported.addBits c n

theorem Ported.encodeSym (b : Byte) : Ported False (encodeSym b) :=
  .ite (fun _ _ => Iff.rfl) (.raiseConst _ _)
    (.read (fun s => codeAt s b) (fun _ _ => rfl) (f := fun c s => Machine.addBits c (lenAt s b).toNat s) fun c =>
      .read (fun s => (lenAt s b).toNat) (fun _ _ => rfl) fun n => .addBits c n)

theorem Ported.encodeStream : ∀ fuel k, Ported False (encodeStream fuel k)
  | 0, k => .done k
  | fuel + 1, k => Ported.inRead.andThen fun b => (Ported.encodeSym b).andThen fun _ => Ported.encodeStream fuel (k + 1)

theorem Ported.emitSym (v : Byte) : Ported False (emitSym v) := (Ported.emit v).andThen fun _ => .done _

theorem Ported.decodeBit (x : BitVec 1) (pos : Word) : Ported False (decodeBit x pos) := by
  refine .ite (fun _ _ => Iff.rfl) (.raiseConst _ _) (.ite (fun _ _ => Iff.rfl) ?_ ?_)
  · by_cases hx : x = 0#1
    · simp only [hx, if_true]
      exact .read (fun s => (nodeAt s s.root).sym) (fun _ _ => rfl) fun v => .emitSym v
    · simp only [hx, if_false]
      exact .raiseConst _ _
  · refine .read (fun s => childOf x (nodeAt s s.buCur)) (fun _ _ => rfl)
      (f := fun nx s => if isLeaf s nx then
        (Machine.emitSym (nodeAt s nx).sym s).andThen fun r s' => .done r { s' with buCur := s'.root }
        else .done 0#32 { s with buCur := nx }) fun nx => .ite (fun _ _ => Iff.rfl) ?_ ?_
    · exact .read (fun s => (nodeAt s nx).sym) (fun _ _ => rfl) fun v => (Ported.emitSym v).andThen fun r =>
        .give r (fun s' => { s' with buCur := s'.root }) (fun _ _ => rfl) (fun _ => rfl) (fun _ => rfl) (fun _ => rfl)
    · exact .give _ _ (fun _ _ => rfl) (fun _ => rfl) (fun _ => rfl) (fun _ => rfl)

theorem Ported.decodeBits (y : Byte) (j : Nat) : ∀ n k e, Ported False (decodeBits y j n k e)
  | 0, _, e => .done e
  | n + 1, k, _ => (Ported.decodeBit _ _).andThen fun _ => Ported.decodeBits y j n (k + 1) _

theorem Ported.decodeBytes : ∀ rest j e, Ported False (decodeBytes rest j e)
  | 0, _, e => .done e
  | rest + 1, j, e => Ported.inRead.andThen fun y =>
    Ported.andThen (f := fun s => Machine.decodeBits y j (bitsToDecode (rest == 0) s.pad) 0 e s)
      (.read (fun s => bitsToDecode (rest == 0) s.pad) (fun _ _ => rfl) fun n => .decodeBits y j n 0 e)
      fun e' => Ported.decodeBytes rest (j + 1) e'

theorem Ported.endPayload (p e : Nat) : Ported st (endPayload p e) :=
  .ite (fun _ _ => Iff.rfl) (.raise _ _ fun _ _ => rfl) (.setResult _)

theorem Ported.runTsWriteTree : Ported False runTsWriteTree :=
  .ite (c := fun s => serSizeSat s s.root > Config.maxTreeSize) (fun _ _ => Iff.rfl) (.raise _ _ fun _ _ => rfl)
    (.read (fun s => serTree s s.root) (fun _ _ => rfl)
      (f := fun bytes s => (Machine.emitAll bytes s).andThen fun _ s' =>
        .done () (Machine.setResult (BitVec.ofNat 32 (serSizeSat s s.root)) s')) fun bytes =>
      .read (fun s => serSizeSat s s.root) (fun _ _ => rfl)
        (f := fun size s => (Machine.emitAll bytes s).andThen fun _ s' =>
          .done () (Machine.setResult (BitVec.ofNat 32 size) s')) fun _ =>
        (Ported.emitAll bytes).andThen fun _ => .setResult _)

theorem Ported.runTdReadTree : Ported False runTdReadTree :=
  .ite (fun _ _ => Iff.rfl) (.give () _ (fun _ _ => rfl) (fun _ => rfl) (fun _ => rfl) (fun _ => rfl))
    (.read (fun s => s.treeSize.toNat) (fun _ _ => rfl)
      (f := fun n s => Machine.readTree n 0 { treeClear s with dstack := [] }) fun n =>
      (Ported.readTree n 0).after _ (fun _ _ => rfl) (fun _ => rfl) (fun _ => rfl) (fun _ => rfl))

theorem Ported.runBpFlush : Ported False runBpFlush :=
  Ported.andThen (f := fun s => if s.cnt = 0#3 then Run.done () s else Machine.emit (s.acc <<< (8 - s.cnt.toNat)) s)
    (.ite (fun _ _ => Iff.rfl) (.done ())
      (.read (fun s => s.acc <<< (8 - s.cnt.toNat)) (fun _ _ => rfl) fun b => .emit b))
    fun _ => .give () _ (fun _ _ => rfl) (fun _ => rfl) (fun _ => rfl) (fun _ => rfl)

theorem Ported.runBpEncodeStream : Ported False runBpEncodeStream :=
  .read (fun s => s.inRem.toNat) (fun _ _ => rfl)
    (f := fun n s => (Machine.encodeStream n 0 s).andThen fun k s' =>
      .done () (Machine.setResult (BitVec.ofNat 32 k) s')) fun n =>
    (Ported.encodeStream n 0).andThen fun _ => .setResult _

theorem Ported.runBuDecodeStream : Ported False runBuDecodeStream :=
  .ite (fun _ _ => Iff.rfl) (.raise _ _ fun _ _ => rfl)
    (.ite (fun _ _ => Iff.rfl) (.ite (fun _ _ => Iff.rfl) (.setResult _) (.raiseConst _ _))
      (.read (fun s => s.inRem.toNat) (fun _ _ => rfl)
        (f := fun n s => (Machine.decodeBytes n 0 0 { s with buCur := s.root }).andThen fun e s' =>
          Machine.endPayload n e s') fun n =>
        ((Ported.decodeBytes n 0 0).after (fun s => { s with buCur := s.root }) (fun _ _ => rfl) (fun _ => rfl) (fun _ => rfl) (fun _ => rfl)).andThen
          fun e => .endPayload n e))

/-- Every command meets the host only at its ports. -/
theorem exec_ported (i : Instr) : ∃ (st : Prop) (f : State → Run Unit), Ported st f ∧ ∀ s, exec i s = finish s (f s) := by
  cases i with
  | nop => exact ⟨False, runNop, .done (), fun _ => rfl⟩
  | pqClear => exact ⟨False, runPqClear, .give () _ (fun _ _ => rfl) (fun _ => rfl) (fun _ => rfl) (fun _ => rfl), fun _ => rfl⟩
  | pqInsert n => exact ⟨False, runPqInsert n, .ite (fun _ _ => Iff.rfl) (.raiseConst _ _) (.pqInsertNode n), fun _ => rfl⟩
  | pqRemoveMin => exact ⟨False, runPqRemoveMin, Ported.pqRemoveNode.andThen fun _ => .setResult _, fun _ => rfl⟩
  | tbClear => exact ⟨False, runTbClear, .give () _ (fun _ _ => rfl) (fun _ => rfl) (fun _ => rfl) (fun _ => rfl), fun _ => rfl⟩
  | tbNewLeaf sym =>
    exact ⟨False, runTbNewLeaf sym, Ported.andThen (f := fun s => allocNode (leafNode sym (freqAt s sym)) .arenaFull s)
      (.read (fun s => leafNode sym (freqAt s sym)) (fun _ _ => rfl) fun n => .allocNode n _) fun _ => .setResult _,
      fun _ => rfl⟩
  | tbLoadLeaves =>
    exact ⟨False, runTbLoadLeaves, ((Ported.loadLeaves allBytes 0).after treeClear (fun _ _ => rfl) (fun _ => rfl)
      (fun _ => rfl) (fun _ => rfl)).andThen fun _ => .setResult _, fun _ => rfl⟩
  | tbMerge => exact ⟨False, runTbMerge, Ported.mergeStep.andThen fun _ => .setResult _, fun _ => rfl⟩
  | tbBuild =>
    refine ⟨False, runTbBuild, ?_, fun _ => rfl⟩
    refine .read (fun s => s.heap.length) (fun _ _ => rfl)
      (f := fun n s => (mergeAll n s).andThen fun _ s₁ =>
        if s₁.heap.length = 1 then (pqRemoveNode s₁).andThen fun r s₂ => .done () (takeRoot r s₂)
        else .done () (takeRoot Config.nil s₁)) fun n => (Ported.mergeAll n).andThen fun _ =>
      .ite (fun _ _ => Iff.rfl)
        (Ported.pqRemoveNode.andThen fun r => .give () _ (fun _ _ => rfl) (fun _ => rfl) (fun _ => rfl) (fun _ => rfl))
        (.give () _ (fun _ _ => rfl) (fun _ => rfl) (fun _ => rfl) (fun _ => rfl))
  | cgGenerate =>
    exact ⟨True, runCgGenerate, Ported.generateCodes.after clearCodes (fun _ _ => rfl) (fun _ => rfl) (fun _ => rfl)
      (fun _ => rfl), fun _ => rfl⟩
  | tsMeasure =>
    exact ⟨False, runTsMeasure, .ite (c := fun s => serSizeSat s s.root > Config.maxTreeSize) (fun _ _ => Iff.rfl)
      (.raise _ _ fun _ _ => rfl) (.give () _ (fun _ _ => rfl) (fun _ => rfl) (fun _ => rfl) (fun _ => rfl)), fun _ => rfl⟩
  | tsPad => exact ⟨False, runTsPad, .give () _ (fun _ _ => rfl) (fun _ => rfl) (fun _ => rfl) (fun _ => rfl), fun _ => rfl⟩
  | tsWriteHeader =>
    exact ⟨False, runTsWriteHeader, .read (fun s => s.pad ++ s.treeSize) (fun _ _ => rfl) fun _ => .emitAll _, fun _ => rfl⟩
  | tsWriteHeaderImm h => exact ⟨False, runTsWriteHeaderImm h, .emitAll _, fun _ => rfl⟩
  | tsWriteTree => exact ⟨False, runTsWriteTree, .runTsWriteTree, fun _ => rfl⟩
  | tdReadHeader =>
    exact ⟨False, runTdReadHeader, (Ported.headerByte _).andThen fun _ => (Ported.headerByte _).andThen fun _ =>
      .give () _ (fun _ _ => rfl) (fun _ => rfl) (fun _ => rfl) (fun _ => rfl), fun _ => rfl⟩
  | tdReadTree => exact ⟨False, runTdReadTree, .runTdReadTree, fun _ => rfl⟩
  | bpReset => exact ⟨False, runBpReset, .give () _ (fun _ _ => rfl) (fun _ => rfl) (fun _ => rfl) (fun _ => rfl), fun _ => rfl⟩
  | bpAddBit x => exact ⟨False, runBpAddBit x, .addBit x, fun _ => rfl⟩
  | bpFlush => exact ⟨False, runBpFlush, .runBpFlush, fun _ => rfl⟩
  | bpEncodeByte sym => exact ⟨False, runBpEncodeByte sym, .encodeSym sym, fun _ => rfl⟩
  | bpEncodeStream => exact ⟨False, runBpEncodeStream, .runBpEncodeStream, fun _ => rfl⟩
  | buReset => exact ⟨False, runBuReset, .give () _ (fun _ _ => rfl) (fun _ => rfl) (fun _ => rfl) (fun _ => rfl), fun _ => rfl⟩
  | buBit x => exact ⟨False, runBuBit x, (Ported.decodeBit x 0#32).andThen fun _ => .setResult _, fun _ => rfl⟩
  | buDecodeStream => exact ⟨False, runBuDecodeStream, .runBuDecodeStream, fun _ => rfl⟩

/-! ### Room for a limited number of bytes -/

/-- `s` with unlimited room on the OUT port is ahead of it. -/
theorem Ahead.unlimited (s : State) : Ahead [] s { s with outRoom := none } :=
  ⟨⟨s.inSeq, none, s.ovr, s.err, s.errCode, s.errCmd, s.errArg, s.waitOut, s.inputs, s.readData, s.draws⟩, rfl, by simp,
    trivial⟩

/-- States that are ahead of one another with the same ports but for the room differ in the room alone. -/
theorem Ahead.eq_room {s t t' : State} (ha : Ahead [] t t') (h : Grown s t) (h' : Grown { s with outRoom := none } t') :
    t = { t' with outRoom := t.outRoom } := by
  obtain ⟨x, rfl, hi, -⟩ := ha.ports
  have hk : portsKept (x.on t) = portsKept t := h'.kept.trans h.kept.symm
  simp only [portsKept, Ports.on, Ports.mk.injEq, true_and] at hk
  obtain ⟨h1, h2, h3, h4, h5, h6, h7, h8, h9⟩ := hk
  simp only [Ports.on, hi, h1, h2, h3, h4, h5, h6, h7, h8, h9, List.append_nil]

/-- The room left is what there was, less the bytes put out. -/
theorem Grown.room_left {s t : State} {n : Nat} (h : Grown s t) (hs : s.outRoom = some n) :
    t.outRoom = some (n - (t.outSeq.length - s.outSeq.length)) ∧ t.outSeq.length ≤ s.outSeq.length + n := by
  have hr := h.room
  have hl := h.out.length_le
  rw [hs] at hr
  rcases ht : t.outRoom with _ | m
  · rw [ht] at hr; cases hr
  · rw [ht] at hr
    simp only [Option.map_some, Option.some.injEq] at hr
    exact ⟨by congr 1; omega, by omega⟩

/-! ### What a waiting command has put out -/

/-- The bytes a run from `s` puts out. -/
def Run.emitted (s : State) : Run Unit → List Byte
  | .done _ t => t.outSeq.drop s.outSeq.length
  | .raise _ _ t => t.outSeq.drop s.outSeq.length
  | .wait t => t.outSeq.drop s.outSeq.length
  | .stop _ => s.waitOut

theorem runningOut_of_exec {s : State} {i : Instr} {r : Run Unit} (hb : s.busy = true)
    (hd : decode s.cmdWord = .ok i) (hf : exec i s = finish s r) : runningOut s = r.emitted s := by
  rw [runningOut, engineStep, if_pos hb]
  simp only [hd, hf]
  cases r <;> simp [Run.emitted, completeCommand, takeError, hb]

theorem runningOut_illegal {s : State} {e : Illegal} (hb : s.busy = true) (hd : decode s.cmdWord = .error e) :
    runningOut s = [] := by
  rw [runningOut, engineStep, if_pos hb]
  simp [hd, takeError, completeCommand]

theorem Run.OutFrom.emitted {s : State} {out : List Byte} {r : Run Unit} (h : r.OutFrom False out) :
    out.drop s.outSeq.length <+: r.emitted s := by
  cases r <;> first | exact List.IsPrefix.drop h _ | exact h.elim

/-- What a command has put out it puts out again where more of the stream is supplied and there is more room. -/
theorem waitOut_ahead {extra : List Byte} {s s' : State} (hb : s.busy = true) (h : Ahead extra s s')
    (he : s'.waitOut = s.waitOut) (hw : s.waitOut <+: runningOut s) : s'.waitOut <+: runningOut s' := by
  obtain ⟨x, hx, -, -⟩ := h.ports
  have hb' : s'.busy = true := by rw [hx]; exact hb
  have hc : s'.cmdWord = s.cmdWord := by rw [hx]; rfl
  have ho : s'.outSeq.length = s.outSeq.length := by rw [hx]; rfl
  rcases hd : decode s.cmdWord with e | i
  · rw [runningOut_illegal hb hd] at hw
    rw [he, List.prefix_nil.1 hw]; exact List.nil_prefix
  · obtain ⟨st, f, hf, hex⟩ := exec_ported i
    have hg := hf.goesOn extra s s' h
    have hgr := hf.grows s
    rw [runningOut_of_exec hb hd (hex s)] at hw
    rw [runningOut_of_exec hb' (hc ▸ hd) (hex s')]
    have same : ∀ {t t' : State}, Ahead extra t t' → t'.outSeq = t.outSeq := fun ha => by
      obtain ⟨y, hy, -⟩ := ha.ports
      rw [hy]; rfl
    rcases hr : f s with ⟨a, t⟩ | ⟨e, arg, t⟩ | t | f' <;> rw [hr] at hg hw hgr
    · obtain ⟨t', ht', ha⟩ := hg
      rw [ht', he]; simpa only [Run.emitted, same ha, ho] using hw
    · obtain ⟨t', ht', ha⟩ := hg
      rw [ht', he]; simpa only [Run.emitted, same ha, ho] using hw
    · have hst : ¬ st := hgr.2
      have hout := hg.1
      rw [show st = False from propext ⟨hst, False.elim⟩] at hout
      rw [he]
      refine hw.trans ?_
      simp only [Run.emitted]
      rw [← ho]
      exact hout.emitted
    · rw [show f s' = .stop f' from hg]; exact List.prefix_rfl

/-- What a command has put out it puts out again where there is less room, but enough for that. -/
theorem waitOut_behind {s s' : State} (hb : s.busy = true) (h : Ahead [] s' s) (he : s'.waitOut = s.waitOut)
    (hl : ∀ n, s'.outRoom = some n → s.waitOut.length ≤ n) (hw : s.waitOut <+: runningOut s) :
    s'.waitOut <+: runningOut s' := by
  obtain ⟨x, hx, -, -⟩ := h.ports
  have hb' : s'.busy = true := by rw [hx] at hb; exact hb
  have hc : s'.cmdWord = s.cmdWord := by rw [hx]; rfl
  have ho : s'.outSeq.length = s.outSeq.length := by rw [hx]; rfl
  rcases hd : decode s.cmdWord with e | i
  · rw [runningOut_illegal hb hd] at hw
    rw [he, List.prefix_nil.1 hw]; exact List.nil_prefix
  · obtain ⟨st, f, hf, hex⟩ := exec_ported i
    have hg := hf.goesOn [] s' s h
    have hgr := hf.grows s'
    rw [runningOut_of_exec hb hd (hex s)] at hw
    rw [runningOut_of_exec hb' (hc ▸ hd) (hex s')]
    have same : ∀ {t t' : State}, Ahead [] t t' → t'.outSeq = t.outSeq := fun ha => by
      obtain ⟨y, hy, -⟩ := ha.ports
      rw [hy]; rfl
    rcases hr : f s' with ⟨a, t⟩ | ⟨e, arg, t⟩ | t | f' <;> rw [hr] at hg hgr
    · obtain ⟨t', ht', ha⟩ := hg
      rw [ht'] at hw; rw [he]; simpa only [Run.emitted, same ha, ho] using hw
    · obtain ⟨t', ht', ha⟩ := hg
      rw [ht'] at hw; rw [he]; simpa only [Run.emitted, same ha, ho] using hw
    · have hst : ¬ st := hgr.2
      obtain ⟨hout, hwhy⟩ := hg
      rw [show st = False from propext ⟨hst, False.elim⟩] at hout
      rw [he]
      simp only [Run.emitted]
      rcases hwhy with ⟨hroom, -⟩ | hne | ⟨t', ht', hto⟩
      · have hp : t.outSeq.drop s.outSeq.length <+: (f s).emitted s := hout.emitted
        rw [ho]
        refine List.prefix_of_prefix_length_le hw hp ?_
        have hr := hgr.1.room
        rw [hroom] at hr
        rcases hs' : s'.outRoom with _ | n
        · rw [hs'] at hr; simp at hr
        · rw [hs'] at hr
          have := hl n hs'
          simp only [Option.map_some, Option.some.injEq] at hr
          rw [List.length_drop]; omega
      · exact absurd rfl hne
      · rw [ht'] at hw
        simpa only [Run.emitted, hto, ho] using hw
    · rw [show f s = .stop f' from hg] at hw
      rw [he]; simpa only [Run.emitted, he] using hw

/-- The engine's turn ends the command, with all of its output out, or leaves it waiting with what it put out noted. -/
theorem engineStep_out {s t : State} (hb : s.busy = true) (h : engineStep s = .next t) :
    (t.busy = false ∧ t.waitOut = [] ∧ t.outSeq = s.outSeq ++ runningOut s)
    ∨ (t = { s with waitOut := runningOut s } ∧ t.waitOut <+: runningOut t) := by
  rcases hd : decode s.cmdWord with e | i
  · rw [engineStep, if_pos hb] at h
    simp only [hd, Host.Outcome.next.injEq] at h
    subst h
    exact .inl ⟨rfl, rfl, by rw [runningOut_illegal hb hd]; simp [takeError, completeCommand]⟩
  · obtain ⟨st, f, hf, hex⟩ := exec_ported i
    have hro := runningOut_of_exec hb hd (hex s)
    have hgr := hf.grows s
    rw [engineStep, if_pos hb] at h
    simp only [hd, hex] at h
    have app : ∀ {u : State}, Grown s u → u.outSeq = s.outSeq ++ u.outSeq.drop s.outSeq.length := fun hu => by
      obtain ⟨more, hm⟩ := hu.out
      rw [← hm]; simp
    rcases finish_next h with ⟨u, hr, rfl⟩ | ⟨e, arg, u, hr, rfl⟩ | ⟨u, hr, rfl⟩ <;> rw [hr] at hro hgr
    · exact .inl ⟨rfl, rfl, by rw [hro]; exact app (u := u) hgr⟩
    · exact .inl ⟨rfl, rfl, by rw [hro]; exact app (u := u) hgr⟩
    · refine .inr ⟨by rw [hro]; rfl, ?_⟩
      have ha : Ahead [] s { s with waitOut := u.outSeq.drop s.outSeq.length } :=
        ⟨⟨s.inSeq, s.outRoom, s.ovr, s.err, s.errCode, s.errCmd, s.errArg, u.outSeq.drop s.outSeq.length, s.inputs,
          s.readData, s.draws⟩, rfl, by simp, .refl _⟩
      have hg := hf.goesOn [] s _ ha
      rw [hr] at hg
      have hout := hg.1
      rw [show st = False from propext ⟨hgr.2, False.elim⟩] at hout
      rw [runningOut_of_exec (s := { s with waitOut := u.outSeq.drop s.outSeq.length }) hb hd (hex _)]
      exact hout.emitted (s := { s with waitOut := u.outSeq.drop s.outSeq.length })

/-! ### What a step does to it -/

/-- `s` with other ports whose stream and room are the same. -/
theorem Ahead.same (x : Ports) {s : State} (h1 : x.inSeq = s.inSeq) (h2 : x.outRoom = s.outRoom) :
    Ahead [] s (x.on s) := ⟨x, rfl, by simp [h1], by rw [h2]; exact .refl _⟩

theorem waitOut_supply {s : State} (b : Byte) (hb : s.busy = true) (hw : s.waitOut <+: runningOut s) :
    s.waitOut <+: runningOut { s with inSeq := s.inSeq ++ [b] } :=
  waitOut_ahead (extra := [b]) (s' := { s with inSeq := s.inSeq ++ [b] }) hb
    ⟨⟨s.inSeq ++ [b], s.outRoom, s.ovr, s.err, s.errCode, s.errCmd, s.errArg, s.waitOut, s.inputs, s.readData, s.draws⟩,
      rfl, rfl, .refl _⟩ rfl hw

theorem waitOut_setOutReady {s : State} (room : Option Nat) (hb : s.busy = true) (hw : s.waitOut <+: runningOut s) :
    s.waitOut <+: runningOut (setOutReady room s) := by
  have total : RoomLe s.outRoom (setOutReady room s).outRoom ∨ RoomLe (setOutReady room s).outRoom s.outRoom := by
    rcases s.outRoom with _ | m <;> rcases (setOutReady room s).outRoom with _ | n <;> simp [RoomLe]
    omega
  rcases total with h | h
  · exact waitOut_ahead (extra := []) (s' := setOutReady room s) hb
      ⟨⟨s.inSeq, (setOutReady room s).outRoom, s.ovr, s.err, s.errCode, s.errCmd, s.errArg, s.waitOut, s.inputs,
        s.readData, s.draws⟩, rfl, by simp, h⟩ rfl hw
  · refine waitOut_behind (s' := setOutReady room s) hb
      ⟨⟨s.inSeq, s.outRoom, s.ovr, s.err, s.errCode, s.errCmd, s.errArg, s.waitOut, s.inputs, s.readData, s.draws⟩,
        rfl, by simp [setOutReady], h⟩ rfl ?_ hw
    intro n hn
    rcases room with _ | m <;> simp [setOutReady] at hn
    omega

end Sys2Proof.Machine
end

