-- ==== Sys2Proof/Tests/Slice0.lean ====
section
/-! SUPPORT. Tests: the assembler's checks, one written-out word per command, one-step vectors of spec/95, and a
witness for each statement with hypotheses. Each expected value is the spec's; its vector or rule is named. -/

namespace Sys2Proof.Machine

set_option Elab.async false

/-! ### Ill-formed statements (30_encoding R82), one per check -/

theorem test_wf_plain_takes_no_operand : assemble (.plain (.pqInsert 3#9)) = none := by decide
theorem test_wf_node_index : assemble (.pqInsert 512) = none := by decide
theorem test_wf_leaf_symbol : assemble (.tbNewLeaf 256) = none := by decide
theorem test_wf_header_padding : assemble (.tsWriteHeaderImm 8 0) = none := by decide
theorem test_wf_header_size : assemble (.tsWriteHeaderImm 0 8192) = none := by decide
theorem test_wf_packer_bit : assemble (.bpAddBit 2) = none := by decide
theorem test_wf_packer_symbol : assemble (.bpEncodeByte 256) = none := by decide
theorem test_wf_unpacker_bit : assemble (.buBit 2) = none := by decide

/-- The largest operands assemble; `HDR 7, 8191` is 4300FFFF (spec/95 W4). -/
theorem test_wf_boundaries :
    [AsmStmt.pqInsert 511, .tbNewLeaf 255, .tsWriteHeaderImm 7 8191, .bpAddBit 1, .bpEncodeByte 255, .buBit 1].map
        assembleWord
      = [some 0x110001FF#32, some 0x210000FF#32, some 0x4300FFFF#32, some 0x61000001#32, some 0x630000FF#32,
          some 0x71000001#32] := by decide

/-- `HDR 1, 8` is 43002008 and `HDR 5, 3` is 4300A003 (spec/95 W4). -/
theorem test_wf_header_words :
    assembleWord (.tsWriteHeaderImm 1 8) = some 0x43002008#32
    ∧ assembleWord (.tsWriteHeaderImm 5 3) = some 0x4300A003#32 := by decide

/-! ### One written-out word per command (30_encoding R79), the fields bit by bit: OPC, zeros, operand -/

theorem test_word_nop : decodeTableWord 32 0b00000000_000000000000000000000000 = some .nop := by decide
theorem test_word_pqClear : decodeTableWord 32 0b00010000_000000000000000000000000 = some .pqClear := by decide
theorem test_word_pqInsert :
    decodeTableWord 32 0b00010001_000000000000000_110000001 = some (.pqInsert 0x181#9) := by decide
theorem test_word_pqRemoveMin :
    decodeTableWord 32 0b00010010_000000000000000000000000 = some .pqRemoveMin := by decide
theorem test_word_tbClear : decodeTableWord 32 0b00100000_000000000000000000000000 = some .tbClear := by decide
theorem test_word_tbNewLeaf :
    decodeTableWord 32 0b00100001_0000000000000000_01000001 = some (.tbNewLeaf 0x41#8) := by decide
theorem test_word_tbLoadLeaves :
    decodeTableWord 32 0b00100010_000000000000000000000000 = some .tbLoadLeaves := by decide
theorem test_word_tbMerge : decodeTableWord 32 0b00100011_000000000000000000000000 = some .tbMerge := by decide
theorem test_word_tbBuild : decodeTableWord 32 0b00100100_000000000000000000000000 = some .tbBuild := by decide
theorem test_word_cgGenerate :
    decodeTableWord 32 0b00110000_000000000000000000000000 = some .cgGenerate := by decide
theorem test_word_tsMeasure : decodeTableWord 32 0b01000000_000000000000000000000000 = some .tsMeasure := by decide
theorem test_word_tsPad : decodeTableWord 32 0b01000001_000000000000000000000000 = some .tsPad := by decide
theorem test_word_tsWriteHeader :
    decodeTableWord 32 0b01000010_000000000000000000000000 = some .tsWriteHeader := by decide
theorem test_word_tsWriteHeaderImm :
    decodeTableWord 32 0b01000011_00000000_101_0000000000011 = some (.tsWriteHeaderImm 0xA003#16) := by decide
theorem test_word_tsWriteTree :
    decodeTableWord 32 0b01000100_000000000000000000000000 = some .tsWriteTree := by decide
theorem test_word_tdReadHeader :
    decodeTableWord 32 0b01010000_000000000000000000000000 = some .tdReadHeader := by decide
theorem test_word_tdReadTree :
    decodeTableWord 32 0b01010001_000000000000000000000000 = some .tdReadTree := by decide
theorem test_word_bpReset : decodeTableWord 32 0b01100000_000000000000000000000000 = some .bpReset := by decide
theorem test_word_bpAddBit :
    decodeTableWord 32 0b01100001_00000000000000000000000_1 = some (.bpAddBit 1#1) := by decide
theorem test_word_bpFlush : decodeTableWord 32 0b01100010_000000000000000000000000 = some .bpFlush := by decide
theorem test_word_bpEncodeByte :
    decodeTableWord 32 0b01100011_0000000000000000_01000010 = some (.bpEncodeByte 0x42#8) := by decide
theorem test_word_bpEncodeStream :
    decodeTableWord 32 0b01100100_000000000000000000000000 = some .bpEncodeStream := by decide
theorem test_word_buReset : decodeTableWord 32 0b01110000_000000000000000000000000 = some .buReset := by decide
theorem test_word_buBit :
    decodeTableWord 32 0b01110001_00000000000000000000000_1 = some (.buBit 1#1) := by decide
theorem test_word_buDecodeStream :
    decodeTableWord 32 0b01110010_000000000000000000000000 = some .buDecodeStream := by decide

/-- The illegal words of spec/95 CTL-1 to CTL-5. -/
theorem test_word_illegal :
    [0x01000000#32, 0x10000001#32, 0x11000200#32, 0x43010000#32, 0xFFFFFFFF#32].map decodeWord
      = [none, none, none, none, none] := by decide

/-! ### Small states -/

/-- What is seen of the next state an outcome answers. -/
def seen {α : Type} (o : Host.Outcome State Fault Refusal) (f : State → α) : Option α :=
  match o with
  | .next s => some (f s)
  | .fault _ => none
  | .refused _ => none

theorem seen_some {α : Type} {o : Host.Outcome State Fault Refusal} {f : State → α} {v : α}
    (h : seen o f = some v) : ∃ t, o = .next t ∧ f t = v := by
  cases o with
  | next s => exact ⟨s, rfl, by simpa [seen] using h⟩
  | fault _ => simp [seen] at h
  | refused _ => simp [seen] at h

/-- The frequencies of AABRA (spec/95 W1). -/
def counted : State := setFreq 0x52#8 1#32 (setFreq 0x42#8 1#32 (setFreq 0x41#8 3#32 State.reset))

/-- After TB-1: the three leaves, queued. -/
def loaded : State :=
  { counted with nodes := [leafNode 0x41#8 3, leafNode 0x42#8 1, leafNode 0x52#8 1], heap := [1, 0, 2] }

/-- The arena of TB-5. -/
def aabraNodes : List Node :=
  [leafNode 0x41#8 3, leafNode 0x42#8 1, leafNode 0x52#8 1, internalNode 2 1 2, internalNode 5 3 0]

/-- The tree of TB-5. -/
def aabraTree : CodeTree := .node (.node (.leaf 0x42#8) (.leaf 0x52#8)) (.leaf 0x41#8)

/-- After TB-5. -/
def built : State := { counted with nodes := aabraNodes, root := 4, buCur := 4 }

/-- After CG-1. -/
def coded : State := setCode 0x52#8 1 2 (setCode 0x42#8 0 2 (setCode 0x41#8 1 1 built))

/-- A stream of `bytes`, all of them supplied. -/
def withIn (bytes : List Byte) (s : State) : State :=
  { s with inSeq := bytes, inRem := BitVec.ofNat 32 bytes.length }

/-- The tree of the container of spec/95 W3, after its header. -/
def treeStream : State :=
  { withIn [0x30, 0x30, 0x31, 0x42, 0x31, 0x52, 0x31, 0x41, 0xC6] State.reset with pad := 1, treeSize := 8 }

/-- The single leaf 'A' of frequency 1000 (TB-7). -/
def single : State := { State.reset with nodes := [leafNode 0x41#8 1000], root := 0, buCur := 0 }

/-- What an error leaves in STATUS and ERR_ARG. -/
def errorSeen (s : State) : Word × Word := (statusWord s, s.errArg)

/-! ### One step of each command (spec/95 section 2) -/

/-- 40_control R86: only BUSY goes to 0. -/
theorem test_nop :
    seen (exec .nop { built with busy := true, result := 9 }) (fun s => (statusWord s, s.result, s.nodes, s.root))
      = some (0#32, 9#32, aabraNodes, 4#9) := by decide +kernel

/-- PQ-8. -/
theorem test_pqClear : seen (exec .pqClear loaded) (fun s => (s.heap, s.nodes.length)) = some ([], 3) := by
  decide +kernel

/-- PQ-1: the third insertion. -/
theorem test_pqInsert : seen (exec (.pqInsert 2) { loaded with heap := [1, 0] }) State.heap = some [1, 0, 2] := by
  decide +kernel

/-- PQ-5: BAD_NODE_INDEX at the index of the next allocation. -/
theorem test_pqInsert_bad : seen (exec (.pqInsert 3) loaded) errorSeen = some (0x1202#32, 3#32) := by decide +kernel

/-- PQ-2: the first removal. -/
theorem test_pqRemoveMin :
    seen (exec .pqRemoveMin loaded) (fun s => (s.result, s.heap)) = some (1#32, [2, 0]) := by decide +kernel

/-- PQ-4: the first removal of four nodes of equal frequency. -/
theorem test_pqRemoveMin_tie :
    seen (exec .pqRemoveMin { State.reset with
      nodes := [leafNode 1 1, leafNode 2 1, leafNode 3 1, leafNode 4 1], heap := [0, 1, 2, 3] })
      (fun s => (s.result, s.heap)) = some (0#32, [3, 1, 2]) := by decide +kernel

/-- TB-12. -/
theorem test_tbClear :
    seen (exec .tbClear coded) (fun s => (s.nodes, s.heap, s.root, s.buCur, lenAt s 0x41#8))
      = some ([], [], 0x1FF#9, 0x1FF#9, 1#6) := by decide +kernel

/-- TB-13. -/
theorem test_tbNewLeaf :
    seen (exec (.tbNewLeaf 0x41#8) counted)
      (fun s => (s.result, nodeInfoWord s, nodeFreqWord s, nodeLinkWord s))
      = some (0#32, 0xC0000041#32, 3#32, 0x01FF01FF#32) := by decide +kernel

/-- An arena with room for none. -/
def fullArena : State := { State.reset with nodes := List.replicate 511 (leafNode 0 0) }

/-- TB-8: the 512th leaf. -/
theorem test_tbNewLeaf_full : seen (exec (.tbNewLeaf 0) fullArena) errorSeen = some (0x2002#32, 0x1FF#32) := by
  decide +kernel

/-- TB-1. -/
theorem test_tbLoadLeaves :
    seen (exec .tbLoadLeaves counted) (fun s => (s.result, s.nodes, s.heap, s.root))
      = some (3#32, loaded.nodes, [1, 0, 2], 0x1FF#9) := by decide +kernel

/-- TB-2. -/
theorem test_tbMerge :
    seen (exec .tbMerge loaded) (fun s => (s.result, s.nodes.getLast?, s.heap))
      = some (3#32, some (internalNode 2 1 2), [3, 0]) := by decide +kernel

/-- Two queued leaves whose frequencies are 2^32 - 1 and `f`. -/
def heavy (f : Word) : State :=
  { State.reset with nodes := [leafNode 0 0xFFFFFFFF, leafNode 1 f], heap := [1, 0] }

/-- TB-9. -/
theorem test_tbMerge_overflow :
    seen (exec .tbMerge (heavy 1)) (fun s => (errorSeen s, s.heap, s.nodes.length))
      = some ((0x2102#32, 1#32), [], 2) := by decide +kernel

/-- TB-5. -/
theorem test_tbBuild :
    seen (exec .tbBuild loaded) (fun s => (s.nodes, s.heap, s.root, s.buCur, s.result))
      = some (aabraNodes, [], 4#9, 4#9, 4#32) := by decide +kernel

/-- TB-6: the empty tree. -/
theorem test_tbBuild_empty :
    seen (exec .tbBuild State.reset) (fun s => (s.root, s.buCur, s.result)) = some (0x1FF#9, 0x1FF#9, 0x1FF#32) := by
  decide +kernel

/-- CG-1. -/
theorem test_cgGenerate :
    seen (exec .cgGenerate built)
      (fun s => (s.result, codeAt s 0x41#8, lenAt s 0x41#8, codeAt s 0x42#8, lenAt s 0x42#8, codeAt s 0x52#8,
        lenAt s 0x52#8, lenAt s 0x43#8))
      = some (3#32, 1#32, 1#6, 0#32, 2#6, 1#32, 2#6, 0#6) := by decide +kernel

/-- The tree of TD-18: the symbol 'A' at two leaves. -/
def twice : State :=
  { State.reset with nodes := [leafNode 0x41#8 0, leafNode 0x41#8 0, internalNode 0 0 1], root := 2, buCur := 2 }

/-- CG-7: the first leaf keeps its code. -/
theorem test_cgGenerate_dup :
    seen (exec .cgGenerate twice) (fun s => (errorSeen s, codeAt s 0x41#8, lenAt s 0x41#8))
      = some ((0x3102#32, 0x41#32), 0#32, 1#6) := by decide +kernel

/-- TS-1. -/
theorem test_tsMeasure : seen (exec .tsMeasure built) (fun s => (s.treeSize, s.result)) = some (8#13, 8#32) := by
  decide +kernel

/-- TS-2: an escaped leaf. -/
theorem test_tsMeasure_escaped :
    seen (exec .tsMeasure { State.reset with nodes := [leafNode 0x2A#8 3], root := 0, buCur := 0 }) State.treeSize
      = some 3#13 := by decide +kernel

/-- TS-4. -/
theorem test_tsPad :
    seen (exec .tsPad coded) (fun s => (s.totalBits, s.pad, s.result)) = some (7#64, 1#3, 1#32) := by decide +kernel

/-- TS-8. -/
theorem test_tsWriteHeader :
    seen (exec .tsWriteHeader { built with pad := 1, treeSize := 8 }) (fun s => (s.outSeq, s.outCount))
      = some ([0x20#8, 0x08#8], 2#32) := by decide +kernel

/-- TS-9. -/
theorem test_tsWriteHeaderImm :
    seen (exec (.tsWriteHeaderImm 0xA003#16) State.reset) (fun s => (s.outSeq, s.pad, s.treeSize))
      = some ([0xA0#8, 0x03#8], 0#3, 0#13) := by decide +kernel

/-- TS-6. -/
theorem test_tsWriteTree :
    seen (exec .tsWriteTree built) (fun s => (s.outSeq, s.result, s.outCount))
      = some ([0x30, 0x30, 0x31, 0x42, 0x31, 0x52, 0x31, 0x41], 8#32, 8#32) := by decide +kernel

/-- TD-1. -/
theorem test_tdReadHeader :
    seen (exec .tdReadHeader (withIn [0x20, 0x08] State.reset)) (fun s => (s.pad, s.treeSize, s.result, s.inRem))
      = some (1#3, 8#13, 0x2008#32, 0#32) := by decide +kernel

/-- TD-3: the stream ends after one byte. -/
theorem test_tdReadHeader_short :
    seen (exec .tdReadHeader (withIn [0x20] State.reset)) (fun s => (errorSeen s, s.pad, s.inRem))
      = some ((0x5002#32, 1#32), 0#3, 0#32) := by decide +kernel

/-- TD-4. -/
theorem test_tdReadTree :
    seen (exec .tdReadTree treeStream) (fun s => (s.nodes, s.root, s.buCur, s.result, s.inRem))
      = some ([leafNode 0x42#8 0, leafNode 0x52#8 0, internalNode 0 0 1, leafNode 0x41#8 0, internalNode 0 2 3],
          4#9, 4#9, 4#32, 1#32) := by decide +kernel

/-- TD-7: the size test comes before the stream test; and TD-14: the tree ends before TREE_SIZE bytes, and its nodes stay. -/
theorem test_tdReadTree_mismatch :
    seen (exec .tdReadTree { withIn [0x30, 0x31, 0x41, 0x31, 0x42] State.reset with treeSize := 4 })
      (fun s => (errorSeen s, s.nodes.length, s.root, s.inRem)) = some ((0x5202#32, 4#32), 1, 0x1FF#9, 1#32)
    ∧ seen (exec .tdReadTree { withIn [0x30, 0x31, 0x41, 0x31, 0x42, 0x00] State.reset with treeSize := 6 })
      (fun s => (errorSeen s, s.nodes, s.root, s.inRem))
      = some ((0x5202#32, 5#32), [leafNode 0x41#8 0, leafNode 0x42#8 0, internalNode 0 0 1], 0x1FF#9, 1#32) := by
  decide +kernel

/-- BP-2: BP_STATE 0x101 before BP_RESET, 0 after it. -/
theorem test_bpReset :
    seen (exec .bpReset { State.reset with acc := 1, cnt := 1 }) (readReg .bpState) = some 0#32 := by decide +kernel

/-- BP-1: the fifth bit. -/
theorem test_bpAddBit :
    seen (exec (.bpAddBit 0) { State.reset with acc := 0x0B, cnt := 4 }) (readReg .bpState) = some 0x516#32 := by
  decide +kernel

/-- BP-1: the eighth bit emits B2. -/
theorem test_bpAddBit_full :
    seen (exec (.bpAddBit 0) { State.reset with acc := 0x59, cnt := 7 }) (fun s => (readReg .bpState s, s.outSeq))
      = some (0#32, [0xB2#8]) := by decide +kernel

/-- BP-3. -/
theorem test_bpFlush :
    seen (exec .bpFlush { coded with acc := 0x63, cnt := 7 }) (fun s => (s.outSeq, readReg .bpState s))
      = some ([0xC6#8], 0#32) := by decide +kernel

/-- BP-7. -/
theorem test_bpEncodeByte :
    seen (exec (.bpEncodeByte 0x42#8) { coded with acc := 3, cnt := 2 }) (readReg .bpState) = some 0x40C#32 := by
  decide +kernel

/-- BP-6. -/
theorem test_bpEncodeByte_noCode :
    seen (exec (.bpEncodeByte 0x58#8) { coded with acc := 1, cnt := 1 }) (fun s => (errorSeen s, readReg .bpState s))
      = some ((0x6002#32, 0x58#32), 0x101#32) := by decide +kernel

/-- BP-4. -/
theorem test_bpEncodeStream :
    seen (exec .bpEncodeStream (withIn [0x41, 0x41, 0x42, 0x52, 0x41] coded))
      (fun s => (readReg .bpState s, s.outSeq, s.result, s.inRem)) = some (0x763#32, [], 5#32, 0#32) := by
  decide +kernel

/-- BP-5. -/
theorem test_bpEncodeStream_noCode :
    seen (exec .bpEncodeStream (withIn [0x41, 0x58, 0x41] { coded with result := 5 }))
      (fun s => (errorSeen s, readReg .bpState s, s.inRem, s.result))
      = some ((0x6002#32, 0x58#32), 0x101#32, 1#32, 5#32) := by decide +kernel

/-- BU-3: BU_RESET in the middle of a descent. -/
theorem test_buReset : seen (exec .buReset { built with buCur := 3 }) State.buCur = some 4#9 := by decide +kernel

/-- BU-1, on the arena of TB-5. -/
theorem test_buBit_leaf :
    seen (exec (.buBit 1) built) (fun s => (s.result, s.outSeq, s.buCur)) = some (0x141#32, [0x41#8], 4#9) := by
  decide +kernel

/-- BU-2, on the arena of TB-5, where the left child is node 3. -/
theorem test_buBit_internal :
    seen (exec (.buBit 0) built) (fun s => (s.result, s.outSeq, s.buCur)) = some (0#32, [], 3#9) := by decide +kernel

/-- BU-4. -/
theorem test_buDecodeStream :
    seen (exec .buDecodeStream (withIn [0xC6] { built with pad := 1 }))
      (fun s => (s.outSeq, s.result, s.buCur, s.inRem))
      = some ([0x41, 0x41, 0x42, 0x52, 0x41], 5#32, 4#9, 0#32) := by decide +kernel

/-- BU-8: the second payload byte holds a bad bit. -/
theorem test_buDecodeStream_badCode :
    seen (exec .buDecodeStream (withIn [0x00, 0x20] { single with result := 7 }))
      (fun s => (errorSeen s, s.outSeq, s.result)) = some ((0x7102#32, 0x0A#32), List.replicate 10 0x41#8, 7#32) := by
  decide +kernel

/-! ### Issue, control and reset (spec/95 section 2.8) -/

/-- CTL-1: a write of an unassigned opcode, then the engine's turn, as the host sees STATUS and ERR_CMD. -/
theorem test_illegal :
    seen (step (State.reset.withFetchWord 32 0x01000000)) (fun s => (statusWord s, s.errCmd, s.errArg))
      = some (0x00000102#32, 0x01000000#32, 0#32) := by decide +kernel

/-- A command word placed for the next step runs as the first command after reset: TB-13's leaf. -/
theorem test_first_command :
    seen (step (State.reset.withFetchWord 32 0x21000041)) (fun s => s.nodes) = some [leafNode 0x41#8 0] := by
  decide +kernel

/-- CTL-6: with ERR = 1 the write is discarded and OVR is set. -/
theorem test_cmd_discarded :
    seen (step { State.reset with err := true, errCode := 1, inputs := [.write 4 0x010 0] }) statusWord
      = some 0x00000106#32 := by decide +kernel

/-- CTL-8. -/
theorem test_ctrl_clears_both :
    seen (step { State.reset with err := true, errCode := 1, ovr := true, inputs := [.write 4 0x008 6] }) statusWord
      = some 0#32 := by decide +kernel

/-- CTL-10. -/
theorem test_read_version : seen (step { State.reset with inputs := [.read 4 0x004] }) State.readData
    = some 0x00010000#32 := by decide +kernel

/-- CTL-11: 0x1FF is stored as 0xFF; the write to FREQ_DATA then wraps FREQ_IDX. -/
theorem test_freq_window :
    seen (regWrite 0x084 7#32 { State.reset with freqIdx := 0xFF }) (fun s => (freqAt s 0xFF#8, s.freqIdx))
      = some (7#32, 0#8) := by decide +kernel

/-- CTL-12: nodes 4, 3, 0 and 5. -/
theorem test_node_window :
    ([4#9, 3#9, 0#9, 5#9].map fun i => { built with nodeIdx := i }).map
        (fun s => (nodeInfoWord s, nodeFreqWord s, nodeLinkWord s))
      = [(0x80000000#32, 5#32, 0x00000003#32), (0x80000000#32, 2#32, 0x00020001#32),
          (0xC0000041#32, 3#32, 0x01FF01FF#32), (0#32, 0#32, 0#32)] := by decide +kernel

/-- CTL-13: slots 0, 2 and 3. -/
theorem test_heap_window :
    [0#8, 2#8, 3#8].map (fun i => heapEntryWord { loaded with heapIdx := i })
      = [0x80000001#32, 0x80000002#32, 0#32] := by decide +kernel

/-- RS-1: a soft reset leaves the reset state, but for the bytes the host already has. -/
theorem test_soft_reset :
    seen (step { coded with outSeq := [0x20], outCount := 1, inputs := [.write 4 0x008 1] })
      (fun s => (s.outSeq, s.outCount, freqAt s 0x41#8, lenAt s 0x41#8, s.root))
      = some ([0x20#8], 0#32, 0#32, 0#6, 0x1FF#9) := by decide +kernel

/-- The state in which a run of a host program ended, or is unfinished. -/
def lastSeen {α : Type} (r : RunEnd) (f : State → α) : Option (Bool × α) :=
  match r with
  | .ended s => some (true, f s)
  | .unfinished p => some (false, f p.machine)
  | .fault _ => none
  | .refused _ => none

/-- TB-13 as a host program: `LDFREQ 'A', 3`, `TB_NEW_LEAF 'A'`, `RD NODE_COUNT` (30_encoding R83). The engine moves
only in the third turn of the command's WAIT. -/
theorem test_program :
    lastSeen (runProgram [[], [], [], [], [], [.engine], []] []
      [.ldfreq 0x41#8 3#32, .command (.tbNewLeaf 0x41#8), .rd .nodeCount]) (fun s => (s.readData, s.nodes))
      = some (true, 1#32, [leafNode 0x41#8 3]) := by decide +kernel

/-- CTL-10 as a host program, up to each of its reads of a reserved offset: RD 0x04C (register 19) and RD 0x0FC
(register 63) give 0, after an RD VERSION that does not. -/
theorem test_program_reserved :
    ([19, 63] : List (Fin 64)).map (fun n =>
        lastSeen (runProgram [[], [], []] [] [.rd .id, .rd .version, .rdAt n]) (·.readData))
      = [some (true, 0#32), some (true, 0#32)]
    ∧ lastSeen (runProgram [[], []] [] [.rd .id, .rdAt 1]) (·.readData) = some (true, 0x00010000#32) := by
  decide +kernel

/-- A stream of one byte: with no byte in the IN supply the command waits and the run does not end (20_memory R75, U6);
with one it ends, and BP-6's error is recorded (70_reset_and_hazards R158). -/
theorem test_program_in_supply :
    [[], [0x58#8]].map (fun supply =>
        lastSeen (runProgram (List.replicate 6 [.supply, .engine]) supply [.wr .inLen 1, .command .bpEncodeStream])
          fun s => (s.busy, errorSeen s))
      = [some (false, true, 0x0001#32, 0#32), some (true, false, 0x6002#32, 0x58#32)] := by decide +kernel

/-! ### Witnesses: for each statement, states and operands that meet its hypotheses, at the boundaries of its
clauses. `witness_<Name>` stands for `Obligations.<Name>`. -/

theorem aabra_holds : HoldsTree aabraNodes 4 aabraTree :=
  .node 4 (internalNode 5 3 0) _ _ rfl rfl
    (.node 3 (internalNode 2 1 2) _ _ rfl rfl (.leaf 1 (leafNode 0x42#8 1) rfl rfl) (.leaf 2 (leafNode 0x52#8 1) rfl rfl))
    (.leaf 0 (leafNode 0x41#8 3) rfl rfl)

theorem built_holds : built.root ≠ 0x1FF#9 ∧ HoldsTree built.nodes built.root aabraTree := ⟨by decide, aabra_holds⟩

/-- A row that matches at its operand's greatest value, and a word that no row matches. -/
theorem witness_DecodeFollowsOpcodeMap :
    ((⟨"PQ_INSERT", .n, 0x11000000, 0xFFFFFE00⟩ : OpcodeRow) ∈ opcodeRows
      ∧ (⟨"PQ_INSERT", .n, 0x11000000, 0xFFFFFE00⟩ : OpcodeRow).fits 0x110001FF = true)
    ∧ ∀ r ∈ opcodeRows, r.fits 0x11000200 = false := by decide +kernel

/-- A command in progress, the engine next, and no act left. -/
def running (w : Word) (acts : List Input) : State := { State.reset with busy := true, cmdWord := w, inputs := acts }

/-- A command in progress, and none; the engine next, and no act left. -/
theorem witness_StepRunsTheDecodedCommand :
    (running 0x24000000 [.engine]).busy = true ∧ decode (running 0x24000000 [.engine]).cmdWord = .ok .tbBuild
    ∧ (running 0x24000000 [.engine]).inputs = [.engine] ∧ (running 0x24000000 []).inputs = []
    ∧ ({ built with inputs := [.engine] } : State).busy = false ∧ built.busy = false ∧ built.inputs = [] :=
  ⟨rfl, by rfl, rfl, rfl, rfl, rfl, rfl⟩

theorem witness_IllegalWordRaises :
    (running 0x11000200 [.engine]).busy = true
    ∧ decode (running 0x11000200 [.engine]).cmdWord = .error (.operandBits 0x11)
    ∧ (running 0x11000200 [.engine]).dstack = [] ∧ (running 0x11000200 [.engine]).inputs = [.engine] :=
  ⟨rfl, by rfl, rfl, rfl⟩

/-- The write, with BUSY = 1, with ERR = 1, and with neither. -/
theorem witness_CommandWriteAcceptedOrDiscarded :
    (running 0 [.write 4 0x010 0]).inputs = [.write 4 (hcBase (running 0 [.write 4 0x010 0]) + 0x010) 0]
    ∧ (running 0 [.write 4 0x010 0]).busy = true
    ∧ ({ State.reset with err := true, inputs := [.write 4 0x010 0] } : State).err = true
    ∧ State.reset.busy = false ∧ State.reset.err = false := ⟨rfl, rfl, rfl, rfl, rfl⟩

theorem witness_RaiseWritesTheErrorRecord : loaded.dstack = [] := rfl

/-- CTRL bits 1 and 2 without bit 0. -/
theorem witness_CtrlClearsErrorAndOverrun :
    ({ State.reset with inputs := [.write 4 0x008 6] } : State).inputs
      = [.write 4 (hcBase { State.reset with inputs := [.write 4 0x008 6] } + 0x008) 6]
    ∧ (6#32).getLsbD 0 = false := ⟨rfl, by decide⟩

/-- A hard reset, and CTRL = 7, at rest and while a command runs. -/
theorem witness_ResetLeavesTheResetState :
    (running 0 [.hardReset]).inputs = [.hardReset] ∧ (running 0 [.hardReset]).busy = true
    ∧ ({ built with inputs := [.write 4 0x008 7] } : State).inputs
      = [.write 4 (hcBase { built with inputs := [.write 4 0x008 7] } + 0x008) 7]
    ∧ (7#32).getLsbD 0 = true ∧ built.busy = false := ⟨rfl, rfl, rfl, by decide, rfl⟩

theorem witness_RegisterMapAtReset : Reg.heapEntry.access = .ro ∧ Reg.cmd.access = .wo := ⟨rfl, rfl⟩

/-- The last register, and the first and last reserved offsets after it; accesses of one byte, and at an offset that is no
multiple of 4. -/
theorem witness_ReadsReturnTheRegisters :
    (nodeCount fullArena ≤ 511 ∧ heapSize { loaded with heap := List.replicate 256 0 } ≤ 256)
    ∧ Reg.heapEntry.offset = 0x0A8 ∧ (∀ r : Reg, r.offset ≠ 0x0AC) ∧ (∀ r : Reg, r.offset ≠ 0x0FC)
    ∧ State.reset.busy = false
    ∧ ({ State.reset with inputs := [.read 4 0x0FC] } : State).inputs
      = [.read 4 (hcBase { State.reset with inputs := [.read 4 0x0FC] } + 0x0FC)]
    ∧ (running 0 [.write 1 0x010 1]).inputs = [.write 1 (hcBase (running 0 [.write 1 0x010 1]) + 0x010) 1]
    ∧ (running 0 [.read 4 0x0FF]).inputs = [.read 4 (hcBase (running 0 [.read 4 0x0FF]) + 0x0FF)]
    ∧ (1 ≠ 4 ∨ 0x010 % 4 ≠ 0) ∧ (4 ≠ 4 ∨ 0x0FF % 4 ≠ 0) :=
  ⟨by decide +kernel, rfl, fun r => by cases r <;> decide, fun r => by cases r <;> decide, rfl, rfl, rfl, rfl, by decide,
    by decide⟩

/-- A write to the last reserved offset; and accesses at the addresses just above and just below HCORE's 256 bytes. -/
theorem witness_ReadsReturnTheRegisters_elsewhere :
    ({ built with inputs := [.write 4 0x0FC 1] } : State).inputs
      = [.write 4 (hcBase { built with inputs := [.write 4 0x0FC 1] } + 0x0FC) 1]
    ∧ hcBase built + 0x100 ≤ 0x100 ∧ 0x0FF < hcBase { built with hcPage := 1 } := ⟨rfl, by decide, by decide⟩

/-- ID, VERSION, STATUS, another register and a reserved offset. -/
theorem witness_BusyReadsOnlyIdVersionStatus :
    (∀ off ∈ [0x000, 0x004, 0x00C, 0x014, 0x0FC], (running 0 [.read 4 off]).inputs
        = [.read 4 (hcBase (running 0 [.read 4 off]) + off)] ∧ off < 0x100 ∧ off % 4 = 0)
    ∧ (running 0 []).busy = true ∧ Reg.result.offset = 0x014 ∧ (∀ r : Reg, r.offset ≠ 0x0FC) :=
  ⟨by decide, rfl, rfl, fun r => by cases r <;> decide⟩

/-- CTRL, CMD, a RW register, a RO register and a reserved offset. -/
theorem witness_BusyWrites :
    (running 0 [.write 4 0x0A8 1]).inputs = [.write 4 (hcBase (running 0 [.write 4 0x0A8 1]) + 0x0A8) 1]
    ∧ (running 0 []).busy = true ∧ 0x008 = Reg.ctrl.offset ∧ 0x010 = Reg.cmd.offset
    ∧ 0x034 ∈ [Reg.inLen, .freqIdx, .freqData, .codeIdx, .nodeIdx, .heapIdx].map Reg.offset
    ∧ (∀ r : Reg, r.offset = 0x0A8 → r.access = .ro) ∧ (∀ r : Reg, r.offset = 0x0FC → r.access = .ro) :=
  ⟨rfl, rfl, rfl, rfl, by decide, fun r => by cases r <;> decide, fun r => by cases r <;> decide⟩

/-- The index at the wrap, and another entry. -/
theorem witness_FrequencyWindow :
    ({ State.reset with freqIdx := 0xFF } : State).busy = false
    ∧ (0#8 : Byte) ≠ ({ State.reset with freqIdx := 0xFF } : State).freqIdx := ⟨rfl, by decide⟩

/-- The last slot in use and the first beyond it. -/
theorem witness_CodeAndHeapWindows :
    ({ loaded with heapIdx := 2 } : State).heapIdx.toNat < heapSize loaded
    ∧ heapSize loaded ≤ ({ loaded with heapIdx := 3 } : State).heapIdx.toNat ∧ loaded.busy = false := by decide +kernel

/-- A leaf, an internal node, and the first index that is not allocated. -/
theorem witness_NodeWindow :
    built.busy = false ∧ built.nodes[(2#9).toNat]? = some ⟨true, 0x52, 1, Config.nil, Config.nil⟩
    ∧ built.nodes[(4#9).toNat]? = some ⟨false, 0, 5, 3, 0⟩ ∧ nodeCount built ≤ (5#9).toNat := by decide +kernel

/-- A write of IN_LEN; a stream that asks for one more byte; and one that asks for none. -/
theorem witness_StreamOpensAndFills :
    ({ built with inputs := [.write 4 0x034 1] } : State).inputs
      = [.write 4 (hcBase { built with inputs := [.write 4 0x034 1] } + 0x034) 1]
    ∧ built.busy = false
    ∧ ({ built with inRem := 1 } : State).inSeq.length < ({ built with inRem := 1 } : State).inRem.toNat
    ∧ built.inRem.toNat ≤ built.inSeq.length :=
  ⟨rfl, rfl, by decide, by decide⟩

/-- The last allocated index, with room for one more. -/
theorem witness_PqInsertAddsTheNode :
    (2#9).toNat < nodeCount { loaded with heap := List.replicate 255 0 }
    ∧ heapSize { loaded with heap := List.replicate 255 0 } ≠ 256
    ∧ (2#9).toNat < nodeCount loaded ∧ heapSize loaded ≠ 256 := by decide +kernel

theorem loaded_ordered : HeapOrdered (keyOf loaded) loaded.heap := by
  intro i h0 hl
  have : i = 1 ∨ i = 2 := by
    have : i < 3 := hl
    omega
  rcases this with rfl | rfl <;> decide +kernel

theorem witness_PqRemoveMinTakesTheLeast : loaded.heap = 1 :: [0, 2] ∧ HeapOrdered (keyOf loaded) loaded.heap :=
  ⟨rfl, loaded_ordered⟩

/-- The first index not allocated; a full queue; an empty queue. -/
theorem witness_QueueErrors :
    nodeCount loaded ≤ (3#9).toNat
    ∧ ((2#9).toNat < nodeCount { loaded with heap := List.replicate 256 0 }
      ∧ heapSize { loaded with heap := List.replicate 256 0 } = 256)
    ∧ heapSize built = 0 := by decide +kernel

/-- Room for one leaf, and for none. -/
theorem witness_TbNewLeafAllocates :
    nodeCount { fullArena with nodes := List.replicate 510 (leafNode 0 0) } < 511 ∧ nodeCount fullArena = 511 := by
  decide +kernel

/-- Frequencies whose sum is exactly 2^32 - 1, in a queue with the heap property. -/
theorem witness_TbMergeJoinsTheTwoLeast :
    2 ≤ heapSize (heavy 0) ∧ heapSize (heavy 0) ≤ 256 ∧ nodeCount (heavy 0) < 511
    ∧ (∀ m ∈ (heavy 0).heap, m.toNat < nodeCount (heavy 0))
    ∧ (1#9 = slot (heavy 0).heap 0 ∧ 0#9 = slot (heapRemove (keyOf (heavy 0)) (heavy 0).heap) 0)
    ∧ (keyOf (heavy 0) 1#9).toNat + (keyOf (heavy 0) 0#9).toNat = 2 ^ 32 - 1
    ∧ HeapOrdered (keyOf loaded) loaded.heap :=
  ⟨by decide, by decide, by decide, by decide, by decide +kernel, by decide +kernel, loaded_ordered⟩

/-- One node queued; a full arena; a sum of exactly 2^32. -/
theorem witness_TbMergeErrorsInOrder :
    heapSize { loaded with heap := [1] } < 2
    ∧ (2 ≤ heapSize { fullArena with heap := [0, 1] } ∧ nodeCount { fullArena with heap := [0, 1] } = 511)
    ∧ (2 ≤ heapSize (heavy 1) ∧ nodeCount (heavy 1) ≠ 511
      ∧ (keyOf (heavy 1) (slot (heavy 1).heap 0)).toNat
        + (keyOf (heavy 1) (slot (heapRemove (keyOf (heavy 1)) (heavy 1).heap) 0)).toNat = 2 ^ 32) := by
  decide +kernel

/-- No node, one node, two nodes queued; and an arena that the merge fills. -/
theorem witness_TbBuildMakesTheRoot :
    (∀ s ∈ [{ loaded with heap := [] }, { loaded with heap := [2] }, heavy 0],
      heapSize s ≤ 256 ∧ (∀ m ∈ s.heap, m.toNat < nodeCount s) ∧ nodeCount s + (heapSize s - 1) ≤ 511
      ∧ (s.heap.map fun m => (keyOf s m).toNat).sum ≤ 2 ^ 32 - 1)
    ∧ nodeCount { fullArena with nodes := List.replicate 510 (leafNode 0 0), heap := [0, 1] } + (2 - 1) = 511 := by
  decide +kernel

/-- A first merge that overflows; and one that does after a merge: 1 + 1, then 2 + (2^32 - 1). -/
theorem witness_TbBuildErrorKeepsTheMergedNodes :
    ((heavy 1).err = false ∧ heapSize (heavy 1) ≤ 256 ∧ ∃ t, exec .tbBuild (heavy 1) = .next t ∧ t.err = true)
    ∧ ∃ t, exec .tbBuild { heavy 1 with nodes := (heavy 1).nodes ++ [leafNode 2 1], heap := [1, 2, 0] } = .next t
      ∧ (t.err, t.nodes.length) = (true, 4) :=
  ⟨⟨rfl, by decide, seen_some (by decide +kernel)⟩, seen_some (by decide +kernel)⟩

/-- A sum of exactly 2^32 with room in the arena; a merge that would need a 512th node; and both. -/
theorem witness_TbBuildErrorKeepsTheMergedNodes_when :
    (∀ s ∈ [heavy 1, { fullArena with heap := [0, 1] },
        { fullArena with nodes := List.replicate 511 (leafNode 0 0xFFFFFFFF), heap := [0, 1] }],
      heapSize s ≤ 256 ∧ (∀ m ∈ s.heap, m.toNat < nodeCount s) ∧ nodeCount s ≤ 511)
    ∧ (nodeCount (heavy 1) + (heapSize (heavy 1) - 1) ≤ 511
      ∧ ((heavy 1).heap.map fun m => (keyOf (heavy 1) m).toNat).sum = 2 ^ 32)
    ∧ (nodeCount { fullArena with heap := [0, 1] } + (heapSize { fullArena with heap := [0, 1] } - 1) = 512
      ∧ (({ fullArena with heap := [0, 1] } : State).heap.map
          fun m => (keyOf { fullArena with heap := [0, 1] } m).toNat).sum ≤ 2 ^ 32 - 1) := by
  decide +kernel

theorem counted_total : totalFreq counted = 5 ∧ usedBytes counted = [0x41#8, 0x42#8, 0x52#8] := by decide +kernel

theorem reset_total : totalFreq State.reset = 0 ∧ usedBytes State.reset = [] := by
  constructor <;> simp [totalFreq, usedBytes, freqAt, State.reset]

/-- Three used byte values; none; and frequencies whose sum is exactly 2^32 - 1. -/
theorem witness_LoadThenBuildMakesTheTree :
    (totalFreq counted ≤ 2 ^ 32 - 1 ∧ 1 ≤ (usedBytes counted).length)
    ∧ (totalFreq State.reset ≤ 2 ^ 32 - 1 ∧ (usedBytes State.reset).length = 0)
    ∧ totalFreq (setFreq 0#8 0xFFFFFFFF#32 State.reset) = 2 ^ 32 - 1 := by
  rw [counted_total.1, counted_total.2, reset_total.1, reset_total.2]
  exact ⟨by decide, by decide, by decide +kernel⟩

/-- The same state, and another tree over its leaves. -/
theorem witness_LoadThenBuildIsOptimal :
    totalFreq counted ≤ 2 ^ 32 - 1 ∧ 1 ≤ (usedBytes counted).length
    ∧ (CodeTree.node (.node (.leaf 0x41) (.leaf 0x42)) (.leaf 0x52)).symbols.Perm (usedBytes counted) := by
  rw [counted_total.1, counted_total.2]
  decide

/-- The tree of TB-5, and the empty tree. -/
theorem witness_CgGenerateAssignsTreePaths :
    (built.root ≠ 0x1FF#9 ∧ HoldsTree built.nodes built.root aabraTree)
    ∧ ((aabraTree.codes.map Prod.fst).Nodup ∧ ∀ c ∈ aabraTree.codes, c.2.length ≤ 32) ∧ State.reset.root = 0x1FF#9 :=
  ⟨built_holds, by decide, rfl⟩

/-- A left spine of `n` internal nodes over leaf `n`. -/
def spine : Nat → CodeTree
  | 0 => .leaf 0
  | n + 1 => .node (spine n) (.leaf (BitVec.ofNat 8 (n + 1)))

/-- An arena that holds `spine n`: leaf 0, then for each level its right leaf and its internal node. -/
def spineNodes : Nat → List Node
  | 0 => [leafNode 0 0]
  | n + 1 => spineNodes n ++ [leafNode (BitVec.ofNat 8 (n + 1)) 0,
      internalNode 0 (BitVec.ofNat 9 (2 * n)) (BitVec.ofNat 9 (2 * n + 1))]

/-- The tree at index `i` that an arena holds, looking `fuel` levels down. -/
def treeAt (nodes : List Node) : Nat → NodeIdx → Option CodeTree
  | 0, _ => none
  | fuel + 1, i =>
    match nodes[i.toNat]? with
    | none => none
    | some n =>
      if n.leaf then some (.leaf n.sym)
      else
        match treeAt nodes fuel n.left, treeAt nodes fuel n.right with
        | some l, some r => some (.node l r)
        | _, _ => none

theorem treeAt_holds (nodes : List Node) : ∀ (fuel : Nat) (i : NodeIdx) (T : CodeTree),
    treeAt nodes fuel i = some T → HoldsTree nodes i T
  | 0, _, _, h => by simp [treeAt] at h
  | fuel + 1, i, T, h => by
    rw [treeAt] at h
    split at h
    · cases h
    · rename_i n hn
      split at h
      · rename_i hl; cases h; exact .leaf i n hn hl
      · rename_i hl
        split at h
        · rename_i l r h1 h2
          cases h
          exact .node i n l r hn (by simpa using hl) (treeAt_holds nodes fuel _ l h1) (treeAt_holds nodes fuel _ r h2)
        · cases h

/-- A leaf of depth 33, first in pre-order; and a symbol that already has a code. -/
theorem witness_CgGenerateStopsAtFirstBadLeaf :
    (HoldsTree (spineNodes 33) 66 (spine 33)
      ∧ (spine 33).codes = [] ++ (0#8, List.replicate 33 false) :: (spine 33).codes.tail
      ∧ 32 < (List.replicate 33 false).length ∧ (List.replicate 33 false).length ≤ 510)
    ∧ (twice.root ≠ 0x1FF#9 ∧ HoldsTree twice.nodes twice.root (.node (.leaf 0x41) (.leaf 0x41))
      ∧ (CodeTree.node (.leaf 0x41) (.leaf 0x41)).codes = [(0x41#8, [false])] ++ (0x41#8, [true]) :: []
      ∧ ([(0x41#8, [false])].map Prod.fst).Nodup ∧ 0x41#8 ∈ [(0x41#8, [false])].map Prod.fst) :=
  ⟨⟨treeAt_holds _ 40 _ _ (by decide +kernel), by decide +kernel, by decide, by decide⟩,
    ⟨by decide, treeAt_holds _ 5 _ _ (by decide +kernel), by decide, by decide, by decide⟩⟩

/-- CG-1 ends without error, with codes of lengths 1 and 2. -/
theorem witness_CodesArePrefixFree :
    (built.root ≠ 0x1FF#9 ∧ HoldsTree built.nodes built.root aabraTree) ∧ built.err = false
    ∧ ∃ t, exec .cgGenerate built = .next t
      ∧ (t.err, decide (lenAt t 0x41 ≠ 0#6), decide (lenAt t 0x41 ≤ lenAt t 0x42)) = (false, true, true) :=
  ⟨built_holds, rfl, seen_some (by decide +kernel)⟩

theorem witness_TsMeasureCountsTheSerializedTree :
    (built.root ≠ 0x1FF#9 ∧ HoldsTree built.nodes built.root aabraTree) ∧ State.reset.root = 0x1FF#9 :=
  ⟨built_holds, rfl⟩

theorem witness_HeaderCommandsEmitTwoBytes :
    built.outRoom = none
    ∧ (0x2008#16 = ({ built with pad := 1, treeSize := 8 } : State).pad.setWidth 16 <<< 13
      ||| ({ built with pad := 1, treeSize := 8 } : State).treeSize.setWidth 16) := ⟨rfl, by decide⟩

theorem witness_TsWriteTreeEmitsTheTree :
    (built.root ≠ 0x1FF#9 ∧ HoldsTree built.nodes built.root aabraTree) ∧ built.outRoom = none
    ∧ State.reset.root = 0x1FF#9 := ⟨built_holds, rfl, rfl⟩

/-- Two bytes, none, and one. -/
theorem witness_TdReadHeaderReadsTwoBytes :
    ((withIn [0x20, 0x08] State.reset).inSeq = 0x20 :: 0x08 :: [] ∧ 2 ≤ (withIn [0x20, 0x08] State.reset).inRem.toNat)
    ∧ State.reset.inRem = 0#32
    ∧ ((withIn [0x20] State.reset).inSeq = [0x20] ∧ (withIn [0x20] State.reset).inRem = 1#32) := by decide +kernel

theorem aabra_reads : ReadsAs [0x30, 0x30, 0x31, 0x42, 0x31, 0x52, 0x31, 0x41] aabraTree :=
  .node [0x30, 0x31, 0x42, 0x31, 0x52] [0x31, 0x41] _ _
    (.node [0x31, 0x42] [0x31, 0x52] _ _ (.plain 0x42 (by decide)) (.plain 0x52 (by decide))) (.plain 0x41 (by decide))

theorem witness_TdReadTreeRebuildsTheTree :
    ReadsAs [0x30, 0x30, 0x31, 0x42, 0x31, 0x52, 0x31, 0x41] aabraTree ∧ aabraTree.leafCount ≤ 256
    ∧ treeStream.inSeq = [0x30, 0x30, 0x31, 0x42, 0x31, 0x52, 0x31, 0x41] ++ [0xC6]
    ∧ treeStream.inSeq.length ≤ treeStream.inRem.toNat ∧ treeStream.treeSize.toNat = 8 :=
  ⟨aabra_reads, by decide, rfl, by decide, by decide⟩

/-- `k` internal nodes pending, no left subtree complete. -/
theorem pending_lefts : ∀ k ≤ 255, PendingAfter (List.replicate k 0x30#8) (List.replicate k none) []
  | 0, _ => .start
  | k + 1, h => by
    rw [List.replicate_succ' (n := k) (a := 0x30#8)]
    exact .left _ _ _ (pending_lefts k (by omega)) (by rw [List.length_replicate]; omega)

/-- `k` more internal nodes pending, each with a leaf A at its left. -/
theorem pending_rights {bs : List Byte} {fs : List (Option NodeIdx)} {ns : List Node} (h : PendingAfter bs fs ns) :
    ∀ k, fs.length + k ≤ 255 → ns.length + k ≤ 511 →
    PendingAfter (bs ++ (List.replicate k [0x30#8, 0x31#8, 0x41#8]).flatten)
      ((List.range k).reverse.map (fun j => some (BitVec.ofNat 9 (ns.length + j))) ++ fs)
      (ns ++ List.replicate k (leafNode 0x41#8 0))
  | 0, _, _ => by simpa using h
  | k + 1, hd, hn => by
    have := PendingAfter.right _ [0x31#8, 0x41#8] _ _ (.leaf 0x41#8) (pending_rights h k (by omega) (by omega))
      (.plain _ (by decide))
      (by
        show (_ ++ fs).length + 1 + 0 ≤ 255
        rw [List.length_append, List.length_map, List.length_reverse, List.length_range]; omega)
      (by simp only [CodeTree.leafCount, List.length_append, List.length_replicate]; omega)
    rw [List.replicate_succ' (n := k), List.replicate_succ' (n := k), List.flatten_append, List.range_succ,
      List.reverse_append, ← List.append_assoc, ← List.append_assoc]
    simpa [CodeTree.leafCount, CodeTree.entries, leafNode] using this

/-- A tag 0x30 and a left subtree of three leaves; then a tag 0x30; then 253 internal nodes with a leaf at the left: with a
leaf that completes them the arena would hold 512 nodes. -/
def crowded : List Byte :=
  ([] ++ 0x30#8 :: [0x30, 0x30, 0x31, 0x42, 0x31, 0x52, 0x31, 0x41]) ++ [0x30#8]
    ++ (List.replicate 253 [0x30#8, 0x31#8, 0x41#8]).flatten

/-- The nodes pending after `crowded`. -/
def crowdedPending : List (Option NodeIdx) :=
  (List.range 253).reverse.map (fun j => some (BitVec.ofNat 9 (5 + j))) ++ [none, some 4#9]

/-- The arena after `crowded`. -/
def crowdedNodes : List Node := aabraTree.entries 0 ++ List.replicate 253 (leafNode 0x41#8 0)

theorem crowded_pending : PendingAfter crowded crowdedPending crowdedNodes :=
  pending_rights (.left _ _ _ (.right _ _ _ _ aabraTree .start aabra_reads (by decide) (by decide)) (by decide)) 253
    (by decide) (by decide)

/-- TREE_SIZE 0; an empty stream; a first byte that is no tag, just above 31; and a tree one byte too short, vector TD-14's,
whose three nodes the arena holds as the two leaves and the root. -/
theorem witness_TdReadTreeEndCases :
    State.reset.treeSize = 0#13
    ∧ (({ State.reset with treeSize := 1 } : State).treeSize ≠ 0#13 ∧ State.reset.inRem = 0#32)
    ∧ ((withIn [0x32] State.reset).inRem ≠ 0#32 ∧ (0x32#8 : Byte) ≠ 0x30#8 ∧ (0x32#8 : Byte) ≠ 0x31#8)
    ∧ (ReadsAs [0x30, 0x31, 0x41, 0x31, 0x42] (.node (.leaf 0x41) (.leaf 0x42))
      ∧ (withIn [0x30, 0x31, 0x41, 0x31, 0x42, 0x00] State.reset).inSeq = [0x30, 0x31, 0x41, 0x31, 0x42] ++ [0x00]
      ∧ [0x30#8, 0x31#8, 0x41#8, 0x31#8, 0x42#8].length < ({ State.reset with treeSize := 6 } : State).treeSize.toNat
      ∧ (CodeTree.node (.leaf 0x41) (.leaf 0x42)).entries 0
        = [leafNode 0x41#8 0, leafNode 0x42#8 0, internalNode 0 0 1]) :=
  ⟨rfl, ⟨by decide, rfl⟩, ⟨by decide, by decide, by decide⟩,
    .node [0x31, 0x41] [0x31, 0x42] _ _ (.plain 0x41 (by decide)) (.plain 0x42 (by decide)), rfl, by decide, rfl⟩

/-- Inside a tree: a tag, a leaf's value and an escaped value that the stream or TREE_SIZE leaves out; and a byte that is no
tag after a whole left subtree. -/
theorem witness_TdReadTreeEndCases_inside :
    (PendingAfter [0x30#8] [none] [] ∧ ∀ part ∈ [[], [0x31#8], [0x31#8, 0x5C#8]],
      (withIn ([0x30] ++ part) State.reset).inRem.toNat = 1 + part.length
      ∧ 1 + part.length < (({ State.reset with treeSize := 4 } : State).treeSize).toNat
      ∧ (BitVec.ofNat 13 (1 + part.length) ≠ 0#13 ∧ 1 + part.length = (BitVec.ofNat 13 (1 + part.length)).toNat))
    ∧ (PendingAfter [0x30#8, 0x31#8, 0x41#8] [some 0#9] [leafNode 0x41#8 0]
      ∧ (withIn [0x30, 0x31, 0x41, 0x32] State.reset).inSeq = [0x30, 0x31, 0x41] ++ 0x32#8 :: []) :=
  ⟨⟨.left [] [] [] .start (by decide), by decide⟩,
    .right [] [0x31#8, 0x41#8] [] [] (.leaf 0x41#8) .start (.plain _ (by decide)) (by decide) (by decide), rfl⟩

/-- Inside a tree: a 256th pending internal node, and a 512th node. -/
theorem witness_TdReadTreeEndCases_tooLarge :
    (PendingAfter (List.replicate 255 0x30#8) (List.replicate 255 none) []
      ∧ (withIn (List.replicate 256 0x30) State.reset).inSeq = List.replicate 255 0x30#8 ++ 0x30#8 :: []
      ∧ (withIn (List.replicate 256 0x30) State.reset).inSeq.length
        ≤ (withIn (List.replicate 256 0x30) State.reset).inRem.toNat)
    ∧ (PendingAfter crowded crowdedPending crowdedNodes ∧ ReadsAs [0x31#8, 0x41#8] (.leaf 0x41#8)
      ∧ (withIn (crowded ++ [0x31, 0x41]) State.reset).inSeq.length
        ≤ (withIn (crowded ++ [0x31, 0x41]) State.reset).inRem.toNat
      ∧ crowded.length + 2 ≤ 8191
      ∧ (crowdedNodes ++ (CodeTree.leaf 0x41).entries crowdedNodes.length
        ++ completedBy crowdedNodes.length crowdedPending).length = 512) :=
  ⟨⟨pending_lefts 255 (by decide), by decide +kernel, by decide +kernel⟩, crowded_pending, .plain _ (by decide),
    by decide +kernel, by decide +kernel, by decide +kernel⟩

theorem witness_TdReadTreeErrorLeavesNoTree :
    treeStream.err = false ∧ ∃ t, exec .tdReadTree { treeStream with treeSize := 9 } = .next t ∧ t.err = true :=
  ⟨rfl, seen_some (by decide +kernel)⟩

/-- An accumulator with room for two bits, and with room for one. -/
theorem witness_BpAddBitAppendsTheBit :
    State.reset.outRoom = none ∧ ({ State.reset with cnt := 6 } : State).cnt ≠ 7#3
    ∧ ({ State.reset with cnt := 7 } : State).cnt = 7#3 := ⟨rfl, by decide, rfl⟩

theorem witness_BpFlushPadsToAByte :
    State.reset.outRoom = none ∧ State.reset.cnt = 0#3 ∧ ({ State.reset with acc := 1, cnt := 1 } : State).cnt ≠ 0#3 :=
  ⟨rfl, rfl, by decide⟩

theorem witness_BpEncodeByteAppendsTheCode :
    lenAt coded 0x58 = 0#6 ∧ lenAt coded 0x42 ≠ 0#6 ∧ coded.outRoom = none := by decide +kernel

theorem witness_BpEncodeStreamAppendsTheCodes :
    HostKeepsDuties (withIn [0x41, 0x52] coded) ∧ ∀ b ∈ (withIn [0x41, 0x52] coded).inSeq,
      lenAt (withIn [0x41, 0x52] coded) b ≠ 0#6 := ⟨⟨by decide, rfl⟩, by decide +kernel⟩

theorem witness_BpEncodeStreamStopsAtNoCode :
    (withIn [0x41, 0x58, 0x41] coded).inSeq = [0x41] ++ 0x58 :: [0x41]
    ∧ (withIn [0x41, 0x58, 0x41] coded).inSeq.length ≤ (withIn [0x41, 0x58, 0x41] coded).inRem.toNat
    ∧ coded.outRoom = none ∧ (∀ p ∈ [0x41#8], lenAt coded p ≠ 0#6) ∧ lenAt coded 0x58 = 0#6 := by decide +kernel

/-- The empty tree; a single leaf; an internal root above a leaf and above an internal node. -/
theorem witness_BuBitDescends :
    State.reset.root = 0x1FF#9
    ∧ (single.root ≠ 0x1FF#9 ∧ single.nodes[single.root.toNat]? = some (leafNode 0x41 1000)
      ∧ (leafNode 0x41 1000).leaf = true)
    ∧ (built.nodes[built.root.toNat]? = some (internalNode 5 3 0)
      ∧ built.nodes[built.buCur.toNat]? = some (internalNode 5 3 0)
      ∧ built.nodes[(internalNode 5 3 0).left.toNat]? = some (internalNode 2 1 2)
      ∧ built.nodes[(internalNode 5 3 0).right.toNat]? = some (leafNode 0x41 3)) := by decide +kernel

/-- The payload of AABRA, PAD 1. -/
theorem witness_BuDecodeStreamInvertsTheCode :
    (built.root ≠ 0x1FF#9 ∧ HoldsTree built.nodes built.root aabraTree)
    ∧ HostKeepsDuties (withIn [0xC6] { built with pad := 1 }) ∧ (withIn [0xC6] built).inRem ≠ 0#32
    ∧ (∀ c ∈ [(0x41#8, [true]), (0x41#8, [true]), (0x42#8, [false, false]), (0x52#8, [false, true]), (0x41#8, [true])],
      c ∈ aabraTree.codes)
    ∧ (bitsOf [0xC6]).take (8 * 1 - (1#3).toNat)
      = [(0x41#8, [true]), (0x41#8, [true]), (0x42#8, [false, false]), (0x52#8, [false, true]), (0x41#8, [true])].flatMap
          Prod.snd := ⟨built_holds, ⟨by decide, rfl⟩, by decide, by decide, by decide⟩

/-- The five cases of the first byte. -/
theorem witness_BuDecodeStreamEndCases :
    (State.reset.inRem = 0#32 ∧ ({ State.reset with pad := 1 } : State).pad ≠ 0#3)
    ∧ (State.reset.pad = 0#3 ∧ State.reset.root = 0x1FF#9) ∧ (withIn [0x55] State.reset).inRem ≠ 0#32
    ∧ (single.inRem = 0#32 ∧ single.pad = 0#3 ∧ single.root ≠ 0x1FF#9)
    ∧ ((withIn [0x80] single).inSeq = 0x80 :: [] ∧ (0x80#8).getLsbD 7 = true
      ∧ single.nodes[single.root.toNat]? = some (leafNode 0x41 1000)) := by decide +kernel

/-- BU-8's bad bit at position 10; and a payload of two bits, the code of 'A' and the first bit of that of 'B'. -/
theorem witness_BuDecodeStreamEndCases_later :
    (bitsOf [0x00, 0x20] = List.replicate 10 false ++ true :: List.replicate 5 false
      ∧ 10 + (withIn [0x00, 0x20] single).pad.toNat < 8 * (withIn [0x00, 0x20] single).inRem.toNat)
    ∧ HostKeepsDuties (withIn [0x80] { built with pad := 6 })
    ∧ ((0x41#8, [true]) ∈ aabraTree.codes ∧ (0x42#8, [false, false]) ∈ aabraTree.codes
      ∧ [false] <+: [false, false] ∧ [false] ≠ [false, false]
      ∧ (bitsOf [0x80]).take (8 * 1 - (6#3).toNat) = [(0x41#8, [true])].flatMap Prod.snd ++ [false]) :=
  ⟨by decide +kernel, ⟨by decide, rfl⟩, by decide⟩

theorem counted_freq (b : Byte) : lenAt counted b = 0#6 ∧ codeAt counted b = 0#32 := by
  constructor <;> simp [lenAt, codeAt, counted, setFreq, State.reset]

/-- A state other than reset that meets every invariant: the tree of TB-5, a command in progress that has put out some of
its bytes. -/
theorem waiting_inv (w : Word) (acts : List Input) (room : Option Nat) (out : List Byte)
    (h : out <+: runningOut { built with
      busy := true, cmdWord := w, inputs := acts, buCur := 3, outRoom := room, waitOut := out }) :
    Inv { built with busy := true, cmdWord := w, inputs := acts, buCur := 3, outRoom := room, waitOut := out } where
  nodeCount_le := show 5 ≤ 511 by decide
  heapSize_le := show 0 ≤ 256 by decide
  heap_allocated := fun n h => nomatch h
  root_allocated := .inr (show 4 < 5 by decide)
  cursor_allocated := .inr (show 3 < 5 by decide)
  children_below := by
    intro i n hn hl
    have hi : i < 5 := (List.getElem?_eq_some_iff.1 hn).1
    interval_cases i <;> cases hn <;> first | (cases hl; done) | exact ⟨by decide, by decide⟩
  leaf_links := by
    intro n hn hl
    fin_cases hn <;> first | (cases hl; done) | exact ⟨rfl, rfl⟩
  cursor_nil := show (3#9 = Config.nil ↔ 4#9 = Config.nil) by decide
  cursor_leaf := by
    intro n hn hl
    cases hn
    cases hl
  cursor_internal := fun n hn hl =>
    ⟨.left 4 (internalNode 5 3 0) .root rfl rfl, internalNode 2 1 2, rfl, rfl⟩
  acc_fits := show 0 < 1 by decide
  heap_ordered := fun i _ h => nomatch h
  codes_fit := fun b => by
    have h := counted_freq b
    show (lenAt counted b).toNat ≤ 32 ∧ (codeAt counted b).toNat < 2 ^ (lenAt counted b).toNat
    rw [h.1, h.2]; decide
  no_error_record := fun _ => ⟨rfl, rfl, rfl⟩
  not_busy_and_err := fun _ => rfl
  supplied_within := Nat.le_refl 0
  stack_empty := rfl
  idle_clear := fun h => nomatch h
  waiting_out := fun _ => h

/-- The same with nothing out. -/
theorem witness_Inv (w : Word) (acts : List Input) :
    Inv { built with busy := true, cmdWord := w, inputs := acts, buCur := 3 } :=
  waiting_inv w acts none [] List.nil_prefix

/-- The engine's turn, from a state that meets the invariants. -/
theorem witness_EveryStepKeepsTheInvariants :
    Inv { built with busy := true, cmdWord := 0x71000000, inputs := [.engine], buCur := 3 }
    ∧ ∃ t, step { built with busy := true, cmdWord := 0x71000000, inputs := [.engine], buCur := 3 } = .next t
      ∧ t.outSeq = [0x42] := ⟨witness_Inv _ _, seen_some (by decide +kernel)⟩

theorem witness_EveryNodeHoldsATree :
    Inv { built with busy := true, cmdWord := 0, inputs := [], buCur := 3 } ∧ (4#9).toNat < nodeCount built :=
  ⟨witness_Inv _ _, by decide⟩

/-- The engine next, and no act left. -/
theorem witness_EveryCommandCompletes :
    (Inv { built with busy := true, cmdWord := 0x72000000, inputs := [.engine], buCur := 3 }
      ∧ HostKeepsDuties { built with busy := true, cmdWord := 0x72000000, inputs := [.engine], buCur := 3 })
    ∧ Inv { built with busy := true, cmdWord := 0x72000000, inputs := [], buCur := 3 } :=
  ⟨⟨witness_Inv _ _, rfl, rfl⟩, witness_Inv _ _⟩

/-- A host that accepts no byte; a stream whose second byte is not supplied. -/
theorem witness_WaitingChangesNothing :
    (∃ t, exec (.tsWriteHeaderImm 0) { running 0x43000000 [] with outRoom := some 0 } = .next t ∧ t.busy = true)
    ∧ (({ withIn [0x41] coded with inRem := 2, busy := true } : State).outRoom = none
      ∧ ({ withIn [0x41] coded with inRem := 2 } : State).inSeq.length < 2 ∧ ∀ b ∈ [0x41#8], lenAt coded b ≠ 0#6) :=
  ⟨seen_some (by decide +kernel), rfl, by decide, by decide +kernel⟩

/-- The two bytes of a header (TS-9), with room for one and for both of them: `n` just below their number, and equal to
it. -/
theorem witness_WaitingChangesNothing_room :
    (∀ n ∈ [1, 2], ({ running 0x4300A003 [] with outRoom := some n } : State).busy = true)
    ∧ (∃ u, exec (.tsWriteHeaderImm 0xA003#16) (running 0x4300A003 []) = .next u
      ∧ (u.busy, u.outSeq) = (false, [0xA0#8, 0x03#8]))
    ∧ (running 0x4300A003 [.outReady (some 1)]).inputs = [.outReady (some 1)] :=
  ⟨by decide, seen_some (by decide +kernel), rfl⟩

/-- R59: with room for one byte of the header the first is out and the command waits. -/
theorem test_emit_waits :
    seen (exec (.tsWriteHeaderImm 0xA003#16) { running 0x4300A003 [] with outRoom := some 1 })
      (fun s => (s.busy, s.outSeq, s.waitOut)) = some (true, [], [0xA0#8]) := by decide +kernel

/-- A command that raises. -/
theorem witness_CommandsKeepResultOnErrorAndFreq :
    built.err = false ∧ ∃ t, exec .pqRemoveMin built = .next t ∧ t.err = true := ⟨rfl, seen_some (by decide +kernel)⟩

/-- A command that none of the lists names. -/
theorem witness_OnlyTheNamedCommandsWrite :
    (∃ t, exec .nop built = .next t ∧ t.result = 0)
    ∧ Instr.nop.mnemonic ∉ ["TB_CLEAR", "BP_RESET", "PQ_CLEAR", "TS_PAD", "BU_BIT", "TD_READ_TREE"] :=
  ⟨seen_some (by decide +kernel), by decide⟩

/-- BU_BIT at a root above a leaf; and a header command that waits with its first byte out while more room comes. -/
theorem witness_OutputIsOnlyAppended :
    (∃ t, step { built with busy := true, cmdWord := 0x71000001, inputs := [.engine] } = .next t ∧ t.outSeq = [0x41])
    ∧ Inv { built with
        busy := true, cmdWord := 0x43002008, inputs := [.outReady none], buCur := 3, outRoom := some 1, waitOut := [0x20] } :=
  ⟨seen_some (by decide +kernel), waiting_inv _ _ _ _ (by decide +kernel)⟩

end Sys2Proof.Machine
end

section
/-! SUPPORT. What each command may write: its fields in one table, held to its pseudocode (10_state R26 to R49), and the
statements that are read off the table. -/

namespace Sys2Proof.Machine

/-! ### What a command may write -/

/-- The pseudocode of each command. -/
def runOf : Instr → State → Run Unit
  | .nop => runNop
  | .pqClear => runPqClear
  | .pqInsert n => runPqInsert n
  | .pqRemoveMin => runPqRemoveMin
  | .tbClear => runTbClear
  | .tbNewLeaf sym => runTbNewLeaf sym
  | .tbLoadLeaves => runTbLoadLeaves
  | .tbMerge => runTbMerge
  | .tbBuild => runTbBuild
  | .cgGenerate => runCgGenerate
  | .tsMeasure => runTsMeasure
  | .tsPad => runTsPad
  | .tsWriteHeader => runTsWriteHeader
  | .tsWriteHeaderImm h => runTsWriteHeaderImm h
  | .tsWriteTree => runTsWriteTree
  | .tdReadHeader => runTdReadHeader
  | .tdReadTree => runTdReadTree
  | .bpReset => runBpReset
  | .bpAddBit x => runBpAddBit x
  | .bpFlush => runBpFlush
  | .bpEncodeByte sym => runBpEncodeByte sym
  | .bpEncodeStream => runBpEncodeStream
  | .buReset => runBuReset
  | .buBit x => runBuBit x
  | .buDecodeStream => runBuDecodeStream

theorem exec_eq_finish (i : Instr) (s : State) : exec i s = finish s (runOf i s) := by
  cases i <;> rfl

/-- The fields that each command's pseudocode may have changed from `s` to `t`, wherever it stops (40_control to
47_bit_unpacker). -/
def Writes : Instr → State → State → Prop
  | .nop, s, t => t = s
  | .pqClear, s, t | .pqInsert _, s, t => t = { s with heap := t.heap }
  | .pqRemoveMin, s, t => t = { s with heap := t.heap, result := t.result }
  | .tbClear, s, t => t = { s with nodes := t.nodes, heap := t.heap, root := t.root, buCur := t.buCur }
  | .tbNewLeaf _, s, t => t = { s with nodes := t.nodes, result := t.result }
  | .tbMerge, s, t => t = { s with nodes := t.nodes, heap := t.heap, result := t.result }
  | .tbLoadLeaves, s, t | .tbBuild, s, t =>
    t = { s with nodes := t.nodes, heap := t.heap, root := t.root, buCur := t.buCur, result := t.result }
  | .cgGenerate, s, t => t = { s with code := t.code, len := t.len, result := t.result }
  | .tsMeasure, s, t => t = { s with treeSize := t.treeSize, result := t.result }
  | .tsPad, s, t => t = { s with totalBits := t.totalBits, pad := t.pad, result := t.result }
  | .tsWriteHeader, s, t | .tsWriteHeaderImm _, s, t =>
    t = { s with outSeq := t.outSeq, outCount := t.outCount, outRoom := t.outRoom }
  | .tsWriteTree, s, t =>
    t = { s with outSeq := t.outSeq, outCount := t.outCount, outRoom := t.outRoom, result := t.result }
  | .tdReadHeader, s, t => t = { s with
      inSeq := t.inSeq, inRem := t.inRem, pad := t.pad, treeSize := t.treeSize, result := t.result }
  | .tdReadTree, s, t => t = { s with
      nodes := t.nodes, heap := t.heap, root := t.root, buCur := t.buCur, result := t.result, dstack := t.dstack
      inSeq := t.inSeq, inRem := t.inRem }
  | .bpReset, s, t => t = { s with acc := t.acc, cnt := t.cnt }
  | .bpAddBit _, s, t | .bpFlush, s, t | .bpEncodeByte _, s, t => t = { s with
      acc := t.acc, cnt := t.cnt, outSeq := t.outSeq, outCount := t.outCount, outRoom := t.outRoom }
  | .bpEncodeStream, s, t => t = { s with
      acc := t.acc, cnt := t.cnt, outSeq := t.outSeq, outCount := t.outCount, outRoom := t.outRoom
      inSeq := t.inSeq, inRem := t.inRem, result := t.result }
  | .buReset, s, t => t = { s with buCur := t.buCur }
  | .buBit _, s, t => t = { s with
      buCur := t.buCur, outSeq := t.outSeq, outCount := t.outCount, outRoom := t.outRoom, result := t.result }
  | .buDecodeStream, s, t => t = { s with
      buCur := t.buCur, outSeq := t.outSeq, outCount := t.outCount, outRoom := t.outRoom
      inSeq := t.inSeq, inRem := t.inRem, result := t.result }

theorem Writes.refl (i : Instr) (s : State) : Writes i s s := by cases i <;> rfl

/-- The fields that no command writes: the flags and the error record, FREQ and the host's indices, and what is the
host's or the platform's. -/
theorem Writes.frame {i : Instr} {s t : State} (h : Writes i s t) : t = { s with
    result := t.result, root := t.root, pad := t.pad, treeSize := t.treeSize, totalBits := t.totalBits, acc := t.acc
    cnt := t.cnt, buCur := t.buCur, outCount := t.outCount, inRem := t.inRem, code := t.code, len := t.len
    nodes := t.nodes, heap := t.heap, dstack := t.dstack, inSeq := t.inSeq, outSeq := t.outSeq
    outRoom := t.outRoom } := by
  cases i <;> (simp only [Writes] at h; rw [h])

/-- TD_READ_TREE alone uses the deserializer's stack (10_state R48). -/
theorem Writes.dstack {i : Instr} {s t : State} (h : Writes i s t) (hi : i ≠ .tdReadTree) : t.dstack = s.dstack := by
  cases i
  case tdReadTree => exact absurd rfl hi
  all_goals (simp only [Writes] at h; rw [h])

/-- A raise before anything was written. -/
theorem writes_of_eq (i : Instr) {s t : State} (h : t = s) : Writes i s t ∧ t.result = s.result :=
  h ▸ ⟨.refl i t, rfl⟩

/-- Weakening, where nothing is asked of a wait or a stop. -/
theorem Run.Sat.ends {α : Type} {Q Q' : α → State → Prop} {E E' : ErrKind → Word → State → Prop} {W : State → Prop}
    {F : Prop} {r : Run α} (h : r.Sat Q E W F) (hQ : ∀ a t, Q a t → Q' a t) (hE : ∀ e arg t, E e arg t → E' e arg t) :
    r.Sat Q' E' (fun _ => True) True :=
  h.mono hQ hE (fun _ _ => trivial) fun _ => trivial

/-- Each command writes only its fields, and a raise comes before RESULT is written (60_exceptions R136). -/
theorem runOf_writes (i : Instr) (s : State) :
    (runOf i s).Sat (fun _ t => Writes i s t) (fun _ _ t => Writes i s t ∧ t.result = s.result) (fun _ => True) True := by
  cases i with
  | nop | pqClear | tbClear | tsPad | bpReset | buReset => exact rfl
  | pqInsert n =>
    refine (runPqInsert_sat n s).ends ?_ fun _ _ t h => writes_of_eq _ h.2
    rintro _ t ⟨-, -, rfl⟩; rfl
  | pqRemoveMin =>
    refine (runPqRemoveMin_sat s).ends ?_ fun _ _ t h => writes_of_eq _ h.2
    rintro _ t ⟨-, rfl⟩; rfl
  | tbNewLeaf sym =>
    refine (runTbNewLeaf_sat sym s).ends ?_ fun _ _ t h => writes_of_eq _ h.2
    rintro _ t ⟨-, rfl⟩; rfl
  | tbLoadLeaves =>
    obtain ⟨t, hr, ht, -⟩ := runTbLoadLeaves_done s
    simp only [runOf, hr, sat_done, Writes]
    rw [ht]
  | tbMerge =>
    exact (runTbMerge_frame s).ends (fun _ _ h => h) fun _ _ t h => ⟨by simp only [Writes]; rw [h], by rw [h]⟩
  | tbBuild =>
    exact (runTbBuild_frame s).ends (fun _ _ h => h) fun _ _ t h => ⟨by simp only [Writes]; rw [h], by rw [h]⟩
  | cgGenerate =>
    exact (runCgGenerate_frame s).ends (fun _ _ h => h) fun _ _ t h => ⟨by simp only [Writes]; rw [h], by rw [h]⟩
  | tsMeasure => exact (runTsMeasure_sat s).ends (fun _ _ h => h) fun _ _ t h => writes_of_eq _ h.2
  | tsWriteHeader | tsWriteHeaderImm h =>
    exact (emitAll_waiting _ s).ends (fun _ _ h => h.1) fun _ _ _ h => h.elim
  | tsWriteTree => exact (runTsWriteTree_sat s).ends (fun _ _ h => h.1) fun _ _ t h => writes_of_eq _ h.2
  | tdReadHeader =>
    refine (runTdReadHeader_sat s).ends (fun _ _ h => h.1) ?_
    rintro _ _ t ⟨-, ht, -⟩
    exact ⟨by simp only [Writes]; rw [ht], by rw [ht]⟩
  | tdReadTree =>
    refine (runTdReadTree_sat s).ends ?_ ?_
    · rintro _ t ⟨ht, -⟩
      simp only [Writes]; rw [ht]
    · rintro _ _ t ⟨-, ht, -⟩
      exact ⟨by simp only [Writes]; rw [ht], by rw [ht]⟩
  | bpAddBit x => exact (addBit_bitsOut x s).ends (fun _ _ h => h.frame) fun _ _ _ h => h.elim
  | bpFlush => exact (runBpFlush_sat s).ends (fun _ _ h => h.1.frame) fun _ _ _ h => h.elim
  | bpEncodeByte sym => exact (encodeSym_bitsOut sym s).ends (fun _ _ h => h.frame) fun _ _ t h => writes_of_eq _ h.2
  | bpEncodeStream =>
    refine (runBpEncodeStream_sat s).ends ?_ fun _ _ t h => ⟨by simp only [Writes]; rw [h.2.frame], by rw [h.2.frame]⟩
    rintro _ t ⟨u, hu, ht⟩
    simp only [Writes]; rw [ht, hu.frame]
  | buBit x =>
    refine (runBuBit_sat x s).ends ?_ fun _ _ t h => writes_of_eq _ h.2
    rintro _ t ⟨u, hu, -, hi, hr, ht⟩
    simp only [Writes]; rw [ht, hu.frame, hi, hr]
  | buDecodeStream =>
    refine (runBuDecodeStream_frame s).ends (fun _ _ h => h.1) ?_
    rintro _ _ t ⟨ht, -⟩
    exact ⟨by simp only [Writes]; rw [ht], by rw [ht]⟩

/-- Every way a command can answer a next state, with what it may have changed (40_control R84). -/
theorem exec_ends {i : Instr} {s t : State} (h : exec i s = .next t) :
    (∃ u, Writes i s u ∧ t = completeCommand u)
    ∨ (∃ e arg u, (Writes i s u ∧ u.result = s.result) ∧ t = takeError e arg u)
    ∨ ∃ out, t = { s with waitOut := out } := by
  rw [exec_eq_finish] at h
  exact (finish_sat (runOf_writes i s) h).imp id (Or.imp id fun ⟨_, _, ht⟩ => ⟨_, ht⟩)

/-- Settles O58: the table of `Writes` names neither FREQ, OVR nor an index, and a raise comes before RESULT. -/
theorem commandsKeepResultOnErrorAndFreq : Obligations.CommandsKeepResultOnErrorAndFreq := by
  intro i s t h
  rcases exec_ends h with ⟨u, hu, rfl⟩ | ⟨e, arg, u, ⟨hu, hres⟩, rfl⟩ | ⟨out, rfl⟩
  · rw [hu.frame]
    exact ⟨fun h0 h1 => by simp [h0] at h1, rfl, rfl, rfl, rfl, rfl, rfl⟩
  · have hc : u.cmdWord = s.cmdWord := by rw [hu.frame]
    refine ⟨fun _ _ => ⟨hres, hc, rfl⟩, ?_⟩
    rw [hu.frame]
    exact ⟨rfl, rfl, rfl, rfl, rfl, rfl⟩
  · exact ⟨fun h0 h1 => by simp [h0] at h1, rfl, rfl, rfl, rfl, rfl, rfl⟩

/-- A command's next state is what its pseudocode wrote, but for the flags, the error record, the stack and the fields of
a command in progress. -/
theorem exec_writes {i : Instr} {s t : State} (h : exec i s = .next t) : ∃ u, Writes i s u ∧ t = { u with
    busy := t.busy, err := t.err, errCode := t.errCode, errCmd := t.errCmd, errArg := t.errArg, dstack := t.dstack
    cmdWord := t.cmdWord, waitOut := t.waitOut } := by
  rcases exec_ends h with ⟨u, hu, rfl⟩ | ⟨e, arg, u, ⟨hu, -⟩, rfl⟩ | ⟨out, rfl⟩
  · exact ⟨u, hu, rfl⟩
  · exact ⟨u, hu, rfl⟩
  · exact ⟨s, .refl i s, rfl⟩

/-- Settles O59: each list of the statement holds every command whose row of `Writes` names the register. -/
theorem onlyTheNamedCommandsWrite : Obligations.OnlyTheNamedCommandsWrite := by
  intro i s t h
  obtain ⟨u, hu, ht⟩ := exec_writes h
  rw [ht]
  clear ht h
  cases i
  all_goals
    simp only [Writes] at hu
    rw [hu]
    simp [Instr.mnemonic]

end Sys2Proof.Machine
end

section
/-! SUPPORT. The host's register accesses: what an access does at each offset, the words of the windows, and the
statements about registers and windows (10_state R20 to R43, 20_memory R54 to R67). -/

namespace Sys2Proof.Machine

/-! ### Register accesses -/

theorem step_input {s : State} {a : Input} {rest : List Input} (h : s.inputs = a :: rest) :
    step s = perform a { s with inputs := rest } := by
  rw [step, nextAct, h]

theorem regAt_offset (r : Reg) : regAt r.offset = some r := by cases r <;> rfl

theorem regAt_reserved {off : Nat} (h : ∀ r : Reg, r.offset ≠ off) : regAt off = none := by
  rw [regAt, List.find?_eq_none]
  exact fun r _ => by simpa using h r

theorem Reg.offset_lt (r : Reg) : r.offset < 0x100 := by cases r <;> decide

theorem Reg.offset_mod (r : Reg) : r.offset % 4 = 0 := by cases r <;> rfl

theorem offsetOf_base {s : State} {off : Nat} (h : off < 0x100) : offsetOf s (hcBase s + off) = some off := by
  have hr : hcBase s ≤ hcBase s + off ∧ hcBase s + off < hcBase s + Config.regSpan :=
    ⟨Nat.le_add_right _ _, Nat.add_lt_add_left h _⟩
  rw [offsetOf, if_pos hr, Nat.add_sub_cancel_left]

theorem offsetOf_elsewhere {s : State} {addr : Nat} (h : addr < hcBase s ∨ hcBase s + 0x100 ≤ addr) :
    offsetOf s addr = none := by
  have hr : ¬ (hcBase s ≤ addr ∧ addr < hcBase s + Config.regSpan) := by
    rw [Config.regSpan]; omega
  rw [offsetOf, if_neg hr]

/-- An aligned 32-bit read at rest hands over what the offset holds (20_memory R54, R55). -/
theorem busRead_aligned {s : State} {off : Nat} (h : off < 0x100) (h4 : off % 4 = 0) (hb : s.busy = false) :
    busRead 4 (hcBase s + off) s = { s with readData := readOffset off s } := by
  simp [busRead, offsetOf_base h, supportedAccess, h4, hb]

theorem not_supportedAccess {width off : Nat} (h : width ≠ 4 ∨ off % 4 ≠ 0) : supportedAccess width off = false := by
  simpa [supportedAccess, imp_iff_not_or] using h

theorem busRead_unsupported {s : State} {width off : Nat} (h : off < 0x100) (hu : width ≠ 4 ∨ off % 4 ≠ 0) :
    busRead width (hcBase s + off) s = readFree s := by
  simp [busRead, offsetOf_base h, not_supportedAccess hu]

theorem busWrite_aligned {s : State} {off : Nat} (v : Word) (h : off < 0x100) (h4 : off % 4 = 0) :
    busWrite 4 (hcBase s + off) v s = regWrite off v s := by
  simp [busWrite, offsetOf_base h, supportedAccess, h4]

theorem busWrite_unsupported {s : State} {width off : Nat} (v : Word) (h : off < 0x100) (hu : width ≠ 4 ∨ off % 4 ≠ 0) :
    busWrite width (hcBase s + off) v s = .next s := by
  simp [busWrite, offsetOf_base h, not_supportedAccess hu]

/-- A read at rest of a register's offset. -/
theorem busRead_reg (r : Reg) {s : State} (hb : s.busy = false) :
    busRead 4 (hcBase s + r.offset) s = { s with readData := readReg r s } := by
  rw [busRead_aligned r.offset_lt r.offset_mod hb, readOffset, regAt_offset]

/-- A write of a register that only stores: at rest, or ignored (10_state R20). -/
theorem regWrite_reg (r : Reg) (v : Word) (s : State) (hw : r.access ≠ .wo) (hb : s.busy = false ∨ r.access ≠ .rw) :
    regWrite r.offset v s = .next (writeReg r v s) := by
  rw [regWrite, regAt_offset]
  split
  next h => cases h
  next h => cases h; exact absurd rfl hw
  next h => cases h; exact absurd rfl hw
  next h =>
    cases h
    rw [if_neg]
    rcases hb with hb | hb <;> simp [hb]

/-- A RO register ignores writes (10_state R20). -/
theorem writeReg_ro {r : Reg} (v : Word) (s : State) (h : r.access ≠ .rw) : writeReg r v s = s := by
  cases r
  case inLen | freqIdx | freqData | codeIdx | nodeIdx | heapIdx => exact absurd rfl h
  all_goals rfl

theorem busWrite_reg (r : Reg) (v : Word) {s : State} (hw : r.access ≠ .wo) (hb : s.busy = false ∨ r.access ≠ .rw) :
    busWrite 4 (hcBase s + r.offset) v s = .next (writeReg r v s) := by
  rw [busWrite_aligned v r.offset_lt r.offset_mod, regWrite_reg r v s hw hb]

/-- Settles O10: the two tables are evaluated; a RO register is neither stored to nor has an action. -/
theorem registerMapAtReset : Obligations.RegisterMapAtReset := by
  refine ⟨rfl, rfl, fun r v s h => ?_, fun r s h => ?_⟩
  · have hr : r.access ≠ .wo ∧ r.access ≠ .rw := by rw [h]; decide
    rw [regWrite_reg r v s hr.1 (.inr hr.2), writeReg_ro v s hr.2]
  · cases r
    case ctrl | cmd => rfl
    all_goals cases h

theorem nodeLink_word (a b : NodeIdx) : (0#7 ++ a ++ 0#7 ++ b : Word) = (a.setWidth 32 <<< 16) ||| b.setWidth 32 := by
  have ha := a.isLt
  have hb := b.isLt
  apply BitVec.eq_of_toNat_eq
  rw [BitVec.toNat_append, BitVec.toNat_append, BitVec.toNat_append, BitVec.toNat_or, BitVec.toNat_shiftLeft,
    BitVec.toNat_setWidth, BitVec.toNat_setWidth]
  simp only [Nat.shiftLeft_eq, BitVec.toNat_ofNat, Nat.zero_mod, Nat.zero_mul, Nat.zero_or, Nat.or_zero]
  rw [Nat.mod_eq_of_lt (a := a.toNat) (by omega), Nat.mod_eq_of_lt (a := b.toNat) (by omega), Nat.mod_eq_of_lt (by omega),
    Nat.mul_assoc]

theorem heapEntry_word (n : NodeIdx) : (1#1 ++ 0#22 ++ n : Word) = 0x80000000#32 ||| n.setWidth 32 := by
  rw [BitVec.append_def]; rfl

theorem nodeInfo_word (leaf : Bool) (sym : Byte) : (1#1 ++ BitVec.ofBool leaf ++ 0#22 ++ sym : Word)
    = 0x80000000#32 ||| (if leaf then 0x40000000#32 else 0#32) ||| sym.setWidth 32 := by
  rw [BitVec.append_def]
  cases leaf <;> rfl

/-- Settles O15, by the accesses at FREQ_IDX's and FREQ_DATA's offsets. -/
theorem frequencyWindow : Obligations.FrequencyWindow := by
  refine ⟨rfl, fun s v hb => ⟨?_, ⟨writeFreqData v s, ?_, ?_, ?_, ?_, rfl⟩, ?_, ?_⟩⟩
  · rw [BitVec.setWidth_eq_extractLsb' (by decide)]
    exact busWrite_reg .freqIdx v (by decide) (.inl hb)
  · exact busWrite_reg .freqData v (by decide) (.inl hb)
  · exact freqAt_setFreq_self _ _ s
  · exact fun b hne => freqAt_setFreq_ne v s hne
  · exact BitVec.toNat_add _ _
  · exact busRead_reg .freqIdx hb
  · exact busRead_reg .freqData hb

theorem heapEntryWord_valid {s : State} (h : s.heapIdx.toNat < heapSize s) :
    heapEntryWord s = 0x80000000#32 ||| (slot s.heap s.heapIdx.toNat).setWidth 32 := by
  rw [heapEntryWord, List.getElem?_eq_getElem h, slot_eq_getElem h]
  exact heapEntry_word _

theorem heapEntryWord_beyond {s : State} (h : heapSize s ≤ s.heapIdx.toNat) : heapEntryWord s = 0#32 := by
  rw [heapEntryWord, List.getElem?_eq_none h]

/-- Settles O16, by the accesses at the windows' offsets and the two cases of HEAP_ENTRY. -/
theorem codeAndHeapWindows : Obligations.CodeAndHeapWindows := by
  refine ⟨rfl, rfl, fun s v hb => ⟨⟨?_, ?_, ?_, ?_, ?_, ?_⟩, ?_, ?_, fun h => ?_, fun h => ?_⟩⟩
  · rw [BitVec.setWidth_eq_extractLsb' (by decide)]
    exact busWrite_reg .codeIdx v (by decide) (.inl hb)
  · exact busWrite_reg .codeBits v (by decide) (.inl hb)
  · exact busWrite_reg .codeLen v (by decide) (.inl hb)
  · exact busRead_reg .codeIdx hb
  · exact busRead_reg .codeBits hb
  · exact busRead_reg .codeLen hb
  · rw [BitVec.setWidth_eq_extractLsb' (by decide)]
    exact busWrite_reg .heapIdx v (by decide) (.inl hb)
  · exact busRead_reg .heapIdx hb
  · rw [← heapEntryWord_valid h]
    exact busRead_reg .heapEntry hb
  · rw [← heapEntryWord_beyond h]
    exact busRead_reg .heapEntry hb

section
variable {s : State}

theorem nodeIdx_lt {n : Node} (h : s.nodes[s.nodeIdx.toNat]? = some n) : s.nodeIdx.toNat < nodeCount s :=
  (List.getElem?_eq_some_iff.1 h).1

theorem nodeInfoWord_valid {n : Node} (h : s.nodes[s.nodeIdx.toNat]? = some n) : nodeInfoWord s
    = 0x80000000#32 ||| (if n.leaf then 0x40000000#32 else 0#32) ||| n.sym.setWidth 32 := by
  rw [nodeInfoWord, if_pos (nodeIdx_lt h), nodeAt_of_getElem? h]
  exact nodeInfo_word _ _

theorem nodeFreqWord_valid {n : Node} (h : s.nodes[s.nodeIdx.toNat]? = some n) : nodeFreqWord s = n.freq := by
  rw [nodeFreqWord, if_pos (nodeIdx_lt h), nodeAt_of_getElem? h]

theorem nodeLinkWord_valid {n : Node} (h : s.nodes[s.nodeIdx.toNat]? = some n) :
    nodeLinkWord s = (n.right.setWidth 32 <<< 16) ||| n.left.setWidth 32 := by
  rw [nodeLinkWord, if_pos (nodeIdx_lt h), nodeAt_of_getElem? h]
  exact nodeLink_word _ _

theorem nodeWords_beyond (h : nodeCount s ≤ s.nodeIdx.toNat) :
    nodeInfoWord s = 0#32 ∧ nodeFreqWord s = 0#32 ∧ nodeLinkWord s = 0#32 :=
  ⟨if_neg (Nat.not_lt.2 h), if_neg (Nat.not_lt.2 h), if_neg (Nat.not_lt.2 h)⟩

end

/-- Settles O17, by the accesses at the window's offsets and the words of an allocated and of an unallocated node. -/
theorem nodeWindow : Obligations.NodeWindow := by
  refine ⟨rfl, fun s v hb => ⟨?_, busRead_reg .nodeIdx hb, fun n hn => ?_, fun h off hoff => ?_⟩⟩
  · rw [BitVec.setWidth_eq_extractLsb' (by decide)]
    exact busWrite_reg .nodeIdx v (by decide) (.inl hb)
  · have hlink := busRead_reg .nodeLink hb
    rw [readReg, nodeLinkWord_valid hn] at hlink
    refine ⟨?_, ?_, hlink, fun hl hr => ?_⟩
    · rw [← nodeInfoWord_valid hn]; exact busRead_reg .nodeInfo hb
    · rw [← nodeFreqWord_valid hn]; exact busRead_reg .nodeFreq hb
    · rw [hl, hr] at hlink; exact hlink
  · obtain ⟨hinfo, hfreq, hlink⟩ := nodeWords_beyond h
    simp only [List.mem_cons, List.not_mem_nil, or_false] at hoff
    rcases hoff with rfl | rfl | rfl
    · rw [← hinfo]; exact busRead_reg .nodeInfo hb
    · rw [← hfreq]; exact busRead_reg .nodeFreq hb
    · rw [← hlink]; exact busRead_reg .nodeLink hb

/-- Settles O14: STATUS is these fields one after another. -/
theorem statusFields : Obligations.StatusFields := by
  intro s
  refine ⟨statusWord_busy s, statusWord_err s, ?_, ?_, ?_, ?_⟩ <;> rw [readReg, statusWord]
  · rw [BitVec.getLsbD_append, BitVec.getLsbD_append, BitVec.getLsbD_append]; simp
  · iterate 3 rw [BitVec.extractLsb'_append_eq_of_le (by decide)]
    exact BitVec.extractLsb'_append_eq_right
  · iterate 4 rw [BitVec.extractLsb'_append_eq_of_le (by decide)]
    exact BitVec.extractLsb'_append_eq_right
  · iterate 4 rw [BitVec.extractLsb'_append_eq_of_le (by decide)]
    exact BitVec.extractLsb'_append_eq_left

theorem bpState_fields (s : State) : (readReg .bpState s).extractLsb' 0 8 = s.acc
    ∧ (readReg .bpState s).extractLsb' 8 3 = s.cnt ∧ (readReg .bpState s).extractLsb' 11 21 = 0#21 := by
  rw [readReg]
  refine ⟨BitVec.extractLsb'_append_eq_right, ?_, ?_⟩ <;> rw [BitVec.extractLsb'_append_eq_of_le (by decide)]
  · exact BitVec.extractLsb'_append_eq_right
  · exact BitVec.extractLsb'_append_eq_left

theorem totalBits_words (s : State) : readReg .totalBitsHi s ++ readReg .totalBitsLo s = s.totalBits :=
  (BitVec.extractLsb'_append_extractLsb'_eq_extractLsb' rfl).trans BitVec.extractLsb'_eq_self

/-- Settles O11: an access goes by its address, its width and alignment, and the register at the offset, in this
order. -/
theorem readsReturnTheRegisters : Obligations.ReadsReturnTheRegisters := by
  refine ⟨fun s => ?_, fun s off rest h hoff h4 hb => ⟨fun r hr => ?_, fun hr => ?_⟩,
    fun s width off v rest hoff hu => ⟨fun h => ?_, fun h => ?_⟩, fun s off v rest h hoff h4 hr => ?_,
    fun s width addr v rest hout h => ?_⟩
  · obtain ⟨hacc, hcnt, hzero⟩ := bpState_fields s
    exact ⟨rfl, rfl, rfl, rfl, fun hn => Nat.mod_eq_of_lt (by omega), fun hn => Nat.mod_eq_of_lt (by omega), rfl, rfl,
      totalBits_words s, rfl, hacc, hcnt, hzero, rfl, rfl, rfl, rfl⟩
  · subst hr
    rw [step_input h]
    exact congrArg _ (busRead_reg r (s := { s with inputs := rest }) hb)
  · have hread : readOffset off { s with inputs := rest } = 0#32 := by rw [readOffset, regAt_reserved hr]
    rw [step_input h, ← hread]
    exact congrArg _ (busRead_aligned (s := { s with inputs := rest }) hoff h4 hb)
  · rw [step_input h]
    exact busWrite_unsupported (s := { s with inputs := rest }) v hoff hu
  · rw [step_input h]
    exact congrArg _ (busRead_unsupported (s := { s with inputs := rest }) hoff hu)
  · rw [step_input h]
    refine (busWrite_aligned (s := { s with inputs := rest }) v hoff h4).trans ?_
    rw [regWrite, regAt_reserved hr]
  · have hnone : offsetOf { s with inputs := rest } addr = none := offsetOf_elsewhere hout
    rcases h with h | h <;> rw [step_input h, perform]
    · rw [busWrite, hnone]
    · rw [busRead, hnone]

end Sys2Proof.Machine
end

section
/-! SUPPORT. The invariants of 10_state R50 by what they speak of, the tree that each node holds, and that every command
keeps the invariants of the structures. -/

namespace Sys2Proof.Machine

/-! ### Trees in an arena (10_state R50 item 4) -/

/-- An allocated node holds a tree: its children are allocated below it. -/
theorem ArenaOk.holdsTree {nodes : List Node} (ha : ArenaOk nodes) (i : NodeIdx) (hi : i.toNat < nodes.length) :
    ∃ T, HoldsTree nodes i T ∧ ∀ c ∈ T.paths, c.2.length ≤ i.toNat := by
  have hn : nodes[i.toNat]? = some nodes[i.toNat] := List.getElem?_eq_getElem hi
  cases hl : nodes[i.toNat].leaf with
  | true => exact ⟨_, .leaf i _ hn hl, by simp [CodeTree.paths]⟩
  | false =>
    obtain ⟨hleft, hright⟩ := ha.below _ _ hn hl
    obtain ⟨l, htl, hdl⟩ := ha.holdsTree nodes[i.toNat].left (by omega)
    obtain ⟨r, htr, hdr⟩ := ha.holdsTree nodes[i.toNat].right (by omega)
    refine ⟨.node l r, .node i _ l r hn hl htl htr, fun c hc => ?_⟩
    rcases List.mem_append.1 hc with hc | hc <;> obtain ⟨d, hd, rfl⟩ := List.mem_map.1 hc
    · have := hdl d hd
      simp only [List.length_cons]; omega
    · have := hdr d hd
      simp only [List.length_cons]; omega
termination_by i.toNat

/-- The tree that CG_GENERATE walks has fewer than 512 levels. -/
theorem DataOk.rootTree {s : State} (h : DataOk s) :
    s.root = Config.nil ∨ ∃ T, HoldsTree s.nodes s.root T ∧ ∀ c ∈ T.paths, c.2.length < 512 := by
  rcases h.root with ⟨h0, -⟩ | hc
  · exact .inl h0
  · obtain ⟨T, hT, hd⟩ := h.queue.arena.holdsTree s.root hc.allocated
    exact .inr ⟨T, hT, fun c hc => Nat.lt_of_le_of_lt (hd c hc) s.root.isLt⟩

/-! ### The invariants, by what they speak of -/

/-- The invariants of the flags, the error record, the stack and the model's own fields (R24, R37, R38, R48). -/
structure ControlOk (s : State) : Prop where
  record : s.err = false → s.errCode = 0#8 ∧ s.errCmd = 0#32 ∧ s.errArg = 0#32
  exclusive : s.busy = true → s.err = false
  stack : s.dstack = []
  idle : s.busy = false → s.cmdWord = 0#32 ∧ s.waitOut = []

theorem Inv.dataOk {s : State} (h : Inv s) : DataOk s where
  queue := ⟨⟨h.children_below, h.leaf_links⟩, h.nodeCount_le, h.heapSize_le, h.heap_allocated, h.heap_ordered⟩
  root := by
    by_cases h0 : s.root = Config.nil
    · exact .inl ⟨h0, h.cursor_nil.2 h0⟩
    · exact .inr ⟨⟨h.children_below, h.leaf_links⟩, h0, h.root_allocated.resolve_left h0, h.cursor_leaf, h.cursor_internal⟩
  acc := h.acc_fits
  codes := h.codes_fit
  stream := h.supplied_within

theorem Inv.controlOk {s : State} (h : Inv s) : ControlOk s :=
  ⟨h.no_error_record, h.not_busy_and_err, h.stack_empty, h.idle_clear⟩

theorem CursorOk.cursor_allocated {s : State} (h : CursorOk s) : s.buCur.toNat < s.nodes.length := by
  have ha := h.allocated
  have hn : s.nodes[s.root.toNat]? = some s.nodes[s.root.toNat] := List.getElem?_eq_getElem ha
  cases hl : s.nodes[s.root.toNat].leaf with
  | true => rw [h.leaf _ hn hl]; exact ha
  | false =>
    obtain ⟨-, m, hm, -⟩ := h.internal _ hn hl
    exact (List.getElem?_eq_some_iff.1 hm).1

theorem DataOk.inv {s : State} (h : DataOk s) (hc : ControlOk s) (hw : s.busy = true → s.waitOut <+: runningOut s) :
    Inv s where
  nodeCount_le := h.queue.room
  heapSize_le := h.queue.heapRoom
  heap_allocated := h.queue.allocated
  root_allocated := h.root.imp And.left CursorOk.allocated
  cursor_allocated := h.root.imp And.right CursorOk.cursor_allocated
  children_below := h.queue.arena.below
  leaf_links := h.queue.arena.links
  cursor_nil := by
    rcases h.root with ⟨h1, h2⟩ | hr
    · exact ⟨fun _ => h1, fun _ => h2⟩
    · exact ⟨fun h2 => absurd h2 (ne_nil_of_lt h.queue hr.cursor_allocated), fun h1 => absurd h1 hr.nonempty⟩
  cursor_leaf n hn hl := by
    rcases h.root with ⟨h1, h2⟩ | hr
    · rw [h1, h2]
    · exact hr.leaf n hn hl
  cursor_internal n hn hl := by
    rcases h.root with ⟨h1, -⟩ | hr
    · exact absurd (List.getElem?_eq_some_iff.1 hn).1 (h1 ▸ nil_not_lt h.queue)
    · exact hr.internal n hn hl
  acc_fits := h.acc
  heap_ordered := h.queue.ordered
  codes_fit := h.codes
  no_error_record := hc.record
  not_busy_and_err := hc.exclusive
  supplied_within := h.stream
  stack_empty := hc.stack
  idle_clear := hc.idle
  waiting_out := hw

/-- The fields that `DataOk` speaks of, in a state of their own. -/
def dataOf (s : State) : State := { State.reset with
  nodes := s.nodes, heap := s.heap, root := s.root, buCur := s.buCur, acc := s.acc, cnt := s.cnt, code := s.code
  len := s.len, inSeq := s.inSeq, inRem := s.inRem }

theorem DataOk.congr {s t : State} (h : DataOk s) (hd : dataOf t = dataOf s) : DataOk t := by
  have same {α : Type} (f : State → α) : f (dataOf t) = f (dataOf s) := congrArg f hd
  exact ⟨h.queue.congr (same State.nodes) (same State.heap),
    h.root.congr (same State.nodes) (same State.root) (same State.buCur),
    h.acc.congr (same State.acc) (same State.cnt), h.codes.congr (same State.code) (same State.len),
    h.stream.congr (same State.inSeq) (same State.inRem)⟩

theorem dataOk_reset : DataOk State.reset where
  queue := queueOk_cleared _ rfl rfl
  root := .inl ⟨rfl, rfl⟩
  acc := show 0 < 1 by decide
  codes b := by simp [lenAt, codeAt, State.reset]
  stream := Nat.le_refl 0

theorem controlOk_reset : ControlOk State.reset :=
  ⟨fun _ => ⟨rfl, rfl, rfl⟩, fun _ => rfl, rfl, fun _ => ⟨rfl, rfl⟩⟩

/-- Settles O53, part by part of `Inv`. -/
theorem resetSatisfiesTheInvariants : Obligations.ResetSatisfiesTheInvariants :=
  dataOk_reset.inv controlOk_reset fun _ => List.nil_prefix

/-- Settles O55, by recursion from a node to its children, which are below it. -/
theorem everyNodeHoldsATree : Obligations.EveryNodeHoldsATree :=
  fun _ i h hi => h.dataOk.queue.arena.holdsTree i hi

/-! ### Every command keeps the invariants of the structures -/

section
variable {s t : State}

/-- A command of the queue, the tree builder or the deserializer: the tree is good again and the stream consumed in
order. -/
theorem DataOk.tree (h : DataOk s) (ht : t = { s with
      nodes := t.nodes, heap := t.heap, root := t.root, buCur := t.buCur, result := t.result, dstack := t.dstack
      inSeq := t.inSeq, inRem := t.inRem })
    (hq : QueueOk t) (hr : RootOk t) (hs : Consumed s t) : DataOk t :=
  ⟨hq, hr, h.acc.congr (by rw [ht]) (by rw [ht]), h.codes.congr (by rw [ht]) (by rw [ht]), h.stream.consumed hs⟩

/-- A command of the packer. -/
theorem DataOk.packed (h : DataOk s) (hp : Packed s t) : DataOk t :=
  ⟨h.queue.congr (by rw [hp.frame]) (by rw [hp.frame]), h.root.congr (by rw [hp.frame]) (by rw [hp.frame]) (by rw [hp.frame]),
    hp.fits h.acc, h.codes.congr (by rw [hp.frame]) (by rw [hp.frame]), h.stream.consumed hp.consumed⟩

/-- A command of the code table generator. -/
theorem DataOk.coded (h : DataOk s) (ht : t = { s with code := t.code, len := t.len, result := t.result })
    (hc : CodesOk t) : DataOk t :=
  ⟨h.queue.congr (by rw [ht]) (by rw [ht]), h.root.congr (by rw [ht]) (by rw [ht]) (by rw [ht]),
    h.acc.congr (by rw [ht]) (by rw [ht]), hc, h.stream.congr (by rw [ht]) (by rw [ht])⟩

/-- The header's command. -/
theorem DataOk.header (h : DataOk s) (ht : t = { s with
      inSeq := t.inSeq, inRem := t.inRem, pad := t.pad, treeSize := t.treeSize, result := t.result })
    (hs : Consumed s t) : DataOk t :=
  ⟨h.queue.congr (by rw [ht]) (by rw [ht]), h.root.congr (by rw [ht]) (by rw [ht]) (by rw [ht]),
    h.acc.congr (by rw [ht]) (by rw [ht]), h.codes.congr (by rw [ht]) (by rw [ht]), h.stream.consumed hs⟩

/-- A command of the unpacker. -/
theorem DataOk.unpacked (h : DataOk s) (ht : t = { s with
      buCur := t.buCur, outSeq := t.outSeq, outCount := t.outCount, outRoom := t.outRoom, inSeq := t.inSeq
      inRem := t.inRem, result := t.result })
    (hr : RootOk t) (hs : Consumed s t) : DataOk t :=
  ⟨h.queue.congr (by rw [ht]) (by rw [ht]), hr, h.acc.congr (by rw [ht]) (by rw [ht]),
    h.codes.congr (by rw [ht]) (by rw [ht]), h.stream.consumed hs⟩

/-- The cursor back at the root. -/
theorem RootOk.rewind (h : RootOk s) : RootOk { s with buCur := s.root } :=
  h.imp (fun ⟨h0, _⟩ => ⟨h0, h0⟩) fun hc => .atRoot hc.arena hc.nonempty hc.allocated rfl

end

/-- Every command keeps the invariants of the arena, the queue, the root, the cursor, the accumulator, the code table and
the stream, where it ends and where it raises (10_state R50). -/
theorem runOf_dataOk (i : Instr) {s : State} (h : DataOk s) :
    (runOf i s).Sat (fun _ t => DataOk t) (fun _ _ t => DataOk t) (fun _ => True) True := by
  have same : Consumed s s := .refl s
  cases i with
  | nop => exact h
  | tsPad => exact h.congr rfl
  | pqClear =>
    exact h.tree rfl ⟨h.queue.arena, h.queue.room, by simp, by simp, heapOrdered_nil _⟩ (h.root.congr rfl rfl rfl)
      (same.to_eq rfl rfl)
  | pqInsert n =>
    refine (runPqInsert_sat n s).ends ?_ ?_
    · rintro _ t ⟨hn, hr, rfl⟩
      exact h.tree rfl (h.queue.insert hn hr) (h.root.congr rfl rfl rfl) (same.to_eq rfl rfl)
    · rintro _ _ t ⟨-, rfl⟩; exact h
  | pqRemoveMin =>
    refine (runPqRemoveMin_sat s).ends ?_ ?_
    · rintro _ t ⟨-, rfl⟩
      exact h.tree rfl (h.queue.remove.congr rfl rfl) (h.root.congr rfl rfl rfl) (same.to_eq rfl rfl)
    · rintro _ _ t ⟨-, rfl⟩; exact h
  | tbClear => exact h.tree rfl (queueOk_cleared _ rfl rfl) (.inl ⟨rfl, rfl⟩) (same.to_eq rfl rfl)
  | tbNewLeaf sym =>
    refine (runTbNewLeaf_sat sym s).ends ?_ ?_
    · rintro _ t ⟨hr, rfl⟩
      have hq := h.queue.newLeaf sym (freqAt s sym) hr
      exact h.tree rfl (hq.congr rfl rfl) (h.root.grow (List.prefix_append _ _) hq.arena rfl rfl) (same.to_eq rfl rfl)
    · rintro _ _ t ⟨-, rfl⟩; exact h
  | tbLoadLeaves =>
    obtain ⟨t, hrun, ht, hq⟩ := runTbLoadLeaves_done s
    simp only [runOf, hrun, sat_done]
    exact h.tree (by rw [ht]) hq (.inl (by rw [ht]; exact ⟨rfl, rfl⟩)) (same.to_eq (by rw [ht]) (by rw [ht]))
  | tbMerge =>
    refine (runTbMerge_sat s h.queue).ends ?_ ?_
    · rintro _ t ⟨ht, hp, hq⟩
      exact h.tree (by rw [ht]) hq (h.root.grow hp hq.arena (by rw [ht]) (by rw [ht]))
        (same.to_eq (by rw [ht]) (by rw [ht]))
    · rintro _ _ t ⟨ht, hq⟩
      exact h.tree (by rw [ht]) hq (h.root.congr (by rw [ht]) (by rw [ht]) (by rw [ht]))
        (same.to_eq (by rw [ht]) (by rw [ht]))
  | tbBuild =>
    refine (runTbBuild_sat s h.queue h.root).ends ?_ ?_
    · rintro _ t ⟨ht, hq, hr⟩
      exact h.tree (by rw [ht]) hq hr (same.to_eq (by rw [ht]) (by rw [ht]))
    · rintro _ _ t ⟨ht, hq, hr⟩
      exact h.tree (by rw [ht]) hq hr (same.to_eq (by rw [ht]) (by rw [ht]))
  | cgGenerate =>
    refine (runCgGenerate_sat s h.rootTree).ends ?_ ?_
    · exact fun _ t ht => h.coded ht.1 ht.2
    · rintro _ _ t ⟨-, ht, hc⟩
      exact h.coded (by rw [ht]) hc
  | tsMeasure =>
    refine (runTsMeasure_sat s).ends (fun _ t ht => h.congr (by rw [ht]; rfl)) ?_
    rintro _ _ t ⟨-, rfl⟩; exact h
  | tsWriteHeader | tsWriteHeaderImm v =>
    exact (emitAll_waiting _ s).ends (fun _ t ht => h.congr (by rw [ht.1]; rfl)) fun _ _ _ hf => hf.elim
  | tsWriteTree =>
    refine (runTsWriteTree_sat s).ends (fun _ t ht => h.congr (by rw [ht.1]; rfl)) ?_
    rintro _ _ t ⟨-, rfl⟩; exact h
  | tdReadHeader =>
    refine (runTdReadHeader_sat s).ends (fun _ t ht => h.header ht.1 ht.2) ?_
    rintro _ _ t ⟨-, ht, hs⟩
    exact h.header (by rw [ht]) hs
  | tdReadTree =>
    refine (runTdReadTree_sat s).ends ?_ ?_
    · rintro _ t ⟨ht, hs, -, hq, hr⟩
      exact h.tree (by rw [ht]) hq hr hs
    · rintro _ _ t ⟨-, ht, hs, hq, hr⟩
      exact h.tree (by rw [ht]) hq hr hs
  | bpReset => exact ⟨h.queue.congr rfl rfl, h.root.congr rfl rfl rfl, show 0 < 1 by decide, h.codes, h.stream⟩
  | bpAddBit x => exact (addBit_bitsOut x s).ends (fun _ t ht => h.packed ht.packed) fun _ _ _ hf => hf.elim
  | bpFlush => exact (runBpFlush_sat s).ends (fun _ t ht => h.packed ht.1.packed) fun _ _ _ hf => hf.elim
  | bpEncodeByte sym =>
    refine (encodeSym_bitsOut sym s).ends (fun _ t ht => h.packed ht.packed) ?_
    rintro _ _ t ⟨-, rfl⟩; exact h
  | bpEncodeStream =>
    refine (runBpEncodeStream_sat s).ends ?_ fun _ _ t ht => h.packed ht.2
    rintro _ t ⟨u, hu, ht⟩
    exact (h.packed hu).congr (by rw [ht]; rfl)
  | buReset => exact h.unpacked rfl h.root.rewind (same.to_eq rfl rfl)
  | buBit x =>
    refine (runBuBit_sat x s).ends ?_ ?_
    · rintro _ t ⟨u, hu, h0, -, -, ht⟩
      have hc : CursorOk s := h.root.resolve_left fun hn => h0 hn.1
      exact (h.unpacked (by rw [hu.frame]) (.inr (hu.cursor hc)) hu.consumed).congr (by rw [ht]; rfl)
    · rintro _ _ t ⟨-, rfl⟩; exact h
  | buDecodeStream =>
    refine (runBuDecodeStream_sat s h.root).ends ?_ ?_
    · rintro _ t ⟨ht, -, hs, hr⟩
      exact h.unpacked ht hr hs
    · rintro _ _ t ⟨-, ht, -, hs, hr⟩
      exact h.unpacked (by rw [ht]) hr hs

end Sys2Proof.Machine
end

section
/-! SUPPORT. What a step can do: the engine's turn and each act of the host, what they keep of the invariants, and that
output is only appended (10_state R49, R50, 20_memory R59, R74). -/

namespace Sys2Proof.Machine

/-! ### The engine keeps the invariants -/

section
variable {s t : State} {i : Instr}

theorem exec_dataOk (h : DataOk s) (he : exec i s = .next t) : DataOk t := by
  rw [exec_eq_finish] at he
  rcases finish_sat (runOf_dataOk i h) he with ⟨u, hu, rfl⟩ | ⟨e, arg, u, hu, rfl⟩ | ⟨u, -, rfl⟩
  · exact hu.congr rfl
  · exact hu.congr rfl
  · exact h.congr rfl

/-- A command that ends leaves the deserializer's stack empty (10_state R48). -/
theorem runOf_stack (i : Instr) (h : s.dstack = []) :
    (runOf i s).Sat (fun _ t => t.dstack = []) (fun _ _ _ => True) (fun _ => True) True := by
  by_cases hi : i = .tdReadTree
  · subst hi
    refine (runTdReadTree_sat s).ends ?_ fun _ _ _ _ => trivial
    rintro _ t ⟨-, -, hd, -⟩
    exact hd.elim (·.trans h) id
  · exact (runOf_writes i s).ends (fun _ t ht => (ht.dstack hi).trans h) fun _ _ _ _ => trivial

theorem takeError_controlOk (e : ErrKind) (arg : Word) (s : State) : ControlOk (takeError e arg s) :=
  ⟨fun h => (nomatch h), fun h => (nomatch h), rfl, fun _ => ⟨rfl, rfl⟩⟩

theorem exec_controlOk (h : ControlOk s) (hb : s.busy = true) (he : exec i s = .next t) : ControlOk t := by
  rw [exec_eq_finish] at he
  have hw := runOf_writes i s
  have hst := runOf_stack i h.stack
  rcases finish_next he with ⟨u, hr, rfl⟩ | ⟨e, arg, u, -, rfl⟩ | ⟨u, -, rfl⟩
  · rw [hr] at hw hst
    refine ⟨fun _ => ?_, fun h => (nomatch h), hst, fun _ => ⟨rfl, rfl⟩⟩
    rw [Writes.frame hw]
    exact h.record (h.exclusive hb)
  · exact takeError_controlOk e arg u
  · exact ⟨h.record, h.exclusive, h.stack, fun h0 => absurd (hb.symm.trans h0) (by decide)⟩

theorem engineStep_idle (hb : s.busy = false) : engineStep s = .next s := by simp [engineStep, hb]

theorem engineStep_busy (hb : s.busy = true) (h : engineStep s = .next t) :
    (∃ i, exec i s = .next t) ∨ t = takeError .illegalCommand 0#32 s := by
  rw [engineStep, if_pos hb] at h
  split at h
  · exact .inl ⟨_, h⟩
  · cases h; exact .inr rfl

/-- The engine's turn keeps the invariants; what it says of a wait is `engineStep_out`. -/
theorem Inv.engine (hi : Inv s) (h : engineStep s = .next t) : Inv t := by
  cases hb : s.busy with
  | false =>
    rw [engineStep_idle hb] at h
    cases h; exact hi
  | true =>
    have hw : t.busy = true → t.waitOut <+: runningOut t := by
      rcases engineStep_out hb h with ⟨hf, -⟩ | ⟨-, hp⟩
      · exact fun ht => absurd (hf.symm.trans ht) (by decide)
      · exact fun _ => hp
    rcases engineStep_busy hb h with ⟨i, he⟩ | rfl
    · exact (exec_dataOk hi.dataOk he).inv (exec_controlOk hi.controlOk hb he) hw
    · exact DataOk.inv (hi.dataOk.congr rfl) (takeError_controlOk _ _ s) hw

end

/-! ### What an act can do -/

/-- `t` is `s` but for OVR, the error record, the acts to come, and what a read hands over. -/
def Quiet (s t : State) : Prop := t = { s with
  ovr := t.ovr, err := t.err, errCode := t.errCode, errCmd := t.errCmd, errArg := t.errArg, inputs := t.inputs
  readData := t.readData, draws := t.draws }

/-- The error record is as it was, or cleared. -/
def RecordKept (s t : State) : Prop :=
  (t.err = s.err ∧ t.errCode = s.errCode ∧ t.errCmd = s.errCmd ∧ t.errArg = s.errArg)
  ∨ (t.err = false ∧ t.errCode = 0#8 ∧ t.errCmd = 0#32 ∧ t.errArg = 0#32)

/-- `t` is `s` but for what the RW registers hold (10_state R20). -/
def Stored (s t : State) : Prop := t = { s with
  inSeq := t.inSeq, inRem := t.inRem, freqIdx := t.freqIdx, freq := t.freq, codeIdx := t.codeIdx, nodeIdx := t.nodeIdx
  heapIdx := t.heapIdx }

/-- Everything an act can do (20_memory R74). -/
inductive Acted (s : State) : State → Prop where
  /-- A read, an ignored write, a discarded command, CLR_ERR or CLR_OVR. -/
  | quiet (t : State) (h : Quiet s t) (hr : RecordKept s t) : Acted s t
  /-- A write to a RW register at rest. -/
  | stored (t : State) (hb : s.busy = false) (h : Stored s t) (hs : StreamOk s → StreamOk t) : Acted s t
  /-- A write to CMD, accepted. -/
  | accept (w : Word) (hb : s.busy = false) (he : s.err = false) : Acted s (acceptCommand w s)
  /-- A byte that the stream asks for. -/
  | supply (b : Byte) (h : s.inSeq.length < s.inRem.toNat) : Acted s { s with inSeq := s.inSeq ++ [b] }
  /-- The OUT port's readiness. -/
  | ready (room : Option Nat) : Acted s (setOutReady room s)
  /-- A hard or soft reset. -/
  | reset : Acted s (doReset s)
  /-- The engine's turn. -/
  | engine (t : State) (h : engineStep s = .next t) : Acted s t

section
variable {s t : State}

theorem Acted.nothing : Acted s s := .quiet s rfl (.inl ⟨rfl, rfl, rfl, rfl⟩)

theorem busRead_acted (width addr : Nat) : Acted s (busRead width addr s) := by
  rw [busRead]
  split
  · exact .nothing
  · split
    · exact .quiet _ rfl (.inl ⟨rfl, rfl, rfl, rfl⟩)
    · exact .quiet _ rfl (.inl ⟨rfl, rfl, rfl, rfl⟩)

theorem ctrlWrite_acted (v : Word) : Acted s (ctrlWrite v s) := by
  rw [ctrlWrite]
  split
  · exact .reset
  · cases v.getLsbD 1 <;> cases v.getLsbD 2
    · exact .nothing
    · exact .quiet _ rfl (.inl ⟨rfl, rfl, rfl, rfl⟩)
    · exact .quiet _ rfl (.inr ⟨rfl, rfl, rfl, rfl⟩)
    · exact .quiet _ rfl (.inr ⟨rfl, rfl, rfl, rfl⟩)

theorem cmdWrite_acted (w : Word) : Acted s (cmdWrite w s) := by
  rw [cmdWrite]
  split
  · exact .quiet _ rfl (.inl ⟨rfl, rfl, rfl, rfl⟩)
  · rename_i h
    rw [Bool.not_eq_true, Bool.or_eq_false_iff] at h
    exact .accept w h.1 h.2

/-- A write that only stores, at rest. -/
theorem writeReg_acted (r : Reg) (v : Word) (hb : s.busy = false) : Acted s (writeReg r v s) := by
  cases r
  case inLen => exact .stored _ hb rfl fun _ => Nat.zero_le _
  case freqIdx | freqData | codeIdx | nodeIdx | heapIdx => exact .stored _ hb rfl id
  all_goals exact .nothing

theorem regWrite_acted {off : Nat} {v : Word} (h : regWrite off v s = .next t) : Acted s t := by
  rw [regWrite] at h
  split at h
  · cases h; exact .nothing
  · cases h; exact ctrlWrite_acted v
  · cases h; exact cmdWrite_acted v
  · rename_i r _ _ _
    split at h
    · cases h
    · rename_i hrw
      cases h
      cases hb : s.busy with
      | false => exact writeReg_acted r v hb
      | true =>
        rw [writeReg_ro v s (by simpa [hb] using hrw)]
        exact .nothing

theorem perform_acted {a : Input} (h : perform a s = .next t) : Acted s t := by
  cases a with
  | read width addr => cases h; exact busRead_acted width addr
  | write width addr v =>
    rw [perform, busWrite] at h
    split at h
    · cases h; exact .nothing
    · split at h
      · exact regWrite_acted h
      · cases h; exact .nothing
  | supply b =>
    rw [perform, supplyByte] at h
    split at h
    · cases h; exact .supply b ‹_›
    · cases h
  | outReady room => cases h; exact .ready room
  | hardReset => cases h; exact .reset
  | engine => exact .engine t h

/-- A step takes one act off the list, or gives the engine its turn. -/
theorem step_acted (h : step s = .next t) : ∃ rest, Acted { s with inputs := rest } t := by
  rw [step, nextAct] at h
  split at h
  · exact ⟨s.inputs, .engine t h⟩
  · exact ⟨_, perform_acted h⟩

/-! ### Every act keeps the invariants -/

theorem Inv.quiet (hi : Inv s) (h : Quiet s t) (hr : RecordKept s t) : Inv t := by
  have hbusy : t.busy = s.busy := by rw [h]
  have hd : dataOf t = dataOf s := by rw [h]; rfl
  have hcontrol : t.dstack = s.dstack ∧ t.cmdWord = s.cmdWord ∧ t.waitOut = s.waitOut := by rw [h]; exact ⟨rfl, rfl, rfl⟩
  obtain ⟨hstack, hword, hwait⟩ := hcontrol
  have hc := hi.controlOk
  refine (hi.dataOk.congr hd).inv ⟨?_, ?_, hstack.trans hc.stack, ?_⟩ fun hb => ?_
  · rcases hr with ⟨h1, h2, h3, h4⟩ | ⟨-, hclear⟩
    · rw [h1, h2, h3, h4]; exact hc.record
    · exact fun _ => hclear
  · rcases hr with ⟨h1, -⟩ | ⟨h1, -⟩
    · rw [h1, hbusy]; exact hc.exclusive
    · exact fun _ => h1
  · rw [hbusy, hword, hwait]; exact hc.idle
  · have ha : Ahead [] s t := ⟨⟨s.inSeq, s.outRoom, t.ovr, t.err, t.errCode, t.errCmd, t.errArg, s.waitOut, t.inputs,
      t.readData, t.draws⟩, h, (List.append_nil _).symm, .refl _⟩
    rw [hbusy] at hb
    exact waitOut_ahead hb ha hwait (hi.waiting_out hb)

theorem Inv.stored (hi : Inv s) (hb : s.busy = false) (h : Stored s t) (hs : StreamOk s → StreamOk t) : Inv t := by
  obtain ⟨hq, hr, ha, hc, hst⟩ := hi.dataOk
  have hcontrol : ControlOk t := by
    obtain ⟨h1, h2, h3, h4⟩ := hi.controlOk
    rw [h]; exact ⟨h1, h2, h3, h4⟩
  refine DataOk.inv ⟨hq.congr ?_ ?_, hr.congr ?_ ?_ ?_, ha.congr ?_ ?_, hc.congr ?_ ?_, hs hst⟩ hcontrol fun ht => ?_
  case refine_10 => exact absurd ((hb.symm.trans (show s.busy = t.busy by rw [h])).trans ht) (by decide)
  all_goals rw [h]

theorem Inv.accept (hi : Inv s) (w : Word) (he : s.err = false) : Inv (acceptCommand w s) :=
  DataOk.inv (hi.dataOk.congr rfl) ⟨hi.no_error_record, fun _ => he, hi.stack_empty, fun h => (nomatch h)⟩
    fun _ => List.nil_prefix

theorem Inv.supply (hi : Inv s) (b : Byte) (h : s.inSeq.length < s.inRem.toNat) :
    Inv { s with inSeq := s.inSeq ++ [b] } := by
  obtain ⟨hq, hr, ha, hc, -⟩ := hi.dataOk
  obtain ⟨h1, h2, h3, h4⟩ := hi.controlOk
  refine DataOk.inv ⟨hq.congr rfl rfl, hr.congr rfl rfl rfl, ha, hc, ?_⟩ ⟨h1, h2, h3, h4⟩ fun hb =>
    waitOut_supply (s := s) b hb (hi.waiting_out hb)
  rw [StreamOk, List.length_append]
  exact h

theorem Inv.ready (hi : Inv s) (room : Option Nat) : Inv (setOutReady room s) := by
  obtain ⟨h1, h2, h3, h4⟩ := hi.controlOk
  exact DataOk.inv (hi.dataOk.congr rfl) ⟨h1, h2, h3, h4⟩ fun hb => waitOut_setOutReady (s := s) room hb (hi.waiting_out hb)

theorem inv_doReset (s : State) : Inv (doReset s) := by
  obtain ⟨h1, h2, h3, h4⟩ := controlOk_reset
  exact DataOk.inv (dataOk_reset.congr rfl) ⟨h1, h2, h3, h4⟩ fun _ => List.nil_prefix

theorem Inv.acted (hi : Inv s) (h : Acted s t) : Inv t := by
  cases h with
  | quiet _ h hr => exact hi.quiet h hr
  | stored _ hb h hs => exact hi.stored hb h hs
  | accept w hb he => exact hi.accept w he
  | supply b h => exact hi.supply b h
  | ready room => exact hi.ready room
  | reset => exact inv_doReset s
  | engine _ h => exact hi.engine h

theorem Inv.withInputs (hi : Inv s) (acts : List Input) : Inv { s with inputs := acts } :=
  hi.quiet rfl (.inl ⟨rfl, rfl, rfl, rfl⟩)

end

/-- Settles O54: the commands by `runOf_dataOk` and `exec_controlOk`, the bytes of a waiting command by the laws of the
ports, and each act of the host by its case of `Acted`. -/
theorem everyStepKeepsTheInvariants : Obligations.EveryStepKeepsTheInvariants := by
  intro s t hi h
  obtain ⟨rest, hact⟩ := step_acted h
  exact (hi.withInputs rest).acted hact

/-! ### Output is only appended (10_state R49, 20_memory R59) -/

section
variable {s t : State}

/-- OUT_SEQ goes on where it was, and so do the bytes of a waiting command after it. -/
def OutKept (s t : State) : Prop :=
  s.outSeq <+: t.outSeq ∧ (Inv s → s.outSeq ++ s.waitOut <+: t.outSeq ++ t.waitOut)

theorem OutKept.of_eq (h1 : t.outSeq = s.outSeq) (h2 : t.waitOut = s.waitOut) : OutKept s t := by
  rw [OutKept, h1, h2]
  exact ⟨List.prefix_rfl, fun _ => List.prefix_rfl⟩

/-- At rest no bytes stand in `waitOut`. -/
theorem OutKept.of_idle (hb : s.busy = false) (h : t.outSeq = s.outSeq) : OutKept s t := by
  rw [OutKept, h]
  refine ⟨List.prefix_rfl, fun hi => ?_⟩
  rw [(hi.idle_clear hb).2, List.append_nil]
  exact List.prefix_append _ _

theorem outKept_doReset (s : State) : OutKept s (doReset s) := by
  cases hb : s.busy with
  | false => exact .of_idle hb (by rw [doReset, abortCommand, hb]; rfl)
  | true =>
    have ho : (doReset s).outSeq = s.outSeq ++ abortedOut s := by rw [doReset, abortCommand, hb]; rfl
    rw [OutKept, ho, abortedOut]
    exact ⟨List.prefix_append _ _, fun _ => by simp⟩

theorem outKept_engine (h : engineStep s = .next t) : OutKept s t := by
  cases hb : s.busy with
  | false =>
    rw [engineStep_idle hb] at h
    cases h; exact .of_eq rfl rfl
  | true =>
    have more (hi : Inv s) : s.outSeq ++ s.waitOut <+: s.outSeq ++ runningOut s :=
      (List.prefix_append_right_inj _).2 (hi.waiting_out hb)
    rcases engineStep_out hb h with ⟨-, hwait, hout⟩ | ⟨rfl, -⟩
    · rw [OutKept, hwait, hout, List.append_nil]
      exact ⟨List.prefix_append _ _, more⟩
    · exact ⟨List.prefix_rfl, more⟩

theorem Acted.outKept (h : Acted s t) : OutKept s t := by
  cases h with
  | quiet _ h hr => exact .of_eq (by rw [h]) (by rw [h])
  | stored _ hb h hs => exact .of_eq (by rw [h]) (by rw [h])
  | accept w hb he => exact .of_idle hb rfl
  | supply b h => exact .of_eq rfl rfl
  | ready room => exact .of_eq rfl rfl
  | reset => exact outKept_doReset s
  | engine _ h => exact outKept_engine h

end

/-- Settles O60: at rest nothing waits, a reset keeps what is out (40_control R87), and what a waiting command has out it
puts out again, first, when it goes on. -/
theorem outputIsOnlyAppended : Obligations.OutputIsOnlyAppended := by
  intro s t h
  obtain ⟨rest, hact⟩ := step_acted h
  obtain ⟨hout, hwait⟩ := hact.outKept
  exact ⟨hout, fun hi => hwait (hi.withInputs rest)⟩

end Sys2Proof.Machine
end

section
/-! SUPPORT. The host's two ports onto a running command: register reads while BUSY = 1, the IN stream it fills, and how
far room for a limited number of OUT bytes lets a command come (20_memory R56 to R59, R75). -/

namespace Sys2Proof.Machine

/-! ### Register reads while BUSY = 1 (20_memory R56) -/

/-- An aligned 32-bit read while a command runs: the defined value where the offset still has one, else a free draw. -/
theorem busRead_busy {s : State} {off : Nat} (h : off < 0x100) (h4 : off % 4 = 0) (hb : s.busy = true) :
    busRead 4 (hcBase s + off) s
      = if readableWhileBusy off then { s with readData := readOffset off s } else readFree s := by
  simp [busRead, offsetOf_base h, supportedAccess, h4, hb]

theorem readableWhileBusy_reg (r : Reg) : readableWhileBusy r.offset = (r == .id || r == .version || r == .status) := by
  rw [readableWhileBusy, regAt_offset]

theorem readableWhileBusy_reserved {off : Nat} (h : ∀ r : Reg, r.offset ≠ off) : readableWhileBusy off = true := by
  rw [readableWhileBusy, regAt_reserved h]

/-- Settles O12: a read at an offset that still has its value hands it over, any other one is a free draw. -/
theorem busyReadsOnlyIdVersionStatus : Obligations.BusyReadsOnlyIdVersionStatus := by
  intro s off rest h hoff h4 hb
  have hread : step s = .next (if readableWhileBusy off
      then { s with inputs := rest, readData := readOffset off { s with inputs := rest } }
      else readFree { s with inputs := rest }) := by
    rw [step_input h]
    exact congrArg _ (busRead_busy (s := { s with inputs := rest }) hoff h4 hb)
  rw [hread]
  refine ⟨?_, ?_, ?_, fun r hr hid hversion hstatus => ?_, fun hr => ?_⟩
  · rintro rfl; rfl
  · rintro rfl; rfl
  · rintro rfl; rfl
  · subst hr
    have hfree : readableWhileBusy r.offset = false := by
      rw [readableWhileBusy_reg]
      cases r
      case id => exact absurd rfl hid
      case version => exact absurd rfl hversion
      case status => exact absurd rfl hstatus
      all_goals rfl
    rw [hfree]; rfl
  · rw [readableWhileBusy_reserved hr, readOffset, regAt_reserved hr]; rfl

/-! ### The IN stream (20_memory R58) -/

/-- Settles O18: the write is `writeReg`'s at IN_LEN's offset, and a byte joins exactly where the stream lacks one. -/
theorem streamOpensAndFills : Obligations.StreamOpensAndFills := by
  refine ⟨fun s v rest h hb => ?_, fun s b rest h => ⟨fun hlt => ?_, fun hle => ?_⟩⟩ <;> rw [step_input h]
  · exact busWrite_reg .inLen v (s := { s with inputs := rest }) (by decide) (.inl hb)
  · exact if_pos hlt
  · exact if_neg (Nat.not_lt.2 hle)

/-! ### A command that waits (20_memory R59) -/

theorem exec_waiting {i : Instr} {s t : State} (h : exec i s = .next t) (hb : t.busy = true) :
    t = { s with waitOut := t.waitOut } := by
  rcases exec_ends h with ⟨u, -, rfl⟩ | ⟨e, arg, u, -, rfl⟩ | ⟨out, rfl⟩
  · cases hb
  · cases hb
  · rfl

/-- BP_ENCODE_STREAM runs out of supplied bytes after the last of them, if each has a code (46_bit_packer R128). -/
theorem runBpEncodeStream_starved {s : State} (ho : s.outRoom = none) (hin : s.inSeq.length < s.inRem.toNat)
    (hc : ∀ b ∈ s.inSeq, lenAt s b ≠ 0#6) : ∃ t, runBpEncodeStream s = .wait t := by
  obtain ⟨lacking, hl⟩ := Nat.exists_eq_add_of_lt hin
  obtain ⟨t, he, ht, -⟩ := encodeStream_codes s.inSeq [] (lacking + 1) 0 s (List.append_nil _).symm ho hc
  refine ⟨t, ?_⟩
  rw [runBpEncodeStream, hl, Nat.add_assoc, he, encodeStream, inRead_nil ht, andThen_wait, andThen_wait]

/-! ### Room for `n` bytes (20_memory R59, log 13) -/

/-- The bytes by which OUT_SEQ has grown from `s` to `t`. -/
abbrev newOut (s t : State) : List Byte := t.outSeq.drop s.outSeq.length

section
variable {st : Prop} {s t t' u : State} {n : Nat}

/-- What a command has put out, in progress or at its end, is what its run emitted. -/
theorem finish_emitted {r : Run Unit} (hb : s.busy = true) (h : finish s r = .next u) :
    (if u.busy then u.waitOut else newOut s u) = r.emitted s := by
  rcases finish_next h with ⟨t, rfl, rfl⟩ | ⟨e, arg, t, rfl, rfl⟩ | ⟨t, rfl, rfl⟩
  · rfl
  · rfl
  · exact if_pos hb

/-- Where a run may not be stopped, what its output begins with it emits first. -/
theorem Run.OutFrom.emitted_prefix {out : List Byte} {r : Run Unit} (hst : ¬ st) (h : r.OutFrom st out) :
    out.drop s.outSeq.length <+: r.emitted s :=
  Run.OutFrom.emitted (Run.Sat.mono h (fun _ _ h => h) (fun _ _ _ h => h) (fun _ h => h) hst)

theorem Grown.newOut_le (h : Grown s t) (hs : s.outRoom = some n) : (newOut s t).length ≤ n := by
  have hr := (h.room_left hs).2
  rw [List.length_drop]; omega

/-- A run that has used up the room has put out as many bytes as there was room for. -/
theorem Grown.newOut_full (h : Grown s t) (hs : s.outRoom = some n) (h0 : t.outRoom = some 0) :
    (newOut s t).length = n := by
  obtain ⟨hroom, hle⟩ := h.room_left hs
  rw [h0, Option.some.injEq] at hroom
  have hl := h.out.length_le
  rw [List.length_drop]; omega

/-- A run that ends with room for `n` bytes ends as it does without a limit, but for the room left. -/
theorem Ahead.end_room (ha : Ahead [] t t') (h : Grown s t) (h' : Grown { s with outRoom := none } t')
    (hs : s.outRoom = some n) :
    (newOut s t').length ≤ n ∧ t = { t' with outRoom := some (n - (newOut s t').length) } := by
  have heq := ha.eq_room h h'
  have hnew : newOut s t' = newOut s t := by rw [heq]
  rw [hnew]
  refine ⟨h.newOut_le hs, ?_⟩
  rw [List.length_drop, ← (h.room_left hs).1]
  exact heq

/-- With room for `n` bytes a command whose run emits no more than that comes to the same next state; any other waits
when the first `n` are out. -/
theorem Ported.finish_room {f : State → Run Unit} {out : List Byte} (hf : Ported st f) (hb : s.busy = true)
    (hs : s.outRoom = some n) (hu : finish { s with outRoom := none } (f { s with outRoom := none }) = .next u)
    (hout : out = if u.busy then u.waitOut else newOut s u) :
    (out.length ≤ n ∧ finish s (f s) = .next { u with outRoom := some (if u.busy then n else n - out.length) })
    ∨ (n < out.length ∧ finish s (f s) = .next { s with waitOut := out.take n }) := by
  have hgo := hf.goesOn [] s _ (.unlimited s)
  have hgrow := hf.grows s
  have hgrow' := hf.grows { s with outRoom := none }
  have hemit : out = (f { s with outRoom := none }).emitted { s with outRoom := none } :=
    hout.trans (finish_emitted (s := { s with outRoom := none }) hb hu)
  rcases hr : f s with ⟨a, t⟩ | ⟨e, arg, t⟩ | t | fault <;> rw [hr] at hgo hgrow
  case done =>
    obtain ⟨t', hr', ha⟩ := hgo
    rw [hr'] at hu hgrow' hemit
    cases hu
    subst hemit
    obtain ⟨hle, ht⟩ := ha.end_room hgrow hgrow' hs
    refine .inl ⟨hle, ?_⟩
    rw [ht]; rfl
  case raise =>
    obtain ⟨t', hr', ha⟩ := hgo
    rw [hr'] at hu hgrow' hemit
    cases hu
    subst hemit
    obtain ⟨hle, ht⟩ := ha.end_room hgrow hgrow' hs
    refine .inl ⟨hle, ?_⟩
    rw [ht]; rfl
  case wait =>
    obtain ⟨hgr, hst⟩ := hgrow
    rcases hgo.2 with ⟨h0, b, hmore⟩ | hne | ⟨t', hr', ht'⟩
    · have hlen := hgr.newOut_full hs h0
      have hpre : newOut s t ++ [b] <+: out := by
        have hp := hmore.emitted_prefix (s := { s with outRoom := none }) hst
        rwa [← hemit, List.drop_append_of_le_length hgr.out.length_le] at hp
      obtain ⟨more, rfl⟩ := hpre
      refine .inr ⟨by simp only [List.length_append, List.length_singleton]; omega, ?_⟩
      rw [List.append_assoc, List.take_left' hlen]; rfl
    · exact absurd rfl hne
    · rw [hr'] at hu hemit
      cases hu
      have hle := hgr.newOut_le hs
      rw [newOut, ← ht'] at hle
      subst hemit
      refine .inl ⟨hle, ?_⟩
      simp only [finish_wait, hb, if_true, ← hs, ht']
  case stop =>
    rw [show f { s with outRoom := none } = .stop fault from hgo] at hu
    cases hu

end

/-- Settles O57: only a waiting command's next state has BUSY = 1, BP_ENCODE_STREAM waits where its stream runs out, and
every command meets the OUT port's room as `Ported.finish_room` has it. -/
theorem waitingChangesNothing : Obligations.WaitingChangesNothing := by
  refine ⟨fun i s t => exec_waiting, fun s hb ho hin hc => ?_, fun i s u n out hb hs hu hout => ?_,
    fun s room rest h => ?_⟩
  · obtain ⟨t, ht⟩ := runBpEncodeStream_starved ho hin hc
    exact ⟨_, congrArg (finish s) ht, hb⟩
  · obtain ⟨st, f, hf, hex⟩ := exec_ported i
    rw [hex] at hu ⊢
    rcases hf.finish_room hb hs hu hout with ⟨hle, hend⟩ | ⟨hlt, hwait⟩
    · exact ⟨fun _ => hend, fun hlt => absurd hle (Nat.not_le.2 hlt)⟩
    · exact ⟨fun hle => absurd hle (Nat.not_le.2 hlt), fun _ => hwait⟩
  · rw [step_input h]; rfl

end Sys2Proof.Machine
end

section
/-! SUPPORT. The command word and its decoder: the decoder inverts the encoder (30_encoding R76 to R79), and what the
engine does with an illegal word (30_encoding R80). -/

namespace Sys2Proof

/-! ### The decoder on the encoder's words (30_encoding R76, R79) -/

/-- The encoder leaves clear every bit outside the opcode and the operand field. -/
theorem zeroBits_encode (i : Instr) : zeroBits i.form (encode i) = true := by
  cases i
  case pqInsert n => exact zeroBits_wordN _ n
  case tbNewLeaf sym | bpEncodeByte sym => exact zeroBits_wordS _ sym
  case bpAddBit x | buBit x => exact zeroBits_wordB _ x
  case tsWriteHeaderImm h => exact zeroBits_wordH _ h
  all_goals exact zeroBits_wordZ _

/-- The opcode of an encoded command names it, and the opcode's form reads its operand back. -/
theorem commandOf_encode (i : Instr) : commandOf (encode i) = some i := by
  cases i
  case pqInsert n => simp [encode, commandOf, opcOf_wordN, fieldN_wordN]
  case tbNewLeaf sym | bpEncodeByte sym => simp [encode, commandOf, opcOf_wordS, fieldS_wordS]
  case bpAddBit x | buBit x => simp [encode, commandOf, opcOf_wordB, fieldB_wordB]
  case tsWriteHeaderImm h => simp [encode, commandOf, opcOf_wordH, fieldH_wordH]
  all_goals simp [encode, commandOf, opcOf_wordZ]

/-- A word decodes to the command that its opcode names, where the bits that the command's form requires to be 0 are. -/
theorem decode_eq_ok {w : Word} {i : Instr} (hc : commandOf w = some i) (hz : zeroBits i.form w = true) :
    decode w = .ok i := by
  rw [decode, hc]
  exact if_pos hz

/-- Settles O2: the opcode names the command with its operand, and the remaining bits are clear. -/
theorem decodeEncodeRoundTrip : Obligations.DecodeEncodeRoundTrip :=
  fun i => decode_eq_ok (commandOf_encode i) (zeroBits_encode i)

/-- Settles O1: both lists of words are decoded. -/
theorem writtenWordsDecode : Obligations.WrittenWordsDecode := ⟨by decide, by decide⟩

end Sys2Proof

namespace Sys2Proof.Machine

/-! ### The engine on an illegal word (30_encoding R80) -/

theorem engineStep_illegal {s : State} {e : Illegal} (hb : s.busy = true) (hd : decode s.cmdWord = .error e) :
    engineStep s = .next (takeError .illegalCommand 0#32 s) := by
  rw [engineStep, if_pos hb, hd]

/-- Settles O5: the engine's turn on the word is the raise of ILLEGAL_COMMAND. -/
theorem illegalWordRaises : Obligations.IllegalWordRaises := by
  intro s e rest hb hd hin
  rw [step_input hin]
  exact engineStep_illegal (s := { s with inputs := rest }) hb hd

end Sys2Proof.Machine
end

section
/-! SUPPORT. The opcode map against the decoder, row by row (30_encoding R76 to R79, 40_control R85). -/

namespace Sys2Proof

/-! ### A word is its opcode, its zero bits and its operand (30_encoding R76) -/

/-- The word of a form with an opcode and the operand that `w` holds. -/
def wordOf (f : Form) (opc : Byte) (w : Word) : Word :=
  match f with
  | .z => wordZ opc
  | .n => wordN opc (fieldN w)
  | .s => wordS opc (fieldS w)
  | .b => wordB opc (fieldB w)
  | .h => wordH opc (fieldH w)

/-- A word whose zero bits are clear is laid out from its own opcode and operand. -/
theorem wordOf_opcOf {f : Form} {w : Word} (h : zeroBits f w = true) : wordOf f (opcOf w) w = w := by
  cases f <;> rw [zeroBits, beq_iff_eq] at h
  case z =>
    rw [wordOf, wordZ, ← h]
    exact BitVec.extractLsb'_append_extractLsb' (w := 8)
  all_goals
    simp only [wordOf, wordN, wordS, wordB, wordH]
    rw [← h, opcOf, BitVec.extractLsb'_append_extractLsb'_eq_extractLsb' (by rfl)]
    exact (BitVec.extractLsb'_append_extractLsb'_eq_extractLsb' (by rfl)).trans BitVec.extractLsb'_eq_self

/-- Where an opcode names a command, the command's word is the opcode with the operand that `w` holds. -/
theorem encode_commandOf {w : Word} {i : Instr} (h : commandOf w = some i) : encode i = wordOf i.form (opcOf w) w := by
  have hopc : BitVec.ofNat 8 (opcOf w).toNat = opcOf w := by simp
  rw [commandOf] at h
  split at h <;> cases h
  all_goals
    rename_i ho
    rw [← hopc, ho]
    rfl

/-- The decoder answers only the command that the word encodes. -/
theorem encode_of_decode {w : Word} {i : Instr} (h : decode w = .ok i) : encode i = w := by
  rw [decode] at h
  split at h
  · cases h
  next hc =>
    split at h <;> cases h
    next hz => rw [encode_commandOf hc, wordOf_opcOf hz]

/-! ### The rows of the opcode map (30_encoding R79) -/

/-- A form's mask covers the opcode. -/
theorem opcOf_and_mask (f : Form) (w : Word) : opcOf (w &&& f.mask) = opcOf w := by
  have hm : opcOf f.mask = BitVec.allOnes 8 := by cases f <;> rfl
  rw [opcOf, BitVec.extractLsb'_and, ← opcOf, ← opcOf, hm, BitVec.and_allOnes]

/-- A form's mask covers the form's zero bits. -/
theorem zeroBits_and_mask (f : Form) (w : Word) : zeroBits f (w &&& f.mask) = zeroBits f w := by
  cases f <;> rw [zeroBits, zeroBits, BitVec.extractLsb'_and]
  all_goals exact congrArg (· == _) BitVec.and_allOnes

/-- The opcode alone selects the command and its form. -/
theorem commandOf_congr {w w' : Word} (h : opcOf w = opcOf w') :
    (commandOf w).map (fun i => (i.mnemonic, i.form)) = (commandOf w').map fun i => (i.mnemonic, i.form) := by
  simp only [commandOf, h]
  split <;> rfl

/-- A row has the mask of its form, and its pattern is a word of that form whose opcode names the row's command. -/
theorem opcodeRows_consistent : ∀ r ∈ opcodeRows, r.mask = r.form.mask ∧ zeroBits r.form r.pattern = true
    ∧ (commandOf r.pattern).map (fun i => (i.mnemonic, i.form)) = some (r.mnemonic, r.form) := by decide

/-- No two rows have the same opcode. -/
theorem opcodeRows_nodup : (opcodeRows.map fun r => opcOf r.pattern).Nodup := by decide

open Laws.RowFit in
/-- Every command's word fits a row. -/
theorem encode_fits (i : Instr) : ∃ r ∈ opcodeRows, r.fits (encode i) = true := by
  have hrow : Statement i := Instr.rec (motive := Statement) nop pqClear pqInsert pqRemoveMin tbClear tbNewLeaf
    tbLoadLeaves tbMerge tbBuild cgGenerate tsMeasure tsPad tsWriteHeader tsWriteHeaderImm tsWriteTree tdReadHeader
    tdReadTree bpReset bpAddBit bpFlush bpEncodeByte bpEncodeStream buReset buBit buDecodeStream i
  obtain ⟨r, hr, -, -, -, hfits⟩ := hrow
  exact ⟨r, hr, hfits⟩

/-- A word that fits a row has the row's opcode and zero bits. -/
theorem OpcodeRow.fields_of_fits {r : OpcodeRow} (hr : r ∈ opcodeRows) {w : Word} (h : r.fits w = true) :
    opcOf w = opcOf r.pattern ∧ zeroBits r.form w = true := by
  obtain ⟨hm, hz, -⟩ := opcodeRows_consistent r hr
  rw [OpcodeRow.fits, beq_iff_eq, hm] at h
  rw [← opcOf_and_mask r.form, ← zeroBits_and_mask r.form, h]
  exact ⟨rfl, hz⟩

/-- Settles O3: a row that fits shares the word's opcode, which names the row's command, and no other row has that
opcode; a word that decodes is its command's word, which fits a row. -/
theorem decodeFollowsOpcodeMap : Obligations.DecodeFollowsOpcodeMap := by
  refine fun w => ⟨fun r hr h => ?_, fun h => ?_, fun r hr r' hr' h h' => ?_⟩
  · obtain ⟨hopc, hz⟩ := OpcodeRow.fields_of_fits hr h
    obtain ⟨-, -, hrow⟩ := opcodeRows_consistent r hr
    rw [← commandOf_congr hopc, Option.map_eq_some_iff] at hrow
    obtain ⟨i, hc, hi⟩ := hrow
    obtain ⟨hname, hform⟩ := Prod.mk.inj hi
    have hd : decode w = .ok i := decode_eq_ok hc (hform ▸ hz)
    exact ⟨i, hd, hname, hform, encode_of_decode hd⟩
  · cases hd : decode w with
    | error e => exact ⟨e, rfl⟩
    | ok i =>
      obtain ⟨r, hr, hfits⟩ := encode_fits i
      rw [encode_of_decode hd, h r hr] at hfits
      cases hfits
  · exact List.inj_on_of_nodup_map opcodeRows_nodup hr hr'
      ((OpcodeRow.fields_of_fits hr h).1.symm.trans (OpcodeRow.fields_of_fits hr' h').1)

end Sys2Proof
end

section
/-! SUPPORT. Control: the engine's turn, a write to CMD and a write to CTRL, NOP, and that every command completes where
the host keeps its duties (40_control R84 to R89). -/

namespace Sys2Proof.Machine

/-! ### The engine's turn (40_control R84) -/

/-- With no act left the engine has its turn (log 3). -/
theorem step_engine {s : State} (h : s.inputs = []) : step s = engineStep s := by
  rw [step, nextAct, h]

theorem engineStep_decoded {s : State} {i : Instr} (hb : s.busy = true) (hd : decode s.cmdWord = .ok i) :
    engineStep s = exec i s := by
  rw [engineStep, if_pos hb, hd]

/-- A word placed for the next step is accepted, and the engine moves next (log 1). -/
theorem withFetchWord_word (s : State) (w : Word) : s.withFetchWord 32 w.toNat = issueWord w s := by
  rw [State.withFetchWord, Nat.mod_eq_of_lt w.isLt, BitVec.ofNat_toNat, BitVec.setWidth_eq]

/-- Settles O4: the engine's turn, next in the list or with no act left, on the decoded word. -/
theorem stepRunsTheDecodedCommand : Obligations.StepRunsTheDecodedCommand := by
  refine ⟨fun s i hb hd => ⟨fun rest h => ?_, fun h => ?_⟩, fun s i => ?_, fun s hb => ⟨fun rest h => ?_, fun h => ?_⟩⟩
  · rw [step_input h]
    exact engineStep_decoded (s := { s with inputs := rest }) hb hd
  · rw [step_engine h, engineStep_decoded hb hd]
  · rw [withFetchWord_word, step_input (s := issueWord (encode i) s) rfl]
    exact engineStep_decoded rfl (decodeEncodeRoundTrip i)
  · rw [step_input h]
    exact engineStep_idle (s := { s with inputs := rest }) hb
  · rw [step_engine h, engineStep_idle hb]

/-! ### Writes to CMD and CTRL (40_control R84, R87 to R89) -/

/-- An aligned 32-bit write at a register's offset. -/
theorem step_writeReg {s : State} (r : Reg) {v : Word} {rest : List Input}
    (h : s.inputs = .write 4 (hcBase s + r.offset) v :: rest) :
    step s = regWrite r.offset v { s with inputs := rest } := by
  rw [step_input h]
  exact busWrite_aligned (s := { s with inputs := rest }) v r.offset_lt r.offset_mod

theorem cmdWrite_discarded {s : State} (w : Word) (h : s.busy = true ∨ s.err = true) : cmdWrite w s = setOverrun s :=
  if_pos (Bool.or_eq_true_iff.2 h)

theorem cmdWrite_accepted {s : State} (w : Word) (hb : s.busy = false) (he : s.err = false) :
    cmdWrite w s = acceptCommand w s := by
  simp [cmdWrite, hb, he]

/-- Settles O6: the two branches of a write to CMD. -/
theorem commandWriteAcceptedOrDiscarded : Obligations.CommandWriteAcceptedOrDiscarded := by
  intro s w rest h
  have hstep : step s = .next (cmdWrite w { s with inputs := rest }) := step_writeReg .cmd h
  exact ⟨fun hbe => hstep.trans (congrArg _ (cmdWrite_discarded (s := { s with inputs := rest }) w hbe)),
    fun hb he => hstep.trans (congrArg _ (cmdWrite_accepted (s := { s with inputs := rest }) w hb he))⟩

/-- A write to CTRL with SOFT_RESET clear (40_control R88, R89). -/
theorem ctrlWrite_clears {v : Word} (s : State) (h : v.getLsbD 0 = false) : ctrlWrite v s = { s with
    err := if v.getLsbD 1 then false else s.err
    errCode := if v.getLsbD 1 then 0#8 else s.errCode
    errCmd := if v.getLsbD 1 then 0#32 else s.errCmd
    errArg := if v.getLsbD 1 then 0#32 else s.errArg
    ovr := if v.getLsbD 2 then false else s.ovr } := by
  rw [ctrlWrite, h]
  cases v.getLsbD 1 <;> cases v.getLsbD 2 <;> rfl

/-- Settles O8: the write is `ctrlWrite`'s, which does not reset. -/
theorem ctrlClearsErrorAndOverrun : Obligations.CtrlClearsErrorAndOverrun := by
  intro s v rest h h0
  have hstep : step s = .next (ctrlWrite v { s with inputs := rest }) := step_writeReg .ctrl h
  rw [hstep, ctrlWrite_clears _ h0]

/-! ### NOP (40_control R86) -/

/-- Settles O19: NOP's word is its opcode and its pseudocode is `skip`. -/
theorem nopChangesNothing : Obligations.NopChangesNothing := ⟨rfl, fun s => finish_done s s ()⟩

/-! ### Every command completes (40_control R84) -/

section
variable {s t : State} {i : Instr}

/-- A run that nothing stops and that waits, if at all, for a duty of the host's. -/
def Run.WaitsForHost (s : State) (r : Run Unit) : Prop := r.Sat (fun _ _ => True) (fun _ _ _ => True) (Waiting s) False

theorem Run.Sat.waitsForHost {Q : Unit → State → Prop} {E : ErrKind → Word → State → Prop} {W : State → Prop}
    {r : Run Unit} (h : r.Sat Q E W False) (hW : ∀ t, W t → Waiting s t) : r.WaitsForHost s :=
  h.mono (fun _ _ _ => trivial) (fun _ _ _ _ => trivial) hW id

theorem Run.Sat.neverWaits {Q : Unit → State → Prop} {E : ErrKind → Word → State → Prop} {r : Run Unit}
    (h : r.Sat Q E (fun _ => False) False) : r.WaitsForHost s :=
  h.waitsForHost fun _ => False.elim

/-- A host that keeps its duties leaves no command waiting. -/
theorem not_waiting (h : HostKeepsDuties s) : ¬ Waiting s t :=
  fun ⟨_, hw⟩ => hw.elim (absurd h.2) (not_starved h.1)

/-- No command stops in a state that meets the invariants of the structures (10_state R50 item 4 ends CG_GENERATE's
walk), and each waits only for the host. -/
theorem runOf_waitsForHost (i : Instr) (h : DataOk s) : (runOf i s).WaitsForHost s := by
  cases i with
  | nop | pqClear | tbClear | tsPad | bpReset | buReset => exact trivial
  | pqInsert n => exact (runPqInsert_sat n s).neverWaits
  | pqRemoveMin => exact (runPqRemoveMin_sat s).neverWaits
  | tbNewLeaf sym => exact (runTbNewLeaf_sat sym s).neverWaits
  | tbLoadLeaves =>
    obtain ⟨t, hr, -⟩ := runTbLoadLeaves_done s
    rw [runOf, hr]; exact trivial
  | tbMerge => exact (runTbMerge_frame s).neverWaits
  | tbBuild => exact (runTbBuild_frame s).neverWaits
  | cgGenerate => exact (runCgGenerate_sat s h.rootTree).neverWaits
  | tsMeasure => exact (runTsMeasure_sat s).neverWaits
  | tsWriteHeader | tsWriteHeaderImm v => exact (emitAll_waiting _ s).waitsForHost fun _ h => h
  | tsWriteTree => exact (runTsWriteTree_sat s).waitsForHost fun _ h => h
  | tdReadHeader => exact (runTdReadHeader_sat s).waitsForHost fun _ h => h
  | tdReadTree => exact (runTdReadTree_sat s).waitsForHost fun _ h => h
  | bpAddBit x => exact (addBit_bitsOut x s).waitsForHost fun _ => BitsWait.waiting
  | bpFlush => exact (runBpFlush_sat s).waitsForHost fun _ h => h
  | bpEncodeByte sym => exact (encodeSym_bitsOut sym s).waitsForHost fun _ => BitsWait.waiting
  | bpEncodeStream => exact (runBpEncodeStream_sat s).waitsForHost fun _ h => h
  | buBit x => exact (runBuBit_sat x s).waitsForHost fun _ h => h
  | buDecodeStream => exact (runBuDecodeStream_frame s).waitsForHost fun _ h => h

/-- A command takes no act from the list. -/
theorem exec_inputs (h : exec i s = .next t) : t.inputs = s.inputs := by
  obtain ⟨u, hu, ht⟩ := exec_writes h
  rw [ht, hu.frame]

theorem exec_completes (h : DataOk s) (hd : HostKeepsDuties s) : ∃ t, exec i s = .next t ∧ t.busy = false := by
  have hw := runOf_waitsForHost i h
  rw [exec_eq_finish]
  rcases hr : runOf i s with ⟨a, t⟩ | ⟨e, arg, t⟩ | t | f <;> rw [hr] at hw
  · exact ⟨_, rfl, rfl⟩
  · exact ⟨_, rfl, rfl⟩
  · exact absurd hw (not_waiting hd)
  · exact hw.elim

/-- The engine's turn ends the command in progress, whatever its word. -/
theorem engineStep_completes (h : Inv s) (hd : HostKeepsDuties s) (hb : s.busy = true) :
    ∃ t, engineStep s = .next t ∧ t.busy = false ∧ t.inputs = s.inputs := by
  cases hdec : decode s.cmdWord with
  | error e => exact ⟨_, engineStep_illegal hb hdec, rfl, rfl⟩
  | ok i =>
    obtain ⟨t, ht, hidle⟩ := exec_completes (i := i) h.dataOk hd
    exact ⟨t, (engineStep_decoded hb hdec).trans ht, hidle, exec_inputs ht⟩

end

/-- Settles O56: the engine's turn, next in the list or with no act left. -/
theorem everyCommandCompletes : Obligations.EveryCommandCompletes := by
  intro s hi hd hb
  refine ⟨fun rest h => ?_, fun h => ?_⟩
  · rw [step_input h]
    exact engineStep_completes (hi.withInputs rest) hd hb
  · rw [step_engine h, ← h]
    exact engineStep_completes hi hd hb

end Sys2Proof.Machine
end

section
/-! SUPPORT. The priority queue's commands: the outcome of PQ_INSERT and PQ_REMOVE_MIN in each branch of their
pseudocode, and the statements about the queue (41_priority_queue R94 to R100). -/

namespace Sys2Proof.Machine

/-! ### PQ_INSERT (41_priority_queue R99) -/

section
variable {s : State} {n : NodeIdx}

theorem exec_pqInsert_unallocated (h : nodeCount s ≤ n.toNat) :
    exec (.pqInsert n) s = .next (takeError .badNodeIndex (n.setWidth 32) s) := by
  rw [exec_eq_finish, runOf, runPqInsert, if_pos h, finish_raise]

/-- An allocated index passes the first check. -/
theorem exec_pqInsert_allocated (h : n.toNat < nodeCount s) : exec (.pqInsert n) s = finish s (pqInsertNode n s) := by
  rw [exec_eq_finish, runOf, runPqInsert, if_neg (Nat.not_le_of_lt h)]

theorem exec_pqInsert_full (h : n.toNat < nodeCount s) (hf : heapSize s = 256) :
    exec (.pqInsert n) s = .next (takeError .pqFull (n.setWidth 32) s) := by
  rw [exec_pqInsert_allocated h, pqInsertNode_full hf, finish_raise]

theorem exec_pqInsert_room (h : n.toNat < nodeCount s) (hr : heapSize s ≠ 256) :
    exec (.pqInsert n) s = .next (completeCommand { s with heap := heapInsert (keyOf s) n s.heap }) := by
  rw [exec_pqInsert_allocated h, pqInsertNode_room hr, finish_done]

/-! ### PQ_REMOVE_MIN (41_priority_queue R100) -/

theorem pqRemoveNode_empty (h : s.heap.length = 0) : pqRemoveNode s = .raise .pqEmpty 0#32 s := if_pos h

theorem exec_pqRemoveMin_empty (h : heapSize s = 0) :
    exec .pqRemoveMin s = .next (takeError .pqEmpty 0#32 s) := by
  rw [exec_eq_finish, runOf, runPqRemoveMin, pqRemoveNode_empty h, andThen_raise, finish_raise]

theorem exec_pqRemoveMin_nonempty (h : heapSize s ≠ 0) :
    exec .pqRemoveMin s = .next (completeCommand
      { s with heap := heapRemove (keyOf s) s.heap, result := (slot s.heap 0).setWidth 32 }) := by
  rw [exec_eq_finish, runOf, runPqRemoveMin, pqRemoveNode_nonempty h, andThen_done, finish_done, setResult]

end

/-! ### The statements about the queue -/

/-- Settles O21: the new heap is `heapInsert`'s, which sifts the node up, permutes and keeps the order. -/
theorem pqInsertAddsTheNode : Obligations.PqInsertAddsTheNode := fun s n hn hr =>
  ⟨_, exec_pqInsert_room hn hr, rfl, heapInsert_insertedUp (keyOf s) n s.heap, heapInsert_perm (keyOf s) n s.heap,
    heapInsert_ordered n⟩

/-- Settles O22: the new heap is `heapRemove`'s, which sifts the last node down, permutes and keeps the order; slot 0 of
an ordered heap has the least key. -/
theorem pqRemoveMinTakesTheLeast : Obligations.PqRemoveMinTakesTheLeast := by
  intro s r rest h
  have hexec := exec_pqRemoveMin_nonempty (s := s) (by simp [heapSize, h])
  have hslot : slot s.heap 0 = r := by rw [h, slot_cons_zero]
  have hperm : s.heap.Perm (r :: heapRemove (keyOf s) s.heap) := by
    rw [h]
    exact (heapRemove_perm (keyOf s) r rest).symm.cons r
  rw [hslot] at hexec
  exact ⟨_, hexec, rfl, heapRemove_removedDown (keyOf s) s.heap, hperm,
    fun ho => ⟨hslot ▸ ho.root_least, heapRemove_ordered ho⟩⟩

/-- Settles O20: PQ_CLEAR's word is its opcode and its pseudocode ends with the empty heap. -/
theorem pqClearEmptiesTheQueue : Obligations.PqClearEmptiesTheQueue :=
  ⟨rfl, fun s => finish_done s { s with heap := [] } ()⟩

/-- Settles O23: the branches of PQ_INSERT and PQ_REMOVE_MIN that raise. -/
theorem queueErrors : Obligations.QueueErrors := fun _ _ =>
  ⟨exec_pqInsert_unallocated, exec_pqInsert_full, exec_pqRemoveMin_empty⟩

end Sys2Proof.Machine
end

section
/-! SUPPORT. The tree builder's single steps: the outcome of TB_CLEAR, TB_NEW_LEAF and TB_MERGE in each branch of their
pseudocode, and the statements about them (42_tree_builder R103 to R105, R107). -/

namespace Sys2Proof.Machine

/-! ### TB_CLEAR (42_tree_builder R104) -/

/-- Settles O24: TB_CLEAR's word is its opcode and its pseudocode is TreeClear(). -/
theorem tbClearForgetsTheTree : Obligations.TbClearForgetsTheTree :=
  ⟨rfl, fun s => finish_done s (treeClear s) ()⟩

/-! ### TB_NEW_LEAF (42_tree_builder R105) -/

/-- The index of the entry allocated next, as the register RESULT holds it. -/
theorem nodeIndex_setWidth {s : State} (h : nodeCount s < 511) :
    (BitVec.ofNat 9 s.nodes.length).setWidth 32 = BitVec.ofNat 32 (nodeCount s) := by
  apply BitVec.eq_of_toNat_eq
  rw [BitVec.toNat_setWidth, ofNat_toNat_of_lt (n := s.nodes.length) (Nat.lt_succ_of_lt h), BitVec.toNat_ofNat,
    nodeCount]

theorem exec_tbNewLeaf_room {s : State} (b : Byte) (h : nodeCount s < 511) :
    exec (.tbNewLeaf b) s = .next (completeCommand { s with
      nodes := s.nodes ++ [leafNode b (freqAt s b)], result := BitVec.ofNat 32 (nodeCount s) }) := by
  rw [exec_eq_finish, runOf, runTbNewLeaf, allocNode_room (Nat.ne_of_lt h), andThen_done, finish_done,
    nodeIndex_setWidth h, setResult]

theorem exec_tbNewLeaf_full {s : State} (b : Byte) (h : nodeCount s = 511) :
    exec (.tbNewLeaf b) s = .next (takeError .arenaFull 511#32 s) := by
  rw [exec_eq_finish, runOf, runTbNewLeaf, allocNode_full h, andThen_raise, finish_raise]

/-- Settles O25: the word's opcode and operand share no bit, and the allocator's two branches. -/
theorem tbNewLeafAllocates : Obligations.TbNewLeafAllocates := fun _ b =>
  ⟨BitVec.append_def _ _, exec_tbNewLeaf_room b, exec_tbNewLeaf_full b⟩

/-! ### TB_MERGE (42_tree_builder R103, R107) -/

section
variable {s : State}

theorem exec_tbMerge_underflow (h : heapSize s < 2) :
    exec .tbMerge s = .next (takeError .mergeUnderflow (BitVec.ofNat 32 (heapSize s)) s) := by
  rw [exec_eq_finish, runOf, runTbMerge, mergeStep_underflow h, andThen_raise, finish_raise, heapSize]

theorem exec_tbMerge_full (h : 2 ≤ heapSize s) (hn : nodeCount s = 511) :
    exec .tbMerge s = .next (takeError .arenaFull 511#32 { s with heap := heapWithoutTwo s }) := by
  rw [exec_eq_finish, runOf, runTbMerge, mergeStep_full h hn, andThen_raise, finish_raise]

theorem exec_tbMerge_overflow (h : 2 ≤ heapSize s) (hn : nodeCount s ≠ 511)
    (hf : (keyOf s (firstOut s)).toNat + (keyOf s (secondOut s)).toNat > 2 ^ 32 - 1) :
    exec .tbMerge s = .next (takeError .freqOverflow (((secondOut s).setWidth 32 <<< 16) ||| (firstOut s).setWidth 32)
      { s with heap := heapWithoutTwo s }) := by
  rw [exec_eq_finish, runOf, runTbMerge, mergeStep_overflow h hn hf, andThen_raise, finish_raise]

theorem exec_tbMerge_room (h : 2 ≤ heapSize s) (hc : heapSize s ≤ 256) (hn : nodeCount s < 511)
    (hf : (keyOf s (firstOut s)).toNat + (keyOf s (secondOut s)).toNat ≤ 2 ^ 32 - 1) :
    exec .tbMerge s = .next (completeCommand (setResult (BitVec.ofNat 32 (nodeCount s)) (mergedState s))) := by
  rw [exec_eq_finish, runOf, runTbMerge, mergeStep_done h hc (Nat.ne_of_lt hn) hf, andThen_done, finish_done,
    nodeIndex_setWidth hn]

end

/-- Settles O27: the state is `mergedState`, whose queue is two removals and an insertion. -/
theorem tbMergeJoinsTheTwoLeast : Obligations.TbMergeJoinsTheTwoLeast := by
  rintro s _ _ h2 hc hn ha rfl rfl hf
  refine ⟨_, heapWithoutTwo s, exec_tbMerge_room h2 hc hn hf, ?_, heapInsert_insertedUp _ _ _, merge_perm h2,
    mergedState_heap_perm s, rfl, fun ho => ?_⟩
  · exact ⟨_, heapRemove_removedDown _ _, rfl, heapRemove_removedDown _ _⟩
  · obtain ⟨hab, hrest⟩ := merge_least h2 ho
    exact ⟨hab, hrest, mergedState_ordered ha ho⟩

/-- Settles O28: the branches of MergeStep that raise. -/
theorem tbMergeErrorsInOrder : Obligations.TbMergeErrorsInOrder := by
  rintro s _ _ rfl rfl
  exact ⟨exec_tbMerge_underflow, exec_tbMerge_full, exec_tbMerge_overflow⟩

end Sys2Proof.Machine
end

section
/-! SUPPORT. TB_BUILD: its end where the merges end and where one raises, and the statements about it
(42_tree_builder R108). -/

namespace Sys2Proof.Machine

/-! ### Where the merges end -/

/-- The state at the end of TB_BUILD, from the state after its merges, where at most one node is queued (R108): NIL is
the root of an empty queue. -/
def builtState (u : State) : State := completeCommand (takeRoot (slot u.heap 0) { u with heap := [] })

theorem exec_tbBuild_done {s u : State} (h : mergeAll s.heap.length s = .done () u) (h1 : u.heap.length ≤ 1) :
    exec .tbBuild s = .next (builtState u) := by
  rw [exec_eq_finish, runOf, runTbBuild, h, andThen_done, builtState]
  split
  · next hone =>
    have hrest : heapRemove (keyOf u) u.heap = [] :=
      List.eq_nil_of_length_eq_zero (by rw [heapRemove_length, hone])
    rw [pqRemoveNode_nonempty (by omega), andThen_done, finish_done, hrest]
  · next hone =>
    have hempty : u.heap = [] := List.eq_nil_of_length_eq_zero (by omega)
    have hroot : slot u.heap 0 = Config.nil := by rw [hempty]; rfl
    rw [finish_done, hroot, ← hempty]

theorem exec_tbBuild_raise {s v : State} {e : ErrKind} {arg : Word} (h : mergeAll s.heap.length s = .raise e arg v) :
    exec .tbBuild s = .next (takeError e arg v) := by
  rw [exec_eq_finish, runOf, runTbBuild, h, andThen_raise, finish_raise]

@[simp] theorem builtState_root (u : State) : (builtState u).root = slot u.heap 0 := rfl
@[simp] theorem builtState_err (u : State) : (builtState u).err = u.err := rfl

theorem keyOf_builtState (u : State) : keyOf (builtState u) = keyOf u := keyOf_congr rfl

theorem queuedFreq_singleton {s : State} {x : NodeIdx} (h : s.heap = [x]) : queuedFreq s = (keyOf s x).toNat := by
  simp [queuedFreq, h]

/-- Settles O29: the merges end with at most one node queued, `mergeAll_done` says which and `mergeAll_merged` how. -/
theorem tbBuildMakesTheRoot : Obligations.TbBuildMakesTheRoot := by
  intro s hc ha hn hroom hsum
  obtain ⟨u, hrun, hframe, hpre, hlen, hhlen, hsame, htwo, -, hfreq, -⟩ :=
    mergeAll_done s.heap.length s (Nat.le_refl _) hc ha hn hroom hsum
  have hmerged := mergeAll_merged s.heap.length s (Nat.le_refl _) hc
  rw [hrun] at hmerged
  obtain ⟨hmerges, hend, -⟩ := hmerged
  have hone : s.heap ≠ [] → u.heap = [slot u.heap 0] := fun hne => by
    have := List.length_pos_iff.2 hne
    obtain ⟨x, hx⟩ := List.length_eq_one_iff.1 (show u.heap.length = 1 by omega)
    rw [hx, slot_cons_zero]
  refine ⟨builtState u, u, exec_tbBuild_done hrun hend, congrArg builtState hframe, hmerges, rfl, hone, hpre, hlen,
    fun h0 => ?_, fun x hx => ?_, fun h2 => ?_, fun hne => ?_⟩
  · rw [builtState_root, hsame (by simp [h0]), h0]
    rfl
  · rw [builtState_root, hsame (by simp [hx]), hx, slot_cons_zero]
  · rw [builtState_root, htwo h2, slot_cons_zero]
    rfl
  · rw [keyOf_builtState]
    exact (queuedFreq_singleton (hone hne)).symm.trans hfreq

/-! ### Where a merge raises -/

section
variable {e : ErrKind} {arg : Word} {u v : State}

theorem MergeRaises.nodes_eq (h : MergeRaises e arg u v) : v.nodes = u.nodes := by
  obtain ⟨_, _, _, _, -, -, -, -, -, rfl, -⟩ := h
  rfl

theorem MergeRaises.two_queued (h : MergeRaises e arg u v) : 2 ≤ u.heap.length := by
  obtain ⟨_, _, _, _, h2, -⟩ := h
  exact h2

/-- The two errors of a merge: ARENA_FULL(511) at a full arena, else FREQ_OVERFLOW (R103). -/
theorem MergeRaises.error (h : MergeRaises e arg u v) :
    (u.nodes.length = 511 ∧ e = .arenaFull ∧ arg = 511#32) ∨ e = .freqOverflow := by
  obtain ⟨_, _, _, _, -, -, -, -, -, -, ⟨hn, he, harg⟩ | ⟨-, -, he, -⟩⟩ := h
  · exact .inl ⟨hn, he, harg⟩
  · exact .inr he

end

/-- A queue of at most one node holds no more than a word's frequency. -/
theorem queuedFreq_le_of_length_le_one {s : State} (h : s.heap.length ≤ 1) : queuedFreq s ≤ 2 ^ 32 - 1 := by
  rcases hh : s.heap with _ | ⟨x, _ | ⟨y, rest⟩⟩
  · simp [queuedFreq, hh]
  · rw [queuedFreq_singleton hh]
    have := (keyOf s x).isLt
    omega
  · simp [hh] at h

/-- Without room for the merges, or with a sum that does not fit, some merge raises: merges keep the nodes and the
queued nodes together, and the sum. -/
theorem exec_tbBuild_raises {s : State} (hc : s.heap.length ≤ 256) (ha : ∀ m ∈ s.heap, m.toNat < s.nodes.length)
    (hn : s.nodes.length ≤ 511)
    (hbad : 511 < s.nodes.length + (s.heap.length - 1) ∨ 2 ^ 32 - 1 < queuedFreq s) :
    ∃ u v e arg, exec .tbBuild s = .next (takeError e arg v) ∧ MergesKept s u ∧ MergeRaises e arg u v
      ∧ (e = .freqOverflow → 2 ^ 32 - 1 < queuedFreq s) := by
  have hmerged := mergeAll_merged s.heap.length s (Nat.le_refl _) hc
  rcases hrun : mergeAll s.heap.length s with ⟨_, u⟩ | ⟨e, arg, v⟩ | _ | _ <;> rw [hrun] at hmerged
  · obtain ⟨-, hone, hkept⟩ := hmerged
    obtain ⟨hcount, hroom, hsum⟩ := hkept ha hn
    have := queuedFreq_le_of_length_le_one hone
    omega
  · obtain ⟨u, -, hraise, hover, hkept⟩ := hmerged
    have hkept := hkept ha hn
    exact ⟨u, v, e, arg, exec_tbBuild_raise hrun, hkept, hraise, fun he => hkept.sum ▸ hover he⟩
  · exact hmerged.elim
  · exact hmerged.elim

/-- A TB_BUILD that ends with ERR = 1 has run into a merge that raises (R108). -/
theorem mergeAll_of_exec_tbBuild_err {s t : State} (hc : s.heap.length ≤ 256) (herr : s.err = false)
    (hexec : exec .tbBuild s = .next t) (ht : t.err = true) :
    ∃ e arg v, mergeAll s.heap.length s = .raise e arg v ∧ t = takeError e arg v := by
  have hframe := mergeAll_frame s.heap.length s
  have hmerged := mergeAll_merged s.heap.length s (Nat.le_refl _) hc
  rcases hrun : mergeAll s.heap.length s with ⟨_, u⟩ | ⟨e, arg, v⟩ | _ | _ <;> rw [hrun] at hframe hmerged
  · obtain ⟨-, hend, -⟩ := hmerged
    rw [exec_tbBuild_done hrun hend] at hexec
    cases hexec
    have hkept : u.err = s.err := (congrArg State.err (show u = _ from hframe) :)
    simp [hkept, herr] at ht
  · rw [exec_tbBuild_raise hrun] at hexec
    cases hexec
    exact ⟨e, arg, v, rfl, rfl⟩
  · exact hmerged.elim
  · exact hmerged.elim

/-- Settles O30: what the merges before the one that raises keep decides between its two errors. -/
theorem tbBuildErrorKeepsTheMergedNodes : Obligations.TbBuildErrorKeepsTheMergedNodes := by
  refine ⟨fun s t herr hc hexec ht => ?_,
    fun s hc ha hn => ⟨fun hroom hsum => ?_, fun hroom hsum => ?_, fun hroom _ => ?_⟩⟩
  · obtain ⟨e, arg, v, hrun, rfl⟩ := mergeAll_of_exec_tbBuild_err hc herr hexec ht
    have hkeeps := mergeAll_sat s.heap.length s hc
    have hmerged := mergeAll_merged s.heap.length s (Nat.le_refl _) hc
    rw [hrun] at hkeeps hmerged
    obtain ⟨-, hframe, hpre, hcount⟩ := hkeeps
    obtain ⟨u, hu, hraise, -⟩ := hmerged
    exact ⟨(congrArg State.root hframe :), (congrArg State.buCur hframe :), (congrArg State.result hframe :), hpre,
      hcount, congrArg (takeError e arg) hframe, u, v, e, arg, hu, hraise, rfl⟩
  · obtain ⟨u, v, e, arg, hexec, hkept, hraise, -⟩ := exec_tbBuild_raises hc ha hn (.inr hsum)
    refine ⟨_, hexec, rfl, ?_⟩
    rcases hraise.error with ⟨hfull, -, -⟩ | rfl
    · have := hkept.count
      have := hraise.two_queued
      simp only [nodeCount, heapSize] at hroom
      omega
    · rfl
  · obtain ⟨u, v, e, arg, hexec, -, hraise, hover⟩ := exec_tbBuild_raises hc ha hn (.inl hroom)
    rcases hraise.error with ⟨hfull, rfl, rfl⟩ | he
    · exact ⟨_, hexec, rfl, rfl, rfl, hraise.nodes_eq ▸ hfull⟩
    · exact absurd (hover he) (Nat.not_lt.2 hsum)
  · obtain ⟨u, v, e, arg, hexec, -, hraise, -⟩ := exec_tbBuild_raises hc ha hn (.inl hroom)
    refine ⟨_, hexec, rfl, ?_⟩
    rcases hraise.error with ⟨-, rfl, -⟩ | rfl
    · exact .inl rfl
    · exact .inr rfl

end Sys2Proof.Machine
end

section
/-! SUPPORT. TB_LOAD_LEAVES, and the tree that TB_BUILD makes of its leaves: its size, its symbols, and that it is
optimal (42_tree_builder R106, R108, R109). -/

namespace Sys2Proof.Machine

/-! ### TB_LOAD_LEAVES (42_tree_builder R106) -/

/-- The state after TB_LOAD_LEAVES, from its loop's end. -/
theorem exec_tbLoadLeaves_done {s t : State} {k : Nat} (h : loadLeaves allBytes 0 (treeClear s) = .done k t) :
    exec .tbLoadLeaves s = .next (completeCommand (setResult (BitVec.ofNat 32 k) t)) := by
  rw [exec_eq_finish, runOf, runTbLoadLeaves, h, andThen_done, finish_done]

/-- Settles O26: the loop from the cleared tree never meets a full arena or a full queue. -/
theorem tbLoadLeavesQueuesTheAlphabet : Obligations.TbLoadLeavesQueuesTheAlphabet := by
  intro s
  obtain ⟨t, hrun, hframe, hnodes, hperm, hord, hturn⟩ := loadLeaves_all s
  refine ⟨_, exec_tbLoadLeaves_done hrun, hnodes, hturn, hperm, hord, ?_⟩
  rw [hframe]
  rfl

/-! ### The queue of leaves -/

/-- The frequencies of the byte values, as numbers. -/
def freqOf (s : State) (b : Byte) : Nat := (freqAt s b).toNat

/-- What TB_LOAD_LEAVES leaves of `s`: the used byte values' leaves, queued with the heap property. -/
structure Loaded (s t : State) : Prop where
  nodes : t.nodes = (usedBytes s).map fun b => leafNode b (freqAt s b)
  queued : t.heap.Perm ((List.range (usedBytes s).length).map (BitVec.ofNat 9))
  ordered : HeapOrdered (keyOf t) t.heap

theorem exec_tbLoadLeaves_loaded (s : State) : ∃ t, exec .tbLoadLeaves s = .next t ∧ Loaded s t := by
  obtain ⟨t, hexec, hnodes, -, hperm, hord, -⟩ := tbLoadLeavesQueuesTheAlphabet s
  exact ⟨t, hexec, hnodes, hperm, hord⟩

section
variable {s t : State} (h : Loaded s t)
include h

theorem Loaded.nodes_length : t.nodes.length = (usedBytes s).length := by rw [h.nodes, List.length_map]

theorem Loaded.heap_length : t.heap.length = (usedBytes s).length := by
  rw [h.queued.length_eq, List.length_map, List.length_range]

theorem Loaded.allocated : ∀ m ∈ t.heap, m.toNat < t.nodes.length := by
  intro m hm
  obtain ⟨i, hi, rfl⟩ := List.mem_map.1 (h.queued.mem_iff.1 hm)
  have hlt := List.mem_range.1 hi
  have := usedBytes_length_le s
  rwa [ofNat_toNat_of_lt (by omega), h.nodes_length]

/-- The entry of the `i`th used byte value is its leaf, with its frequency. -/
theorem Loaded.leaf {i : Nat} (hi : i < (usedBytes s).length) :
    HoldsTree t.nodes (BitVec.ofNat 9 i) (.leaf (usedBytes s)[i])
      ∧ (keyOf t (BitVec.ofNat 9 i)).toNat = (CodeTree.leaf (usedBytes s)[i]).weight (freqOf s) := by
  have := usedBytes_length_le s
  have hentry : t.nodes[(BitVec.ofNat 9 i).toNat]? = some (leafNode (usedBytes s)[i] (freqAt s (usedBytes s)[i])) := by
    rw [ofNat_toNat_of_lt (by omega), h.nodes, List.getElem?_map, List.getElem?_eq_getElem hi, Option.map_some]
  refine ⟨.leaf _ _ hentry rfl, ?_⟩
  rw [keyOf, nodeAt_of_getElem? hentry]
  rfl

/-- The queue is a forest of leaves, one per used byte value, each with its frequency as weight. -/
theorem Loaded.forest :
    ∃ Ts, WeightedForest (freqOf s) t t.heap Ts ∧ Ts.Perm ((usedBytes s).map CodeTree.leaf) := by
  refine List.perm_comp_forall₂ h.queued (List.forall₂_iff_get.2 ⟨by simp, fun i _ hi => ?_⟩)
  simpa using h.leaf (by simpa using hi)

end

/-! ### The sum of the queued frequencies -/

theorem weight_leaf (f : Byte → Nat) (b : Byte) : (CodeTree.leaf b).weight f = f b := by
  simp [CodeTree.weight, CodeTree.symbols, CodeTree.paths]

theorem weightedDepth_leaf (f : Byte → Nat) (b : Byte) : (CodeTree.leaf b).weightedDepth f = 0 := by
  simp [CodeTree.weightedDepth, CodeTree.paths]

/-- The unused byte values add nothing to the sum. -/
theorem sum_usedIn (s : State) (bs : List Byte) : ((usedIn s bs).map (freqOf s)).sum = (bs.map (freqOf s)).sum := by
  induction bs with
  | nil => rfl
  | cons b rest ih =>
    by_cases h0 : freqAt s b = 0#32
    · have hdrop : usedIn s (b :: rest) = usedIn s rest := by simp [usedIn, h0]
      rw [hdrop, ih, List.map_cons, List.sum_cons, freqOf, h0, BitVec.toNat_zero, Nat.zero_add]
    · have hkeep : usedIn s (b :: rest) = b :: usedIn s rest := by simp [usedIn, h0]
      rw [hkeep, List.map_cons, List.sum_cons, ih, List.map_cons, List.sum_cons]

theorem sum_usedBytes (s : State) : ((usedBytes s).map (freqOf s)).sum = totalFreq s := sum_usedIn s allBytes

/-- The weights of the leaves of some byte values are their frequencies. -/
theorem map_weight_leaves (f : Byte → Nat) (bs : List Byte) :
    (bs.map CodeTree.leaf).map (CodeTree.weight f) = bs.map f := by
  rw [List.map_map]
  exact List.map_congr_left fun b _ => weight_leaf f b

theorem Loaded.queuedFreq_eq {s t : State} (h : Loaded s t) : queuedFreq t = totalFreq s := by
  obtain ⟨Ts, hforest, hperm⟩ := h.forest
  rw [queuedFreq, hforest.weights, (hperm.map _).sum_eq, map_weight_leaves, sum_usedBytes]

/-! ### The tree that TB_BUILD makes of the leaves -/

/-- A tree over the same byte values, as weights at depths of a binary tree's leaves. -/
theorem CodeTree.weights_perm {T : CodeTree} {bs : List Byte} (f : Byte → Nat) (h : T.symbols.Perm bs) :
    ((T.paths.map fun c => (f c.1, c.2.length)).map Prod.fst).Perm (bs.map f) := by
  have hsym : (T.paths.map fun c => (f c.1, c.2.length)).map Prod.fst = T.symbols.map f := by
    simp [CodeTree.symbols, Function.comp_def]
  rw [hsym]
  exact h.map f

/-- The tree TB_BUILD makes of the loaded leaves has their byte values, and no tree over them is cheaper:
`mergeAll_optimal` with each leaf's weight its frequency and no cost below it (R109). -/
theorem Loaded.build_optimal {s t : State} (h : Loaded s t) (hsum : totalFreq s ≤ 2 ^ 32 - 1)
    (hused : 1 ≤ (usedBytes s).length) :
    ∃ u T, exec .tbBuild t = .next u ∧ HoldsTree u.nodes u.root T ∧ T.symbols.Perm (usedBytes s)
      ∧ ∀ T' : CodeTree, T'.symbols.Perm (usedBytes s) →
        T.weightedDepth (freqOf s) ≤ T'.weightedDepth (freqOf s) := by
  have hk := usedBytes_length_le s
  have hn := h.nodes_length
  have hh := h.heap_length
  obtain ⟨Ts, hforest, hperm⟩ := h.forest
  obtain ⟨u, x, T, hrun, hx, hT, hsyms, hopt⟩ := mergeAll_optimal (freqOf s) t.heap.length t Ts (Nat.le_refl _)
    (by omega) h.allocated (by omega) (by omega) (h.queuedFreq_eq.trans_le hsum) h.ordered (by omega) hforest
  have hroot : (builtState u).root = x := by rw [builtState_root, hx, slot_cons_zero]
  refine ⟨builtState u, T, exec_tbBuild_done hrun (by simp [hx]), hroot.symm ▸ hT, ?_, fun T' hT' => ?_⟩
  · refine hsyms.trans ((hperm.flatMap_right _).trans ?_)
    simp [List.flatMap_map, CodeTree.symbols, CodeTree.paths]
  · have hzero : (Ts.map (CodeTree.weightedDepth (freqOf s))).sum = 0 := by
      rw [(hperm.map _).sum_eq, List.map_map]
      exact List.sum_eq_zero (by simp [weightedDepth_leaf])
    have hweights := hperm.map (CodeTree.weight (freqOf s))
    rw [map_weight_leaves] at hweights
    have hle := hopt (T'.paths.map fun c => (freqOf s c.1, c.2.length))
      (by simpa [Function.comp_def] using T'.fullDepths) ((CodeTree.weights_perm _ hT').trans hweights.symm)
    rwa [hzero, Nat.zero_add, ← CodeTree.weightedDepth_eq_pairCost] at hle

/-- Settles O31: the loaded leaves meet TB_BUILD's conditions, and its tree is that of `Loaded.build_optimal`. -/
theorem loadThenBuildMakesTheTree : Obligations.LoadThenBuildMakesTheTree := by
  intro s hsum
  obtain ⟨t, hload, h⟩ := exec_tbLoadLeaves_loaded s
  have hk := usedBytes_length_le s
  have hn := h.nodes_length
  have hh := h.heap_length
  obtain ⟨u, _, hbuild, hframe, -, -, -, -, hlen, hnil, hone, htwo, hfreq⟩ := tbBuildMakesTheRoot t
    (by simp only [heapSize]; omega) h.allocated (by simp only [nodeCount]; omega)
    (by simp only [nodeCount, heapSize]; omega) (h.queuedFreq_eq.trans_le hsum)
  simp only [nodeCount, heapSize] at hlen htwo
  refine ⟨t, u, hload, hbuild, congrArg State.heap hframe, congrArg State.buCur hframe, fun h0 => ⟨?_, ?_⟩,
    fun h1 => ⟨by omega, ?_, ?_, ?_⟩⟩
  · exact List.eq_nil_of_length_eq_zero (by omega)
  · exact hnil (List.eq_nil_of_length_eq_zero (by omega))
  · rcases Nat.lt_or_ge 1 (usedBytes s).length with h2 | h2
    · rw [htwo (by omega)]
      congr 1
      omega
    · have hk1 : (usedBytes s).length = 1 := by omega
      have hheap : t.heap = [0#9] := List.perm_singleton.1 (by simpa [hk1] using h.queued)
      rw [hone _ hheap, hk1]
  · exact (hfreq (List.ne_nil_of_length_pos (by omega))).trans h.queuedFreq_eq
  · obtain ⟨u', T, hbuild', hT, hsyms, -⟩ := h.build_optimal hsum h1
    cases hbuild.symm.trans hbuild'
    exact ⟨T, hT, hsyms⟩

/-- Settles O32, by `Loaded.build_optimal`. -/
theorem loadThenBuildIsOptimal : Obligations.LoadThenBuildIsOptimal := by
  intro s hsum hused
  obtain ⟨t, hload, h⟩ := exec_tbLoadLeaves_loaded s
  obtain ⟨u, T, hbuild, hT⟩ := h.build_optimal hsum hused
  exact ⟨t, u, T, hload, hbuild, hT⟩

end Sys2Proof.Machine
end

section
/-! SUPPORT. CG_GENERATE: its outcome where every leaf's code fits and where one does not, and the statements about the
code table (43_code_table R110, R111). -/

namespace Sys2Proof.Machine

/-! ### CG_GENERATE as an assignment of the tree's codes (43_code_table R110) -/

/-- A code of a whole tree as a leaf to be given a code. -/
def LeafCode.ofCode (c : Byte × List Bool) : LeafCode := ⟨c.1, bitsValue c.2, c.2.length⟩

/-- Walk(ROOT, 0, 0) meets the tree's codes. -/
theorem CodeTree.leafCodes_root (l r : CodeTree) :
    (CodeTree.node l r).leafCodes 0 0 = (CodeTree.node l r).codes.map LeafCode.ofCode := by
  simp [CodeTree.leafCodes, CodeTree.codes, LeafCode.ofCode]

/-- The branches for a single leaf and for an internal root both assign the tree's codes to a cleared table. -/
theorem runCgGenerate_eq_assignAll {s : State} {T : CodeTree} (h0 : s.root ≠ Config.nil)
    (hT : HoldsTree s.nodes s.root T) :
    runCgGenerate s = (assignAll (T.codes.map LeafCode.ofCode) 0 (clearCodes s)).andThen
      fun count t => .done () (setResult (BitVec.ofNat 32 count) t) := by
  rw [runCgGenerate, generateCodes, clearCodes_root, if_neg h0]
  cases hT with
  | leaf _ n hn hl =>
    have hroot : nodeAt (clearCodes s) s.root = n := nodeAt_of_getElem? hn
    rw [isLeaf, hroot, if_pos hl]
    simp [CodeTree.codes, LeafCode.ofCode, assignAll, assignLeaf, bitsValue]
  | node _ n l r hn hl hL hR =>
    have hroot : nodeAt (clearCodes s) s.root = n := nodeAt_of_getElem? hn
    have hwalk := walk_eq_assignAll (s := clearCodes s) (path := 0)
      (HoldsTree.node _ n l r hn hl hL hR) (show 512 + 0 = 512 from rfl) 0
    rw [isLeaf, hroot, if_neg (by simp [hl]), hwalk, CodeTree.leafCodes_root]

/-! ### The table after codes are assigned -/

/-- Codes that a cleared table takes: no symbol twice, each of 1 to 32 bits. -/
structure Assignable (cs : List (Byte × List Bool)) : Prop where
  nodup : (cs.map Prod.fst).Nodup
  nonempty : ∀ c ∈ cs, c.2 ≠ []
  short : ∀ c ∈ cs, c.2.length ≤ 32

/-- The table holds these codes and no others (10_state R45). -/
structure HoldsCodes (t : State) (cs : List (Byte × List Bool)) : Prop where
  coded : ∀ c ∈ cs, (codeAt t c.1).toNat = bitsValue c.2 ∧ (lenAt t c.1).toNat = c.2.length
  others : ∀ b, b ∉ cs.map Prod.fst → codeAt t b = 0#32 ∧ lenAt t b = 0#6

theorem map_sym_ofCode (cs : List (Byte × List Bool)) :
    (cs.map LeafCode.ofCode).map LeafCode.sym = cs.map Prod.fst := by
  rw [List.map_map]
  rfl

/-- `assignAll_done` on a cleared table. -/
theorem assignAll_holdsCodes {cs : List (Byte × List Bool)} (h : Assignable cs) (s : State) :
    ∃ t, assignAll (cs.map LeafCode.ofCode) 0 (clearCodes s) = .done cs.length t
      ∧ t = { s with code := t.code, len := t.len } ∧ HoldsCodes t cs := by
  obtain ⟨t, hrun, hframe, hcoded, hothers⟩ := assignAll_done (cs.map LeafCode.ofCode) 0 (clearCodes s)
    (List.forall_mem_map.2 fun c hc => ⟨List.length_pos_iff.2 (h.nonempty c hc), h.short c hc⟩)
    (List.forall_mem_map.2 fun c _ => bitsValue_lt c.2) (map_sym_ofCode cs ▸ h.nodup) (fun _ _ => lenAt_clearCodes _ s)
  refine ⟨t, ?_, hframe, List.forall_mem_map.1 hcoded, fun b hb => ?_⟩
  · rw [hrun, List.length_map, Nat.zero_add]
  · obtain ⟨hcode, hlen⟩ := hothers b (by rwa [map_sym_ofCode])
    exact ⟨hcode.trans (codeAt_clearCodes b s), hlen.trans (lenAt_clearCodes b s)⟩

/-- Exactly the symbols of the table's codes have a length. -/
theorem HoldsCodes.lenAt_ne_zero_iff {t : State} {cs : List (Byte × List Bool)} (h : HoldsCodes t cs)
    (hne : ∀ c ∈ cs, c.2 ≠ []) (b : Byte) : lenAt t b ≠ 0#6 ↔ b ∈ cs.map Prod.fst := by
  constructor
  · intro hlen
    by_contra hb
    exact hlen (h.others b hb).2
  · intro hb hlen
    obtain ⟨c, hc, rfl⟩ := List.mem_map.1 hb
    have hlength := (h.coded c hc).2
    rw [hlen] at hlength
    exact hne c hc (List.eq_nil_of_length_eq_zero hlength.symm)

/-- A leaf below depth 32 is refused first, else one whose symbol has a code (60_exceptions R137). -/
theorem assignLeaf_bad {c : LeafCode} {s : State} (count : Nat) (hdeep : c.depth < 512)
    (hbad : 32 < c.depth ∨ lenAt s c.sym ≠ 0#6) :
    assignLeaf c count s = .raise (if 32 < c.depth then .codeTooLong else .dupSymbol) (c.sym.setWidth 32) s := by
  rw [assignLeaf, if_neg (Nat.not_le_of_lt hdeep)]
  by_cases hlong : 32 < c.depth
  · rw [if_pos hlong, if_pos hlong]
  · rw [if_neg hlong, if_neg hlong, if_pos (hbad.resolve_left hlong)]

/-! ### The outcomes of CG_GENERATE -/

theorem exec_cgGenerate_empty {s : State} (h : s.root = Config.nil) :
    exec .cgGenerate s = .next (completeCommand (setResult 0#32 (clearCodes s))) := by
  rw [exec_eq_finish, runOf, runCgGenerate, generateCodes, clearCodes_root, if_pos h, finish_done]

section
variable {s : State} {T : CodeTree} (h0 : s.root ≠ Config.nil) (hT : HoldsTree s.nodes s.root T)
include h0 hT

theorem exec_cgGenerate_assignable (h : Assignable T.codes) :
    ∃ t, exec .cgGenerate s = .next t
      ∧ t = completeCommand { s with code := t.code, len := t.len, result := BitVec.ofNat 32 T.codes.length }
      ∧ HoldsCodes t T.codes := by
  obtain ⟨t, hrun, hframe, hcodes⟩ := assignAll_holdsCodes h s
  refine ⟨completeCommand (setResult (BitVec.ofNat 32 T.codes.length) t), ?_, ?_, hcodes.coded, hcodes.others⟩
  · rw [exec_eq_finish, runOf, runCgGenerate_eq_assignAll h0 hT, hrun, andThen_done, finish_done]
  · exact congrArg (fun u => completeCommand (setResult (BitVec.ofNat 32 T.codes.length) u)) hframe

/-- Only codes that a cleared table takes let CG_GENERATE end without an error. -/
theorem assignable_of_exec_cgGenerate {t : State} (hexec : exec .cgGenerate s = .next t) (herr : t.err = false) :
    Assignable T.codes := by
  rw [exec_eq_finish, runOf, runCgGenerate_eq_assignAll h0 hT] at hexec
  have hframe := assignAll_frame (T.codes.map LeafCode.ofCode) 0 (clearCodes s)
  rcases hrun : assignAll (T.codes.map LeafCode.ofCode) 0 (clearCodes s) with ⟨n, u⟩ | ⟨e, arg, u⟩ | u | f <;>
    rw [hrun] at hexec hframe
  · have hpos : ∀ c ∈ T.codes.map LeafCode.ofCode, 1 ≤ c.depth :=
      List.forall_mem_map.2 fun c hc => List.length_pos_iff.2 (CodeTree.codes_ne_nil hc)
    obtain ⟨hshort, hnodup, -⟩ := assignAll_done_inv _ _ _ _ _ hpos hrun
    exact ⟨map_sym_ofCode T.codes ▸ hnodup, fun c hc => CodeTree.codes_ne_nil hc, List.forall_mem_map.1 hshort⟩
  · cases hexec
    cases herr
  · exact hframe.elim
  · cases hexec

/-- The walk assigns the codes before the first bad leaf and raises there. -/
theorem exec_cgGenerate_bad {pre post : List (Byte × List Bool)} {c : Byte × List Bool}
    (hcs : T.codes = pre ++ c :: post) (hpre : Assignable pre) (hbad : 32 < c.2.length ∨ c.1 ∈ pre.map Prod.fst)
    (hdeep : c.2.length ≤ 510) :
    ∃ t, exec .cgGenerate s = .next t
      ∧ t = takeError (if 32 < c.2.length then .codeTooLong else .dupSymbol) (c.1.setWidth 32)
          { s with code := t.code, len := t.len }
      ∧ HoldsCodes t pre := by
  obtain ⟨t, hrun, hframe, hcodes⟩ := assignAll_holdsCodes hpre s
  refine ⟨takeError _ _ t, ?_, congrArg (takeError _ _) hframe, hcodes.coded, hcodes.others⟩
  have hleaf := assignLeaf_bad (c := .ofCode c) pre.length (Nat.lt_of_le_of_lt hdeep (by decide))
    (hbad.imp_right (hcodes.lenAt_ne_zero_iff hpre.nonempty c.1).2)
  rw [exec_eq_finish, runOf, runCgGenerate_eq_assignAll h0 hT, hcs, List.map_append, assignAll_append, hrun,
    andThen_done, List.map_cons, assignAll, hleaf, andThen_raise, andThen_raise, finish_raise]
  rfl

end

/-! ### The codes of a tree (43_code_table R111) -/

section
variable {t : State} {cs : List (Byte × List Bool)} (hcodes : HoldsCodes t cs) (h : Assignable cs)
include hcodes h

theorem HoldsCodes.assigned_perm : (allBytes.filter fun b => lenAt t b ≠ 0#6).Perm (cs.map Prod.fst) := by
  refine (List.perm_ext_iff_of_nodup (allBytes_nodup.filter _) h.nodup).2 fun b => ?_
  rw [List.mem_filter, decide_eq_true_iff, hcodes.lenAt_ne_zero_iff h.nonempty, and_iff_right (mem_allBytes b)]

theorem HoldsCodes.sum_assigned :
    ((allBytes.filter fun b => lenAt t b ≠ 0#6).map fun b => 2 ^ (32 - (lenAt t b).toNat)).sum
      = (cs.map fun c => 2 ^ (32 - c.2.length)).sum := by
  rw [((hcodes.assigned_perm h).map _).sum_eq, List.map_map]
  exact congrArg List.sum (List.map_congr_left fun c hc => by rw [Function.comp_apply, (hcodes.coded c hc).2])

end

/-- Where no code begins another symbol's, no assigned entry is the front of another. -/
theorem HoldsCodes.prefix_free {t : State} {cs : List (Byte × List Bool)} (hcodes : HoldsCodes t cs)
    (h : Assignable cs) (hfree : ∀ c ∈ cs, ∀ d ∈ cs, c.1 ≠ d.1 → ¬ c.2 <+: d.2) {b b' : Byte} (hbb : b ≠ b')
    (hb : lenAt t b ≠ 0#6) (hle : lenAt t b ≤ lenAt t b') :
    (codeAt t b').toNat >>> ((lenAt t b').toNat - (lenAt t b).toNat) ≠ (codeAt t b).toNat := by
  have hb' : lenAt t b' ≠ 0#6 := fun hzero => hb (BitVec.le_zero_iff.1 (hzero ▸ hle))
  obtain ⟨c, hc, rfl⟩ := List.mem_map.1 ((hcodes.lenAt_ne_zero_iff h.nonempty b).1 hb)
  obtain ⟨d, hd, rfl⟩ := List.mem_map.1 ((hcodes.lenAt_ne_zero_iff h.nonempty b').1 hb')
  rw [BitVec.le_def, (hcodes.coded c hc).2, (hcodes.coded d hd).2] at hle
  rw [(hcodes.coded c hc).1, (hcodes.coded c hc).2, (hcodes.coded d hd).1, (hcodes.coded d hd).2]
  exact fun hfront => hfree c hc d hd hbb (prefix_of_shift hle hfront)

/-! ### The statements about the code table -/

/-- Settles O33: a tree's codes that fit are assigned to a cleared table, and the empty tree leaves it cleared. -/
theorem cgGenerateAssignsTreePaths : Obligations.CgGenerateAssignsTreePaths := by
  refine ⟨fun s T h0 hT hnodup hshort => ?_, fun s h0 => ?_⟩
  · obtain ⟨t, hexec, hframe, hcodes⟩ :=
      exec_cgGenerate_assignable h0 hT ⟨hnodup, fun c hc => CodeTree.codes_ne_nil hc, hshort⟩
    exact ⟨t, hexec, hframe, hcodes.coded, hcodes.others⟩
  · exact ⟨_, exec_cgGenerate_empty h0, rfl, fun b => ⟨codeAt_clearCodes b s, lenAt_clearCodes b s⟩⟩

/-- Settles O34: the codes before the bad leaf are assigned, and the walk raises at it. -/
theorem cgGenerateStopsAtFirstBadLeaf : Obligations.CgGenerateStopsAtFirstBadLeaf := by
  intro s T pre post c h0 hT hcs hnodup hshort hbad hdeep
  have hne : ∀ p ∈ pre, p.2 ≠ [] := fun p hp => CodeTree.codes_ne_nil (T := T) (hcs ▸ List.mem_append_left _ hp)
  obtain ⟨t, hexec, hframe, hcodes⟩ := exec_cgGenerate_bad h0 hT hcs ⟨hnodup, hne, hshort⟩ hbad hdeep
  exact ⟨t, hexec, hframe, hcodes.coded, hcodes.others⟩

/-- Settles O35: without an error the table holds the tree's paths: none begins another, and they fill the code space. -/
theorem codesArePrefixFree : Obligations.CodesArePrefixFree := by
  intro s t l r h0 hT _ hexec herr
  have hfit := assignable_of_exec_cgGenerate h0 hT hexec herr
  obtain ⟨u, hexec', hframe, hcodes⟩ := exec_cgGenerate_assignable h0 hT hfit
  cases hexec.symm.trans hexec'
  have hcount : (CodeTree.node l r).codes.length = (allBytes.filter fun b => lenAt t b ≠ 0#6).length := by
    rw [(hcodes.assigned_perm hfit).length_eq, List.length_map]
  have hsmall := allBytes_length ▸ List.length_filter_le (fun b => lenAt t b ≠ 0#6) allBytes
  have hresult : t.result.toNat = (CodeTree.node l r).codes.length := by
    rw [show t.result = _ from congrArg State.result hframe]
    exact Nat.mod_eq_of_lt (by omega)
  refine ⟨hcodes.lenAt_ne_zero_iff hfit.nonempty, hresult.trans (CodeTree.codes_length _), fun b b' => ?_, ?_,
    hresult.trans hcount⟩
  · exact hcodes.prefix_free hfit fun c hc d hd => CodeTree.paths_prefix_free _ hc hd
  · rw [hcodes.sum_assigned hfit]
    exact CodeTree.paths_fill _ hfit.short

end Sys2Proof.Machine
end

section
/-! SUPPORT. The serializer's commands: the outcome of each in the branches of its pseudocode, and the statements about
them (44_tree_serializer R112 to R119). -/

namespace Sys2Proof.Machine

/-! ### TS_MEASURE and TS_WRITE_TREE (44_tree_serializer R113, R114, R118) -/

section
variable {s t : State}

theorem serTree_root_nil (h : s.root = Config.nil) : serTree s s.root = [] := h ▸ serTree_nil s

theorem serSizeSat_root_nil (h : s.root = Config.nil) : serSizeSat s s.root = 0 := by
  rw [serSizeSat, serTree_root_nil h, List.length_nil, Nat.zero_min]

theorem exec_tsMeasure_fits (h : serSizeSat s s.root ≤ Config.maxTreeSize) :
    exec .tsMeasure s = .next (completeCommand { s with
      treeSize := BitVec.ofNat 13 (serSizeSat s s.root), result := BitVec.ofNat 32 (serSizeSat s s.root) }) := by
  rw [exec_eq_finish, runOf, runTsMeasure, if_neg (Nat.not_lt_of_le h), finish_done]

theorem exec_tsMeasure_large (h : serSizeSat s s.root = 8192) :
    exec .tsMeasure s = .next (takeError .hdrRange 8192#32 s) := by
  rw [exec_eq_finish, runOf, runTsMeasure, h, if_pos (by decide), finish_raise]

theorem exec_tsWriteTree_fits (h : serSizeSat s s.root ≤ Config.maxTreeSize)
    (he : emitAll (serTree s s.root) s = .done () t) :
    exec .tsWriteTree s = .next (completeCommand { t with result := BitVec.ofNat 32 (serSizeSat s s.root) }) := by
  rw [exec_eq_finish, runOf, runTsWriteTree, if_neg (Nat.not_lt_of_le h), he, andThen_done, finish_done, setResult]

theorem exec_tsWriteTree_large (h : serSizeSat s s.root = 8192) :
    exec .tsWriteTree s = .next (takeError .hdrRange 8192#32 s) := by
  rw [exec_eq_finish, runOf, runTsWriteTree, h, if_pos (by decide), finish_raise]

end

/-! ### TS_PAD (44_tree_serializer R115) -/

/-- A bound on every code's length bounds the payload. -/
theorem payloadBits_le {s : State} {m : Nat} (h : ∀ b, (lenAt s b).toNat ≤ m) :
    payloadBits s ≤ 256 * ((2 ^ 32 - 1) * m) := by
  rw [payloadBits_eq_sum]
  refine (sum_le_length_mul (m := (2 ^ 32 - 1) * m) ?_).trans_eq (by rw [List.length_map, allBytes_length])
  exact List.forall_mem_map.2 fun b _ => Nat.mul_le_mul (Nat.le_sub_one_of_lt (freqAt s b).isLt) (h b)

theorem exec_tsPad (s : State) : exec .tsPad s = .next (completeCommand { s with
    totalBits := BitVec.ofNat 64 (payloadBits s), pad := BitVec.ofNat 3 (paddingFor (payloadBits s))
    result := BitVec.ofNat 32 (paddingFor (payloadBits s)) }) := by
  rw [exec_eq_finish, runOf, runTsPad, finish_done]

theorem totalBits_toNat (s : State) : (BitVec.ofNat 64 (payloadBits s)).toNat = payloadBits s :=
  BitVec.toNat_ofNat _ _ ▸ Nat.mod_eq_of_lt (payloadBits_lt s)

theorem pad_toNat (t : Nat) : (BitVec.ofNat 3 (paddingFor t)).toNat = paddingFor t :=
  BitVec.toNat_ofNat _ _ ▸ Nat.mod_eq_of_lt (paddingFor_spec t).1

/-- PAD, as the register RESULT holds it. -/
theorem pad_setWidth (t : Nat) : (BitVec.ofNat 3 (paddingFor t)).setWidth 32 = BitVec.ofNat 32 (paddingFor t) := by
  apply BitVec.eq_of_toNat_eq
  rw [BitVec.toNat_setWidth, pad_toNat, BitVec.toNat_ofNat]

/-! ### The header (44_tree_serializer R116, R117) -/

/-- The header leaves as its two bytes, the high one first. -/
theorem finish_emitHeader_open {s : State} (h : BitVec 16) (ho : s.outRoom = none) :
    finish s (emitHeader h s) = .next (completeCommand { s with
      outSeq := s.outSeq ++ [(h >>> 8).setWidth 8, h.setWidth 8], outCount := s.outCount + 2#32 }) := by
  have hhigh : h.extractLsb' 8 8 = (h >>> 8).setWidth 8 := rfl
  have hlow : h.extractLsb' 0 8 = h.setWidth 8 := (BitVec.setWidth_eq_extractLsb' (by decide)).symm
  rw [emitHeader, emitAll_open _ s ho, finish_done, hhigh, hlow]
  rfl

/-! ### The statements about the serializer -/

/-- Settles O36: the walk's saturated size is the serialized form's length where that fits, and 8192 above. -/
theorem tsMeasureCountsTheSerializedTree : Obligations.TsMeasureCountsTheSerializedTree := by
  refine ⟨fun s T h0 hT => ?_, fun s h0 => ?_⟩
  · obtain ⟨hfits, hlarge⟩ := serTree_of_holdsTree h0 hT
    split_ifs with hle
    · have hsize := (hfits hle).2
      rw [exec_tsMeasure_fits (hsize ▸ hle), hsize]
    · exact exec_tsMeasure_large (hlarge (Nat.lt_of_not_le hle))
  · have hsize : serSizeSat s s.root = 0 := serSizeSat_root_nil h0
    rw [exec_tsMeasure_fits (by rw [hsize]; decide), hsize]

/-- Settles O37: the sum fits TOTAL_BITS, the padding fits PAD and fills the payload's last byte. -/
theorem tsPadCountsThePayload : Obligations.TsPadCountsThePayload := by
  refine ⟨rfl, fun s => ⟨_, exec_tsPad s, ?_, ?_, ?_, ?_, fun hlen => ?_⟩⟩
  · rw [completeCommand_totalBits, completeCommand_pad, pad_setWidth]
  all_goals simp only [completeCommand_totalBits, completeCommand_pad, totalBits_toNat, pad_toNat]
  · exact payloadBits_eq_sum s
  · rfl
  · exact (paddingFor_spec _).2
  · exact (payloadBits_le hlen).trans_lt (by decide)

/-- Settles O38: both commands emit a 16-bit header, and PAD above TREE_SIZE is one. -/
theorem headerCommandsEmitTwoBytes : Obligations.HeaderCommandsEmitTwoBytes := by
  refine ⟨rfl, fun s h ho => ⟨?_, ?_, fun hh => ?_⟩⟩
  · exact BitVec.append_def _ _
  · exact finish_emitHeader_open h ho
  · have hheader : s.pad ++ s.treeSize = h := by
      rw [hh, ← BitVec.setWidth_append_eq_shiftLeft_setWidth_or, BitVec.setWidth_eq]
    rw [exec_eq_finish, runOf, runTsWriteHeader, hheader, finish_emitHeader_open h ho]

/-- Settles O39: the bytes emitted are the walk's, which are the serialized form where that fits. -/
theorem tsWriteTreeEmitsTheTree : Obligations.TsWriteTreeEmitsTheTree := by
  refine ⟨fun s T h0 hT ho => ?_, fun s h0 => ?_⟩
  · obtain ⟨hfits, hlarge⟩ := serTree_of_holdsTree h0 hT
    split_ifs with hle
    · obtain ⟨hbytes, hsize⟩ := hfits hle
      rw [exec_tsWriteTree_fits (hsize ▸ hle) (emitAll_open _ s ho), hbytes, hsize]
    · exact exec_tsWriteTree_large (hlarge (Nat.lt_of_not_le hle))
  · have hsize : serSizeSat s s.root = 0 := serSizeSat_root_nil h0
    have hnone : emitAll (serTree s s.root) s = .done () s := by rw [serTree_root_nil h0, emitAll]
    rw [exec_tsWriteTree_fits (by rw [hsize]; decide) hnone, hsize]

end Sys2Proof.Machine
end

section
/-! SUPPORT. The deserializer's commands: the outcome of TD_READ_HEADER with two bytes in the stream and with fewer, the
state TD_READ_TREE is in where its reading ends, and the statements about them (45_tree_deserializer R120, R121). -/

namespace Sys2Proof.Machine

/-! ### TD_READ_HEADER (45_tree_deserializer R120) -/

section
variable {s : State}

theorem headerByte_front {already : Word} {b : Byte} {rest : List Byte} (h0 : s.inRem ≠ 0#32) (h : s.inSeq = b :: rest) :
    headerByte already s = .done b { s with inSeq := rest, inRem := s.inRem - 1#32 } := by
  rw [headerByte, if_neg h0, inRead_cons h]

theorem headerByte_ended (already : Word) (h0 : s.inRem = 0#32) :
    headerByte already s = .raise .fmtTruncatedHeader already s := if_pos h0

/-- The header's fields in shifts of its bytes, as R120 writes them. -/
theorem takeHeader_eq_shifts (b0 b1 : Byte) (s : State) : takeHeader b0 b1 s = { s with
    pad := (b0 >>> 5).setWidth 3
    treeSize := (b0.setWidth 13 <<< 8) ||| b1.setWidth 13
    result := (b0.setWidth 32 <<< 8) ||| b1.setWidth 32 } := by
  have hpad : b0.extractLsb' 5 3 = (b0 >>> 5).setWidth 3 := rfl
  have hsize : b0.extractLsb' 0 5 ++ b1 = (b0.setWidth 13 <<< 8) ||| b1.setWidth 13 := by
    rw [← BitVec.setWidth_append_eq_shiftLeft_setWidth_or, ← BitVec.setWidth_eq_extractLsb' (by decide)]
    exact (BitVec.setWidth_append_of_eq rfl).symm
  have hresult : 0#16 ++ b0 ++ b1 = (b0.setWidth 32 <<< 8) ||| b1.setWidth 32 := by
    rw [← BitVec.setWidth_append_eq_shiftLeft_setWidth_or, BitVec.setWidth_eq_append (by decide), BitVec.append_assoc]
  rw [takeHeader, hpad, hsize, hresult]

theorem exec_tdReadHeader_two {b0 b1 : Byte} {rest : List Byte} (h : s.inSeq = b0 :: b1 :: rest)
    (hr : 2 ≤ s.inRem.toNat) : exec .tdReadHeader s
      = .next (completeCommand (takeHeader b0 b1 { s with inSeq := rest, inRem := s.inRem - 2#32 })) := by
  have h0 : s.inRem ≠ 0#32 := by bv_omega
  have h1 : s.inRem - 1#32 ≠ 0#32 := by bv_omega
  rw [exec_eq_finish, runOf, runTdReadHeader, headerByte_front h0 h, andThen_done,
    headerByte_front (s := { s with inSeq := _, inRem := _ }) h1 rfl, andThen_done, finish_done, sub_one_one]

theorem exec_tdReadHeader_none (h0 : s.inRem = 0#32) :
    exec .tdReadHeader s = .next (takeError .fmtTruncatedHeader 0#32 s) := by
  rw [exec_eq_finish, runOf, runTdReadHeader, headerByte_ended _ h0, andThen_raise, finish_raise]

theorem exec_tdReadHeader_one {b0 : Byte} (h : s.inSeq = [b0]) (h1 : s.inRem = 1#32) : exec .tdReadHeader s
      = .next (takeError .fmtTruncatedHeader 1#32 { s with inSeq := [], inRem := 0#32 }) := by
  have hnone : s.inRem - 1#32 = 0#32 := by rw [h1, BitVec.sub_self]
  rw [exec_eq_finish, runOf, runTdReadHeader, headerByte_front (by rw [h1]; decide) h, andThen_done, hnone,
    headerByte_ended _ rfl, andThen_raise, finish_raise]

end

/-! ### TD_READ_TREE from its start to where its reading ends (45_tree_deserializer R121) -/

/-- TD_READ_TREE, run from `s`, once it has consumed `k` bytes and allocated the nodes `ns`, with `rest` left of the stream
and the frames `ds` pending (45_tree_deserializer R121). -/
def readingState (s : State) (k : Nat) (ns : List Node) (rest : List Byte) (ds : List Frame) : State :=
  { s with
    nodes := ns, heap := [], root := Config.nil, buCur := Config.nil, dstack := ds
    inSeq := rest, inRem := s.inRem - BitVec.ofNat 32 k }

section
variable {s : State} {bs rest : List Byte} {ds : List Frame} {fs : List (Option NodeIdx)} {ns : List Node}

theorem exec_tdReadTree_empty (h : s.treeSize = 0#13) :
    exec .tdReadTree s = .next (completeCommand (setResult 0x1FF#32 (treeClear s))) := by
  rw [exec_eq_finish, runOf, runTdReadTree, if_pos h, finish_done]
  rfl

theorem exec_tdReadTree_nonempty (h : s.treeSize ≠ 0#13) :
    exec .tdReadTree s = finish s (readTree s.treeSize.toNat 0 { treeClear s with dstack := [] }) := by
  rw [exec_eq_finish, runOf, runTdReadTree, if_neg h]

/-- The bytes not consumed yet are among those of IN_REM. -/
theorem readingState_inRem_ge (hin : s.inSeq = bs ++ rest) (hrem : s.inSeq.length ≤ s.inRem.toNat) :
    (readingState s bs.length ns rest ds).inSeq.length ≤ (readingState s bs.length ns rest ds).inRem.toNat :=
  toNat_sub_ofNat_ge (by rwa [hin, List.length_append] at hrem)

/-- A whole tree: what is left is the test of its size. -/
theorem exec_tdReadTree_whole {T : CodeTree} (hT : ReadsAs bs T) (hleaves : T.leafCount ≤ 256)
    (hin : s.inSeq = bs ++ rest) (hrem : s.inSeq.length ≤ s.inRem.toNat) (h0 : s.treeSize ≠ 0#13)
    (hsize : bs.length ≤ s.treeSize.toNat) :
    exec .tdReadTree s = finish s (endTree (BitVec.ofNat 9 (2 * T.leafCount - 2)) bs.length
      (readingState s bs.length (T.entries 0) rest [])) := by
  obtain ⟨t, hread, ht⟩ := readTree_whole hT (s := { treeClear s with dstack := [] }) hin hrem hsize hleaves rfl rfl
  have hend : t = readingState s bs.length (T.entries 0) rest [] := ht
  rw [exec_tdReadTree_nonempty h0, ← hend, ← hread]
  rfl

/-- Inside a tree: reading goes on in tag position, with the nodes pending on the stack. -/
theorem exec_tdReadTree_pending (hp : PendingAfter bs fs ns) (hin : s.inSeq = bs ++ rest)
    (hrem : s.inSeq.length ≤ s.inRem.toNat) (h0 : s.treeSize ≠ 0#13) (hsize : bs.length ≤ s.treeSize.toNat) :
    ∃ fuel ds, exec .tdReadTree s = finish s (readTree fuel bs.length (readingState s bs.length ns rest ds))
      ∧ s.treeSize.toNat ≤ fuel + bs.length ∧ ds.map Frame.pending = fs := by
  obtain ⟨fuel, t, hread, hfuel, ht, hds⟩ := readTree_pending hp { treeClear s with dstack := [] } rest hin hrem hsize
    rfl rfl
  have hpos : t = readingState s bs.length ns rest t.dstack := ht
  refine ⟨fuel, t.dstack, ?_, hfuel, hds⟩
  rw [exec_tdReadTree_nonempty h0, ← hpos, ← hread]
  rfl

/-- A raise, `n` bytes on: the pending frames are discarded with the command. -/
theorem readTreeRaises_of_consumed {e : ErrKind} {arg k n : Nat} {more : List Byte} {all : List Node}
    (h : exec .tdReadTree s = finish s (.raise e (BitVec.ofNat 32 arg) { readingState s k ns more ds with
      nodes := all, inSeq := rest, inRem := (readingState s k ns more ds).inRem - BitVec.ofNat 32 n })) :
    ReadTreeRaises s e arg (k + n) all rest := by
  rw [ReadTreeRaises, h, finish_raise, readingState, sub_ofNat_assoc]
  rfl

/-! ### The end cases of TD_READ_TREE (45_tree_deserializer R121, R48) -/

theorem exec_tdReadTree_noBytes (h0 : s.treeSize ≠ 0#13) (hr : s.inRem = 0#32) : exec .tdReadTree s
    = .next (takeError .fmtTreeEos 0#32 { treeClear s with dstack := [] }) := by
  have hpos : 0 < s.treeSize.toNat := by bv_omega
  obtain ⟨fuel, hfuel⟩ := Nat.exists_eq_add_one.2 hpos
  rw [exec_tdReadTree_nonempty h0, hfuel, readTree, treeByte_eos (s := { treeClear s with dstack := [] }) hpos hr,
    andThen_raise, finish_raise]

/-- The first byte needs only an open stream, whatever IN_REM says of the bytes after it. -/
theorem exec_tdReadTree_firstByteBad {x : Byte} (h0 : s.treeSize ≠ 0#13) (hr : s.inRem ≠ 0#32) (hin : s.inSeq = x :: rest)
    (hx0 : x ≠ 0x30#8) (hx1 : x ≠ 0x31#8) : exec .tdReadTree s = .next (takeError .fmtBadTag (x.setWidth 32)
      { treeClear s with dstack := [], inSeq := rest, inRem := s.inRem - 1#32 }) := by
  have hpos : 0 < s.treeSize.toNat := by bv_omega
  obtain ⟨fuel, hfuel⟩ := Nat.exists_eq_add_one.2 hpos
  have hbyte : treeByte 0 { treeClear s with dstack := [] }
      = .done x { treeClear s with dstack := [], inSeq := rest, inRem := s.inRem - 1#32 } := by
    rw [treeByte, if_neg (by exact hpos.ne), if_neg (by exact hr),
      inRead_cons (s := { treeClear s with dstack := [] }) hin]
    rfl
  have harg : BitVec.ofNat 32 (0 <<< 8 ||| x.toNat) = x.setWidth 32 := by
    rw [Nat.zero_shiftLeft, Nat.zero_or, BitVec.ofNat_toNat]
  rw [exec_tdReadTree_nonempty h0, hfuel, readTree, hbyte, andThen_done, if_neg (by exact hx0), if_pos (by exact hx1),
    finish_raise, harg]

/-- A tree that ends before TREE_SIZE bytes. -/
theorem readTreeRaises_wholeTree {T : CodeTree} (hT : ReadsAs bs T) (hleaves : T.leafCount ≤ 256)
    (hin : s.inSeq = bs ++ rest) (hrem : s.inSeq.length ≤ s.inRem.toNat) (hsize : bs.length < s.treeSize.toNat) :
    ReadTreeRaises s .fmtTreeSizeMismatch bs.length bs.length (T.entries 0) rest := by
  rw [ReadTreeRaises, exec_tdReadTree_whole hT hleaves hin hrem (by bv_omega) hsize.le, endTree,
    if_pos (by exact hsize.ne), finish_raise]
  rfl

theorem readTreeRaises_badTag {x : Byte} (hp : PendingAfter bs fs ns) (hin : s.inSeq = bs ++ x :: rest)
    (hrem : s.inSeq.length ≤ s.inRem.toNat) (hsize : bs.length < s.treeSize.toNat) (hx0 : x ≠ 0x30#8)
    (hx1 : x ≠ 0x31#8) :
    ReadTreeRaises s .fmtBadTag (bs.length * 256 + x.toNat) (bs.length + 1) ns rest := by
  obtain ⟨fuel, ds, hexec, hfuel, -⟩ := exec_tdReadTree_pending hp hin hrem (by bv_omega) hsize.le
  obtain ⟨fuel, rfl⟩ := Nat.exists_eq_add_one.2 (show 0 < fuel by omega)
  rw [readTree_badTag (s := readingState s _ ns _ ds) hsize rfl (readingState_inRem_ge hin hrem) hx0 hx1] at hexec
  exact readTreeRaises_of_consumed hexec

/-- A 256th pending internal node. -/
theorem readTreeRaises_stackFull (hp : PendingAfter bs fs ns) (hin : s.inSeq = bs ++ 0x30#8 :: rest)
    (hrem : s.inSeq.length ≤ s.inRem.toNat) (hsize : bs.length < s.treeSize.toNat) (hd : fs.length = 255) :
    ReadTreeRaises s .fmtTreeTooLarge (bs.length + 1) (bs.length + 1) ns rest := by
  obtain ⟨fuel, ds, hexec, hfuel, hds⟩ := exec_tdReadTree_pending hp hin hrem (by bv_omega) hsize.le
  obtain ⟨fuel, rfl⟩ := Nat.exists_eq_add_one.2 (show 0 < fuel by omega)
  have hdepth : ds.length = 255 := by rw [← hd, ← hds, List.length_map]
  rw [readTree_stackFull (s := readingState s _ ns _ ds) hsize rfl (readingState_inRem_ge hin hrem) hdepth] at hexec
  exact readTreeRaises_of_consumed hexec

/-- A 512th node. -/
theorem readTreeRaises_arenaFull {lf : List Byte} {v : Byte} {all : List Node} (hp : PendingAfter bs fs ns)
    (hlf : ReadsAs lf (.leaf v)) (hin : s.inSeq = bs ++ (lf ++ rest)) (hrem : s.inSeq.length ≤ s.inRem.toNat)
    (h0 : s.treeSize ≠ 0#13) (hsize : bs.length + lf.length ≤ s.treeSize.toNat)
    (hall : all = ns ++ (CodeTree.leaf v).entries ns.length ++ completedBy ns.length fs) (hfull : 511 < all.length) :
    ReadTreeRaises s .fmtTreeTooLarge 511 (bs.length + lf.length) (all.take 511) rest := by
  obtain ⟨fuel, ds, hexec, hfuel, hds⟩ := exec_tdReadTree_pending hp hin hrem h0 (by omega)
  rw [readTree_arenaFull (s := readingState s _ ns _ ds) hlf hfuel hsize rfl (readingState_inRem_ge hin hrem)
    hp.nodes_le hds hall hfull] at hexec
  exact readTreeRaises_of_consumed hexec

/-- Where Next() raises for a tag, a leaf's value or an escaped value. -/
theorem readTreeRaises_of_treeByte {part : List Byte} {e : ErrKind} (hp : PendingAfter bs fs ns)
    (hpart : part ∈ [[], [0x31#8], [0x31#8, 0x5C#8]]) (hin : s.inSeq = bs ++ (part ++ rest))
    (hrem : s.inSeq.length ≤ s.inRem.toNat) (h0 : s.treeSize ≠ 0#13)
    (hsize : bs.length + part.length < s.treeSize.toNat
      ∨ bs.length + part.length = s.treeSize.toNat ∧ e = .fmtTreeSizeMismatch)
    (hbyte : ∀ ds, treeByte (bs.length + part.length) (readingState s (bs.length + part.length) ns rest ds)
      = .raise e (BitVec.ofNat 32 (bs.length + part.length)) (readingState s (bs.length + part.length) ns rest ds)) :
    ReadTreeRaises s e (bs.length + part.length) (bs.length + part.length) ns rest := by
  obtain ⟨fuel, ds, hexec, hfuel, -⟩ := exec_tdReadTree_pending hp hin hrem h0 (by omega)
  have hstop := readTree_stops (s := readingState s bs.length ns (part ++ rest) ds) (rest := rest) hpart hfuel rfl
    (readingState_inRem_ge hin hrem) (show _ ≤ s.treeSize.toNat by omega)
    (by simpa only [readingState, sub_ofNat_assoc] using hbyte ds) fun hnil => ?_
  · rw [hstop] at hexec
    exact readTreeRaises_of_consumed hexec
  · rw [hnil] at hsize ⊢
    exact hsize.imp id fun h => ⟨h.2, rfl⟩

theorem readTreeRaises_sizeReached {part : List Byte} (hp : PendingAfter bs fs ns)
    (hpart : part ∈ [[], [0x31#8], [0x31#8, 0x5C#8]]) (hin : s.inSeq = bs ++ (part ++ rest))
    (hrem : s.inSeq.length ≤ s.inRem.toNat) (h0 : s.treeSize ≠ 0#13)
    (hsize : bs.length + part.length = s.treeSize.toNat) :
    ReadTreeRaises s .fmtTreeSizeMismatch (bs.length + part.length) (bs.length + part.length) ns rest :=
  readTreeRaises_of_treeByte hp hpart hin hrem h0 (.inr ⟨hsize, rfl⟩) fun _ => treeByte_size hsize

theorem readTreeRaises_streamEnded {part : List Byte} (hp : PendingAfter bs fs ns)
    (hpart : part ∈ [[], [0x31#8], [0x31#8, 0x5C#8]]) (hin : s.inSeq = bs ++ (part ++ rest))
    (hrem : s.inSeq.length ≤ s.inRem.toNat) (hsize : bs.length + part.length < s.treeSize.toNat)
    (hend : s.inRem.toNat = bs.length + part.length) :
    ReadTreeRaises s .fmtTreeEos (bs.length + part.length) (bs.length + part.length) ns [] := by
  have hlen := congrArg List.length hin
  rw [List.length_append, List.length_append] at hlen
  have hrest : rest = [] := List.eq_nil_of_length_eq_zero (by omega)
  have hrem0 : s.inRem - BitVec.ofNat 32 (bs.length + part.length) = 0#32 := by
    rw [← hend, BitVec.ofNat_toNat, BitVec.setWidth_eq, BitVec.sub_self]
  subst hrest
  exact readTreeRaises_of_treeByte hp hpart hin hrem (by bv_omega) (.inl hsize) fun _ => treeByte_eos hsize hrem0

end

/-! ### The bytes of a tree, and the error codes -/

/-- A tree's bytes are at least one: its first tag. -/
theorem ReadsAs.length_pos {bytes : List Byte} {T : CodeTree} (h : ReadsAs bytes T) : 0 < bytes.length := by
  cases h <;> simp

/-- The serialized form of a tree reads as that tree (44_tree_serializer R119). -/
theorem readsAs_bytes (T : CodeTree) : ReadsAs T.bytes T := by
  induction T with
  | leaf sym => exact readsAs_leaf sym
  | node l r ihl ihr => exact .node _ _ l r ihl ihr

/-- The codes of TD_READ_TREE's four errors (60_exceptions R134). -/
theorem readTree_errCode_mem {e : ErrKind}
    (he : e ∈ [ErrKind.fmtBadTag, .fmtTreeSizeMismatch, .fmtTreeEos, .fmtTreeTooLarge]) :
    e.errCode ∈ [0x51#8, 0x52#8, 0x53#8, 0x54#8] := List.mem_map_of_mem (f := ErrKind.errCode) he

/-! ### The statements about the deserializer -/

/-- Settles O40: each header byte comes from the stream or raises with the number of bytes read. -/
theorem tdReadHeaderReadsTwoBytes : Obligations.TdReadHeaderReadsTwoBytes :=
  ⟨rfl, fun s b0 b1 _ h hr => (exec_tdReadHeader_two h hr).trans (by rw [takeHeader_eq_shifts]),
    fun _ => exec_tdReadHeader_none, fun _ _ => exec_tdReadHeader_one⟩

/-- Settles O41: the nodes are allocated in post-order, so the last one is the root. -/
theorem tdReadTreeRebuildsTheTree : Obligations.TdReadTreeRebuildsTheTree := by
  refine ⟨fun s T bytes rest hT hleaves hin hrem hsize => ?_, readsAs_bytes⟩
  have hpos := hT.length_pos
  have hexec := exec_tdReadTree_whole hT hleaves hin hrem (by bv_omega) hsize.ge
  rw [endTree, if_neg (by exact fun h => h hsize.symm), finish_done] at hexec
  exact ⟨_, hexec, rfl, T.entries_holds_zero hleaves, T.entries_freq 0, T.entries_length 0, rfl, rfl⟩

/-- Settles O42: each clause is an end of the reading, from the start or from inside a tree. -/
theorem tdReadTreeEndCases : Obligations.TdReadTreeEndCases := by
  refine ⟨fun s => exec_tdReadTree_empty, fun s => exec_tdReadTree_noBytes,
    fun s x rest => exec_tdReadTree_firstByteBad, fun s T bytes rest hT hleaves hin hrem hsize => ?_,
    fun s bs part rest fs ns k hp hpart hk hin hrem h0 => ?_, fun s bs rest x fs ns hp hin hrem hsize => ?_,
    fun s bs lf rest v fs ns all hp hlf hin hrem hsize hall hfull => ?_⟩
  · exact ⟨readTreeRaises_wholeTree hT hleaves hin hrem hsize, T.entries_length 0, T.entries_holds_zero hleaves⟩
  · subst hk
    rw [List.append_assoc] at hin
    exact ⟨readTreeRaises_sizeReached hp hpart hin hrem h0, readTreeRaises_streamEnded hp hpart hin hrem⟩
  · refine ⟨readTreeRaises_badTag hp hin hrem hsize, fun hx => ?_⟩
    exact readTreeRaises_stackFull hp (hx ▸ hin) hrem hsize
  · have hpos := hlf.length_pos
    rw [List.append_assoc] at hin
    exact readTreeRaises_arenaFull hp hlf hin hrem (by bv_omega) hsize hall hfull

/-- Settles O43: ERR rises only where the reading raises, and a raise keeps nothing of the tree. -/
theorem tdReadTreeErrorLeavesNoTree : Obligations.TdReadTreeErrorLeavesNoTree := by
  intro s t herr hexec ht
  rw [exec_eq_finish] at hexec
  rcases finish_sat (runTdReadTree_sat s) hexec with ⟨u, ⟨hu, -⟩, rfl⟩ | ⟨e, arg, u, ⟨he, hu, hc, -⟩, rfl⟩ | ⟨u, -, rfl⟩
  · rw [hu] at ht
    exact absurd (herr.symm.trans ht) (by decide)
  · refine ⟨?_, ?_, ?_, rfl, ?_, readTree_errCode_mem he, hc.suffix⟩
    all_goals
      rw [hu]
      rfl
  · exact absurd (herr.symm.trans ht) (by decide)

end Sys2Proof.Machine
end

section
/-! SUPPORT. The packer's commands: the outcome of each in the branches of its pseudocode, and the statements about them
(46_bit_packer R122 to R128, 47_bit_unpacker R130). -/

namespace Sys2Proof.Machine

@[simp] theorem sentBits_completeCommand (s : State) : sentBits (completeCommand s) = sentBits s := rfl

/-- With no bit held, the bits sent are those of the bytes emitted. -/
theorem sentBits_emptied (s : State) : sentBits { s with acc := 0#8, cnt := 0#3 } = bitsOf s.outSeq :=
  List.append_nil _

section
variable {s t : State}

/-! ### BP_ADD_BIT (46_bit_packer R122, R125) -/

theorem exec_bpAddBit_done {x : BitVec 1} (h : addBit x s = .done () t) :
    exec (.bpAddBit x) s = .next (completeCommand t) := by
  rw [exec_eq_finish, runOf, runBpAddBit, h, finish_done]

theorem addBit_held (x : BitVec 1) (hc : s.cnt ≠ 7#3) :
    addBit x s = .done () { s with acc := shiftIn s.acc x, cnt := s.cnt + 1#3 } := if_neg hc

theorem addBit_eighth (x : BitVec 1) (hc : s.cnt = 7#3) (ho : s.outRoom = none) :
    addBit x s = .done () { putByte (shiftIn s.acc x) s with acc := 0#8, cnt := 0#3 } := by
  rw [addBit, if_pos hc, emit_open _ ho, andThen_done]

/-! ### BP_FLUSH (46_bit_packer R126) -/

theorem exec_bpFlush_empty (hc : s.cnt = 0#3) :
    exec .bpFlush s = .next (completeCommand { s with acc := 0#8, cnt := 0#3 }) := by
  rw [exec_eq_finish, runOf, runBpFlush, if_pos hc, andThen_done, finish_done]

theorem exec_bpFlush_held (hc : s.cnt ≠ 0#3) (ho : s.outRoom = none) :
    exec .bpFlush s = .next (completeCommand
      { putByte (s.acc <<< (8 - s.cnt.toNat)) s with acc := 0#8, cnt := 0#3 }) := by
  rw [exec_eq_finish, runOf, runBpFlush, if_neg hc, emit_open _ ho, andThen_done, finish_done]

theorem heldBits_none (hc : s.cnt = 0#3) : heldBits s = [] := by
  rw [heldBits, hc]
  rfl

/-- A shift to the left by `k` puts `k` zero bits behind the lowest `n`. -/
theorem lowBits_shiftLeft (acc : Byte) {k n : Nat} (h : k + n ≤ 8) :
    ((List.range (k + n)).reverse.map fun i => (acc <<< k).getLsbD i)
      = ((List.range n).reverse.map fun i => acc.getLsbD i) ++ List.replicate k false := by
  have hlow : (List.range k).map (fun i => (acc <<< k).getLsbD i) = List.replicate k false := by
    refine List.eq_replicate_iff.2 ⟨by simp, List.forall_mem_map.2 fun i hi => ?_⟩
    simp [List.mem_range.1 hi]
  have hhigh : ((List.range n).map (k + ·)).map (fun i => (acc <<< k).getLsbD i)
      = (List.range n).map fun i => acc.getLsbD i := by
    rw [List.map_map]
    refine List.map_congr_left fun i hi => ?_
    have : k + i < 8 := by have := List.mem_range.1 hi; omega
    simp [this]
  rw [List.map_reverse, List.range_add, List.map_append, hlow, hhigh, List.reverse_append, List.reverse_replicate,
    List.map_reverse]

/-- The byte that BP_FLUSH emits: the held bits, then zeros. -/
theorem byteBits_flushed (s : State) : byteBits (s.acc <<< (8 - s.cnt.toNat))
    = heldBits s ++ List.replicate (8 - s.cnt.toNat) false := by
  have h8 : 8 - s.cnt.toNat + s.cnt.toNat = 8 := by have := s.cnt.isLt; omega
  have hbits := lowBits_shiftLeft s.acc h8.le
  rwa [h8] at hbits

/-! ### BP_ENCODE_BYTE (46_bit_packer R127) -/

theorem exec_bpEncodeByte_noCode {b : Byte} (h : lenAt s b = 0#6) :
    exec (.bpEncodeByte b) s = .next (takeError .noCode (b.setWidth 32) s) := by
  rw [exec_eq_finish, runOf, runBpEncodeByte, encodeSym_noCode h, finish_raise]

theorem exec_bpEncodeByte_done {b : Byte} (h : encodeSym b s = .done () t) :
    exec (.bpEncodeByte b) s = .next (completeCommand t) := by
  rw [exec_eq_finish, runOf, runBpEncodeByte, h, finish_done]

/-! ### BP_ENCODE_STREAM (46_bit_packer R128) -/

/-- BP_ENCODE_STREAM up to the end of a front of the stream whose bytes all have a code. -/
theorem runBpEncodeStream_front {pre rest : List Byte} {fuel : Nat} (hin : s.inSeq = pre ++ rest)
    (hrem : s.inRem.toNat = pre.length + fuel) (ho : s.outRoom = none) (hc : ∀ p ∈ pre, lenAt s p ≠ 0#6) :
    ∃ t, Sent { s with inSeq := rest, inRem := s.inRem - BitVec.ofNat 32 pre.length } (pre.flatMap (codeBits s)) t
      ∧ runBpEncodeStream s = (encodeStream fuel pre.length t).andThen fun k u =>
        .done () (setResult (BitVec.ofNat 32 k) u) := by
  obtain ⟨t, he, -, -, ht⟩ := encodeStream_codes pre rest fuel 0 s hin ho hc
  exact ⟨t, ht, by rw [runBpEncodeStream, hrem, he, Nat.zero_add]⟩

theorem encodeStream_noCode {b : Byte} {rest : List Byte} (fuel k : Nat) (hin : s.inSeq = b :: rest)
    (hl : lenAt s b = 0#6) : encodeStream (fuel + 1) k s
      = .raise .noCode (b.setWidth 32) { s with inSeq := rest, inRem := s.inRem - 1#32 } := by
  have hnone : lenAt { s with inSeq := rest, inRem := s.inRem - 1#32 } b = 0#6 := hl
  rw [encodeStream, inRead_cons hin, andThen_done, encodeSym_noCode hnone, andThen_raise]

theorem Sent.lenAt_eq {bits : List Bool} (h : Sent s bits t) (b : Byte) : lenAt t b = lenAt s b := by
  rw [h.frame]
  rfl

end

/-! ### The statements about the packer -/

/-- Settles O44: BP_RESET and BU_RESET end with their one write. -/
theorem resetCommands : Obligations.ResetCommands :=
  ⟨rfl, rfl, fun s => ⟨finish_done s _ (), finish_done s _ ()⟩⟩

/-- Settles O45: AddBit sends its bit, and its two branches give the state. -/
theorem bpAddBitAppendsTheBit : Obligations.BpAddBitAppendsTheBit := by
  intro s x ho
  obtain ⟨t, he, ht⟩ := addBit_open x s ho
  refine ⟨BitVec.append_def _ _, _, exec_bpAddBit_done he, ht.sent, fun hc => ?_, fun hc => ?_⟩
  · rw [addBit_held x hc] at he
    cases he
    rfl
  · rw [addBit_eighth x hc ho] at he
    cases he
    rfl

/-- Settles O46: with no bit held nothing is sent; otherwise the byte is the held bits and the padding. -/
theorem bpFlushPadsToAByte : Obligations.BpFlushPadsToAByte := by
  refine ⟨rfl, fun s ho => ?_⟩
  by_cases hc : s.cnt = 0#3
  · refine ⟨_, exec_bpFlush_empty hc, ?_, fun _ => rfl, (absurd hc ·)⟩
    rw [sentBits_completeCommand, sentBits_emptied, sentBits, heldBits_none hc, List.append_nil, hc]
    exact (List.append_nil _).symm
  · refine ⟨_, exec_bpFlush_held hc ho, ?_, (absurd · hc), fun _ => rfl⟩
    have hpad : (8 - s.cnt.toNat) % 8 = 8 - s.cnt.toNat := by bv_omega
    rw [sentBits_completeCommand, sentBits_emptied, putByte_outSeq, bitsOf_append, bitsOf_singleton, byteBits_flushed,
      hpad, sentBits, List.append_assoc]

/-- Settles O47: Encode(b) raises before any bit, or sends the code. -/
theorem bpEncodeByteAppendsTheCode : Obligations.BpEncodeByteAppendsTheCode := by
  refine fun s b => ⟨exec_bpEncodeByte_noCode, fun hl ho => ?_⟩
  obtain ⟨t, he, ht⟩ := encodeSym_open b s hl ho
  exact ⟨_, exec_bpEncodeByte_done he, ht.sent, ht.count, congrArg completeCommand ht.frame⟩

/-- Settles O48: the front of the stream whose bytes all have a code is the whole stream. -/
theorem bpEncodeStreamAppendsTheCodes : Obligations.BpEncodeStreamAppendsTheCodes := by
  intro s ⟨hlen, ho⟩ hc
  obtain ⟨t, ht, hrun⟩ := runBpEncodeStream_front (fuel := 0) s.inSeq.append_nil.symm hlen.symm ho hc
  have hrem : BitVec.ofNat 32 s.inSeq.length = s.inRem := by rw [hlen, BitVec.ofNat_toNat, BitVec.setWidth_eq]
  have hexec : exec .bpEncodeStream s = .next (completeCommand { t with result := s.inRem }) := by
    rw [exec_eq_finish, runOf, hrun, encodeStream, andThen_done, finish_done, hrem, setResult]
  refine ⟨_, hexec, ht.sent, ht.count, ?_⟩
  rw [hrem, BitVec.sub_self] at ht
  exact congrArg (fun u => completeCommand { u with result := s.inRem }) ht.frame

/-- Settles O49: after the front whose bytes all have a code, the next byte is read and raises. -/
theorem bpEncodeStreamStopsAtNoCode : Obligations.BpEncodeStreamStopsAtNoCode := by
  intro s pre post b hin hlen ho hc hl
  have hpre : pre.length < s.inRem.toNat := by
    rw [hin, List.length_append, List.length_cons] at hlen
    omega
  obtain ⟨fuel, hfuel⟩ := Nat.exists_eq_add_of_lt hpre
  obtain ⟨t, ht, hrun⟩ := runBpEncodeStream_front (fuel := fuel + 1) hin hfuel ho hc
  have hfront : t.inSeq = b :: post := by rw [ht.frame]
  have hexec : exec .bpEncodeStream s = .next (takeError .noCode (b.setWidth 32)
      { t with inSeq := post, inRem := t.inRem - 1#32 }) := by
    rw [exec_eq_finish, runOf, hrun, encodeStream_noCode _ _ hfront ((ht.lenAt_eq b).trans hl), andThen_raise,
      finish_raise]
  have hrem : t.inRem - 1#32 = s.inRem - BitVec.ofNat 32 (pre.length + 1) := by
    rw [show t.inRem = s.inRem - BitVec.ofNat 32 pre.length by rw [ht.frame], BitVec.ofNat_add, sub_sub]
  rw [hrem] at hexec
  exact ⟨_, hexec, ht.sent, ht.count, congrArg (fun u => takeError .noCode (b.setWidth 32)
    { u with inSeq := post, inRem := s.inRem - BitVec.ofNat 32 (pre.length + 1) }) ht.frame⟩

end Sys2Proof.Machine
end

section
/-! SUPPORT. The unpacker's commands: the outcome of each in the branches of its pseudocode, and the statements about them
(47_bit_unpacker R129 to R132, 60_exceptions R137). -/

namespace Sys2Proof.Machine

section
variable {s t : State}

/-! ### BU_BIT (47_bit_unpacker R129, R131) -/

theorem exec_buBit_done {x : BitVec 1} {r : Word} (h : decodeBit x 0#32 s = .done r t) :
    exec (.buBit x) s = .next (completeCommand { t with result := r }) := by
  rw [exec_eq_finish, runOf, runBuBit, h, andThen_done, finish_done, setResult]

theorem exec_buBit_raise {x : BitVec 1} {e : ErrKind} {arg : Word} (h : decodeBit x 0#32 s = .raise e arg t) :
    exec (.buBit x) s = .next (takeError e arg t) := by
  rw [exec_eq_finish, runOf, runBuBit, h, andThen_raise, finish_raise]

theorem decodeBit_noTree (x : BitVec 1) (pos : Word) (h0 : s.root = Config.nil) :
    decodeBit x pos s = .raise .fmtNoTree 0#32 s := if_pos h0

/-- Bit 1 is no code of a single leaf. -/
theorem decodeBit_badCode {r : Node} (pos : Word) (h0 : s.root ≠ Config.nil) (hr : s.nodes[s.root.toNat]? = some r)
    (hl : r.leaf = true) : decodeBit 1#1 pos s = .raise .fmtBadCode pos s := by
  rw [decodeBit_single h0 hr hl, if_neg (by decide)]

/-- A bit on a single leaf: 0 is the leaf's code, and 1 is no code. -/
theorem exec_buBit_single {r : Node} (h0 : s.root ≠ Config.nil) (hr : s.nodes[s.root.toNat]? = some r)
    (hl : r.leaf = true) :
    exec (.buBit 1#1) s = .next (takeError .fmtBadCode 0#32 s)
    ∧ (s.outRoom = none → exec (.buBit 0#1) s
      = .next (completeCommand { putByte r.sym s with result := 0x100#32 ||| r.sym.setWidth 32 })) := by
  refine ⟨exec_buBit_raise (decodeBit_badCode _ h0 hr hl), fun ho => exec_buBit_done ?_⟩
  rw [decodeBit_single h0 hr hl, if_pos rfl, emitSym_open _ _ ho]

/-- A bit on an internal root: the descent goes on at an internal child, and a leaf is emitted. -/
theorem exec_buBit_internal {x : BitVec 1} {r c n : Node} (h0 : s.root ≠ Config.nil)
    (hr : s.nodes[s.root.toNat]? = some r) (hl : r.leaf = false) (hc : s.nodes[s.buCur.toNat]? = some c)
    (hn : s.nodes[(childOf x c).toNat]? = some n) :
    (n.leaf = false → exec (.buBit x) s = .next (completeCommand { s with buCur := childOf x c, result := 0#32 }))
    ∧ (n.leaf = true → s.outRoom = none → exec (.buBit x) s = .next (completeCommand
        { putByte n.sym s with buCur := s.root, result := 0x100#32 ||| n.sym.setWidth 32 })) := by
  have hbit := decodeBit_internal h0 hr hl hc x rfl hn 0#32
  refine ⟨fun hnl => ?_, fun hnl ho => ?_⟩
  · rw [if_neg (Bool.eq_false_iff.1 hnl)] at hbit
    exact exec_buBit_done hbit
  · rw [if_pos hnl, emitSym_open _ _ ho, andThen_done] at hbit
    exact exec_buBit_done hbit

/-! ### BU_DECODE_STREAM before its loop (47_bit_unpacker R132, 60_exceptions R137) -/

theorem exec_buDecodeStream_padNoPayload (h : s.inRem = 0#32) (hp : s.pad ≠ 0#3) :
    exec .buDecodeStream s = .next (takeError .fmtPadNoPayload (s.pad.setWidth 32) s) := by
  rw [exec_eq_finish, runOf, runBuDecodeStream, if_pos ⟨h, hp⟩, finish_raise]

theorem exec_buDecodeStream_emptyContainer (h : s.inRem = 0#32) (hp : s.pad = 0#3) (h0 : s.root = Config.nil) :
    exec .buDecodeStream s = .next (completeCommand { s with result := 0#32 }) := by
  rw [exec_eq_finish, runOf, runBuDecodeStream, if_neg fun hpad => hpad.2 hp, if_pos h0, if_pos h, finish_done, setResult]

theorem exec_buDecodeStream_noTree (h : s.inRem ≠ 0#32) (h0 : s.root = Config.nil) :
    exec .buDecodeStream s = .next (takeError .fmtNoTree 0#32 s) := by
  rw [exec_eq_finish, runOf, runBuDecodeStream, if_neg fun hpad => h hpad.1, if_pos h0, if_neg h, finish_raise]

/-! ### BU_DECODE_STREAM's loop and its end (47_bit_unpacker R132) -/

/-- With a tree, and no padding without payload, the command is its loop from the root and the check at the end. -/
theorem runBuDecodeStream_tree (hpad : s.inRem = 0#32 → s.pad = 0#3) (h0 : s.root ≠ Config.nil) :
    runBuDecodeStream s = (decodeBytes s.inRem.toNat 0 0 { s with buCur := s.root }).andThen fun e u =>
      endPayload s.inRem.toNat e u := by
  rw [runBuDecodeStream, if_neg fun h => h.2 (hpad h.1), if_neg h0]

theorem exec_buDecodeStream_noPayload (h : s.inRem = 0#32) (hp : s.pad = 0#3) (h0 : s.root ≠ Config.nil) :
    exec .buDecodeStream s
      = .next (takeError .fmtPayloadTruncated (s.root.setWidth 32) { s with buCur := s.root }) := by
  have hrem : s.inRem.toNat = 0 := by rw [h]; rfl
  rw [exec_eq_finish, runOf, runBuDecodeStream_tree (fun _ => hp) h0, hrem, decodeBytes, andThen_done, endPayload,
    if_pos (.inl rfl), finish_raise]

/-- A raise in the loop is the command's. -/
theorem exec_buDecodeStream_raise {e : ErrKind} {arg : Word} (h : s.inRem ≠ 0#32) (h0 : s.root ≠ Config.nil)
    (hd : decodeBytes s.inRem.toNat 0 0 { s with buCur := s.root } = .raise e arg t) :
    exec .buDecodeStream s = .next (takeError e arg t) := by
  rw [exec_eq_finish, runOf, runBuDecodeStream_tree (absurd · h) h0, hd, andThen_raise, finish_raise]

/-- A payload that ends between codes. -/
theorem exec_buDecodeStream_whole {e : Nat} (h : s.inRem ≠ 0#32) (h0 : s.root ≠ Config.nil)
    (hd : decodeBytes s.inRem.toNat 0 0 { s with buCur := s.root } = .done e t) (hcur : t.buCur = t.root) :
    exec .buDecodeStream s = .next (completeCommand { t with result := countResult e }) := by
  have hend : ¬(s.inRem.toNat = 0 ∨ t.buCur ≠ t.root) :=
    not_or.2 ⟨fun hz => h (BitVec.eq_of_toNat_eq hz), not_not.2 hcur⟩
  rw [exec_eq_finish, runOf, runBuDecodeStream_tree (absurd · h) h0, hd, andThen_done, endPayload, if_neg hend,
    finish_done, setResult]

/-- A payload that ends inside a code. -/
theorem exec_buDecodeStream_cutOff {e : Nat} (h : s.inRem ≠ 0#32) (h0 : s.root ≠ Config.nil)
    (hd : decodeBytes s.inRem.toNat 0 0 { s with buCur := s.root } = .done e t) (hcur : t.buCur ≠ t.root) :
    exec .buDecodeStream s = .next (takeError .fmtPayloadTruncated (t.buCur.setWidth 32) t) := by
  rw [exec_eq_finish, runOf, runBuDecodeStream_tree (absurd · h) h0, hd, andThen_done, endPayload, if_pos (.inr hcur),
    finish_raise]

theorem countResult_of_lt {e : Nat} (h : e < 2 ^ 32) : countResult e = BitVec.ofNat 32 e := if_pos h

/-- Where the host keeps its duties the payload is the supplied bytes: there is one, and IN_REM counts them. -/
theorem HostKeepsDuties.payload (hd : HostKeepsDuties s) (h : s.inRem ≠ 0#32) :
    s.inSeq ≠ [] ∧ s.inRem - BitVec.ofNat 32 s.inSeq.length = 0#32 := by
  refine ⟨fun hnil => h (BitVec.eq_of_toNat_eq ?_), ?_⟩
  · rw [← hd.1, hnil]
    rfl
  · rw [hd.1, BitVec.ofNat_toNat, BitVec.setWidth_eq, BitVec.sub_self]

/-! ### BU_DECODE_STREAM on a single leaf (47_bit_unpacker R129) -/

/-- At least one bit of every payload byte is decoded, its highest first. -/
theorem bitsToDecode_eq_succ (last : Bool) (pad : BitVec 3) : ∃ n, bitsToDecode last pad = n + 1 := by
  refine Nat.exists_eq_succ_of_ne_zero ?_
  unfold bitsToDecode
  split <;> omega

/-- A payload whose first bit is 1 raises FMT_BAD_CODE at once, whatever the host accepts. -/
theorem decodeBytes_badFirstBit {r : Node} {y : Byte} {rest : List Byte} (left e : Nat) (h0 : s.root ≠ Config.nil)
    (hr : s.nodes[s.root.toNat]? = some r) (hl : r.leaf = true) (hin : s.inSeq = y :: rest)
    (hy : y.getLsbD 7 = true) :
    decodeBytes (left + 1) 0 e s = .raise .fmtBadCode 0#32 { s with inSeq := rest, inRem := s.inRem - 1#32 } := by
  obtain ⟨n, hn⟩ := bitsToDecode_eq_succ (left == 0) s.pad
  have hbit : decodeBit (BitVec.ofBool true) (bitPos 0 0) { s with inSeq := rest, inRem := s.inRem - 1#32 }
      = .raise .fmtBadCode 0#32 { s with inSeq := rest, inRem := s.inRem - 1#32 } := decodeBit_badCode _ h0 hr hl
  rw [decodeBytes, inRead_cons hin, andThen_done, hn, decodeBits, extract_ofBool, hy, hbit, andThen_raise, andThen_raise]

theorem exec_buDecodeStream_badFirstBit {r : Node} {y : Byte} {rest : List Byte} (h : s.inRem ≠ 0#32)
    (h0 : s.root ≠ Config.nil) (hr : s.nodes[s.root.toNat]? = some r) (hl : r.leaf = true) (hin : s.inSeq = y :: rest)
    (hy : y.getLsbD 7 = true) :
    exec .buDecodeStream s = .next (takeError .fmtBadCode 0#32
      { s with buCur := s.root, inSeq := rest, inRem := s.inRem - 1#32 }) := by
  obtain ⟨left, hleft⟩ := Nat.exists_eq_succ_of_ne_zero fun hz => h (BitVec.eq_of_toNat_eq hz)
  exact exec_buDecodeStream_raise h h0 (hleft ▸ decodeBytes_badFirstBit left 0 h0 hr hl hin hy)

theorem exec_buDecodeStream_badCode {r : Node} {p : Nat} {after : List Bool} (h0 : s.root ≠ Config.nil)
    (hr : s.nodes[s.root.toNat]? = some r) (hl : r.leaf = true) (ho : s.outRoom = none)
    (hlen : s.inSeq.length ≤ s.inRem.toNat) (hp : p + s.pad.toNat < 8 * s.inRem.toNat)
    (hb : bitsOf s.inSeq = List.replicate p false ++ true :: after) :
    exec .buDecodeStream s = .next (takeError .fmtBadCode (BitVec.ofNat 32 p) { s with
      outSeq := s.outSeq ++ List.replicate p r.sym, outCount := s.outCount + BitVec.ofNat 32 p
      buCur := s.root, inSeq := s.inSeq.drop (p / 8 + 1), inRem := s.inRem - BitVec.ofNat 32 (p / 8 + 1) }) := by
  have hrem : s.inRem ≠ 0#32 := by
    intro h
    rw [h] at hp
    exact Nat.not_lt_zero _ hp
  obtain ⟨t, hd, rfl⟩ := decodeBytes_badCode p s.inSeq s.inRem.toNat 0 0 { s with buCur := s.root } after h0 hr hl ho rfl
    hlen hp hb
  rw [Nat.mul_zero, Nat.zero_add] at hd
  exact exec_buDecodeStream_raise hrem h0 hd

/-! ### BU_DECODE_STREAM on the codes of leaves -/

theorem exec_buDecodeStream_truncated {T : CodeTree} {msg : List (Byte × List Bool)} {c : Byte × List Bool}
    {part : List Bool} (h0 : s.root ≠ Config.nil) (hT : HoldsTree s.nodes s.root T) (hd : HostKeepsDuties s)
    (h : s.inRem ≠ 0#32) (hm : ∀ d ∈ msg, d ∈ T.codes) (hc : c ∈ T.codes) (hp : part <+: c.2) (hp0 : part ≠ [])
    (hp1 : part ≠ c.2)
    (hb : (bitsOf s.inSeq).take (8 * s.inSeq.length - s.pad.toNat) = msg.flatMap Prod.snd ++ part) :
    exec .buDecodeStream s
      = .next (takeError .fmtPayloadTruncated ((nodeAlong s.nodes s.root part).setWidth 32) { s with
          outSeq := s.outSeq ++ msg.map Prod.fst, outCount := s.outCount + BitVec.ofNat 32 msg.length
          buCur := nodeAlong s.nodes s.root part, inSeq := [], inRem := 0#32 }) := by
  obtain ⟨hne, hrem⟩ := hd.payload h
  obtain ⟨t, hrun, rfl⟩ := decodeBytes_truncated (s := { s with buCur := s.root }) 0 0 h0 hT hd.2 rfl hne rfl hm hc hp hp0
    hp1 hb
  rw [hd.1] at hrun
  rw [exec_buDecodeStream_cutOff h h0 hrun (hT.along_ne_root hc hp hp0 hp1), ← hd.1, hrem]

end

/-! ### The statements about the unpacker -/

/-- Settles O50: DecodeBit's branches, each ended with its RESULT or its raise. -/
theorem buBitDescends : Obligations.BuBitDescends := by
  refine ⟨fun s x h0 => exec_buBit_raise (decodeBit_noTree x _ h0), fun s r h0 hr hl => exec_buBit_single h0 hr hl, ?_⟩
  rintro s x r c n _ h0 hr hl hc rfl hn
  exact exec_buBit_internal h0 hr hl hc hn

/-- Settles O51: the loop follows the codes from the root and ends there. -/
theorem buDecodeStreamInvertsTheCode : Obligations.BuDecodeStreamInvertsTheCode := by
  intro s T msg h0 hT hd h hm hb
  obtain ⟨hne, hrem⟩ := hd.payload h
  obtain ⟨t, hrun, rfl⟩ := decodeBytes_follows s.inSeq 0 0 { s with buCur := s.root } T msg h0 hT hd.2 rfl hne
    (.inl ⟨rfl, hb, hm⟩)
  rw [hd.1, Nat.zero_add] at hrun
  refine ⟨_, exec_buDecodeStream_whole h h0 hrun rfl, ?_, fun hlt => countResult_of_lt hlt⟩
  rw [← hd.1, hrem]
  rfl

/-- Settles O52: the branches before the loop, the first bad bit in it, and the check after it. -/
theorem buDecodeStreamEndCases : Obligations.BuDecodeStreamEndCases := fun _ =>
  ⟨exec_buDecodeStream_padNoPayload, exec_buDecodeStream_emptyContainer, exec_buDecodeStream_noTree,
    exec_buDecodeStream_noPayload, fun _ _ _ => exec_buDecodeStream_badFirstBit, fun _ _ _ => exec_buDecodeStream_badCode,
    fun _ _ _ _ => exec_buDecodeStream_truncated⟩

end Sys2Proof.Machine
end

section
/-! SUPPORT. Taking an error, resets, and register writes while a command runs (60_exceptions R135,
70_reset_and_hazards R149, R152). -/

namespace Sys2Proof.Machine

/-! ### Taking an error (60_exceptions R134, R135) -/

/-- Settles O7: what follows the raise is dropped, and the command ends with `takeError`; the codes are R134's. -/
theorem raiseWritesTheErrorRecord : Obligations.RaiseWritesTheErrorRecord := by
  refine ⟨fun s₀ s e arg k => ?_, rfl, rfl⟩
  rw [andThen_raise, finish_raise]
  rfl

/-! ### Resets (70_reset_and_hazards R149) -/

section
variable {s : State}

theorem abortCommand_idle (hb : s.busy = false) : abortCommand s = s := by
  rw [abortCommand, hb]
  rfl

/-- With BUSY = 1 the bytes already out stay, and a prefix of the next ones joins them (40_control R87, log 7). -/
theorem abortCommand_outSeq (hb : s.busy = true) :
    ∃ more, more <+: (runningOut s).drop s.waitOut.length
      ∧ (abortCommand s).outSeq = s.outSeq ++ s.waitOut ++ more := by
  rw [abortCommand, if_pos hb]
  exact ⟨_, List.take_prefix _ _, (List.append_assoc _ _ _).symm⟩

/-- An abort keeps the acts to come, the last value read and HC_BASE. -/
theorem abortCommand_kept (s : State) :
    (abortCommand s).inputs = s.inputs ∧ (abortCommand s).readData = s.readData
      ∧ (abortCommand s).hcPage = s.hcPage := by
  rw [abortCommand]
  split <;> exact ⟨rfl, rfl, rfl⟩

theorem doReset_eq (s : State) : doReset s = { State.reset with
    outSeq := (doReset s).outSeq, outRoom := (doReset s).outRoom, inputs := s.inputs, readData := s.readData
    hcPage := s.hcPage, draws := (doReset s).draws } := by
  obtain ⟨hin, hread, hpage⟩ := abortCommand_kept s
  rw [← hin, ← hread, ← hpage]
  rfl

theorem ctrlWrite_softReset {v : Word} (h : v.getLsbD 0 = true) : ctrlWrite v s = doReset s := if_pos h

/-- A hard reset and a write of SOFT_RESET to CTRL are the same act (70_reset_and_hazards R148, R149). -/
theorem step_reset {a : Input} {rest : List Input} (h : s.inputs = a :: rest)
    (ha : a = .hardReset ∨ ∃ v : Word, v.getLsbD 0 = true ∧ a = .write 4 (hcBase s + 0x008) v) :
    step s = .next (doReset { s with inputs := rest }) := by
  rcases ha with rfl | ⟨v, hv, rfl⟩
  · exact step_input h
  · have hstep : step s = .next (ctrlWrite v { s with inputs := rest }) := step_writeReg .ctrl h
    rw [hstep, ctrlWrite_softReset hv]

end

/-- Settles O9: either act is `doReset`, whose bytes are those of the aborted command. -/
theorem resetLeavesTheResetState : Obligations.ResetLeavesTheResetState := by
  intro s a rest h ha
  refine ⟨_, step_reset h ha, doReset_eq _, fun hb => ?_, fun hb => ?_⟩
  · rw [doReset, abortCommand_idle (s := { s with inputs := rest }) hb]
    exact ⟨rfl, rfl⟩
  · exact abortCommand_outSeq (s := { s with inputs := rest }) hb

/-! ### Register writes while BUSY = 1 (70_reset_and_hazards R152) -/

/-- A write of a RW register while BUSY = 1 is refused (U5). -/
theorem regWrite_busy_rw {r : Reg} (v : Word) {s : State} (hrw : r.access = .rw) (hb : s.busy = true) :
    regWrite r.offset v s = .refused (.busyRegisterWrite r.offset) := by
  have href : (s.busy && r.access == .rw) = true := by rw [hb, hrw]; rfl
  rw [regWrite, regAt_offset]
  split
  next h => cases h
  next h => cases h; cases hrw
  next h => cases h; cases hrw
  next h => cases h; exact if_pos href

theorem regWrite_reserved {off : Nat} (v : Word) (s : State) (h : ∀ r : Reg, r.offset ≠ off) :
    regWrite off v s = .next s := by
  rw [regWrite, regAt_reserved h]

/-- An offset with no register but a RO one ignores writes (10_state R20, R43). -/
theorem regWrite_ignored {off : Nat} (v : Word) (s : State) (h : ∀ r : Reg, r.offset = off → r.access = .ro) :
    regWrite off v s = .next s := by
  by_cases hreg : ∃ r : Reg, r.offset = off
  · obtain ⟨r, rfl⟩ := hreg
    obtain ⟨-, -, hro, -⟩ := registerMapAtReset
    exact hro r v s (h r rfl)
  · exact regWrite_reserved v s fun r hr => hreg ⟨r, hr⟩

/-- Settles O13: the write goes by the register at the offset, in R152's order. -/
theorem busyWrites : Obligations.BusyWrites := by
  intro s off v rest h hoff h4 hb
  have hstep : step s = regWrite off v { s with inputs := rest } :=
    (step_input h).trans (busWrite_aligned (s := { s with inputs := rest }) v hoff h4)
  have hcmd : cmdWrite v { s with inputs := rest } = setOverrun { s with inputs := rest } :=
    cmdWrite_discarded v (.inl hb)
  rw [hstep]
  refine ⟨?ctrl, ?cmd, ?rw, ?ro⟩
  case ctrl =>
    rintro rfl
    rfl
  case cmd =>
    rintro rfl
    exact congrArg _ hcmd
  case rw =>
    intro hmem
    have hrw : ∀ r ∈ [Reg.inLen, .freqIdx, .freqData, .codeIdx, .nodeIdx, .heapIdx], r.access = .rw := by decide
    obtain ⟨r, hr, rfl⟩ := List.mem_map.1 hmem
    exact regWrite_busy_rw v (hrw r hr) hb
  case ro => exact regWrite_ignored v _

end Sys2Proof.Machine
end
